-- ==== Sys2Proof/Word.lean ====
section
/-! DEFINITION. The word types of the part: bytes on the coupler lines, 16-bit words of exchange memory and of the
registers, 32-bit coach identities. -/

namespace Sys2Proof

/-- One byte on a coupler line or of exchange memory. -/
abbrev Byte := BitVec 8

/-- One 16-bit word of exchange memory or a register (R167, R195); also a sequence number, a generation, a round number. -/
abbrev Word := BitVec 16

/-- A coach identity: a 32-bit number, 0 for "none" or "all" (spec/00_scope.md, Conventions). -/
abbrev Ident := BitVec 32

end Sys2Proof
end

