-- ==== Sys2Proof/Syntax.lean ====
section
/-! DEFINITION. The commands of the part: one constructor for each row of spec/opcode_table.json, and the names their
operands take. -/

namespace Sys2Proof

/-- The two ends of a coach. -/
inductive EndId where
  | a
  | b
  deriving DecidableEq, Repr

/-- The other end. -/
def EndId.opp : EndId → EndId
  | .a => .b
  | .b => .a

/-- The two lines of an end. -/
inductive LineNo where
  | one
  | two
  deriving DecidableEq, Repr

/-- A line unit: A1, A2, B1 or B2. -/
structure LineId where
  side : EndId
  no : LineNo
  deriving DecidableEq, Repr

/-- The seven discrete inputs, in the order of the input table (chapter 9). -/
inductive Input where
  | cplA
  | cplB
  | zspd
  | dloop
  | supply
  | aux0
  | aux1
  deriving DecidableEq, Repr

/-- The read-only registers a host may try to write (R182). -/
inductive ReadOnlyReg where
  | ident
  | status
  | take
  deriving DecidableEq, Repr

/-- The two halves of the consist as seen from the lead (R66). -/
inductive Side where
  | f
  | r
  deriving DecidableEq, Repr

/-- The commands. A completion of an order carries no operand: it uses the order copied at its take (R176). -/
inductive Instr where
  /-- POWER_ON_RESET: the RESET pin is released (R184). -/
  | powerOnReset
  /-- SOFT_RESET: a host write of `v` to CONTROL with bit 1 set (R183, R185). -/
  | softReset (v : Word)
  /-- SET_ENABLE: a host write of `v` to CONTROL with bit 1 clear (R183). -/
  | setEnable (v : Word)
  /-- MASK: a host write of `v` to MASK (R188). -/
  | mask (v : Word)
  /-- TAKE: a host read of TAKE (R191). -/
  | take
  /-- NOTICE: a host write of `v` to NOTICE (R174). -/
  | notice (v : Word)
  /-- REGISTER_WRITE_IGNORED: a host write of `v` to IDENT, STATUS or TAKE (R182). -/
  | registerWriteIgnored (reg : ReadOnlyReg) (v : Word)
  /-- STATUS_WORD_WRITE: a host write of `v` to the status word of order block `block` (R173). -/
  | statusWordWrite (block : Fin 16) (v : Word)
  /-- EXCHANGE_MEMORY_WRITE: a host write of `v` to word number `word` of the window, at offset 2 * word (R167, R170). -/
  | exchangeMemoryWrite (word : BitVec 14) (v : Word)
  /-- ORDER_TAKE: the free order unit takes the block at the head of the notice queue (R176). -/
  | orderTake
  /-- CONFIGURE: completion (R180, R181). -/
  | configure
  /-- SET_ROLE: completion (R79). -/
  | setRole
  /-- START_SURVEY: completion (R67). -/
  | startSurvey
  /-- DOOR_RELEASE: completion (R98, R99). -/
  | doorRelease
  /-- DOOR_CLOSE: completion (R100). -/
  | doorClose
  /-- HEAT_DEMAND: completion (R120). -/
  | heatDemand
  /-- HEAT_SUPPLY: completion (R121). -/
  | heatSupply
  /-- SEND_MESSAGE: completion, or the end of the execution of a unicast (R141-R143). -/
  | sendMessage
  /-- SET_OUTPUTS: completion (R163, R164). -/
  | setOutputs
  /-- UNKNOWN_ORDER: completion of an order of no known kind (R177). -/
  | unknownOrder
  /-- RAW_CHANGE: the pin of `input` takes `level` (R153). -/
  | rawChange (input : Input) (level : Bool)
  /-- QUALIFIED_CHANGE: the filter timer of `input` has reached the filter time (R153). -/
  | qualifiedChange (input : Input)
  /-- ENERGY_PRESENT: the detector of `line` reports energy present (R2). -/
  | energyPresent (line : LineId)
  /-- ENERGY_ABSENT: the detector of `line` reports energy absent (R2). -/
  | energyAbsent (line : LineId)
  /-- SETTLING_TIMER: the settling timer of `line` has reached 100 ms (R4). -/
  | settlingTimer (line : LineId)
  /-- GAP_TIMEOUT: the gap timer of `line` has reached 2 ms (R6). -/
  | gapTimeout (line : LineId)
  /-- REST_TIMER: the rest timer of `line` has reached 1000 ms (R9). -/
  | restTimer (line : LineId)
  /-- BYTE_RECEIVED: `line` receives the byte `value`, no flow character (R27, R28). -/
  | byteReceived (line : LineId) (value : Byte)
  /-- STOP_RECEIVED: `line` receives a STOP (R26, R38). -/
  | stopReceived (line : LineId)
  /-- GO_RECEIVED: `line` receives a GO (R26, R38). -/
  | goReceived (line : LineId)
  /-- LINK_TIMER: the link timer of the end has reached 150 ms (R13). -/
  | linkTimer (side : EndId)
  /-- HAIL_TIMER: the HAIL timer of the end has reached 50 ms (R16). -/
  | hailTimer (side : EndId)
  /-- TELEGRAM_BOUNDARY: the transmitter of the end has sent the last byte of its telegram (R50). -/
  | telegramBoundary (side : EndId)
  /-- FLOW_CHARACTER_SENT: a byte boundary at which a due STOP or GO of the end goes out (R36). -/
  | flowCharacterSent (side : EndId)
  /-- STALL_TIMER: the stall timer of the end has reached 200 ms (R39). -/
  | stallTimer (side : EndId)
  /-- DISPATCH: the dispatcher takes the head of the end's receive buffer (R40). -/
  | dispatch (side : EndId)
  /-- KEY_EXPIRY: 100 ms have passed since the entry of the end's oldest filter key (R33). -/
  | keyExpiry (side : EndId)
  /-- HOLD_OFF_TIMER: the hold-off timer has reached 200 ms (R60). -/
  | holdOffTimer
  /-- SURVEY_TIMEOUT: the survey timer has reached the survey timeout (R74). -/
  | surveyTimeout
  /-- ROSTER_WAIT_TIMER: the roster wait has reached its limit (R78). -/
  | rosterWaitTimer
  /-- DOORSTAT_TIMER: the DOORSTAT timer has reached 100 ms (R110). -/
  | doorstatTimer
  /-- RECORD_STALE: the door status record of `side` has reached an age of 300 ms (R114). -/
  | recordStale (side : Side)
  /-- ROUND_TIMER: the round timer has reached T (R122). -/
  | roundTimer
  /-- BID_WINDOW_CLOSE: 300 ms have passed since the round opened (R125). -/
  | bidWindowClose
  /-- RAMP_STEP: the pending ramp step falls due (R133). -/
  | rampStep
  /-- LOSS_TIMER: the loss timer has reached 3 times T seen (R136). -/
  | lossTimer
  /-- MESSAGE_DEADLINE: the deadline timer of the in-flight entry of `block` has reached 1000 ms (R145). -/
  | messageDeadline (block : Fin 16)
  /-- MILLISECOND_COUNT: one millisecond passes (R17). -/
  | millisecondCount
  /-- RESET_PIN_HELD: the RESET pin is asserted (R184). -/
  | resetPinHeld
  deriving DecidableEq, Repr

end Sys2Proof
end

