-- ==== Sys2Proof/Decode.lean ====
section
/-! DEFINITION. The decoder of table words. No row of spec/opcode_table.json gives a command bits: commands are accesses,
pin events and moments, not words (log 2). -/

namespace Sys2Proof

/-- The command a word of `nbits` bits spells: none, since no row gives bits. -/
def decodeTableWord (_nbits _w : Nat) : Option Instr := none

end Sys2Proof
end

