-- ==== Sys2Proof/Config.lean ====
section
/-! DEFINITION. What the spec leaves open: values with no body, of which nothing can be proved. Each is a function of
what it depends on, so that a statement about it holds whatever the hardware does. -/

namespace Sys2Proof.Config

/-- R84 gives an orientation for a lead-facing end A or B only. For any other end code of a ROLL the code of the
orientation that the lead enters in its roster is open (log 12). Arguments: whether the coach is on side F, the code. -/
opaque orientationOf : Bool → Byte → Byte

/-- R91 computes a position for side F and side R only. For a coach that followed a SURVEY of another side (R194 lets it)
the computed position is open (log 13). Arguments: the side code, the ROSTER's f, the distance. -/
opaque positionOf : Byte → Nat → Nat → Nat

/-- R111 gives the side of a DOORSTAT for an own position at most f, or greater than f + 1. At f + 1 the side code is
open (log 14). -/
opaque statSideAtLead : Byte

/-- The word that a page shows for a number above 65535, which a word cannot hold, is open (log 15). -/
opaque wideWord : Nat → Word

/-- R112 counts "up to 32". What a coach makes of a received open count above 32 is open (log 16). -/
opaque countOver : Byte → Byte

end Sys2Proof.Config
end

