-- ==== Sys2Proof/Machine/State.lean ====
section
/-! DEFINITION. The state of the part as plain data, its value after reset, and the reasons a step could stop. Each field
cites the rule of spec/ that names it; INVENTORY.md lists them all. -/

namespace Sys2Proof.Machine

/-! ### Telegrams (chapter 2) -/

/-- The twelve kinds (R21). -/
inductive Kind where
  | hail | change | survey | roll | roster | door | doorstat | heatcall | heatbid | heatgrant | msg | msgack
  deriving DecidableEq, Repr

/-- The priority classes, best first (R21). -/
inductive TClass where
  | door | consist | heat | message
  deriving DecidableEq, Repr

/-- How far a telegram travels (R21). -/
inductive Scope where
  | neighbour | broadcast | towardLead | coach
  deriving DecidableEq, Repr

/-- A telegram (R20). Its class is a function of its kind (R21), its two lengths are those of the lists. -/
structure Telegram where
  kind : Kind
  scope : Scope
  origin : Ident
  dest : Ident
  seq : Word
  body : List Byte
  bodyCheck : Word
  hop : Byte
  route : List Byte
  routeCheck : Word
  deriving DecidableEq, Repr

/-! ### Line units (chapter 1) -/

/-- Line states (R1). -/
inductive LineState where
  | dark | settling | up | suspect | rest
  deriving DecidableEq, Repr

/-- The byte assembler (R27, R28). A candidate is open in `opened` and `escaped`; there the bytes collected so far and the
gap timer (R6) stand beside the state. -/
inductive Assembler where
  | waiting
  | opened (bytes : List Byte) (gap : Nat)
  | escaped (bytes : List Byte) (gap : Nat)
  | discarding
  deriving DecidableEq, Repr

/-- A line unit (table of 1.1). A timer is `none` while it is stopped. -/
structure LineUnit where
  state : LineState
  energy : Bool
  score : Nat
  settling : Option Nat
  rest : Option Nat
  asm : Assembler
  deriving DecidableEq, Repr

/-- The four line units. -/
structure Lines where
  a1 : LineUnit
  a2 : LineUnit
  b1 : LineUnit
  b2 : LineUnit
  deriving DecidableEq, Repr

/-! ### End controllers and the relay switch (chapters 1 and 3) -/

/-- End states (R11 to R13). -/
inductive EndState where
  | uncoupled | probing | linked
  deriving DecidableEq, Repr

/-- The two flow characters (R26). -/
inductive FlowChar where
  | stop | go
  deriving DecidableEq, Repr

/-- The neighbour record (R17). End and role are the codes received. -/
structure Neighbour where
  identity : Ident
  peerEnd : Byte
  role : Byte
  generation : Word
  lead : Ident
  heard : Word
  deriving DecidableEq, Repr

/-- A key of the duplicate filter with its entry time (R32). -/
structure FilterKey where
  origin : Ident
  kind : Kind
  seq : Word
  entered : Word
  deriving DecidableEq, Repr

/-- A telegram in transmission and the lines that carry its bytes (R15). -/
structure Sending where
  telegram : Telegram
  lines : List LineNo
  deriving DecidableEq, Repr

/-- An end controller with its receive buffer, flow state, transmitter, queues and arbiter (tables of 1.2 and chapter 3). -/
structure EndUnit where
  state : EndState
  link : Option Nat
  hail : Option Nat
  hailDue : Bool
  neighbour : Option Neighbour
  filter : List FilterKey
  buffer : List Telegram
  consumed : Bool
  blocked : Bool
  sentStop : Bool
  flowDue : Option FlowChar
  recvStop : Bool
  stall : Option Nat
  stalled : Bool
  sending : Option Sending
  /-- The model's own (log 4): the last flow character that went out, and the lines it went out on. -/
  lastFlow : Option (FlowChar × List LineNo)
  relayQ : List Telegram
  originQ : List Telegram
  relayRun : Nat
  deriving DecidableEq, Repr

/-- The two ends. -/
structure Ends where
  a : EndUnit
  b : EndUnit
  deriving DecidableEq, Repr

/-! ### Consist unit (chapters 4 and 5) -/

/-- What the host has asked the coach to be (R55). -/
inductive Role where
  | lead | member
  deriving DecidableEq, Repr

/-- What the coach is (R55). -/
inductive RoleState where
  | lead | member | yielded
  deriving DecidableEq, Repr

/-- Consist states (R56). -/
inductive ConsistState where
  | unformed | settling | surveying | formed | stale
  deriving DecidableEq, Repr

/-- A roster entry (R85), its enumerated fields as the codes carried. -/
structure RosterEntry where
  identity : Ident
  orientation : Byte
  lead : Bool
  terminal : Bool
  doors : Byte
  size : Byte
  count : Byte
  deriving DecidableEq, Repr

/-- A roster: header and entries in position order (R85). N is the number of entries. -/
structure Roster where
  generation : Word
  leadId : Ident
  leadRank : Byte
  f : Nat
  isPartial : Bool
  overlength : Bool
  dupIdentity : Bool
  entries : List RosterEntry
  deriving DecidableEq, Repr

/-- The cause field of the survey cause (R59; codes of R195). -/
inductive CauseKind where
  | none | active | link | change | start | conflict | resurvey | role
  deriving DecidableEq, Repr

/-- The survey cause: cause, end code, identity; an absent end or identity is 0 (log 18). -/
structure SurveyCause where
  cause : CauseKind
  endCode : Byte
  identity : Ident
  deriving DecidableEq, Repr

/-- A filled roll list entry (R72). -/
structure RollEntry where
  origin : Ident
  facing : Byte
  terminal : Bool
  doors : Byte
  size : Byte
  count : Byte
  deriving DecidableEq, Repr

/-- One side of the survey context: entry `d - 1` is that of distance d; `complete` holds the length t once complete (R73). -/
structure RollSide where
  entries : Vector (Option RollEntry) 31
  complete : Option Nat
  deriving DecidableEq, Repr

/-- The followed survey (R69). -/
structure Followed where
  lead : Ident
  rank : Byte
  candidate : Word
  side : Byte
  distance : Nat
  leadEnd : EndId
  timeout : Nat
  deriving DecidableEq, Repr

/-- The consist unit (table of 4.1; R92). `orientation` is a code, 0 for none. -/
structure ConsistUnit where
  role : Role
  roleState : RoleState
  state : ConsistState
  roster : Option Roster
  lastGeneration : Word
  position : Nat
  orientation : Byte
  leadEnd : Option EndId
  awayEnd : Option EndId
  terminal : Bool
  partials : Nat
  holdOff : Option Nat
  resurvey : Bool
  surveyCause : SurveyCause
  /-- The candidate generation of the survey context (R65). -/
  candidate : Word
  sideF : RollSide
  sideR : RollSide
  survey : Option Nat
  followed : Option Followed
  rosterWait : Option Nat
  deriving DecidableEq, Repr

/-! ### Door unit (chapter 6) -/

/-- A set of coach sides: bit L, bit R (R103). -/
structure Sides where
  l : Bool
  r : Bool
  deriving DecidableEq, Repr

/-- The release in effect: generation and range of the latest release applied (R104). -/
structure Release where
  generation : Word
  first : Nat
  last : Nat
  deriving DecidableEq, Repr

/-- The door group (R97). Released sides and release in effect are present in RELEASED only. -/
inductive DoorGroup where
  | idle
  | released (sides : Sides) (release : Release)
  | closing
  deriving DecidableEq, Repr

/-- Why the group last left RELEASED or last entered CLOSING (table of 6.1). -/
inductive DropReason where
  | none | close | zeroSpeed | consist
  deriving DecidableEq, Repr

/-- The outcome of a RELEASE (R102). -/
inductive ReleaseOutcome where
  | applied | notFormed | generation | outOfRange | noZeroSpeed | noSide
  deriving DecidableEq, Repr

/-- The last release outcome record (R102). -/
structure LastRelease where
  generation : Word
  trainSide : Nat
  first : Nat
  last : Nat
  sides : Sides
  outcome : ReleaseOutcome
  deriving DecidableEq, Repr

/-- A door status record (R113) and the time since it was received (R114). -/
structure DoorRecord where
  generation : Word
  allClosed : Bool
  overflow : Bool
  mismatch : Bool
  count : Byte
  list : List Byte
  received : Word
  age : Nat
  deriving DecidableEq, Repr

/-- The value of the train door summary (R115). -/
inductive SummaryValue where
  | unknown | allClosed | opened
  deriving DecidableEq, Repr

/-- The train door summary (R115). -/
structure DoorSummary where
  value : SummaryValue
  count : Nat
  list : List Byte
  overflow : Bool
  deriving DecidableEq, Repr

/-- The door unit (table of 6.1). -/
structure DoorUnit where
  group : DoorGroup
  drop : DropReason
  lastRelease : Option LastRelease
  stat : Option Nat
  recF : Option DoorRecord
  recR : Option DoorRecord
  summary : DoorSummary
  deriving DecidableEq, Repr

/-! ### Heating unit (chapter 7) -/

/-- The class of a heating bid (R120). -/
inductive HeatClass where
  | essential | comfort
  deriving DecidableEq, Repr

/-- Heating states (7.5). -/
inductive HeatState where
  | noGrant | held | shed | supplyOff
  deriving DecidableEq, Repr

/-- A pending ramp: target, milliseconds until the next step, and the millisecond count at which it falls due (R133). -/
structure Ramp where
  target : Nat
  left : Nat
  dueAt : Word
  deriving DecidableEq, Repr

/-- The grant in effect (R132, R138). -/
structure Grant where
  generation : Word
  round : Word
  stages : Nat
  void : Bool
  deriving DecidableEq, Repr

/-- The last call answered (R123). -/
structure CallId where
  origin : Ident
  generation : Word
  round : Word
  deriving DecidableEq, Repr

/-- A bid table entry (R124), and its age: the rounds opened since the round it was received in (R125; log 24). -/
structure Bid where
  q : Nat
  cls : HeatClass
  round : Word
  age : Nat
  deriving DecidableEq, Repr

/-- A row of the last allocation table (R139). -/
structure AllocRow where
  q : Nat
  cls : Option HeatClass
  size : Nat
  age : Option Nat
  stages : Nat
  deriving DecidableEq, Repr

/-- The last allocation table (R139). -/
structure Allocation where
  generation : Word
  round : Word
  capacity : Nat
  derate : Nat
  supply : Bool
  effective : Nat
  essential : Nat
  available : Nat
  comfort : Nat
  leftEssential : Nat
  leftComfort : Nat
  total : Nat
  rows : List AllocRow
  deriving DecidableEq, Repr

/-- The heating unit (table of 7.1). S, Q, F, stagger and stage gap stand in the settings. -/
structure HeatUnit where
  state : HeatState
  limit : Nat
  on : Nat
  ramp : Option Ramp
  grant : Option Grant
  loss : Option Nat
  tSeen : Nat
  lastCall : Option CallId
  demandQ : Nat
  demandClass : HeatClass
  capacity : Nat
  derate : Nat
  period : Nat
  round : Option Nat
  roundNo : Word
  window : Option Nat
  bids : Vector (Option Bid) 32
  alloc : Option Allocation
  deriving DecidableEq, Repr

/-! ### Messages, inputs, orders, events -/

/-- An in-flight entry (R143, R144). -/
structure InFlight where
  block : Fin 16
  dest : Ident
  seq : Word
  timer : Nat
  deriving DecidableEq, Repr

/-- An input's record but for its filter time, which is a setting (R153). -/
structure InputRec where
  raw : Bool
  qualified : Bool
  timer : Option Nat
  deriving DecidableEq, Repr

/-- The seven inputs (chapter 9). -/
structure Inputs where
  cplA : InputRec
  cplB : InputRec
  zspd : InputRec
  dloop : InputRec
  supply : InputRec
  aux0 : InputRec
  aux1 : InputRec
  deriving DecidableEq, Repr

/-- AUX sensitivities (R158, R159). -/
inductive Sensitivity where
  | rising | falling | both | levelHigh | levelLow
  deriving DecidableEq, Repr

/-- The transmit arbiter's mode (R50). -/
inductive ArbMode where
  | fixed | weighted
  deriving DecidableEq, Repr

/-- The settings in force: every field of CONFIGURE as taken (R180). The echo of the front page shows them (R171). -/
structure Settings where
  identity : Ident
  role : Role
  rank : Nat
  front : EndId
  swap : Bool
  fitted : Sides
  size : Nat
  count : Nat
  fallback : Nat
  filters : Vector Nat 7
  sens0 : Sensitivity
  sens1 : Sensitivity
  high : Nat
  low : Nat
  mode : ArbMode
  weight : Nat
  timeout : Nat
  stagger : Nat
  stageGap : Nat
  levels : Vector Nat 12
  deriving DecidableEq, Repr

/-- The copied order (R176): block, kind and the 112 words of the parameter area. -/
structure OrderCopy where
  block : Fin 16
  kind : Word
  params : List Word
  deriving DecidableEq, Repr

/-- The order unit (R174 to R176, R182). -/
structure OrderUnit where
  queue : List (Fin 16)
  executing : Option OrderCopy
  lastBad : Nat
  deriving DecidableEq, Repr

/-- The fourteen event classes (R186). -/
inductive EventClass where
  | leadConflict | doorInterlock | consistChange | doorSummary | heatShed | noticeFault | orderDone | messageArrived
  | lineChange | rxOverflow | flowStall | heatChange | aux0 | aux1
  deriving DecidableEq, Repr

/-- The event unit and the enable held in CONTROL (R193). The programmable levels are settings. -/
structure EventUnit where
  flags : Vector Bool 14
  threshold : Nat
  enable : Bool
  deriving DecidableEq, Repr

/-- Part states (R179). -/
inductive PartState where
  | halted | active
  deriving DecidableEq, Repr

/-- The reset cause of the front page (R171). -/
inductive ResetCause where
  | powerOn | soft
  deriving DecidableEq, Repr

/-- Exchange memory: the bytes that differ from 0, by rising address (log 21). -/
abbrev Memory := List Host.Cell

/-! ### The state -/

/-- The state of the part. -/
structure State where
  /-- The model's own: the commands waiting, first in first out. -/
  pending : List Instr
  /-- The RESET pin is held (R167, R184). -/
  resetHeld : Bool
  /-- R179. -/
  part : PartState
  /-- R171. -/
  cause : ResetCause
  /-- The general-outputs-held flag (R166). -/
  gpHeld : Bool
  /-- The millisecond count (R17). -/
  ms : Word
  /-- The settings in force (R180). -/
  cfg : Settings
  /-- The twelve sequence counters (R22). -/
  seqs : Vector Word 12
  lines : Lines
  ends : Ends
  consist : ConsistUnit
  door : DoorUnit
  heat : HeatUnit
  /-- The in-flight list, oldest first (R144). -/
  inFlight : List InFlight
  /-- The delivery number of each inbox slot (R146). -/
  deliveries : Vector Nat 8
  inputs : Inputs
  /-- The twelve output levels, placed as R195 places them in the mask words (R160). -/
  outputs : BitVec 12
  orders : OrderUnit
  events : EventUnit
  /-- The revision counters: ten page records, then the eight inbox slots (R169). -/
  revs : Vector Word 18
  mem : Memory
  /-- The model's own (log 4): the word the last read of TAKE returned to the host. -/
  hostData : Word
  deriving DecidableEq, Repr

/-- No command stops the part: the spec gives each an effect in every state. -/
inductive Fault
  deriving DecidableEq, Repr

/-- Why a command has no outcome. -/
inductive Refusal where
  /-- Raised by exec alone, for a command that has no meaning yet; no arm of exec raises it. Safe. -/
  | notModelled (mnemonic : String)
  deriving DecidableEq, Repr

/-! ### The state after reset -/

/-- R10. -/
def LineUnit.reset : LineUnit :=
  { state := .dark, energy := false, score := 0, settling := none, rest := none, asm := .waiting }

/-- R19, R54; the end state is that of the coupler input. -/
def EndUnit.reset (coupled : Bool) : EndUnit :=
  { state := if coupled then .probing else .uncoupled, link := none, hail := none, hailDue := false, neighbour := none,
    filter := [], buffer := [], consumed := false, blocked := false, sentStop := false, flowDue := none,
    recvStop := false, stall := none, stalled := false, sending := none, lastFlow := none, relayQ := [], originQ := [],
    relayRun := 0 }

/-- Both roll lists empty, both sides incomplete (R80). -/
def RollSide.empty : RollSide := { entries := Vector.replicate 31 none, complete := none }

/-- R80, R96. -/
def ConsistUnit.reset : ConsistUnit :=
  { role := .member, roleState := .member, state := .unformed, roster := none, lastGeneration := 0, position := 0,
    orientation := 0, leadEnd := none, awayEnd := none, terminal := false, partials := 0, holdOff := none,
    resurvey := false, surveyCause := ⟨.none, 0, 0⟩, candidate := 0, sideF := .empty, sideR := .empty, survey := none,
    followed := none, rosterWait := none }

/-- The summary of a coach that is not lead, and after reset (R116, R118). -/
def DoorSummary.unknown : DoorSummary := { value := .unknown, count := 0, list := [], overflow := false }

/-- R118. -/
def DoorUnit.reset : DoorUnit :=
  { group := .idle, drop := .none, lastRelease := none, stat := none, recF := none, recR := none, summary := .unknown }

/-- R140. -/
def HeatUnit.reset : HeatUnit :=
  { state := .noGrant, limit := 0, on := 0, ramp := none, grant := none, loss := none, tSeen := 2, lastCall := none,
    demandQ := 0, demandClass := .comfort, capacity := 0, derate := 100, period := 2, round := none, roundNo := 1,
    window := none, bids := Vector.replicate 32 none, alloc := none }

/-- The settings in force before CONFIGURE (R180). -/
def Settings.reset : Settings :=
  { identity := 0, role := .member, rank := 0, front := .a, swap := false, fitted := ⟨false, false⟩, size := 1,
    count := 0, fallback := 0, filters := #v[200, 200, 20, 50, 100, 10, 10], sens0 := .both, sens1 := .both, high := 640,
    low := 256, mode := .weighted, weight := 3, timeout := 500, stagger := 100, stageGap := 1000,
    levels := #v[2, 2, 2, 2, 1, 1, 1, 1, 1, 0, 1, 1] }

/-- R155: the qualified level is the raw level at the reset, the filter timer stops. -/
def InputRec.reset (raw : Bool) : InputRec := { raw := raw, qualified := raw, timer := none }

/-- R193: all flags clear, threshold 4, enable 0. -/
def EventUnit.reset : EventUnit := { flags := Vector.replicate 14 false, threshold := 4, enable := false }

/-- R184, R182: queue empty, order unit free, last bad notice 63. -/
def OrderUnit.reset : OrderUnit := { queue := [], executing := none, lastBad := 63 }

/-- The power-on contents of the front page that differ from 0 (R171, R184): layout version 1, reset cause POWER_ON, and
the echo of the settings before CONFIGURE. -/
def resetFrontPage : Memory :=
  [(0x02, 1), (0x06, 1), (0x14, 2), (0x18, 1), (0x1E, 1)]
  ++ [(0x24, 200), (0x26, 200), (0x28, 20), (0x2A, 50), (0x2C, 100), (0x2E, 10), (0x30, 10)]
  ++ [(0x32, 3), (0x34, 3), (0x36, 0x80), (0x37, 2), (0x39, 1), (0x3A, 2), (0x3C, 3)]
  ++ [(0x3E, 0xF4), (0x3F, 1), (0x40, 100), (0x42, 0xE8), (0x43, 3)]
  ++ [(0x44, 2), (0x46, 2), (0x48, 2), (0x4A, 2), (0x4C, 1), (0x4E, 1), (0x50, 1), (0x52, 1), (0x54, 1)]
  ++ [(0x58, 1), (0x5A, 1)]

/-- The power-on contents of the consist page (role state MEMBER) and of the status page records that differ from 0 while
no input is asserted (R184; R139, R157). -/
def resetPages : Memory :=
  [(0x1102, 2)]
  ++ [(0x1574, 2), (0x1578, 2), (0x157C, 100), (0x157E, 2), (0x1580, 1)]
  ++ [(0x1586, 100), (0x1588, 0xE8), (0x1589, 3)]
  ++ [(0x1784, 200), (0x1788, 200), (0x178C, 20), (0x1790, 50), (0x1794, 100), (0x1798, 10), (0x179C, 10)]
  ++ [(0x179E, 3), (0x17A0, 3)]
  ++ [(0x17A4, 4), (0x17A8, 4), (0x17AC, 4), (0x17B0, 4), (0x17B4, 4), (0x17B8, 4), (0x17BC, 4), (0x17C0, 4)]
  ++ [(0x17C4, 4), (0x17C8, 3), (0x17CC, 3), (0x17D0, 3)]

/-- The part right after power-on reset with no input asserted (R184; log 3). -/
def State.reset : State :=
  { pending := [], resetHeld := false, part := .halted, cause := .powerOn, gpHeld := false, ms := 0, cfg := .reset,
    seqs := Vector.replicate 12 1, lines := ⟨.reset, .reset, .reset, .reset⟩, ends := ⟨.reset false, .reset false⟩,
    consist := .reset, door := .reset, heat := .reset, inFlight := [], deliveries := Vector.replicate 8 0,
    inputs := ⟨.reset false, .reset false, .reset false, .reset false, .reset false, .reset false, .reset false⟩,
    outputs := 0, orders := .reset, events := .reset, revs := Vector.replicate 18 0,
    mem := resetFrontPage ++ resetPages, hostData := 0 }

end Sys2Proof.Machine
end

