-- ==== Sys2Proof/Machine/Ops.lean ====
section
/-! DEFINITION. The named operations over memory, registers and units: every read and write of State goes through one of
them. -/

namespace Sys2Proof.Machine

/-! ### Exchange memory -/

/-- The canonical form: addresses strictly rising, no entry equal to what an unlisted address reads as (0). -/
abbrev Memory.wf (m : Memory) : Prop := m.Pairwise (fun x y => x.1 < y.1) ∧ ∀ c ∈ m, c.2 ≠ 0

/-- One byte. An unlisted address reads 0, the power-on value of exchange memory (R184). -/
def Memory.read : Memory → Nat → Byte
  | [], _ => 0
  | (k, b) :: m, a => if k = a then b else Memory.read m a

/-- The cells of a run of bytes from address `a` on: those that are not 0. -/
def cellsOf : Nat → List Byte → Memory
  | _, [] => []
  | a, b :: bs => if b = 0 then cellsOf (a + 1) bs else (a, b) :: cellsOf (a + 1) bs

/-- Writes the bytes `bs` from address `a` on. -/
def Memory.write (m : Memory) (a : Nat) (bs : List Byte) : Memory :=
  m.filter (fun c => decide (c.1 < a)) ++ cellsOf a bs ++ m.filter (fun c => decide (a + bs.length ≤ c.1))

/-- The low byte of a word. -/
def loByte (w : Word) : Byte := w.setWidth 8

/-- The high byte of a word. -/
def hiByte (w : Word) : Byte := (w >>> 8).setWidth 8

/-- A word from its high and low byte. -/
def wordOf (hi lo : Byte) : Word := hi ++ lo

/-- A word at byte address `a`, low byte first (R167, R195). -/
def Memory.readWord (m : Memory) (a : Nat) : Word := wordOf (m.read (a + 1)) (m.read a)

/-- The bytes of words in exchange memory, each low byte first. -/
def bytesOfWords : List Word → List Byte
  | [] => []
  | w :: ws => loByte w :: hiByte w :: bytesOfWords ws

/-- Writes words from byte address `a` on. -/
def Memory.writeWords (m : Memory) (a : Nat) (ws : List Word) : Memory := m.write a (bytesOfWords ws)

/-- `n` words from byte address `a` on. -/
def Memory.readWords (m : Memory) : Nat → Nat → List Word
  | _, 0 => []
  | a, n + 1 => m.readWord a :: m.readWords (a + 2) n

/-- A number shown in a page word; one that a word cannot hold shows an open value (log 15). -/
def pageWord (n : Nat) : Word := if n < 65536 then BitVec.ofNat 16 n else Config.wideWord n

/-- A flag in a page word (R195). -/
def flagWord (b : Bool) : Word := if b then 1 else 0

/-- A 32-bit field: low word first (R195). -/
def identWords (i : Ident) : List Word := [i.setWidth 16, (i >>> 16).setWidth 16]

/-- The order block `n` starts at 0x0100 + n * 0x100 (R168). -/
def blockBase (n : Fin 16) : Nat := 0x100 + n.val * 0x100

/-- The inbox slot `n` starts at 0x1800 + n * 0x100 (R168, R195). -/
def slotBase (n : Fin 8) : Nat := 0x1800 + n.val * 0x100

/-! ### Indexes -/

/-- The place of a kind's sequence counter. -/
def Kind.idx : Kind → Fin 12
  | .hail => 0 | .change => 1 | .survey => 2 | .roll => 3 | .roster => 4 | .door => 5 | .doorstat => 6
  | .heatcall => 7 | .heatbid => 8 | .heatgrant => 9 | .msg => 10 | .msgack => 11

/-- The place of an event class's flag: its code less 1 (R186). -/
def EventClass.idx : EventClass → Fin 14
  | .leadConflict => 0 | .doorInterlock => 1 | .consistChange => 2 | .doorSummary => 3 | .heatShed => 4
  | .noticeFault => 5 | .orderDone => 6 | .messageArrived => 7 | .lineChange => 8 | .rxOverflow => 9 | .flowStall => 10
  | .heatChange => 11 | .aux0 => 12 | .aux1 => 13

/-- The place of an input's filter time, in the order of the input table. -/
def inputIdx : Input → Fin 7
  | .cplA => 0 | .cplB => 1 | .zspd => 2 | .dloop => 3 | .supply => 4 | .aux0 => 5 | .aux1 => 6

/-- The records under a revision counter (R169). -/
inductive Rec where
  | front | consist | lines | trafficA | trafficB | doorView | doorSummary | heatView | allocTable | ioView
  | slot (n : Fin 8)
  deriving DecidableEq, Repr

/-- The place of a record's revision counter. -/
def Rec.idx : Rec → Fin 18
  | .front => 0 | .consist => 1 | .lines => 2 | .trafficA => 3 | .trafficB => 4 | .doorView => 5 | .doorSummary => 6
  | .heatView => 7 | .allocTable => 8 | .ioView => 9
  | .slot n => ⟨10 + n.val, by omega⟩

/-! ### Units of the state -/

/-- The end controller of an end. -/
def Ends.get (e : Ends) : EndId → EndUnit
  | .a => e.a
  | .b => e.b

/-- Replaces the end controller of an end. -/
def Ends.set (e : Ends) (i : EndId) (u : EndUnit) : Ends :=
  match i with
  | .a => { e with a := u }
  | .b => { e with b := u }

/-- The line unit of a line. -/
def Lines.get (l : Lines) : LineId → LineUnit
  | ⟨.a, .one⟩ => l.a1
  | ⟨.a, .two⟩ => l.a2
  | ⟨.b, .one⟩ => l.b1
  | ⟨.b, .two⟩ => l.b2

/-- Replaces the line unit of a line. -/
def Lines.set (l : Lines) (i : LineId) (u : LineUnit) : Lines :=
  match i with
  | ⟨.a, .one⟩ => { l with a1 := u }
  | ⟨.a, .two⟩ => { l with a2 := u }
  | ⟨.b, .one⟩ => { l with b1 := u }
  | ⟨.b, .two⟩ => { l with b2 := u }

/-- The record of an input. -/
def Inputs.get (x : Inputs) : Input → InputRec
  | .cplA => x.cplA
  | .cplB => x.cplB
  | .zspd => x.zspd
  | .dloop => x.dloop
  | .supply => x.supply
  | .aux0 => x.aux0
  | .aux1 => x.aux1

/-- Replaces the record of an input. -/
def Inputs.set (x : Inputs) (i : Input) (r : InputRec) : Inputs :=
  match i with
  | .cplA => { x with cplA := r }
  | .cplB => { x with cplB := r }
  | .zspd => { x with zspd := r }
  | .dloop => { x with dloop := r }
  | .supply => { x with supply := r }
  | .aux0 => { x with aux0 := r }
  | .aux1 => { x with aux1 := r }

/-- The end controller of end `e`. -/
def State.endOf (s : State) (e : EndId) : EndUnit := s.ends.get e

/-- The line unit `l`. -/
def State.lineOf (s : State) (l : LineId) : LineUnit := s.lines.get l

/-- Changes one end controller. -/
def State.modEnd (s : State) (e : EndId) (f : EndUnit → EndUnit) : State :=
  { s with ends := s.ends.set e (f (s.ends.get e)) }

/-- Changes one line unit. -/
def State.modLine (s : State) (l : LineId) (f : LineUnit → LineUnit) : State :=
  { s with lines := s.lines.set l (f (s.lines.get l)) }

/-- Changes the consist unit. -/
def State.modConsist (s : State) (f : ConsistUnit → ConsistUnit) : State := { s with consist := f s.consist }

/-- Changes the door unit. -/
def State.modDoor (s : State) (f : DoorUnit → DoorUnit) : State := { s with door := f s.door }

/-- Changes the heating unit. -/
def State.modHeat (s : State) (f : HeatUnit → HeatUnit) : State := { s with heat := f s.heat }

/-- Changes the order unit. -/
def State.modOrders (s : State) (f : OrderUnit → OrderUnit) : State := { s with orders := f s.orders }

/-- Changes the event unit. -/
def State.modEvents (s : State) (f : EventUnit → EventUnit) : State := { s with events := f s.events }

/-- Changes one input's record. -/
def State.modInput (s : State) (i : Input) (f : InputRec → InputRec) : State :=
  { s with inputs := s.inputs.set i (f (s.inputs.get i)) }

/-- Changes exchange memory. -/
def State.modMem (s : State) (f : Memory → Memory) : State := { s with mem := f s.mem }

/-- The qualified level of an input (R156). -/
def State.level (s : State) (i : Input) : Bool := (s.inputs.get i).qualified

/-- The installed generation, or 0 if no roster is installed (R80, R92). -/
def ConsistUnit.generation (c : ConsistUnit) : Word := (c.roster.map (·.generation)).getD 0

/-- Roster size N, or 0 if no roster is installed. -/
def ConsistUnit.n (c : ConsistUnit) : Nat := (c.roster.map (·.entries.length)).getD 0

/-- Length f of side F of the installed roster, or 0. -/
def ConsistUnit.f (c : ConsistUnit) : Nat := (c.roster.map (·.f)).getD 0

/-- The status word of an order block (R172). -/
def State.blockStatus (s : State) (b : Fin 16) : Word := s.mem.readWord (blockBase b)

/-- Writes the status word of an order block. -/
def State.setBlockStatus (s : State) (b : Fin 16) (v : Word) : State :=
  s.modMem (·.writeWords (blockBase b) [v])

/-- The revision counter of a record. -/
def State.rev (s : State) (r : Rec) : Word := s.revs[r.idx]

/-- Sets a revision counter. -/
def State.setRev (s : State) (r : Rec) (v : Word) : State := { s with revs := s.revs.set r.idx v }

/-- Begins a rewrite of a record in this step: its counter becomes odd (R169). A record already begun stays begun. -/
def State.touch (s : State) (r : Rec) : State :=
  if (s.rev r).getLsbD 0 then s else s.setRev r (s.rev r + 1)

/-- Begins a further rewrite of a record in this step: one already begun is ended and begun anew (R169). -/
def State.touchAgain (s : State) (r : Rec) : State :=
  s.setRev r (s.rev r + if (s.rev r).getLsbD 0 then 2 else 1)

/-- The successor in a numbering 1 to 65535 (R22, R65, R122). -/
def succ1 (w : Word) : Word := if w = 0xFFFF then 1 else w + 1

/-- The predecessor in a numbering 1 to 65535. -/
def pred1 (w : Word) : Word := if w = 1 then 0xFFFF else w - 1

/-- One millisecond more on a timer, up to its limit; a stopped timer stays stopped. -/
def bump (cap : Nat) (t : Option Nat) : Option Nat := t.map (fun n => min cap (n + 1))

/-- A running timer has reached a limit. -/
def reached (t : Option Nat) (limit : Nat) : Bool :=
  match t with
  | some n => decide (limit ≤ n)
  | none => false

/-- Clamps a number to a range. -/
def clamp (lo hi n : Nat) : Nat := max lo (min hi n)

end Sys2Proof.Machine
end

