-- ==== Sys2Proof/Machine/Flags.lean ====
section
/-! DEFINITION. The event unit: pending flags, levels, the interrupt line, the choice of TAKE and the STATUS word
(chapter 11, R182, R196). -/

namespace Sys2Proof.Machine

/-- All classes, by rising code (R186). -/
def eventClasses : List EventClass :=
  [.leadConflict, .doorInterlock, .consistChange, .doorSummary, .heatShed, .noticeFault, .orderDone, .messageArrived,
   .lineChange, .rxOverflow, .flowStall, .heatChange, .aux0, .aux1]

/-- The code TAKE returns for a class (R186). -/
def EventClass.code (c : EventClass) : Nat := c.idx.val + 1

/-- Whether a class is pending. -/
def State.isPending (s : State) (c : EventClass) : Bool := s.events.flags[c.idx]

/-- Sets or clears the pending flag of a class. -/
def State.setPending (s : State) (c : EventClass) (v : Bool) : State :=
  s.modEvents fun u => { u with flags := u.flags.set c.idx v }

/-- A unit raises an event: its flag is set; one already set stays set (R186). -/
def State.raise (s : State) (c : EventClass) : State := s.setPending c true

/-- The level of a class: 4 for the two fixed classes, else the programmable level (R187). -/
def State.levelOf (s : State) (c : EventClass) : Nat :=
  match c with
  | .leadConflict | .doorInterlock => 4
  | .consistChange => s.cfg.levels[0]
  | .doorSummary => s.cfg.levels[1]
  | .heatShed => s.cfg.levels[2]
  | .noticeFault => s.cfg.levels[3]
  | .orderDone => s.cfg.levels[4]
  | .messageArrived => s.cfg.levels[5]
  | .lineChange => s.cfg.levels[6]
  | .rxOverflow => s.cfg.levels[7]
  | .flowStall => s.cfg.levels[8]
  | .heatChange => s.cfg.levels[9]
  | .aux0 => s.cfg.levels[10]
  | .aux1 => s.cfg.levels[11]

/-- The interrupt line (R189): low while RESET is held or the enable is 0. -/
def State.interruptLine (s : State) : Bool :=
  !s.resetHeld && s.events.enable
    && (eventClasses.any (fun c => s.isPending c && decide (s.events.threshold ≤ s.levelOf c))
        || s.isPending .leadConflict || s.isPending .doorInterlock)

/-- The greatest level among the pending classes (R190). -/
def State.highestLevel (s : State) : Option Nat :=
  ((eventClasses.filter s.isPending).map s.levelOf).foldl (fun m n => some (match m with | some k => max k n | none => n)) none

/-- The class TAKE returns: of the highest level, and among those the one with the lowest code (R191). -/
def State.takeChoice (s : State) : Option EventClass :=
  match s.highestLevel with
  | some n => eventClasses.find? (fun c => s.isPending c && s.levelOf c == n)
  | none => none

/-- Whether a sensitivity is a level sensitivity whose active level is `level` (R159). -/
def Sensitivity.activeAt (x : Sensitivity) (level : Bool) : Bool :=
  match x with
  | .levelHigh => level
  | .levelLow => !level
  | .rising | .falling | .both => false

/-- Whether a class's flag stays set at a TAKE that returns it: an AUX class under a level sensitivity whose level is
active (R159, R191). -/
def State.staysPending (s : State) (c : EventClass) : Bool :=
  match c with
  | .aux0 => s.cfg.sens0.activeAt (s.level .aux0)
  | .aux1 => s.cfg.sens1.activeAt (s.level .aux1)
  | .leadConflict | .doorInterlock | .consistChange | .doorSummary | .heatShed | .noticeFault | .orderDone
  | .messageArrived | .lineChange | .rxOverflow | .flowStall | .heatChange => false

/-- A qualified change of an AUX input to `level` sets its class pending, by its sensitivity (R158, R159). -/
def Sensitivity.names (x : Sensitivity) (level : Bool) : Bool :=
  match x with
  | .rising => level
  | .falling => !level
  | .both => true
  | .levelHigh => level
  | .levelLow => !level

/-- The STATUS word (R182, R190, R196). -/
def State.statusWord (s : State) : Word :=
  BitVec.ofNat 16
    ((if s.part = .active then 1 else 0) + s.orders.queue.length * 2 + (s.highestLevel.getD 7) * 64
      + (if s.interruptLine then 512 else 0) + s.orders.lastBad * 1024)

end Sys2Proof.Machine
end

