-- ==== Sys2Proof/Machine/Operands.lean ====
section
/-! DEFINITION. Formats of telegrams on the coupler lines (chapters 2 and 12): codes, bytes, checks, escapes, and the
parameters of a copied order. -/

namespace Sys2Proof.Machine

/-! ### Codes (R21, R194) -/

/-- R21. -/
def Kind.code : Kind → Byte
  | .hail => 0x01 | .change => 0x02 | .survey => 0x03 | .roll => 0x04 | .roster => 0x05 | .door => 0x06
  | .doorstat => 0x07 | .heatcall => 0x08 | .heatbid => 0x09 | .heatgrant => 0x0A | .msg => 0x0B | .msgack => 0x0C

/-- The kind of a code (R21). -/
def kindOfCode (b : Byte) : Option Kind :=
  [Kind.hail, .change, .survey, .roll, .roster, .door, .doorstat, .heatcall, .heatbid, .heatgrant, .msg, .msgack].find?
    (fun k => k.code == b)

/-- The class of a kind (R21). -/
def Kind.cls : Kind → TClass
  | .hail | .change | .survey | .roll | .roster => .consist
  | .door | .doorstat => .door
  | .heatcall | .heatbid | .heatgrant => .heat
  | .msg | .msgack => .message

/-- The class code (R194); a lower code is a better class. -/
def TClass.code : TClass → Nat
  | .door => 0 | .consist => 1 | .heat => 2 | .message => 3

/-- The scope code (R194). -/
def Scope.code : Scope → Byte
  | .neighbour => 0 | .broadcast => 1 | .towardLead => 2 | .coach => 3

/-- The scope of a code (R194). -/
def scopeOfCode (b : Byte) : Option Scope :=
  [Scope.neighbour, .broadcast, .towardLead, .coach].find? (fun x => x.code == b)

/-- The scopes R21 permits for a kind. -/
def Kind.scopes : Kind → List Scope
  | .hail => [.neighbour]
  | .change | .roll | .doorstat | .heatbid => [.towardLead]
  | .survey | .roster | .door | .heatcall | .heatgrant => [.broadcast]
  | .msg => [.broadcast, .coach]
  | .msgack => [.coach]

/-- The body lengths R194 allows for a kind. -/
def Kind.bodyLengthOk (k : Kind) (n : Nat) : Bool :=
  match k with
  | .hail => n == 12
  | .change => n == 6
  | .survey => n == 10
  | .roll => n == 13
  | .roster => decide (19 ≤ n) && decide (n ≤ 298) && (n - 10) % 9 == 0
  | .door => n == 6
  | .doorstat => n == 3
  | .heatcall => n == 5
  | .heatbid => n == 9
  | .heatgrant => decide (6 ≤ n) && decide (n ≤ 68) && n % 2 == 0
  | .msg => decide (1 ≤ n) && decide (n ≤ 201)
  | .msgack => n == 3

/-- The route data lengths R194 allows for a kind (R30). -/
def Kind.routeLengthOk (k : Kind) (n : Nat) : Bool :=
  match k with
  | .doorstat => decide (2 ≤ n) && decide (n ≤ 10)
  | .hail | .change | .survey | .roll | .roster | .door | .heatcall | .heatbid | .heatgrant | .msg | .msgack => n == 0

/-- End codes A 1, B 2 (R194). -/
def endCode : EndId → Byte
  | .a => 1
  | .b => 2

/-- Role codes (R194). -/
def RoleState.code : RoleState → Byte
  | .lead => 1 | .member => 2 | .yielded => 3

/-- Side codes F 1, R 2 (R194). -/
def sideCode : Side → Byte
  | .f => 1
  | .r => 2

/-- Heating class codes (R194). -/
def HeatClass.code : HeatClass → Byte
  | .essential => 1
  | .comfort => 2

/-- The heating class of a code. -/
def heatClassOfCode (n : Nat) : Option HeatClass :=
  if n = 1 then some .essential else if n = 2 then some .comfort else none

/-- Door sides as bits: L bit 0, R bit 1; so NONE 0, L 1, R 2, BOTH 3 (R194, R195). -/
def Sides.code (x : Sides) : Nat := (if x.l then 1 else 0) + (if x.r then 2 else 0)

/-- The set of door sides of a code 0 to 3. -/
def sidesOfCode (n : Nat) : Sides := ⟨n % 2 == 1, n / 2 % 2 == 1⟩

/-! ### Fields, most significant byte first (R194) -/

/-- A two-byte field. -/
def be16 (w : Word) : List Byte := [hiByte w, loByte w]

/-- A four-byte field. -/
def be32 (i : Ident) : List Byte := be16 ((i >>> 16).setWidth 16) ++ be16 (i.setWidth 16)

/-- The byte at an offset. -/
def rd8 (b : List Byte) (i : Nat) : Byte := b.getD i 0

/-- The two-byte field at an offset. -/
def rd16 (b : List Byte) (i : Nat) : Word := wordOf (rd8 b i) (rd8 b (i + 1))

/-- The four-byte field at an offset. -/
def rd32 (b : List Byte) (i : Nat) : Ident := rd16 b i ++ rd16 b (i + 2)

/-- A number below 256 as a byte. -/
def byteOf (n : Nat) : Byte := BitVec.ofNat 8 n

/-! ### Checks (R24) -/

/-- One bit of the cyclic redundancy check: generator x^16 + x^12 + x^5 + 1. -/
def crcBit (r : Word) : Word := if r.msb then (r <<< 1) ^^^ 0x1021 else r <<< 1

/-- One byte, most significant bit first. -/
def crcByte (r : Word) (b : Byte) : Word :=
  crcBit (crcBit (crcBit (crcBit (crcBit (crcBit (crcBit (crcBit (r ^^^ (b.setWidth 16 <<< 8)))))))))

/-- The check over bytes in sending order, from a preset register. -/
def crc (preset : Word) (bs : List Byte) : Word := bs.foldl crcByte preset

/-- The fixed part: kind through body (R20, R194). -/
def Telegram.fixedPart (t : Telegram) : List Byte :=
  [t.kind.code, byteOf t.kind.cls.code, t.scope.code] ++ be32 t.origin ++ be32 t.dest ++ be16 t.seq
    ++ be16 (BitVec.ofNat 16 t.body.length) ++ t.body

/-- The route part: hop through route data (R20, R194). -/
def Telegram.routePart (t : Telegram) : List Byte := [t.hop, byteOf t.route.length] ++ t.route

/-- The body check: register preset to 0xFFFF, over the fixed part (R24). -/
def Telegram.bodyCrc (t : Telegram) : Word := crc 0xFFFF t.fixedPart

/-- The route check: register preset to 0, over the route part (R24). -/
def Telegram.routeCrc (t : Telegram) : Word := crc 0 t.routePart

/-- The unescaped telegram (R194). -/
def Telegram.bytes (t : Telegram) : List Byte :=
  t.fixedPart ++ be16 t.bodyCheck ++ t.routePart ++ be16 t.routeCheck

/-- The unescaped length: 21 plus the body length plus the route data length (R20). -/
def Telegram.length (t : Telegram) : Nat := 21 + t.body.length + t.route.length

/-- The originator's telegram: hop 1, both checks computed (R22). -/
def buildTelegram (kind : Kind) (scope : Scope) (origin dest : Ident) (seq : Word) (body route : List Byte) : Telegram :=
  let t : Telegram := { kind := kind, scope := scope, origin := origin, dest := dest, seq := seq, body := body,
                        bodyCheck := 0, hop := 1, route := route, routeCheck := 0 }
  { t with bodyCheck := t.bodyCrc, routeCheck := t.routeCrc }

/-- A relaying coach's change of the route part: new route data, hop 1 more, the route check recomputed (R23). -/
def Telegram.relayed (t : Telegram) (route : List Byte) : Telegram :=
  let t := { t with hop := t.hop + 1, route := route }
  { t with routeCheck := t.routeCrc }

/-! ### Candidate checking (R29, R30) -/

/-- The causes of a bad candidate (R7). -/
inductive BadCause where
  | framing | escape | bodyCheck | routeCheck | gap
  deriving DecidableEq, Repr

/-- What a closed candidate turns out to be. -/
inductive Checked where
  | good (t : Telegram)
  | bad (c : BadCause)
  deriving DecidableEq, Repr

/-- The header test (R30), on the telegram read. `cls` is the class byte received. -/
def headerOk (t : Telegram) (cls : Byte) : Bool :=
  cls == byteOf t.kind.cls.code && t.kind.scopes.contains t.scope
    && !(t.scope == .coach && t.dest == 0)
    && t.hop != 0 && !(t.kind == .hail && t.hop != 1)
    && t.kind.bodyLengthOk t.body.length && t.kind.routeLengthOk t.route.length

/-- The checks of a closed candidate, in order: length, body check, route check, header (R29). -/
def checkCandidate (c : List Byte) : Checked :=
  let b := (rd16 c 13).toNat
  let g := (rd8 c (18 + b)).toNat
  if c.length < 21 ∨ c.length ≠ 21 + b + g then .bad .framing
  else if crc 0xFFFF (c.take (15 + b)) ≠ rd16 c (15 + b) then .bad .bodyCheck
  else if crc 0 ((c.drop (17 + b)).take (2 + g)) ≠ rd16 c (19 + b + g) then .bad .routeCheck
  else
    match kindOfCode (rd8 c 0), scopeOfCode (rd8 c 2) with
    | some kind, some scope =>
      let t : Telegram :=
        { kind := kind, scope := scope, origin := rd32 c 3, dest := rd32 c 7, seq := rd16 c 11,
          body := (c.drop 15).take b, bodyCheck := rd16 c (15 + b), hop := rd8 c (17 + b),
          route := (c.drop (19 + b)).take g, routeCheck := rd16 c (19 + b + g) }
      if headerOk t (rd8 c 1) then .good t else .bad .framing
    | _, _ => .bad .framing

/-! ### Bytes on the wire (R25, R28) -/

/-- START, END, ESC, STOP and GO (2.3). -/
def chSTART : Byte := 0xF1
/-- See `chSTART`. -/
def chEND : Byte := 0xF2
/-- See `chSTART`. -/
def chESC : Byte := 0xF3
/-- See `chSTART`. -/
def chSTOP : Byte := 0xF4
/-- See `chSTART`. -/
def chGO : Byte := 0xF5

/-- A telegram byte as sent: one of the five special values goes out as ESC and its escape code (R25). -/
def escapeByte (b : Byte) : List Byte :=
  if decide (0xF1 ≤ b.toNat) && decide (b.toNat ≤ 0xF5) then [chESC, b - 0xF0] else [b]

/-- The special value an escape code 0x01 to 0x05 stands for (R28). -/
def unescape (b : Byte) : Option Byte :=
  if decide (1 ≤ b.toNat) && decide (b.toNat ≤ 5) then some (b + 0xF0) else none

/-- The bytes of a telegram on the wire: START, the escaped telegram, END (R25). -/
def Telegram.wire (t : Telegram) : List Byte := [chSTART] ++ t.bytes.flatMap escapeByte ++ [chEND]

/-- What the byte assembler reports of one byte. -/
inductive AsmReport where
  | nothing
  | bad (c : BadCause)
  | closed (candidate : List Byte)
  deriving DecidableEq, Repr

/-- Collecting one value: one beyond 320 bytes is not appended, and the candidate is spoiled by a framing error (R28). -/
def collect (bs : List Byte) (v : Byte) : Assembler × AsmReport :=
  if bs.length < 320 then (.opened (bs ++ [v]) 0, .nothing) else (.discarding, .bad .framing)

/-- The byte assembler on a received byte that is no flow character (R27, R28). At END in ESCAPED the table of R28 enters
WAITING and the prose under it DISCARDING; the model takes the table (log 34). -/
def asmStep (x : Assembler) (v : Byte) : Assembler × AsmReport :=
  match x with
  | .waiting => if v = chSTART then (.opened [] 0, .nothing) else (.discarding, .bad .framing)
  | .discarding =>
    if v = chSTART then (.opened [] 0, .nothing) else if v = chEND then (.waiting, .nothing) else (.discarding, .nothing)
  | .opened bs _ =>
    if v = chESC then (.escaped bs 0, .nothing)
    else if v = chEND then (.waiting, .closed bs)
    else if v = chSTART then (.opened [] 0, .bad .framing)
    else collect bs v
  | .escaped bs _ =>
    match unescape v with
    | some w => collect bs w
    | none =>
      if v = chSTART then (.opened [] 0, .bad .escape)
      else if v = chEND then (.waiting, .bad .escape)
      else (.discarding, .bad .escape)

/-- A received byte restarts the gap timer of an open candidate, and changes nothing else when it is a flow character
(R6, R26). -/
def Assembler.restartGap : Assembler → Assembler
  | .opened bs _ => .opened bs 0
  | .escaped bs _ => .escaped bs 0
  | .waiting => .waiting
  | .discarding => .discarding

/-! ### Parameters of a copied order (R195) -/

/-- The parameter word at a byte offset (even). -/
def OrderCopy.word (o : OrderCopy) (offset : Nat) : Word := o.params.getD (offset / 2) 0

/-- A parameter word as a number. -/
def OrderCopy.num (o : OrderCopy) (offset : Nat) : Nat := (o.word offset).toNat

/-- A 32-bit parameter, low word first. -/
def OrderCopy.ident (o : OrderCopy) (offset : Nat) : Ident := o.word (offset + 2) ++ o.word offset

/-- The parameter bytes from a byte offset on. -/
def OrderCopy.bytesFrom (o : OrderCopy) (offset n : Nat) : List Byte :=
  (bytesOfWords (o.params.drop (offset / 2))).take n

end Sys2Proof.Machine
end

