-- ==== Sys2Proof/Machine/Trainline.lean ====
section
/-! DEFINITION. The trainline I/O unit: ownership of outputs and the application of images (chapter 9). -/

namespace Sys2Proof.Machine

/-- The door group: REL_L, REL_R, DCLOSE at bits 0 to 2 (R195). -/
def doorMask : BitVec 12 := 0x007

/-- The general outputs GP0 to GP2 at bits 9 to 11 (R195). -/
def gpMask : BitVec 12 := 0xE00

/-- The outputs HT1 to HTn, from bit 3 on (R195). -/
def stageMask (n : Nat) : BitVec 12 := BitVec.ofNat 12 ((2 ^ n - 1) * 8)

/-- The outputs the door unit owns (R161). -/
def State.doorOwned (s : State) : BitVec 12 := if s.part = .active then doorMask else 0

/-- The outputs the heating unit owns: HT1 to HTQ in ACTIVE (R161). -/
def State.heatOwned (s : State) : BitVec 12 := if s.part = .active then stageMask s.cfg.count else 0

/-- The outputs the host owns: GP0 to GP2, and in ACTIVE HT(Q+1) to HT6 (R161). -/
def State.hostOwned (s : State) : BitVec 12 :=
  if s.part = .active then gpMask ||| (stageMask 6 &&& ~~~stageMask s.cfg.count) else gpMask

/-- The owner code of output `i`: door unit 1, heating unit 2, host 3, held off 4 (R195). -/
def State.ownerCode (s : State) (i : Nat) : Word :=
  if s.doorOwned.getLsbD i then 1 else if s.heatOwned.getLsbD i then 2 else if s.hostOwned.getLsbD i then 3 else 4

/-- Applies an image to the outputs it covers, all in one event; the I/O view is rewritten once if a level changed
(R160). -/
def State.applyImage (s : State) (cover levels : BitVec 12) : State :=
  let out := (s.outputs &&& ~~~cover) ||| (levels &&& cover)
  if out = s.outputs then s else { s with outputs := out }.touchAgain .ioView

/-- The image of a door group state (R97). -/
def DoorGroup.image : DoorGroup → BitVec 12
  | .idle => 0
  | .released sides _ => (if sides.l then 0x001 else 0) ||| (if sides.r then 0x002 else 0)
  | .closing => 0x004

/-- The door group takes a state, and its image is handed over whole (R97). -/
def State.setGroup (s : State) (g : DoorGroup) : State :=
  (s.modDoor fun d => { d with group := g }).applyImage s.doorOwned g.image

/-- The stages on become `c`, and the image of HT1 to HTQ is handed over whole (R135). -/
def State.setStages (s : State) (c : Nat) : State :=
  (s.modHeat fun h => { h with on := c }).applyImage s.heatOwned (stageMask c)

end Sys2Proof.Machine
end

