-- ==== Sys2Proof/Machine/Pages.lean ====
section
/-! DEFINITION. The part-owned records of exchange memory: their fields, their places, and their rewriting at the end of
a step (R169, chapters 5, 10 and 12). -/

namespace Sys2Proof.Machine

/-! ### Codes of page fields (R195) -/

/-- R195. -/
def ConsistState.code : ConsistState → Word
  | .unformed => 0 | .settling => 1 | .surveying => 2 | .formed => 3 | .stale => 4

/-- R195. -/
def CauseKind.code : CauseKind → Word
  | .none => 0 | .active => 1 | .link => 2 | .change => 3 | .start => 4 | .conflict => 5 | .resurvey => 6 | .role => 7

/-- R195. -/
def LineState.code : LineState → Word
  | .dark => 0 | .settling => 1 | .up => 2 | .suspect => 3 | .rest => 4

/-- R195. -/
def EndState.code : EndState → Word
  | .uncoupled => 0 | .probing => 1 | .linked => 2

/-- R195. -/
def HeatState.code : HeatState → Word
  | .noGrant => 0 | .held => 1 | .shed => 2 | .supplyOff => 3

/-- R195. -/
def DropReason.code : DropReason → Word
  | .none => 0 | .close => 1 | .zeroSpeed => 2 | .consist => 3

/-- R195. -/
def ReleaseOutcome.code : ReleaseOutcome → Word
  | .applied => 1 | .notFormed => 2 | .generation => 3 | .outOfRange => 4 | .noZeroSpeed => 5 | .noSide => 6

/-- R195. -/
def SummaryValue.code : SummaryValue → Word
  | .unknown => 0 | .allClosed => 1 | .opened => 2

/-- R195. -/
def Sensitivity.code : Sensitivity → Word
  | .rising => 1 | .falling => 2 | .both => 3 | .levelHigh => 4 | .levelLow => 5

/-- R195. -/
def PartState.code : PartState → Word
  | .halted => 0 | .active => 1

/-- R195. -/
def ResetCause.code : ResetCause → Word
  | .powerOn => 1 | .soft => 2

/-- R195. -/
def ArbMode.code : ArbMode → Word
  | .fixed => 1 | .weighted => 2

/-- R194, R195. -/
def roleCode : Role → Word
  | .lead => 1
  | .member => 2

/-- R195: an absent end reads 0. -/
def endWord : Option EndId → Word
  | some e => (endCode e).setWidth 16
  | none => 0

/-- A byte as a page word. -/
def byteWord (b : Byte) : Word := b.setWidth 16

/-- A list of bytes in a list field of `n` words: unused elements read 0 (R195). -/
def listWords (l : List Byte) (n : Nat) : List Word := (List.range n).map (fun i => byteWord (l.getD i 0))

/-! ### Functions of the state that pages show -/

/-- A line is usable in UP and SUSPECT (R1). -/
def LineUnit.usable (u : LineUnit) : Bool := u.state == .up || u.state == .suspect

/-- A line is sending in SETTLING, UP and SUSPECT (R1). -/
def LineUnit.isSending (u : LineUnit) : Bool := u.state == .settling || u.usable

/-- The usable-line count of an end (R14). -/
def State.usableCount (s : State) (e : EndId) : Nat :=
  (if (s.lineOf ⟨e, .one⟩).usable then 1 else 0) + (if (s.lineOf ⟨e, .two⟩).usable then 1 else 0)

/-- The single-line flag of an end (R14). -/
def State.singleLine (s : State) (e : EndId) : Bool := (s.endOf e).state == .linked && s.usableCount e == 1

/-- The fill of a receive buffer (3.1). -/
def EndUnit.fill (u : EndUnit) : Nat := (u.buffer.map Telegram.length).sum

/-! ### Fields of the records, without their counters -/

/-- The configuration layout (R195). -/
def Settings.words (c : Settings) : List Word :=
  identWords c.identity
    ++ [roleCode c.role, pageWord c.rank, endWord (some c.front), flagWord c.swap, pageWord c.fitted.code,
        pageWord c.size, pageWord c.count, pageWord c.fallback]
    ++ c.filters.toList.map pageWord
    ++ [c.sens0.code, c.sens1.code, pageWord c.high, pageWord c.low,
        c.mode.code, pageWord c.weight, pageWord c.timeout,
        pageWord c.stagger, pageWord c.stageGap]
    ++ c.levels.toList.map pageWord

/-- Front page from 0x02 (R171, R195). -/
def State.frontHead (s : State) : List Word :=
  [(1 : Word), s.part.code, s.cause.code]
    ++ identWords s.cfg.identity ++ [flagWord s.gpHeld]

/-- The flags word of a roster (R194). -/
def Roster.flags (r : Roster) : Nat :=
  (if r.isPartial then 1 else 0) + (if r.overlength then 2 else 0) + (if r.dupIdentity then 4 else 0)

/-- The flags of a roster entry: lead bit 0, terminal bit 1 (R194). -/
def RosterEntry.flags (e : RosterEntry) : Nat := (if e.lead then 1 else 0) + (if e.terminal then 2 else 0)

/-- Consist page header from 0x1102 (R95, R195). With no roster installed it shows 0 for N, generation and flags (R96), and
for lead identity, lead rank and f too (the model's choice, log 37). -/
def ConsistUnit.words (c : ConsistUnit) : List Word :=
  [byteWord c.roleState.code, c.state.code, flagWord c.resurvey, pageWord c.partials, c.surveyCause.cause.code,
   byteWord c.surveyCause.endCode]
    ++ identWords c.surveyCause.identity
    ++ [c.generation, c.lastGeneration]
    ++ identWords ((c.roster.map (·.leadId)).getD 0)
    ++ [byteWord ((c.roster.map (·.leadRank)).getD 0), pageWord c.n, pageWord c.f,
        pageWord ((c.roster.map Roster.flags).getD 0), pageWord c.position, byteWord c.orientation, endWord c.leadEnd,
        endWord c.awayEnd, flagWord c.terminal]

/-- An entry slot of the consist page (R95, R195). -/
def entryWords : Option RosterEntry → List Word
  | some e =>
    [1] ++ identWords e.identity
      ++ [byteWord e.orientation, pageWord e.flags, byteWord e.doors, byteWord e.size, byteWord e.count]
  | none => List.replicate 8 0

/-- The 32 entry slots (R95). -/
def ConsistUnit.slotWords (c : ConsistUnit) : List Word :=
  (List.range 32).flatMap (fun i => entryWords (((c.roster.map (·.entries)).getD [])[i]?))

/-- A line's state and score (R14). -/
def LineUnit.words (u : LineUnit) : List Word := [u.state.code, pageWord u.score]

/-- The neighbour record, 0 throughout when empty (R14, R17). -/
def neighbourWords : Option Neighbour → List Word
  | some n =>
    identWords n.identity ++ [byteWord n.peerEnd, byteWord n.role, n.generation] ++ identWords n.lead ++ [n.heard]
  | none => List.replicate 8 0

/-- An end's state, count, flag and neighbour record (R14). -/
def State.endWords (s : State) (e : EndId) : List Word :=
  [(s.endOf e).state.code, pageWord (s.usableCount e), flagWord (s.singleLine e)] ++ neighbourWords (s.endOf e).neighbour

/-- The lines-and-ends record (R14). -/
def State.lineWords (s : State) : List Word :=
  s.lines.a1.words ++ s.lines.a2.words ++ s.lines.b1.words ++ s.lines.b2.words ++ s.endWords .a ++ s.endWords .b

/-- The traffic record of an end (R53). -/
def EndUnit.trafficWords (u : EndUnit) : List Word :=
  [pageWord u.fill, pageWord u.buffer.length, flagWord u.blocked, pageWord u.relayQ.length, pageWord u.originQ.length,
   flagWord u.sentStop, flagWord u.recvStop, flagWord u.stalled]

/-- Group state, released sides and release in effect (R109, R195). -/
def DoorGroup.words : DoorGroup → List Word
  | .idle => [0, 0, 0, 0, 0]
  | .released x r => [1, pageWord x.code, r.generation, pageWord r.first, pageWord r.last]
  | .closing => [2, 0, 0, 0, 0]

/-- The last release outcome record, 0 throughout when there is none (R102, R109). -/
def lastReleaseWords : Option LastRelease → List Word
  | some r => [r.generation, pageWord r.trainSide, pageWord r.first, pageWord r.last, pageWord r.sides.code, r.outcome.code]
  | none => List.replicate 6 0

/-- The door view (R109). -/
def State.doorViewWords (s : State) : List Word :=
  s.door.group.words ++ [s.door.drop.code] ++ lastReleaseWords s.door.lastRelease ++ [flagWord (s.level .dloop)]

/-- A side record with its age, 0 throughout when empty (R113, R116). -/
def doorRecordWords : Option DoorRecord → List Word
  | some r =>
    [r.generation, flagWord r.allClosed, flagWord r.overflow, flagWord r.mismatch, byteWord r.count]
      ++ listWords r.list 8 ++ [r.received, pageWord r.age]
  | none => List.replicate 15 0

/-- The door summary record (R116, R195). -/
def DoorUnit.summaryWords (d : DoorUnit) : List Word :=
  [d.summary.value.code, pageWord d.summary.count, flagWord d.summary.overflow] ++ listWords d.summary.list 8
    ++ doorRecordWords d.recF ++ doorRecordWords d.recR

/-- The heating view (R139). -/
def State.heatViewWords (s : State) : List Word :=
  let h := s.heat
  [h.state.code, pageWord h.limit, pageWord h.on]
    ++ (match h.ramp with | some r => [pageWord r.target, r.dueAt] | none => [0, 0])
    ++ (match h.grant with | some g => [g.generation, g.round, pageWord g.stages, flagWord g.void] | none => [0, 0, 0, 0])
    ++ [pageWord h.tSeen, pageWord h.demandQ, byteWord h.demandClass.code, pageWord h.capacity, pageWord h.derate,
        pageWord h.period, pageWord s.cfg.size, pageWord s.cfg.count, pageWord s.cfg.fallback, pageWord s.cfg.stagger,
        pageWord s.cfg.stageGap]

/-- A row of the last allocation table: five words (R139, R195). -/
def allocRowWords : Option AllocRow → List Word
  | some r =>
    [pageWord r.q, (match r.cls with | some c => byteWord c.code | none => 0), pageWord r.size,
     (match r.age with | some n => pageWord n | none => 0xFFFF), pageWord r.stages]
  | none => List.replicate 5 0

/-- The last allocation table, 0 throughout when empty (R139). -/
def allocWords : Option Allocation → List Word
  | some a =>
    [a.generation, a.round, pageWord a.capacity, pageWord a.derate, flagWord a.supply, pageWord a.effective,
     pageWord a.essential, pageWord a.available, pageWord a.comfort, pageWord a.leftEssential, pageWord a.leftComfort,
     pageWord a.total]
      ++ (List.range 32).flatMap (fun i => allocRowWords (a.rows[i]?))
  | none => List.replicate 172 0

/-- All inputs, in the order of the input table. -/
def allInputs : List Input := [.cplA, .cplB, .zspd, .dloop, .supply, .aux0, .aux1]

/-- The I/O view (R157, R195). -/
def State.ioViewWords (s : State) : List Word :=
  allInputs.flatMap (fun i => [flagWord (s.level i), pageWord s.cfg.filters[inputIdx i]])
    ++ [s.cfg.sens0.code, s.cfg.sens1.code]
    ++ (List.range 12).flatMap (fun i => [flagWord (s.outputs.getLsbD i), s.ownerCode i])

/-! ### Places and rewriting -/

/-- The ten page records. -/
def pageRecs : List Rec :=
  [.front, .consist, .lines, .trafficA, .trafficB, .doorView, .doorSummary, .heatView, .allocTable, .ioView]

/-- The offset of a record, where its counter stands (R168, R195). -/
def Rec.base : Rec → Nat
  | .front => 0x0000 | .consist => 0x1100 | .lines => 0x1410 | .trafficA => 0x1460 | .trafficB => 0x1480
  | .doorView => 0x14A0 | .doorSummary => 0x14E0 | .heatView => 0x1560 | .allocTable => 0x15C0 | .ioView => 0x1780
  | .slot n => slotBase n

/-- The runs of words of a page record behind its counter: offset and words. An inbox slot is written at delivery. -/
def State.recordRuns (s : State) : Rec → List (Nat × List Word)
  | .front => [(0x02, s.frontHead), (0x10, s.cfg.words)]
  | .consist => [(0x1102, s.consist.words), (0x1200, s.consist.slotWords)]
  | .lines => [(0x1412, s.lineWords)]
  | .trafficA => [(0x1462, s.ends.a.trafficWords)]
  | .trafficB => [(0x1482, s.ends.b.trafficWords)]
  | .doorView => [(0x14A2, s.doorViewWords)]
  | .doorSummary => [(0x14E2, s.door.summaryWords)]
  | .heatView => [(0x1562, s.heatViewWords)]
  | .allocTable => [(0x15C2, allocWords s.heat.alloc)]
  | .ioView => [(0x1782, s.ioViewWords)]
  | .slot _ => []

/-- The records that are rewritten at each change of any of their fields (R53, R57, R14, R109, R139, R171). The other three
are rewritten at the causes their rules name (R116, R139, R157). -/
def Rec.byChange : Rec → Bool
  | .front | .consist | .lines | .trafficA | .trafficB | .doorView | .heatView => true
  | .doorSummary | .allocTable | .ioView | .slot _ => false

/-- Writes a record with its counter as it stands. -/
def State.writeRecord (s : State) (r : Rec) : State :=
  s.modMem fun m => (s.recordRuns r).foldl (fun m x => m.writeWords x.1 x.2) (m.writeWords r.base [s.rev r])

/-- Ends the step's rewrite of a record, if it is to be rewritten: one begun in the step, or one by change whose fields
differ from those before the step `s0`. The counter becomes even (R169; log 6). -/
def State.closeRecord (s0 s : State) (r : Rec) : State :=
  if (s.rev r).getLsbD 0 then (s.setRev r (s.rev r + 1)).writeRecord r
  else if r.byChange && s.recordRuns r != s0.recordRuns r then (s.setRev r (s.rev r + 2)).writeRecord r
  else s

/-- The pages at the end of a step that began in `s0`. -/
def State.publish (s0 s : State) : State := pageRecs.foldl (fun s r => State.closeRecord s0 s r) s

end Sys2Proof.Machine
end

