-- ==== Sys2Proof/Machine/Relay.lean ====
section
/-! DEFINITION. The relay switch: queues, admission, placement, the transmit arbiter and the start of a transmission
(chapter 3, R15, R16, R22). -/

namespace Sys2Proof.Machine

/-! ### Queues (R45, R46, R48) -/

/-- The class code of a telegram; a lower one is a better class. -/
def Telegram.cls (t : Telegram) : Nat := t.kind.cls.code

/-- Class order: behind every telegram of its own and of a better class, ahead of every one of a worse class (R45). -/
def insertByClass (t : Telegram) (q : List Telegram) : List Telegram :=
  q.takeWhile (fun u => decide (u.cls ≤ t.cls)) ++ t :: q.dropWhile (fun u => decide (u.cls ≤ t.cls))

/-- Admission of a newcomer: at once below 8 telegrams; else by displacing the newest telegram of the worst class present,
which is the last one, if that class is worse than the newcomer's (R45, R46). -/
def admission (t : Telegram) (q : List Telegram) : Option (List Telegram) :=
  if q.length < 8 then some (insertByClass t q)
  else
    match q.getLast? with
    | some u => if t.cls < u.cls then some (insertByClass t q.dropLast) else none
    | none => none

/-- Admission to an origin queue: a DOOR or CONSIST newcomer that R46 does not let in takes the place of the oldest telegram
of its class, if there is one; any other is dropped (R48). -/
def admitOrigin (t : Telegram) (q : List Telegram) : Option (List Telegram) :=
  match admission t q with
  | some q' => some q'
  | none =>
    if t.cls ≤ 1 ∧ q.any (fun u => u.cls == t.cls) then some (insertByClass t (q.eraseP (fun u => u.cls == t.cls)))
    else none

/-! ### Building (R22) -/

/-- A unit's telegram: the part fills in class, origin, sequence, hop and checks, and the kind's counter steps (R22). -/
def State.build (s : State) (kind : Kind) (scope : Scope) (dest : Ident) (body route : List Byte) : Telegram × State :=
  let n := s.seqs[kind.idx]
  (buildTelegram kind scope s.cfg.identity dest n body route, { s with seqs := s.seqs.set kind.idx (succ1 n) })

/-! ### The transmitter (R15, R16, R50 to R52) -/

/-- The lines of an end that are sending (R1). -/
def State.sendingLines (s : State) (e : EndId) : List LineNo :=
  [LineNo.one, .two].filter (fun n => (s.lineOf ⟨e, n⟩).isSending)

/-- The identity of the lead a coach follows, as HAIL carries it (R16). -/
def State.followedLead (s : State) : Ident :=
  if s.consist.roleState = .lead then s.cfg.identity
  else
    match s.consist.state, s.consist.followed with
    | .surveying, some x => x.lead
    | _, _ => (s.consist.roster.map (·.leadId)).getD 0

/-- The body of a HAIL out of an end (R16, R194). -/
def State.hailBody (s : State) (e : EndId) : List Byte :=
  be32 s.cfg.identity ++ [endCode e, s.consist.roleState.code] ++ be16 s.consist.generation ++ be32 s.followedLead

/-- The transmit arbiter's choice (R51, R52): whether the relay queue goes, the telegram, and the end with that queue's
head gone and the relay-run counter stepped. -/
def EndUnit.arbitrate (u : EndUnit) (cfg : Settings) : Option (Bool × Telegram × EndUnit) :=
  match u.relayQ, u.originQ with
  | [], [] => none
  | r :: rq, [] => some (true, r, { u with relayQ := rq, relayRun := 0 })
  | [], o :: oq => some (false, o, { u with originQ := oq, relayRun := 0 })
  | r :: rq, o :: oq =>
    if r.cls < o.cls then some (true, r, { u with relayQ := rq, relayRun := 0 })
    else if o.cls < r.cls then some (false, o, { u with originQ := oq, relayRun := 0 })
    else
      match cfg.mode with
      | .fixed => some (true, r, { u with relayQ := rq, relayRun := 0 })
      | .weighted =>
        if u.relayRun < cfg.weight + 1 then some (true, r, { u with relayQ := rq, relayRun := u.relayRun + 1 })
        else some (false, o, { u with originQ := oq, relayRun := 0 })

/-- A telegram boundary of an end: an idle transmitter with a line sending starts a due HAIL (R16), else, with the end
LINKED and received-STOP clear, what the arbiter names (R50). The flag says that a telegram left the relay queue. -/
def State.start (s : State) (e : EndId) : State × Bool :=
  let u := s.endOf e
  let ls := s.sendingLines e
  if u.sending.isSome || ls.isEmpty then (s, false)
  else if u.hailDue && u.state != .uncoupled then
    let (t, s) := s.build .hail .neighbour 0 (s.hailBody e) []
    (s.modEnd e fun u => { u with hailDue := false, sending := some ⟨t, ls⟩ }, false)
  else if u.state = .linked ∧ u.recvStop = false then
    match u.arbitrate s.cfg with
    | some (fromRelay, t, u') => (s.modEnd e fun _ => { u' with sending := some ⟨t, ls⟩ }, fromRelay)
    | none => (s, false)
  else (s, false)

/-! ### Placement (R47) -/

/-- The telegram enters the origin queue of an end, if R45, R46 or R48 admits it; an idle transmitter starts at once (R50).
The flag says that it entered. -/
def State.enterOrigin (s : State) (e : EndId) (t : Telegram) : State × Bool :=
  match admitOrigin t (s.endOf e).originQ with
  | some q => (((s.modEnd e fun u => { u with originQ := q }).start e).1, true)
  | none => (s, false)

/-- Plain placement at one end: made only where the end is LINKED (R47). -/
def State.placeAt (s : State) (e : EndId) (t : Telegram) : State × Bool :=
  if (s.endOf e).state = .linked then s.enterOrigin e t else (s, false)

/-- Plain placement out of both ends; the two flags say at which ends it entered (R47). -/
def State.placeBoth (s : State) (t : Telegram) : State × Bool × Bool :=
  let (s, a) := s.placeAt .a t
  let (s, b) := s.placeAt .b t
  (s, a, b)

/-- Whether an end admits a jointly placed telegram; one that is not LINKED takes no part (R47). -/
def State.jointOk (s : State) (e : EndId) (t : Telegram) : Bool :=
  (s.endOf e).state != .linked || (admission t (s.endOf e).originQ).isSome

/-- Joint placement out of both ends: at all LINKED ends or at none (R47). `none` is QUEUE_FULL. -/
def State.placeJoint (s : State) (t : Telegram) : Option (State × Bool × Bool) :=
  if s.jointOk .a t && s.jointOk .b t then some (s.placeBoth t) else none

/-- The ends placed at, as a result word: bit 0 End A, bit 1 End B (R195). -/
def endsWord (a b : Bool) : Word := (if a then 1 else 0) + (if b then 2 else 0)

/-- A relayed telegram enters the relay queue towards an end, which admission has given as `q`; an idle transmitter starts
at once (R44, R50). -/
def State.enterRelay (s : State) (e : EndId) (q : List Telegram) : State :=
  ((s.modEnd e fun u => { u with relayQ := q }).start e).1

end Sys2Proof.Machine
end

