-- ==== Sys2Proof/Machine/Door.lean ====
section
/-! DEFINITION. The door unit: releases and closes, interlocks, DOORSTAT, the lead's records and the train door summary
(chapter 6). -/

namespace Sys2Proof.Machine

/-- The coach is closed while its DLOOP is qualified asserted (R97). -/
def State.closed (s : State) : Bool := s.level .dloop

/-! ### Applying commands (R102 to R108) -/

/-- The coach sides of a train side LEFT 1, RIGHT 2 or BOTH 3: by orientation, then swap, then fitting (R103). -/
def mapSides (train : Nat) (orientation : Byte) (swap : Bool) (fitted : Sides) : Sides :=
  let left := train == 1 || train == 3
  let right := train == 2 || train == 3
  let x : Sides := if orientation = 1 then ⟨left, right⟩ else ⟨right, left⟩
  let y : Sides := if swap then ⟨x.r, x.l⟩ else x
  ⟨y.l && fitted.l, y.r && fitted.r⟩

/-- The coach sides that R103 gives at this coach. -/
def State.mappedSides (s : State) (train : Nat) : Sides :=
  mapSides train s.consist.orientation s.cfg.swap s.cfg.fitted

/-- The outcome of a RELEASE at this coach: the first test that fails, in the order of R102. -/
def State.releaseOutcome (s : State) (gen : Word) (train first last : Nat) : ReleaseOutcome :=
  if s.consist.state ≠ .formed then .notFormed
  else if gen ≠ s.consist.generation then .generation
  else if ¬ (first ≤ s.consist.position ∧ s.consist.position ≤ last) then .outOfRange
  else if s.level .zspd = false then .noZeroSpeed
  else if s.mappedSides train = ⟨false, false⟩ then .noSide
  else .applied

/-- The sides released after a release of `x` (R104). -/
def DoorGroup.plus (g : DoorGroup) (x : Sides) : Sides :=
  match g with
  | .released y _ => ⟨y.l || x.l, y.r || x.r⟩
  | .idle => x
  | .closing => x

/-- A RELEASE, received or the lead's own: the outcome is recorded, and an applied one releases (R102, R104). -/
def State.applyRelease (s : State) (gen : Word) (train first last : Nat) : State :=
  let o := s.releaseOutcome gen train first last
  let x : Sides := if o = .applied then s.mappedSides train else ⟨false, false⟩
  let s := (s.modDoor fun d => { d with lastRelease := some ⟨gen, train, first, last, x, o⟩ }).touch .doorView
  if o = .applied then s.setGroup (.released (s.door.group.plus x) ⟨gen, first, last⟩) else s

/-- The group enters CLOSING for a reason, and its exit condition is tested at once (R106). -/
def State.enterClosing (s : State) (r : DropReason) : State :=
  (s.modDoor fun d => { d with drop := r }).setGroup (if s.closed then .idle else .closing)

/-- A CLOSE, received or the lead's own (R105). -/
def State.applyClose (s : State) : State :=
  match s.door.group with
  | .closing => s.modDoor fun d => { d with drop := .close }
  | .idle => s.enterClosing .close
  | .released _ _ => s.enterClosing .close

/-- ZSPD has changed to not asserted (R107). -/
def State.zeroSpeedLost (s : State) : State :=
  match s.door.group with
  | .released _ _ => (s.enterClosing .zeroSpeed).raise .doorInterlock
  | .idle => s
  | .closing => s

/-- DLOOP has changed to asserted (R106). -/
def State.loopClosed (s : State) : State :=
  match s.door.group with
  | .closing => s.setGroup .idle
  | .idle => s
  | .released _ _ => s

/-- The consist state leaves FORMED, or a roster is installed (R108). -/
def State.dropRelease (s : State) : State :=
  match s.door.group with
  | .released _ _ => (s.modDoor fun d => { d with drop := .consist }).setGroup .idle
  | .idle => s
  | .closing => s

/-- A consumed DOOR telegram (R101). -/
def State.takeDoor (s : State) (t : Telegram) : State :=
  if s.consist.roleState = .lead then s
  else if rd8 t.body 2 = 1 then
    if 1 ≤ (rd8 t.body 3).toNat ∧ (rd8 t.body 3).toNat ≤ 3 then
      s.applyRelease (rd16 t.body 0) (rd8 t.body 3).toNat (rd8 t.body 4).toNat (rd8 t.body 5).toNat
    else s
  else if rd8 t.body 2 = 2 then s.applyClose
  else s

/-! ### DOORSTAT (R110 to R112) -/

/-- The three flags of the route data as its first byte (R194). -/
def statFlags (allClosed mismatch overflow : Bool) : Byte :=
  (if allClosed then 1 else 0) ||| (if mismatch then 2 else 0) ||| (if overflow then 4 else 0)

/-- The side a DOORSTAT names (R111); at f + 1 it is open (log 14). -/
def State.statSide (s : State) : Byte :=
  if s.consist.position ≤ s.consist.f then sideCode .f
  else if s.consist.f + 1 < s.consist.position then sideCode .r
  else Config.statSideAtLead

/-- The conditions under which a coach originates DOORSTAT (R110). -/
def State.originatesStat (s : State) : Bool :=
  s.consist.roleState != .lead && s.consist.state == .formed && s.consist.terminal

/-- A DOORSTAT is built and placed out of the installed lead end (R110, R111). -/
def State.originateStat (s : State) : State :=
  let route :=
    if s.closed then [statFlags true false false, 0]
    else [statFlags false false false, 1, byteOf s.consist.position]
  let (t, s) := s.build .doorstat .towardLead 0 (be16 s.consist.generation ++ [s.statSide]) route
  match s.consist.leadEnd with
  | some e => (s.placeAt e t).1
  | none => s

/-- The conditions of R110 have just become true together, or not: the timer starts and a DOORSTAT goes, or it stops. -/
def State.startStat (s : State) : State :=
  if s.originatesStat then (s.modDoor fun d => { d with stat := some 0 }).originateStat
  else s.modDoor fun d => { d with stat := none }

/-- An open count with one more coach (R112); above 32 it is open (log 16). -/
def addOpen (n : Byte) : Byte :=
  if n.toNat < 32 then n + 1 else if n.toNat = 32 then n else Config.countOver n

/-- The route data of a DOORSTAT as this coach relays it (R112). -/
def State.mergeStat (s : State) (t : Telegram) : List Byte :=
  let flags := rd8 t.route 0
  let list := t.route.drop 2
  let isOpen := !s.closed
  let same := s.consist.state == .formed && s.consist.generation == rd16 t.body 0
  let room := decide (list.length < 8)
  [statFlags (flags.getLsbD 0 && !isOpen) (flags.getLsbD 1 || !same) (flags.getLsbD 2 || (isOpen && same && !room)),
   if isOpen then addOpen (rd8 t.route 1) else rd8 t.route 1]
    ++ (if isOpen && same && room then list ++ [byteOf s.consist.position] else list)

/-! ### The lead's records and summary (R113 to R117) -/

/-- The record a DOORSTAT gives at the lead (R113). -/
def State.recordOf (s : State) (t : Telegram) : DoorRecord :=
  { generation := rd16 t.body 0, allClosed := (rd8 t.route 0).getLsbD 0, overflow := (rd8 t.route 0).getLsbD 2,
    mismatch := (rd8 t.route 0).getLsbD 1 || rd16 t.body 0 != s.consist.generation, count := rd8 t.route 1,
    list := t.route.drop 2, received := s.ms, age := 0 }

/-- Both records are emptied (R117). -/
def State.emptyRecords (s : State) : State := s.modDoor fun d => { d with recF := none, recR := none }

/-- The records of the linked sides, side F first; an empty one is `none` (R115). -/
def State.linkedRecords (s : State) : List (Option DoorRecord) :=
  (if (s.endOf s.cfg.front).state = .linked then [s.door.recF] else [])
    ++ (if (s.endOf s.cfg.front.opp).state = .linked then [s.door.recR] else [])

/-- A record that the lead can vouch for: fresh and without mismatch (R114, R115). -/
def DoorRecord.good (r : DoorRecord) : Bool := decide (r.age < 300) && !r.mismatch

/-- The train door summary (R115, R116). -/
def State.summaryNow (s : State) : DoorSummary :=
  let recs := s.linkedRecords
  if s.consist.roleState ≠ .lead ∨ s.consist.state ≠ .formed then .unknown
  else if !recs.all (fun r => (r.map DoorRecord.good).getD false) then .unknown
  else
    let rs := recs.filterMap id
    if s.closed && rs.all (·.allClosed) then { value := .allClosed, count := 0, list := [], overflow := false }
    else
      let list := (if s.closed then [] else [byteOf (s.consist.f + 1)]) ++ rs.flatMap (·.list)
      { value := .opened, count := (if s.closed then 0 else 1) + (rs.map (·.count.toNat)).sum, list := list.take 8,
        overflow := decide (8 < list.length) || rs.any (·.overflow) }

/-- The summary is evaluated anew; a change replaces it, rewrites its record and raises DOOR_SUMMARY (R116). -/
def State.evalSummary (s : State) : State :=
  if s.summaryNow = s.door.summary then s
  else ((s.modDoor fun d => { d with summary := s.summaryNow }).touchAgain .doorSummary).raise .doorSummary

/-- A side record is written: the summary is evaluated, and the door summary record is rewritten whether it changes or not
(R113, R116). -/
def State.writeStat (s : State) (f : DoorUnit → DoorUnit) : State :=
  let s := s.modDoor f
  if s.summaryNow = s.door.summary then s.touchAgain .doorSummary else s.evalSummary

/-- A DOORSTAT consumed at the lead: taken when side and arrival end agree (R113). -/
def State.takeStat (s : State) (e : EndId) (t : Telegram) : State :=
  if rd8 t.body 2 = sideCode .f ∧ e = s.cfg.front then s.writeStat fun d => { d with recF := some (s.recordOf t) }
  else if rd8 t.body 2 = sideCode .r ∧ e = s.cfg.front.opp then
    s.writeStat fun d => { d with recR := some (s.recordOf t) }
  else s

end Sys2Proof.Machine
end

