-- ==== Sys2Proof/Machine/Heating.lean ====
section
/-! DEFINITION. The heating unit: rounds, bids, allocation, grants, the ramp and the heating states (chapter 7). -/

namespace Sys2Proof.Machine

/-! ### Allocation (R127 to R130), on plain numbers -/

/-- What a position asks for: stages, class and stage size. -/
structure Ask where
  q : Nat
  cls : HeatClass
  size : Nat
  deriving DecidableEq, Repr

/-- The effective capacity (R127). -/
def effective (capacity derate : Nat) (supply : Bool) : Nat := if supply then capacity * derate / 100 else 0

/-- The sum of the demands of a class (R128, R129). -/
def demandOf (cls : HeatClass) (asks : List Ask) : Nat :=
  (asks.map fun a => if a.cls = cls then a.q * a.size else 0).sum

/-- The first share of a position of the class in a pass with demand `e` and capacity `cap` (R128, R129). -/
def shareOf (cls : HeatClass) (e cap : Nat) (a : Ask) : Nat :=
  if a.cls = cls then (if e = 0 then 0 else if e ≤ cap then a.q else a.q * cap / e) else 0

/-- The top-up sweep over the positions in order, with remainder `u` (R128): the stages, one list entry a position. A stage
size of 0 fits into every remainder, one of 0 included, where R127 speaks of no stage at all (the model's choice,
log 35). -/
def topUp (cls : HeatClass) : Nat → List (Ask × Nat) → List Nat
  | _, [] => []
  | u, (a, n) :: rest =>
    if a.cls = cls ∧ n < a.q ∧ a.size ≤ u then (n + 1) :: topUp cls (u - a.size) rest else n :: topUp cls u rest

/-- The power of stages at their positions. -/
def powerOf (asks : List Ask) (ns : List Nat) : Nat := (List.zipWith (fun a n => n * a.size) asks ns).sum

/-- One pass over the positions of a class with a capacity (R128, R129): stages by position, 0 for another class. -/
def heatPass (cls : HeatClass) (cap : Nat) (asks : List Ask) : List Nat :=
  let e := demandOf cls asks
  let first := asks.map (shareOf cls e cap)
  if cap < e then topUp cls (cap - powerOf asks first) (asks.zip first) else first

/-- What the essential pass leaves over (R129). -/
def leftFor (cap : Nat) (asks : List Ask) : Nat := cap - powerOf asks (heatPass .essential cap asks)

/-- The stages granted by position (R130). -/
def allocate (cap : Nat) (asks : List Ask) : List Nat :=
  List.zipWith (· + ·) (heatPass .essential cap asks) (heatPass .comfort (leftFor cap asks) asks)

/-! ### The stages on and the heating states (R132 to R138) -/

/-- Enters SHED (R136). -/
def State.shed (s : State) : State :=
  let c := min s.cfg.fallback s.heat.on
  let s := s.modHeat fun h => { h with state := .shed, limit := c, ramp := none, loss := none }
  ((if c < s.heat.on then s.setStages c else s)).raise .heatShed

/-- The loss timer is tested against 3 times T seen (R136). -/
def State.testLoss (s : State) : State :=
  if s.heat.state = .held ∧ reached s.heat.loss (3000 * s.heat.tSeen) then s.shed else s

/-- T seen takes a value, and the loss timer is tested at once (R136). -/
def State.seeT (s : State) (t : Nat) : State := (s.modHeat fun h => { h with tSeen := t }).testLoss

/-- Enters SUPPLY_OFF from any other state (R137). -/
def State.supplyLost (s : State) : State :=
  if s.heat.state = .supplyOff then s
  else ((s.modHeat fun h => { h with state := .supplyOff, limit := 0, ramp := none, loss := none }).setStages 0).raise
    .heatShed

/-- The consist state leaves FORMED, or a roster is installed (R138). -/
def State.voidGrant (s : State) : State :=
  s.modHeat fun h =>
    let g := h.grant.map fun g => { g with void := true }
    if h.state = .held then { h with grant := g, ramp := none, limit := h.on } else { h with grant := g }

/-- A ramp scheduled afresh towards a target (R133). -/
def State.freshRamp (s : State) (target : Nat) : Ramp :=
  let delay := 200 + (s.consist.position - 1) * s.cfg.stagger
  { target := target, left := delay, dueAt := s.ms + BitVec.ofNat 16 delay }

/-- The ramp after a valid grant of `g` (R132 to R134). -/
def State.rampFor (s : State) (g : Nat) : Option Ramp :=
  if g ≤ s.heat.on then none
  else
    match s.heat.ramp with
    | some r => some { r with target := g }
    | none => some (s.freshRamp g)

/-- Applies a valid grant (R132). -/
def State.applyGrant (s : State) (gen round : Word) (stages : Nat) : State :=
  let g := min stages s.cfg.count
  let old := s.heat.limit
  let r := s.rampFor g
  let s := s.modHeat fun h =>
    { h with grant := some ⟨gen, round, g, false⟩, state := .held, limit := g, loss := some 0, ramp := r }
  let s := if g < s.heat.on then s.setStages g else s
  (if g ≠ old then s.raise .heatChange else s).touch .heatView

/-- A ramp step falls due: one stage more, and the next step or the ramp's end (R133). -/
def State.stepRamp (s : State) : State :=
  match s.heat.ramp with
  | some r =>
    if r.left = 0 then
      let c := s.heat.on + 1
      let next : Option Ramp :=
        if c < r.target then
          some { r with left := s.cfg.stageGap, dueAt := s.ms + BitVec.ofNat 16 s.cfg.stageGap }
        else none
      ((s.modHeat fun h => { h with ramp := next }).setStages c).touch .heatView
    else s
  | none => s

/-- The stages of the first pair for a position in a HEATGRANT's pairs (R131). -/
def pairFor (position : Nat) : List Byte → Option Nat
  | p :: n :: rest => if p.toNat = position then some n.toNat else pairFor position rest
  | [_] => none
  | [] => none

/-- A consumed HEATGRANT (R131). -/
def State.takeGrant (s : State) (t : Telegram) : State :=
  if s.consist.roleState ≠ .lead ∧ s.consist.state = .formed ∧ rd16 t.body 0 = s.consist.generation
      ∧ s.level .supply = true then
    match pairFor s.consist.position (t.body.drop 4) with
    | some n => s.applyGrant (rd16 t.body 0) (rd16 t.body 2) n
    | none => s
  else s

/-! ### Rounds and bids (R122 to R126) -/

/-- The number of the round last opened. -/
def HeatUnit.currentRound (h : HeatUnit) : Word := pred1 h.roundNo

/-- A round has opened since a bid was received (R125). -/
def Bid.older (b : Bid) : Bid := { b with age := b.age + 1 }

/-- The lead opens a round; every bid held is a round older (R122, R125). -/
def State.openRound (s : State) : State :=
  let n := s.heat.roundNo
  let s := s.modHeat fun h => { h with roundNo := succ1 n, round := some 0, bids := h.bids.map (Option.map Bid.older) }
  let (t, s) := s.build .heatcall .broadcast 0 (be16 s.consist.generation ++ be16 n ++ [byteOf s.heat.period]) []
  let s := (s.placeBoth t).1
  (s.modHeat fun h => { h with window := some 0 }).seeT s.heat.period

/-- The round timer is tested against the round period (R121, R122). -/
def State.testRound (s : State) : State := if reached s.heat.round (1000 * s.heat.period) then s.openRound else s

/-- The lead leaves FORMED or leaves LEAD: the round timer stops, an open window is abandoned (R126). -/
def State.stopRounds (s : State) : State := s.modHeat fun h => { h with round := none, window := none }

/-- The bid table is emptied (R126). -/
def State.emptyBids (s : State) : State := s.modHeat fun h => { h with bids := Vector.replicate 32 none }

/-- A consumed HEATCALL at a member (R123). -/
def State.takeCall (s : State) (t : Telegram) : State :=
  if s.consist.roleState = .lead then s
  else
    let s := s.seeT (clamp 1 10 (rd8 t.body 4).toNat)
    let call : CallId := ⟨t.origin, rd16 t.body 0, rd16 t.body 2⟩
    if s.consist.state = .formed ∧ call.generation = s.consist.generation ∧ s.heat.lastCall ≠ some call then
      let body :=
        [byteOf s.consist.position] ++ be32 s.cfg.identity ++ be16 s.consist.generation
          ++ [byteOf s.heat.demandQ, s.heat.demandClass.code]
      let (b, s) := (s.modHeat fun h => { h with lastCall := some call }).build .heatbid .towardLead 0 body []
      match s.consist.leadEnd with
      | some e => (s.placeAt e b).1
      | none => s
    else s

/-- Enters a bid at a position 1 to 32 of the bid table. -/
def State.setBid (s : State) (position : Nat) (b : Bid) : State :=
  s.modHeat fun h => { h with bids := h.bids.setIfInBounds (position - 1) (some b) }

/-- The roster entry at a position. -/
def ConsistUnit.entryAt (c : ConsistUnit) (position : Nat) : Option RosterEntry :=
  if position = 0 then none else ((c.roster.map (·.entries)).getD [])[position - 1]?

/-- A consumed HEATBID at the lead (R124). -/
def State.takeBid (s : State) (t : Telegram) : State :=
  let p := (rd8 t.body 0).toNat
  match heatClassOfCode (rd8 t.body 8).toNat with
  | some cls =>
    if s.consist.roleState = .lead ∧ s.consist.state = .formed ∧ rd16 t.body 5 = s.consist.generation
        ∧ p ≠ s.consist.position ∧ (s.consist.entryAt p).map (·.identity) = some (rd32 t.body 1) then
      s.setBid p ⟨(rd8 t.body 7).toNat, cls, s.heat.currentRound, 0⟩
    else s
  | none => s

/-- The bid used for a position, clamped to its stage count; one more than three rounds old is not used again (R125). -/
def askOf (b : Option Bid) (e : RosterEntry) : Ask :=
  match b with
  | some b => { q := if b.age ≤ 3 then min b.q e.count.toNat else 0, cls := b.cls, size := e.size.toNat }
  | none => { q := 0, cls := .comfort, size := e.size.toNat }

/-- One ask per position 1 to N (R125). -/
def State.asks (s : State) : List Ask :=
  let entries := (s.consist.roster.map (·.entries)).getD []
  List.zipWith askOf s.heat.bids.toList entries

/-- A row of the last allocation table (R139). -/
def allocRow (b : Option Bid) (x : Ask × Nat) : AllocRow :=
  { q := x.1.q, cls := b.map (·.cls), size := x.1.size, age := b.map (·.age), stages := x.2 }

/-- The last allocation table that the window's close writes (R130, R139). -/
def State.allocationNow (s : State) : Allocation :=
  let supply := s.level .supply
  let cap := effective s.heat.capacity s.heat.derate supply
  let asks := s.asks
  let ns := allocate cap asks
  let left := leftFor cap asks
  { generation := s.consist.generation, round := s.heat.currentRound, capacity := s.heat.capacity,
    derate := s.heat.derate, supply := supply, effective := cap, essential := demandOf .essential asks,
    available := left, comfort := demandOf .comfort asks, leftEssential := left,
    leftComfort := left - powerOf asks (heatPass .comfort left asks), total := powerOf asks ns,
    rows := List.zipWith allocRow s.heat.bids.toList (asks.zip ns) }

/-- The pairs of position and stages of a HEATGRANT, from a position on (R130, R194). -/
def grantPairs : Nat → List Nat → List Byte
  | _, [] => []
  | p, n :: ns => byteOf p :: byteOf n :: grantPairs (p + 1) ns

/-- The bid window closes: own bid, allocation, HEATGRANT, own entry (R125, R130). -/
def State.closeWindow (s : State) : State :=
  let s := s.setBid s.consist.position ⟨s.heat.demandQ, s.heat.demandClass, s.heat.currentRound, 0⟩
  let a := s.allocationNow
  let s := (s.modHeat fun h => { h with window := none, alloc := some a }).touch .allocTable
  let stages := a.rows.map (·.stages)
  let (t, s) := s.build .heatgrant .broadcast 0 (be16 a.generation ++ be16 a.round ++ grantPairs 1 stages) []
  let s := (s.placeBoth t).1
  if s.level .supply then s.applyGrant a.generation a.round (stages.getD (s.consist.position - 1) 0) else s

end Sys2Proof.Machine
end

