-- ==== Sys2Proof/Machine/Consist.lean ====
section
/-! DEFINITION. The consist unit: link changes and triggers, surveys run and followed, roster assembly, acceptance and
installation, lead conflict (chapters 4 and 5). -/

namespace Sys2Proof.Machine

/-! ### Consist state (R56, R57) -/

/-- The coach leaves FORMED: release dropped, grant void, rounds and DOORSTAT stopped (R108, R110, R126, R138). -/
def State.leaveFormed (s : State) : State :=
  (s.dropRelease.voidGrant.stopRounds).modDoor fun d => { d with stat := none }

/-- The consist state takes a value; a change rewrites the consist page and raises CONSIST_CHANGE, and the train door
summary is evaluated (R57, R95, R116). What the same response set before in the header goes with that rewrite (log 6). -/
def State.setConsist (s : State) (x : ConsistState) : State :=
  if s.consist.state = x then s
  else
    let old := s.consist.state
    let s := ((s.modConsist fun c => { c with state := x }).touchAgain .consist).raise .consistChange
    (if old = .formed then s.leaveFormed else s).evalSummary

/-- The header is rewritten for a change of role state, resurvey flag or survey cause since `old` that came without a change
of consist state (R57; log 6). -/
def State.showHeader (s : State) (old : ConsistUnit) : State :=
  if s.consist.state = old.state
      ∧ ¬ (s.consist.roleState = old.roleState ∧ s.consist.resurvey = old.resurvey ∧ s.consist.surveyCause = old.surveyCause)
  then s.touchAgain .consist
  else s

/-- Writes the survey cause (R59). -/
def State.setCause (s : State) (c : CauseKind) (endCode : Byte) (identity : Ident) : State :=
  s.modConsist fun u => { u with surveyCause := ⟨c, endCode, identity⟩ }

/-- The lead end held (R56). -/
def State.heldEnd (s : State) : Option EndId :=
  if s.consist.roleState = .lead then none
  else
    match s.consist.state with
    | .surveying => s.consist.followed.map (·.leadEnd)
    | .formed => s.consist.leadEnd
    | .stale => s.consist.leadEnd
    | .unformed => none
    | .settling => none

/-- A lead outranks another: greater rank, or equal rank and greater identity (R55). -/
def outranks (rank : Nat) (identity : Ident) (rank' : Nat) (identity' : Ident) : Bool :=
  decide (rank' < rank) || (rank == rank' && decide (identity'.toNat < identity.toNat))

/-! ### Link changes (R59 to R62) -/

/-- The kind of a link change (R18). -/
inductive LinkKind where
  | enter | leave | newPeer
  deriving DecidableEq, Repr

/-- R194. -/
def LinkKind.code : LinkKind → Byte
  | .enter => 1 | .leave => 2 | .newPeer => 3

/-- A link change as an end controller hands it to the consist unit (R18): the end, the kind, and the identities concerned:
the one held before (LEAVE, NEW_PEER) and the new one (ENTER, NEW_PEER). -/
structure LinkChange where
  side : EndId
  kind : LinkKind
  former : Option Ident
  peer : Option Ident
  deriving DecidableEq, Repr

/-- An end enters LINKED; `peer` is the identity of the entering HAIL, if it was one (R12, R18). -/
def LinkChange.enter (e : EndId) (peer : Option Ident) : LinkChange := ⟨e, .enter, none, peer⟩

/-- An end leaves LINKED; `former` is the identity its record held (R13, R18). -/
def LinkChange.leave (e : EndId) (former : Option Ident) : LinkChange := ⟨e, .leave, former, none⟩

/-- A HAIL names another peer than the record held, or fills an empty record (R17, R18). -/
def LinkChange.newPeer (e : EndId) (former : Option Ident) (peer : Ident) : LinkChange := ⟨e, .newPeer, former, some peer⟩

/-- The identity that the survey cause and a CHANGE take from a link change: the new one for NEW_PEER, else the one
carried, or 0 (R59, R62). -/
def LinkChange.identity (c : LinkChange) : Ident :=
  match c.kind with
  | .enter => c.peer.getD 0
  | .leave => c.former.getD 0
  | .newPeer => c.peer.getD 0

/-- A lead takes a trigger (R59, R60). A lead is never UNFORMED or STALE (R56; log 23). -/
def State.trigger (s : State) (c : CauseKind) (endCode : Byte) (identity : Ident) : State :=
  match s.consist.state with
  | .formed =>
    ((s.setCause c endCode identity).modConsist fun u => { u with holdOff := some 0, partials := 0 }).setConsist .settling
  | .settling => ((s.setCause c endCode identity).modConsist fun u => { u with holdOff := some 0 }).showHeader s.consist
  | .surveying => (s.modConsist fun u => { u with resurvey := true }).showHeader s.consist
  | .unformed => s
  | .stale => s

/-- A member's response to a link change: STALE from FORMED, and a CHANGE out of the lead end held, or out of every LINKED
end where none is held (R61, R62). -/
def State.reportChange (s : State) (c : LinkChange) : State :=
  let s := if s.consist.state = .formed then s.setConsist .stale else s
  let (t, s) := s.build .change .towardLead 0 ([endCode c.side, c.kind.code] ++ be32 c.identity) []
  match s.heldEnd with
  | some h => (s.placeAt h t).1
  | none => (s.placeBoth t).1

/-- A link change handed to the consist unit (R18, R59, R61). -/
def State.linkChange (s : State) (c : LinkChange) : State :=
  if s.consist.roleState = .lead then s.trigger .link (endCode c.side) c.identity else s.reportChange c

/-- A CHANGE consumed at the lead (R59, R62). -/
def State.takeChange (s : State) (t : Telegram) : State :=
  s.trigger .change (rd8 t.body 0) (if rd32 t.body 2 = 0 then t.origin else rd32 t.body 2)

/-! ### Roster assembly (R81 to R86) -/

/-- The number of filled entries before the first empty slot (R81). -/
def RollSide.run (x : RollSide) : Nat := (x.entries.toList.takeWhile Option.isSome).length

/-- The length of a side after truncation: t of a complete side, else up to the first empty slot (R81). -/
def RollSide.length (x : RollSide) : Nat := x.complete.getD x.run

/-- The entries of a side at the distances 1 to `n`. -/
def RollSide.kept (x : RollSide) (n : Nat) : List RollEntry := (x.entries.toList.take n).filterMap id

/-- R84: the orientation of a coach of a side; `sideF` says whether it is side F. An end code other than A and B is open
(log 12). -/
def orientationFrom (sideF : Bool) (facing : Byte) : Byte :=
  if facing = 1 then (if sideF then 2 else 1)
  else if facing = 2 then (if sideF then 1 else 2)
  else Config.orientationOf sideF facing

/-- A member's roster entry (R85). -/
def RollEntry.toEntry (sideF : Bool) (x : RollEntry) : RosterEntry :=
  { identity := x.origin, orientation := orientationFrom sideF x.facing, lead := false, terminal := x.terminal,
    doors := x.doors, size := x.size, count := x.count }

/-- The lead's roster entry for sides of length `f` and `r` (R84, R85). -/
def State.leadEntry (s : State) (f r : Nat) : RosterEntry :=
  { identity := s.cfg.identity, orientation := endCode s.cfg.front, lead := true, terminal := f == 0 || r == 0,
    doors := byteOf s.cfg.fitted.code, size := byteOf s.cfg.size, count := byteOf s.cfg.count }

/-- Two entries carry the same identity (R85). -/
def hasDuplicate : List Ident → Bool
  | [] => false
  | i :: is => is.contains i || hasDuplicate is

/-- Roster assembly from the two roll lists (R81 to R85). -/
def State.assemble (s : State) : Roster :=
  let c := s.consist
  let f := c.sideF.length
  let r0 := c.sideR.length
  let long := decide (32 < f + r0 + 1)
  let r := if long then 31 - f else r0
  let entries :=
    ((c.sideF.kept f).reverse.map (RollEntry.toEntry true)) ++ [s.leadEntry f r]
      ++ (c.sideR.kept r).map (RollEntry.toEntry false)
  { generation := c.candidate, leadId := s.cfg.identity, leadRank := byteOf s.cfg.rank, f := f,
    isPartial := c.sideF.complete.isNone || c.sideR.complete.isNone || long, overlength := long,
    dupIdentity := hasDuplicate (entries.map (·.identity)), entries := entries }

/-- An entry of a ROSTER body (R194). -/
def RosterEntry.bytes (e : RosterEntry) : List Byte :=
  be32 e.identity ++ [e.orientation, byteOf e.flags, e.doors, e.size, e.count]

/-- The body of a ROSTER (R86, R194). -/
def Roster.body (r : Roster) : List Byte :=
  be16 r.generation ++ be32 r.leadId
    ++ [r.leadRank, byteOf r.entries.length, byteOf r.f, byteOf r.flags]
    ++ r.entries.flatMap RosterEntry.bytes

/-! ### Installation (R87, R88, R92, R93) -/

/-- What every installation does to the door and heating units, the consist page and the event unit (R93, R116). -/
def State.afterInstall (s : State) : State :=
  ((s.dropRelease.voidGrant.touchAgain .consist).raise .consistChange).evalSummary

/-- The lead installs its own roster (R87, R88, R63, R117, R126), and a lead then FORMED opens a round (R122). -/
def State.leadInstall (s : State) (r : Roster) : State :=
  let own := r.entries[r.f]?
  let partials := if r.isPartial then min 3 (s.consist.partials + 1) else 0
  let again := s.consist.resurvey || (r.isPartial && decide (partials < 3))
  let s := s.modConsist fun c =>
    { c with roster := some r, lastGeneration := r.generation, position := r.f + 1,
             orientation := (own.map (·.orientation)).getD 0, leadEnd := none, awayEnd := none,
             terminal := (own.map (·.terminal)).getD false, partials := partials, resurvey := false,
             state := if again then .settling else .formed, holdOff := if again then some 0 else c.holdOff,
             surveyCause := if again then ⟨.resurvey, 0, 0⟩ else c.surveyCause }
  let s := s.emptyRecords.emptyBids.afterInstall
  if again then s else s.openRound

/-- The survey ends: the timer stops, the roster is assembled, sent and installed (R74, R86, R87). -/
def State.endSurvey (s : State) : State :=
  let s := s.modConsist fun c => { c with survey := none }
  let r := s.assemble
  let (t, s) := s.build .roster .broadcast 0 r.body []
  ((s.placeBoth t).1).leadInstall r

/-! ### Running a survey (R64 to R66, R72 to R75) -/

/-- The peer generations of the neighbour records (R65). -/
def State.peerGenerations (s : State) : List Word :=
  (s.ends.a.neighbour.map (·.generation)).toList ++ (s.ends.b.neighbour.map (·.generation)).toList

/-- The candidate generation: successors of the last generation, passing over the neighbours' values (R65). -/
def State.nextCandidate (s : State) : Word :=
  let g := succ1 s.consist.lastGeneration
  let g := if s.peerGenerations.contains g then succ1 g else g
  if s.peerGenerations.contains g then succ1 g else g

/-- The end of a side as seen from the lead (R66). -/
def State.endOfSide (s : State) : Side → EndId
  | .f => s.cfg.front
  | .r => s.cfg.front.opp

/-- Changes the survey context's side. -/
def State.modSide (s : State) (x : Side) (f : RollSide → RollSide) : State :=
  s.modConsist fun c =>
    match x with
    | .f => { c with sideF := f c.sideF }
    | .r => { c with sideR := f c.sideR }

/-- One side of the survey context. -/
def State.side (s : State) : Side → RollSide
  | .f => s.consist.sideF
  | .r => s.consist.sideR

/-- SURVEY goes out of a side, or the side is complete with t = 0 (R66). -/
def State.sendSurvey (s : State) (x : Side) : State :=
  let e := s.endOfSide x
  if (s.endOf e).state = .linked then
    let body :=
      be32 s.cfg.identity ++ [byteOf s.cfg.rank] ++ be16 s.consist.candidate ++ [sideCode x]
        ++ be16 (BitVec.ofNat 16 s.cfg.timeout)
    let (t, s) := s.build .survey .broadcast 0 body []
    (s.placeAt e t).1
  else s.modSide x fun r => { r with complete := some 0 }

/-- A survey with both sides complete ends at once (R74). -/
def State.endIfComplete (s : State) : State :=
  if s.consist.sideF.complete.isSome && s.consist.sideR.complete.isSome then s.endSurvey else s

/-- Starts a survey (R64). -/
def State.beginSurvey (s : State) : State :=
  let g := s.nextCandidate
  let s := s.modConsist fun c =>
    { c with candidate := g, sideF := .empty, sideR := .empty, resurvey := false, survey := some 0, holdOff := none }
  (((s.setConsist .surveying).sendSurvey .f).sendSurvey .r).endIfComplete

/-- The smallest distance that completes a side (R73). -/
def RollSide.completion (x : RollSide) : Option Nat :=
  ((x.entries.toList.takeWhile Option.isSome).findIdx? (fun e => (e.map (·.terminal)).getD false)).map (· + 1)

/-- The entry a ROLL gives (R72). -/
def rollEntry (t : Telegram) : RollEntry :=
  { origin := t.origin, facing := rd8 t.body 8, terminal := rd8 t.body 9 != 0, doors := rd8 t.body 10,
    size := rd8 t.body 11, count := rd8 t.body 12 }

/-- A side with an entry at a distance 1 to 31 filled, if it is empty, and its completeness tested (R72, R73). -/
def RollSide.fill (x : RollSide) (d : Nat) (e : RollEntry) : RollSide :=
  if x.entries.toList[d - 1]? = some none then
    let y := { x with entries := x.entries.setIfInBounds (d - 1) (some e) }
    if y.complete.isSome then y else { y with complete := y.completion }
  else x

/-- The side a ROLL's side code names at the end it arrived on (R72). -/
def State.rollSide (s : State) (e : EndId) (code : Byte) : Option Side :=
  if code = sideCode .f ∧ e = s.cfg.front then some .f
  else if code = sideCode .r ∧ e = s.cfg.front.opp then some .r
  else none

/-- A ROLL consumed at the lead (R72 to R74). -/
def State.takeRoll (s : State) (e : EndId) (t : Telegram) : State :=
  let d := (rd8 t.body 7).toNat
  match s.rollSide e (rd8 t.body 6) with
  | some x =>
    if s.consist.roleState = .lead ∧ s.consist.state = .surveying ∧ rd32 t.body 0 = s.cfg.identity
        ∧ rd16 t.body 4 = s.consist.candidate ∧ 1 ≤ d ∧ d ≤ 31 then
      (s.modSide x fun r => r.fill d (rollEntry t)).endIfComplete
    else s
  | none => s

/-- A survey in progress is abandoned (R75). -/
def State.abandonSurvey (s : State) : State :=
  if s.consist.survey.isSome then
    s.modConsist fun c => { c with survey := none, sideF := .empty, sideR := .empty, resurvey := false }
  else s

/-- The coach leaves role state LEAD: survey abandoned, hold-off stopped, flag cleared, rounds stopped, records and bids
emptied (R60, R63, R75, R117, R126). -/
def State.leaveLead (s : State) : State :=
  let s := s.abandonSurvey
  let s := s.modConsist fun c => { c with holdOff := none, resurvey := false }
  s.stopRounds.emptyRecords.emptyBids

/-! ### Following a survey (R68 to R71, R76, R77) -/

/-- What a SURVEY's body records, with the distance and the end it arrived on (R69). -/
def followedFrom (e : EndId) (t : Telegram) : Followed :=
  { lead := rd32 t.body 0, rank := rd8 t.body 4, candidate := rd16 t.body 5, side := rd8 t.body 7,
    distance := t.hop.toNat, leadEnd := e, timeout := (rd16 t.body 8).toNat }

/-- The body of the ROLL for a followed survey (R70). R194 gives a set terminal byte any value other than 0; the model sends
1 (log 36). -/
def State.rollBody (s : State) (x : Followed) : List Byte :=
  be32 x.lead ++ be16 x.candidate
    ++ [x.side, byteOf x.distance, endCode x.leadEnd,
        if (s.endOf x.leadEnd.opp).state = .linked then 0 else 1,
        byteOf s.cfg.fitted.code, byteOf s.cfg.size, byteOf s.cfg.count]

/-- The coach follows a SURVEY (R69, R70). -/
def State.follow (s : State) (e : EndId) (t : Telegram) : State :=
  let x := followedFrom e t
  let s := (s.modConsist fun c => { c with followed := some x, rosterWait := some 0 }).setConsist .surveying
  let (r, s) := s.build .roll .towardLead 0 (s.rollBody x) []
  (s.placeAt e r).1

/-- A member's decision on a SURVEY (R68). -/
def State.follows (s : State) (t : Telegram) : Bool :=
  match s.consist.state, s.consist.followed with
  | .surveying, some x =>
    outranks (rd8 t.body 4).toNat (rd32 t.body 0) x.rank.toNat x.lead
      || (rd32 t.body 0 == x.lead && rd16 t.body 5 != x.candidate)
  | _, _ => true

/-- The lead yields to the lead of a SURVEY and follows it (R76). -/
def State.yieldTo (s : State) (e : EndId) (t : Telegram) : State :=
  let u := (s.leaveLead.modConsist fun c => { c with roleState := .yielded }).raise .leadConflict
  let u := (u.setCause .conflict 0 (rd32 t.body 0)).evalSummary
  (u.follow e t).showHeader s.consist

/-- A SURVEY consumed; the flag answers the dispatcher that relay is withheld (R68, R71, R76, R77). -/
def State.takeSurvey (s : State) (e : EndId) (t : Telegram) : State × Bool :=
  if s.consist.roleState = .lead then
    if outranks (rd8 t.body 4).toNat (rd32 t.body 0) s.cfg.rank s.cfg.identity then (s.yieldTo e t, false)
    else if s.consist.state = .surveying then (s, true)
    else ((s.setCause .conflict 0 (rd32 t.body 0)).beginSurvey, true)
  else if s.follows t then (s.follow e t, false)
  else (s, true)

/-! ### Accepting a roster (R89 to R92) -/

/-- The entry of a ROSTER body at an offset (R194). -/
def entryFrom (b : List Byte) (o : Nat) : RosterEntry :=
  { identity := rd32 b o, orientation := rd8 b (o + 4), lead := (rd8 b (o + 5)).getLsbD 0,
    terminal := (rd8 b (o + 5)).getLsbD 1, doors := rd8 b (o + 6), size := rd8 b (o + 7), count := rd8 b (o + 8) }

/-- The roster of a ROSTER body (R194). -/
def rosterFrom (b : List Byte) : Roster :=
  { generation := rd16 b 0, leadId := rd32 b 2, leadRank := rd8 b 6, f := (rd8 b 8).toNat,
    isPartial := (rd8 b 9).getLsbD 0, overlength := (rd8 b 9).getLsbD 1, dupIdentity := (rd8 b 9).getLsbD 2,
    entries := (List.range ((b.length - 10) / 9)).map (fun i => entryFrom b (10 + 9 * i)) }

/-- A ROSTER is well formed (R89). `n` is the N of its body. -/
def Roster.wellFormed (r : Roster) (n : Nat) : Bool :=
  r.generation != 0 && decide (1 ≤ n) && decide (n ≤ 32) && r.entries.length == n && decide (r.f ≤ n - 1)
    && r.entries.countP (·.lead) == 1
    && (r.entries[r.f]?.map (fun e => e.lead && e.identity == r.leadId)).getD false
    && r.entries.all (fun e => e.orientation == 1 || e.orientation == 2)

/-- A well-formed ROSTER is accepted (R90). -/
def State.accepts (s : State) (r : Roster) : Bool :=
  s.consist.roleState != .lead && s.consist.state == .surveying && r.generation != s.consist.generation
    && (s.consist.followed.map (fun x => x.lead == r.leadId && x.candidate == r.generation)).getD false

/-- The position a member computes (R91). A side other than F and R leaves it open (log 13). -/
def positionIn (f : Nat) (x : Followed) : Nat :=
  if x.side = sideCode .f then f + 1 - x.distance
  else if x.side = sideCode .r then f + 1 + x.distance
  else Config.positionOf x.side f x.distance

/-- The coach's own entry, where the computed position is confirmed (R91). -/
def State.confirmedEntry (s : State) (r : Roster) (x : Followed) : Option RosterEntry :=
  let p := positionIn r.f x
  if p = 0 then none else (r.entries[p - 1]?).filter (fun e => e.identity == s.cfg.identity)

/-- A member installs an accepted roster (R92, R93); a FORMED terminal coach starts DOORSTAT (R110). -/
def State.memberInstall (s : State) (r : Roster) (x : Followed) : State :=
  let base := { s.consist with roster := some r, lastGeneration := r.generation, followed := none, rosterWait := none }
  let c :=
    match s.confirmedEntry r x with
    | some e =>
      { base with state := .formed, position := positionIn r.f x, orientation := e.orientation,
                  leadEnd := some x.leadEnd, awayEnd := some x.leadEnd.opp,
                  terminal := (s.endOf x.leadEnd.opp).state != .linked }
    | none =>
      { base with state := .unformed, position := 0, orientation := 0, leadEnd := none, awayEnd := none,
                  terminal := false }
  ((s.modConsist fun _ => c).afterInstall).startStat

/-- A consumed ROSTER (R89, R90). -/
def State.takeRoster (s : State) (t : Telegram) : State :=
  let r := rosterFrom t.body
  match s.consist.followed with
  | some x => if r.wellFormed (rd8 t.body 7).toNat && s.accepts r then s.memberInstall r x else s
  | none => s

/-- The roster wait has ended without a roster (R78). -/
def State.endWait (s : State) : State :=
  let x : ConsistState := if s.consist.roster.isSome then .stale else .unformed
  (s.modConsist fun c => { c with followed := none, rosterWait := none }).setConsist x

end Sys2Proof.Machine
end

