-- ==== Sys2Proof/Machine/Blocks.lean ====
section
/-! DEFINITION. Order blocks: result codes, status codes and the completion of a block (R172, R177, R178, R195). -/

namespace Sys2Proof.Machine

/-- Result codes (R178). -/
inductive ResultCode where
  | done | wrongState | notLead | badField | range | consistUnsettled | noZeroSpeed | busy | tooManyInFlight | queueFull
  | inboxFull | timeout | unknownOrder | aborted
  deriving DecidableEq, Repr

/-- R178. -/
def ResultCode.code : ResultCode → Word
  | .done => 0 | .wrongState => 1 | .notLead => 2 | .badField => 3 | .range => 4 | .consistUnsettled => 5
  | .noZeroSpeed => 6 | .busy => 7 | .tooManyInFlight => 8 | .queueFull => 9 | .inboxFull => 10 | .timeout => 11
  | .unknownOrder => 12 | .aborted => 13

/-- Block status codes (R172). -/
def stFREE : Word := 0
/-- R172. -/
def stREADY : Word := 1
/-- R172. -/
def stQUEUED : Word := 2
/-- R172. -/
def stTAKEN : Word := 3
/-- R172. -/
def stDONE : Word := 4
/-- R172. -/
def stREFUSED : Word := 5
/-- R172. -/
def stABORTED : Word := 6

/-- The status a result code completes a block with (R178). -/
def ResultCode.status : ResultCode → Word
  | .done => stDONE
  | .aborted => stABORTED
  | .wrongState | .notLead | .badField | .range | .consistUnsettled | .noZeroSpeed | .busy | .tooManyInFlight
  | .queueFull | .inboxFull | .timeout | .unknownOrder => stREFUSED

/-- The 13 words of the result fields (R195): the words given, and 0 behind them (R178). -/
def resultWords (ws : List Word) : List Word := (List.range 13).map (fun i => ws.getD i 0)

/-- Writes a block's outcome: result code and result fields, then the status (R177). -/
def State.writeOutcome (s : State) (b : Fin 16) (r : ResultCode) (fields : List Word) : State :=
  (s.modMem (·.writeWords (blockBase b + 4) (r.code :: resultWords fields))).setBlockStatus b r.status

/-- A block completes: the outcome is written and ORDER_DONE raised (R177, R178). -/
def State.completeBlock (s : State) (b : Fin 16) (r : ResultCode) (fields : List Word) : State :=
  (s.writeOutcome b r fields).raise .orderDone

/-- A block is held by the part while QUEUED or TAKEN (R172). -/
def State.blockHeld (s : State) (b : Fin 16) : Bool := s.blockStatus b == stQUEUED || s.blockStatus b == stTAKEN

/-- The block numbers in order. -/
def allBlocks : List (Fin 16) := [0, 1, 2, 3, 4, 5, 6, 7, 8, 9, 10, 11, 12, 13, 14, 15]

end Sys2Proof.Machine
end

