-- ==== Sys2Proof/Machine/Message.lean ====
section
/-! DEFINITION. The message unit: delivery into the inbox, acknowledgement, the in-flight list (chapter 8). -/

namespace Sys2Proof.Machine

/-- The inbox slot numbers in order. -/
def allSlots : List (Fin 8) := [0, 1, 2, 3, 4, 5, 6, 7]

/-- A slot is FREE when its release number, the whole word the host wrote, equals its delivery number (R146, R195). -/
def State.slotFree (s : State) (n : Fin 8) : Bool := s.mem.readWord (slotBase n + 4) == BitVec.ofNat 16 s.deliveries[n]

/-- The lowest-numbered FREE slot (R147). -/
def State.freeSlot (s : State) : Option (Fin 8) := allSlots.find? s.slotFree

/-- The delivery number after one (R146). -/
def stepDelivery (n : Nat) : Nat := if n = 255 then 1 else n + 1

/-- A MSG body is usable: a length of 1 to 200 that agrees with the body length (R147). -/
def usableMsg (body : List Byte) : Bool :=
  decide (1 ≤ (rd8 body 0).toNat) && decide ((rd8 body 0).toNat ≤ 200) && body.length == (rd8 body 0).toNat + 1

/-- The position of the first roster entry that carries an identity, or 0 (R147). -/
def ConsistUnit.positionOf (c : ConsistUnit) (i : Ident) : Nat :=
  match ((c.roster.map (·.entries)).getD []).findIdx? (fun e => e.identity == i) with
  | some n => n + 1
  | none => 0

/-- The kind word of a slot: BROADCAST 1, UNICAST 2 (R195). -/
def slotKind (x : Scope) : Word := if x = .coach then 2 else 1

/-- The message bytes padded with 0 to 200 (R147). -/
def messageBytes (body : List Byte) : List Byte := (List.range 200).map (fun i => (body.drop 1).getD i 0)

/-- Delivers a usable MSG into a slot (R147). -/
def State.deliverInto (s : State) (n : Fin 8) (t : Telegram) : State :=
  let d := stepDelivery s.deliveries[n]
  let rev := s.rev (.slot n) + 2
  let s := { s with deliveries := s.deliveries.set n d }.setRev (.slot n) rev
  let s := s.modMem fun m =>
    ((m.writeWords (slotBase n) [rev, BitVec.ofNat 16 d]).writeWords (slotBase n + 6)
      (identWords t.origin ++ [pageWord (s.consist.positionOf t.origin), slotKind t.scope, s.ms, byteWord (rd8 t.body 0)])).write
      (slotBase n + 0x12) (messageBytes t.body)
  s.raise .messageArrived

/-- The MSGACK results (R194). -/
def ackDelivered : Byte := 1
/-- R194. -/
def ackInboxFull : Byte := 2

/-- Answers a unicast MSG out of the end it arrived on; a MSG of origin 0 gets no answer (R148). -/
def State.acknowledge (s : State) (e : EndId) (t : Telegram) (result : Byte) : State :=
  if t.origin = 0 then s
  else
    let (a, s) := s.build .msgack .coach t.origin (be16 t.seq ++ [result]) []
    (s.placeAt e a).1

/-- A consumed MSG (R147, R148). -/
def State.takeMsg (s : State) (e : EndId) (t : Telegram) : State :=
  if usableMsg t.body then
    match s.freeSlot with
    | some n => if t.scope = .coach then (s.deliverInto n t).acknowledge e t ackDelivered else s.deliverInto n t
    | none => if t.scope = .coach then s.acknowledge e t ackInboxFull else s
  else s

/-- The in-flight entry a MSGACK matches (R150). -/
def State.matching (s : State) (t : Telegram) : Option InFlight :=
  s.inFlight.find? (fun x => x.dest == t.origin && x.seq == rd16 t.body 0)

/-- An in-flight entry leaves the list and its block completes (R144). -/
def State.finishFlight (s : State) (x : InFlight) (r : ResultCode) (fields : List Word) : State :=
  { s with inFlight := s.inFlight.erase x }.completeBlock x.block r fields

/-- A consumed MSGACK (R150). -/
def State.takeAck (s : State) (e : EndId) (t : Telegram) : State :=
  match s.matching t with
  | some x =>
    let fields := [x.seq, (endCode e).setWidth 16, pageWord x.timer]
    if rd8 t.body 2 = ackDelivered then s.finishFlight x .done fields
    else if rd8 t.body 2 = ackInboxFull then s.finishFlight x .inboxFull fields
    else s
  | none => s

/-- The in-flight entry of a block whose deadline timer has reached 1000 ms (R145). -/
def State.overdue (s : State) (b : Fin 16) : Option InFlight :=
  s.inFlight.find? (fun x => x.block == b && decide (1000 ≤ x.timer))

/-- The deadline of a block's entry passes (R145). -/
def State.passDeadline (s : State) (b : Fin 16) : State :=
  match s.overdue b with
  | some x => s.finishFlight x .timeout []
  | none => s

end Sys2Proof.Machine
end

