-- ==== Sys2Proof/Machine/Dispatcher.lean ====
section
/-! DEFINITION. Receive buffers and the dispatcher: entry, consumption, relaying, blocked heads, and what a departure from
a relay queue brings about (R34 to R44, R49, R50). -/

namespace Sys2Proof.Machine

/-! ### The receive buffer (R34 to R37) -/

/-- A telegram that passed the filter is offered to the receive buffer: it enters at the tail, and high water is tested, or
it is discarded (R34, R36). -/
def State.offer (s : State) (e : EndId) (t : Telegram) : State :=
  let u := s.endOf e
  if u.fill + t.length ≤ 1024 then
    s.modEnd e fun u =>
      let u := { u with buffer := u.buffer ++ [t] }
      if s.cfg.high ≤ u.fill ∧ u.sentStop = false then { u with sentStop := true, flowDue := some .stop } else u
  else s.raise .rxOverflow

/-- A buffer head leaves, and low water is tested (R35, R37). -/
def EndUnit.dropHead (low : Nat) (u : EndUnit) : EndUnit :=
  let u := { u with buffer := u.buffer.tail, consumed := false, blocked := false }
  if u.sentStop = true ∧ u.fill ≤ low then
    { u with sentStop := false, flowDue := if u.flowDue = some .stop then none else some .go }
  else u

/-- The head of an end's buffer leaves (R35). -/
def State.dropHead (s : State) (e : EndId) : State := s.modEnd e (EndUnit.dropHead s.cfg.low)

/-- The head waits for room in a relay queue; a broadcast one is marked CONSUMED (R41, R44). -/
def State.blockHead (s : State) (e : EndId) (consumed : Bool) : State :=
  s.modEnd e fun u => { u with blocked := true, consumed := consumed }

/-! ### Routing (R40 to R44) -/

/-- A telegram handed to the unit that owns its kind; the flag says that relay is withheld (R40, R41). -/
def State.consume (s : State) (e : EndId) (t : Telegram) : State × Bool :=
  match t.kind with
  | .change => (if s.consist.roleState = .lead then s.takeChange t else s, false)
  | .survey => s.takeSurvey e t
  | .roll => (s.takeRoll e t, false)
  | .roster => (s.takeRoster t, false)
  | .door => (s.takeDoor t, false)
  | .doorstat => (if s.consist.roleState = .lead then s.takeStat e t else s, false)
  | .heatcall => (s.takeCall t, false)
  | .heatbid => (s.takeBid t, false)
  | .heatgrant => (s.takeGrant t, false)
  | .msg => (s.takeMsg e t, false)
  | .msgack => (s.takeAck e t, false)
  | .hail => (s, false)

/-- The telegram as it enters a relay queue: hop, route data and route check (R23, R44). -/
def State.relayForm (s : State) (t : Telegram) : Telegram :=
  t.relayed (if t.kind = .doorstat then s.mergeStat t else t.route)

/-- The relay leg of a head received at `e`: it enters the relay queue towards the other end, or waits there blocked, or
leaves the buffer when that end is not LINKED (R41, R42, R43, R44). -/
def State.relayHead (s : State) (e : EndId) (t : Telegram) (consumed : Bool) : State :=
  if (s.endOf e.opp).state = .linked then
    match admission (s.relayForm t) (s.endOf e.opp).relayQ with
    | some q => (s.dropHead e).enterRelay e.opp q
    | none => s.blockHead e consumed
  else s.dropHead e

/-- A BROADCAST head (R41). -/
def State.routeBroadcast (s : State) (e : EndId) (t : Telegram) : State :=
  if (s.endOf e).consumed then s.relayHead e t true
  else
    let (s, withheld) := s.consume e t
    if withheld then s.dropHead e else s.relayHead e t true

/-- A TOWARD_LEAD head (R42). -/
def State.routeTowardLead (s : State) (e : EndId) (t : Telegram) : State :=
  if s.consist.roleState = .lead then (s.consume e t).1.dropHead e
  else
    match s.heldEnd with
    | some h => if h = e then s.dropHead e else s.relayHead e t false
    | none => s.relayHead e t false

/-- A COACH head (R43). -/
def State.routeCoach (s : State) (e : EndId) (t : Telegram) : State :=
  if t.dest = s.cfg.identity then (s.consume e t).1.dropHead e else s.relayHead e t false

/-- The dispatcher takes the head of an end's receive buffer (R40). No NEIGHBOUR telegram reaches it. -/
def State.dispatchHead (s : State) (e : EndId) : State :=
  match (s.endOf e).buffer with
  | [] => s
  | t :: _ =>
    if 31 < t.hop.toNat then s.dropHead e
    else
      match t.scope with
      | .broadcast => s.routeBroadcast e t
      | .towardLead => s.routeTowardLead e t
      | .coach => s.routeCoach e t
      | .neighbour => s.dropHead e

/-- The dispatcher acts on a head that is not blocked, and on a blocked one whose relay leg is now free (R40, R44;
log 25). -/
def State.dispatch (s : State) (e : EndId) : State :=
  if (s.endOf e).blocked && (s.endOf e.opp).state == .linked && decide (8 ≤ (s.endOf e.opp).relayQ.length) then s
  else s.dispatchHead e

/-- A blocked head is taken afresh after a departure from the relay queue it waits for (R44, R49). -/
def State.retake (s : State) (e : EndId) : State := if (s.endOf e).blocked then s.dispatchHead e else s

/-- A telegram boundary of an end; a departure from its relay queue lets the blocked head of the opposite buffer be taken
afresh (R44, R49, R50). -/
def State.boundary (s : State) (e : EndId) : State :=
  let (s, fromRelay) := s.start e
  if fromRelay then s.retake e.opp else s

end Sys2Proof.Machine
end

