-- ==== Sys2Proof/Machine/Coupler.lean ====
section
/-! DEFINITION. Line units and end controllers: line states and scores, delivery, the duplicate filter, the neighbour
record, leaving LINKED, flow characters received (chapters 1 and 2, R38, R39). -/

namespace Sys2Proof.Machine

/-! ### Line states (R1 to R9) -/

/-- The three output conditions of a line (1.1). -/
inductive LineOutput where
  | off | idle | bytes
  deriving DecidableEq, Repr

/-- The output condition of a line (R1): a DARK line offers idle drive in ACTIVE at an end that is not UNCOUPLED, and is off
elsewhere, as in HALTED (R10); a REST line is off; the others send. While RESET is held every line is off (log 5). -/
def State.lineOutput (s : State) (l : LineId) : LineOutput :=
  if s.resetHeld then .off
  else
    match (s.lineOf l).state with
    | .dark => if s.part = .active ∧ (s.endOf l.side).state ≠ .uncoupled then .idle else .off
    | .settling | .up | .suspect => .bytes
    | .rest => .off

/-- A line that is not sending carries no byte of a telegram in transmission (R5, R15). -/
def Sending.without (n : LineNo) (x : Sending) : Sending := { x with lines := x.lines.filter (fun m => m != n) }

/-- A line unit takes new contents; a change of line state raises LINE_CHANGE, and a line that stops sending stops carrying
the telegram in transmission (R5, R14). A telegram that no line carries any more stays in transmission until its
TELEGRAM_BOUNDARY (the model's choice, log 33). -/
def State.setLine (s : State) (l : LineId) (u : LineUnit) : State :=
  let old := s.lineOf l
  let s := s.modLine l fun _ => u
  let s := if old.state = u.state then s else s.raise .lineChange
  if old.isSending && !u.isSending then
    s.modEnd l.side fun x => { x with sending := x.sending.map (Sending.without l.no) }
  else s

/-- A line is forced to DARK, or enters it: assembler emptied, timers stopped, score kept (R3, R5, R9). -/
def State.lineDark (s : State) (l : LineId) : State :=
  let u := s.lineOf l
  if u.state = .dark then s
  else s.setLine l { u with state := .dark, asm := .waiting, settling := none, rest := none }

/-- Whether a line may enter SETTLING (R3). -/
def State.maySettle (s : State) (l : LineId) : Bool :=
  s.part == .active && (s.endOf l.side).state != .uncoupled && (s.lineOf l).energy && (s.lineOf l).state == .dark

/-- A DARK line is tested (R3). -/
def State.testDark (s : State) (l : LineId) : State :=
  if s.maySettle l then
    s.setLine l { s.lineOf l with state := .settling, score := 0, settling := some 0, rest := none, asm := .waiting }
  else s

/-- Both lines of an end are tested (R3). -/
def State.testDarkLines (s : State) (e : EndId) : State := (s.testDark ⟨e, .one⟩).testDark ⟨e, .two⟩

/-- The state a line has after a change of its score (R4, R8). -/
def judged (x : LineState) (score : Nat) : LineState :=
  match x with
  | .dark => .dark
  | .rest => .rest
  | .settling => if 32 ≤ score then .rest else .settling
  | .up => if 32 ≤ score then .rest else if 16 ≤ score then .suspect else .up
  | .suspect => if 32 ≤ score then .rest else if score ≤ 7 then .up else .suspect

/-- The score takes a value and the thresholds are applied; REST empties the assembler and starts its timer (R8, R9). -/
def State.rescore (s : State) (l : LineId) (score : Nat) : State :=
  let u := s.lineOf l
  let x := judged u.state score
  if x = .rest then
    s.setLine l { u with state := .rest, score := score, asm := .waiting, settling := none, rest := some 0 }
  else s.setLine l { u with state := x, score := score }

/-- A bad candidate adds 4, up to 32 (R7). -/
def State.scoreBad (s : State) (l : LineId) : State := s.rescore l (min 32 ((s.lineOf l).score + 4))

/-- A good telegram subtracts 1, down to 0 (R7). -/
def State.scoreGood (s : State) (l : LineId) : State := s.rescore l ((s.lineOf l).score - 1)

/-- The detector reports energy present (R2, R3). -/
def State.energyOn (s : State) (l : LineId) : State :=
  ((s.modLine l fun u => { u with energy := true }).testDark l).boundary l.side

/-- The detector reports energy absent (R2, R5). -/
def State.energyOff (s : State) (l : LineId) : State :=
  let s := s.modLine l fun u => { u with energy := false }
  if (s.lineOf l).isSending then s.lineDark l else s

/-- A line qualifies at the end of SETTLING (R4). -/
def State.qualifyLine (s : State) (l : LineId) : State :=
  let u := s.lineOf l
  if u.state = .settling ∧ reached u.settling 100 then
    s.setLine l { u with state := if u.score < 16 then .up else .suspect, settling := none }
  else s

/-- A line's rest ends: DARK, and the conditions of R3 at once (R9). -/
def State.endRest (s : State) (l : LineId) : State :=
  let u := s.lineOf l
  if u.state = .rest ∧ reached u.rest 1000 then ((s.lineDark l).testDark l).boundary l.side else s

/-- The gap timer of an open candidate has reached 2 ms. -/
def Assembler.gapOver : Assembler → Bool
  | .opened _ g => decide (2 ≤ g)
  | .escaped _ g => decide (2 ≤ g)
  | .waiting => false
  | .discarding => false

/-- A gap timeout (R6). -/
def State.gapTimeout (s : State) (l : LineId) : State :=
  let u := s.lineOf l
  if u.isSending && u.asm.gapOver then (s.setLine l { u with asm := .waiting }).scoreBad l else s

/-! ### Delivery (R12, R17, R31, R32) -/

/-- The key of a telegram with an entry time (R20, R32). -/
def Telegram.key (t : Telegram) (now : Word) : FilterKey := ⟨t.origin, t.kind, t.seq, now⟩

/-- A held key is that of a telegram (R32). -/
def FilterKey.isKeyOf (k : FilterKey) (t : Telegram) : Bool := k.origin == t.origin && k.kind == t.kind && k.seq == t.seq

/-- A key enters as the newest; of 16 held the oldest goes first (R32). -/
def enterKey (ks : List FilterKey) (k : FilterKey) : List FilterKey := (if ks.length < 16 then ks else ks.tail) ++ [k]

/-- The neighbour record of a HAIL (R17, R194). -/
def neighbourFrom (body : List Byte) (now : Word) : Neighbour :=
  { identity := rd32 body 0, peerEnd := rd8 body 4, role := rd8 body 5, generation := rd16 body 6, lead := rd32 body 8,
    heard := now }

/-- A HAIL that passed the filter; `entered` says that its delivery took the end into LINKED (R12, R17, R18). -/
def State.takeHail (s : State) (e : EndId) (entered : Bool) (t : Telegram) : State :=
  let n := neighbourFrom t.body s.ms
  if n.identity = 0 then (if entered then s.linkChange (.enter e none) else s)
  else
    let old := (s.endOf e).neighbour
    let s := (s.modEnd e fun u => { u with neighbour := some n }).touch .lines
    if entered then s.linkChange (.enter e (some n.identity))
    else if old.map (·.identity) = some n.identity then s
    else if (s.endOf e).state = .linked then s.linkChange (.newPeer e (old.map (·.identity)) n.identity)
    else s

/-- The link is refreshed: the link timer restarts, and a PROBING end enters LINKED (R12). -/
def EndUnit.refreshed (u : EndUnit) : EndUnit :=
  match u.state with
  | .uncoupled => u
  | .probing => { u with state := .linked, link := some 0 }
  | .linked => { u with link := some 0 }

/-- A good telegram delivered by a usable line; at an end that enters LINKED by it the train door summary is evaluated (R12,
R31, R32, R116). -/
def State.deliver (s : State) (e : EndId) (t : Telegram) : State :=
  let entered := (s.endOf e).state == .probing
  let s := s.modEnd e EndUnit.refreshed
  let s := if entered then (s.raise .lineChange).evalSummary else s
  if (s.endOf e).filter.any (fun k => k.isKeyOf t) then (if entered then s.linkChange (.enter e none) else s)
  else
    let s := s.modEnd e fun u => { u with filter := enterKey u.filter (t.key s.ms) }
    if t.kind = .hail then s.takeHail e entered t
    else (if entered then s.linkChange (.enter e none) else s).offer e t

/-- A candidate closed on a line: checked, scored, and delivered from a usable line if good (R29, R31). -/
def State.closeCandidate (s : State) (l : LineId) (c : List Byte) : State :=
  match checkCandidate c with
  | .bad _ => s.scoreBad l
  | .good t =>
    let usable := (s.lineOf l).usable
    let s := s.scoreGood l
    if usable then s.deliver l.side t else s

/-- A key of the filter has reached 100 ms (R33). -/
def FilterKey.expired (now : Word) (k : FilterKey) : Bool := decide (100 ≤ (now - k.entered).toNat)

/-- The oldest key goes when its 100 ms have passed (R33). -/
def State.expireKey (s : State) (e : EndId) : State :=
  match (s.endOf e).filter with
  | k :: ks => if k.expired s.ms then s.modEnd e fun u => { u with filter := ks } else s
  | [] => s

/-! ### Flow characters received (R26, R38, R39) -/

/-- A flow character on a line: it restarts the gap timer of an open candidate, and passes to the end controller from a
usable line (R1, R26). -/
def State.flowOn (s : State) (l : LineId) (f : State → State) : State :=
  let u := s.lineOf l
  if u.isSending then
    let s := s.modLine l fun u => { u with asm := u.asm.restartGap }
    if u.usable then f s else s
  else s

/-- A STOP reaches an end (R38, R39). -/
def State.stopped (s : State) (e : EndId) : State :=
  if (s.endOf e).recvStop then s else s.modEnd e fun u => { u with recvStop := true, stall := some 0 }

/-- A GO reaches an end (R38, R39). -/
def State.released (s : State) (e : EndId) : State :=
  if (s.endOf e).recvStop then
    (s.modEnd e fun u => { u with recvStop := false, stall := none, stalled := false }).boundary e
  else s

/-- STOP received on a line. -/
def State.recvStop (s : State) (l : LineId) : State := s.flowOn l (fun s => s.stopped l.side)

/-- GO received on a line. -/
def State.recvGo (s : State) (l : LineId) : State := s.flowOn l (fun s => s.released l.side)

/-- A byte received on a line; STOP and GO are flow characters wherever they come (R26 to R28). -/
def State.byteIn (s : State) (l : LineId) (v : Byte) : State :=
  if v = chSTOP then s.recvStop l
  else if v = chGO then s.recvGo l
  else
    let u := s.lineOf l
    if u.isSending then
      let s' := s.setLine l { u with asm := (asmStep u.asm v).1 }
      match (asmStep u.asm v).2 with
      | .nothing => s'
      | .bad _ => s'.scoreBad l
      | .closed c => s'.closeCandidate l c
    else s

/-- Received-STOP has been held for 200 ms (R39). -/
def State.stallOut (s : State) (e : EndId) : State :=
  if reached (s.endOf e).stall 200 then
    (s.modEnd e fun u => { u with stall := none, stalled := true }).raise .flowStall
  else s

/-! ### End states (R11, R13) -/

/-- What leaving LINKED does to an end (R13). A HAIL in transmission is kept. -/
def EndUnit.unlinked (u : EndUnit) : EndUnit :=
  { u with state := .probing, relayQ := [], originQ := [], recvStop := false, stall := none, stalled := false,
           filter := [], neighbour := none, link := none,
           sending := u.sending.filter (fun x => x.telegram.kind == .hail) }

/-- What entering UNCOUPLED does to an end beyond leaving LINKED (R11). -/
def EndUnit.uncoupled (u : EndUnit) : EndUnit :=
  { u with state := .uncoupled, sending := none, hailDue := false, hail := none, link := none }

/-- An end has left LINKED: the train door summary is evaluated, LEAVE is handed, the opposite buffer's blocked head is
taken afresh, and the transmitter is at a boundary (R13, R18, R49, R116). `peer` is the identity held before. -/
def State.afterLeave (s : State) (e : EndId) (peer : Option Ident) : State :=
  ((s.evalSummary.linkChange (.leave e peer)).retake e.opp).boundary e

/-- The peer identity held, if any (R18). -/
def EndUnit.peer (u : EndUnit) : Option Ident := u.neighbour.map (·.identity)

/-- The link timer has expired (R13). -/
def State.linkLost (s : State) (e : EndId) : State :=
  let u := s.endOf e
  if u.state = .linked ∧ reached u.link 150 then
    ((s.modEnd e EndUnit.unlinked).raise .lineChange).afterLeave e u.peer
  else s

/-- Both lines of an end are forced DARK (R3, R11). -/
def State.darkLines (s : State) (e : EndId) : State := (s.lineDark ⟨e, .one⟩).lineDark ⟨e, .two⟩

/-- The coupler input of an end has become not asserted (R11). -/
def State.uncouple (s : State) (e : EndId) : State :=
  let u := s.endOf e
  match u.state with
  | .uncoupled => s
  | .probing => ((s.modEnd e EndUnit.uncoupled).raise .lineChange).darkLines e
  | .linked =>
    ((((s.modEnd e fun u => u.unlinked.uncoupled)).raise .lineChange).darkLines e).afterLeave e u.peer

/-- In ACTIVE, an end in PROBING starts its HAIL timer with HAIL due, and its DARK lines are tested (R11, R16, R19). -/
def State.startProbing (s : State) (e : EndId) : State :=
  if s.part = .active then
    ((s.modEnd e fun u => { u with hail := some 0, hailDue := true }).testDarkLines e).boundary e
  else s

/-- The coupler input of an end has become asserted (R11). -/
def State.couple (s : State) (e : EndId) : State :=
  if (s.endOf e).state = .uncoupled then
    ((s.modEnd e fun u => { u with state := .probing, link := none }).raise .lineChange).startProbing e
  else s

/-- The HAIL timer has reached 50 ms (R16). -/
def State.hailOut (s : State) (e : EndId) : State :=
  if reached (s.endOf e).hail 50 then
    (s.modEnd e fun u => { u with hail := some 0, hailDue := true }).boundary e
  else s

/-- The transmitter has sent the last byte of its telegram (R50). -/
def State.telegramEnd (s : State) (e : EndId) : State :=
  if (s.endOf e).sending.isSome then (s.modEnd e fun u => { u with sending := none }).boundary e else s

/-- The lines a flow character goes out on: those that carry the telegram in transmission, else those sending (R15, R36). -/
def State.flowLines (s : State) (e : EndId) : List LineNo :=
  match (s.endOf e).sending with
  | some x => x.lines
  | none => s.sendingLines e

/-- A due flow character goes out, if a line can carry it (R36, R37). -/
def State.sendFlow (s : State) (e : EndId) : State :=
  match (s.endOf e).flowDue with
  | some c =>
    if (s.flowLines e).isEmpty then s
    else s.modEnd e fun u => { u with flowDue := none, lastFlow := some (c, s.flowLines e) }
  | none => s

end Sys2Proof.Machine
end

