-- ==== Sys2Proof/Machine/Effect.lean ====
section
/-! DEFINITION. What a command's step adds around its effect: nothing happens while RESET is held, and the pages are
rewritten last. -/

namespace Sys2Proof.Machine

/-- A step of the part: its effect, then the pages (R169). While RESET is held it has none (R167, R184; log 5). -/
def partStep (f : State → State) (s : State) : Host.Outcome State Fault Refusal :=
  if s.resetHeld then .next s else .next (State.publish s (f s))

end Sys2Proof.Machine
end

