-- ==== Sys2Proof/Machine/EndFamily.lean ====
section
/-! DEFINITION. Commands of the end controllers and the relay switch: end timers, the transmitter, flow characters sent,
the dispatcher, the duplicate filter (chapters 1 to 3). -/

namespace Sys2Proof.Machine

/-- LINK_TIMER (R13). -/
def execLinkTimer (e : EndId) (s : State) : Host.Outcome State Fault Refusal := partStep (fun s => s.linkLost e) s

/-- HAIL_TIMER (R16). -/
def execHailTimer (e : EndId) (s : State) : Host.Outcome State Fault Refusal := partStep (fun s => s.hailOut e) s

/-- TELEGRAM_BOUNDARY (R50). -/
def execTelegramBoundary (e : EndId) (s : State) : Host.Outcome State Fault Refusal :=
  partStep (fun s => s.telegramEnd e) s

/-- FLOW_CHARACTER_SENT (R36, R37). -/
def execFlowCharacterSent (e : EndId) (s : State) : Host.Outcome State Fault Refusal := partStep (fun s => s.sendFlow e) s

/-- STALL_TIMER (R39). -/
def execStallTimer (e : EndId) (s : State) : Host.Outcome State Fault Refusal := partStep (fun s => s.stallOut e) s

/-- DISPATCH (R40). -/
def execDispatch (e : EndId) (s : State) : Host.Outcome State Fault Refusal := partStep (fun s => s.dispatch e) s

/-- KEY_EXPIRY (R33). -/
def execKeyExpiry (e : EndId) (s : State) : Host.Outcome State Fault Refusal := partStep (fun s => s.expireKey e) s

end Sys2Proof.Machine
end

