-- ==== Sys2Proof/Machine/InputFilter.lean ====
section
/-! DEFINITION. The seven inputs: raw levels, filters, qualified changes and the acts of their readers (chapter 9). -/

namespace Sys2Proof.Machine

/-- The sensitivity and class of an AUX input. -/
def State.auxChange (s : State) (x : Sensitivity) (c : EventClass) (level : Bool) : State :=
  if x.names level then s.raise c else s

/-- The act of the block that reads an input, on a qualified change to `level` (R156). A change of DLOOP evaluates the train
door summary (R116). -/
def State.act (s : State) (i : Input) (level : Bool) : State :=
  match i with
  | .cplA => if level then s.couple .a else s.uncouple .a
  | .cplB => if level then s.couple .b else s.uncouple .b
  | .zspd => if level then s else s.zeroSpeedLost
  | .dloop => (if level then s.loopClosed else s).evalSummary
  | .supply => if !level && s.part == .active then s.supplyLost else s
  | .aux0 => s.auxChange s.cfg.sens0 .aux0 level
  | .aux1 => s.auxChange s.cfg.sens1 .aux1 level

/-- The filter time in force of an input (R154). -/
def State.filterTime (s : State) (i : Input) : Nat := s.cfg.filters[inputIdx i]

/-- The filter timer of an input has reached the filter time: a qualified change (R153, R156, R157). -/
def State.qualify (s : State) (i : Input) : State :=
  let r := s.inputs.get i
  if reached r.timer (s.filterTime i) then
    ((s.modInput i fun r => { r with qualified := r.raw, timer := none }).touchAgain .ioView).act i r.raw
  else s

/-- The raw level of an input takes a value (R153): the filter timer runs while it differs from the qualified level. A
filter time of 0 makes the change a qualified one at once. -/
def State.rawChange (s : State) (i : Input) (level : Bool) : State :=
  let r := s.inputs.get i
  let t :=
    if level = r.qualified then none
    else match r.timer with | some n => some n | none => some 0
  let s := s.modInput i fun r => { r with raw := level, timer := t }
  if s.filterTime i = 0 then s.qualify i else s

end Sys2Proof.Machine
end

