-- ==== Sys2Proof/Machine/Configure.lean ====
section
/-! DEFINITION. CONFIGURE: the tests and clamps of its fields, and the entry to ACTIVE (R180, R181). -/

namespace Sys2Proof.Machine

/-! ### Codes of parameters (R194, R195) -/

/-- The role of a code. -/
def roleOfCode (n : Nat) : Option Role := if n = 1 then some .lead else if n = 2 then some .member else none

/-- The end of a code. -/
def endOfCode (n : Nat) : Option EndId := if n = 1 then some .a else if n = 2 then some .b else none

/-- The sensitivity of a code. -/
def sensOfCode (n : Nat) : Option Sensitivity :=
  if n = 1 then some .rising else if n = 2 then some .falling else if n = 3 then some .both
  else if n = 4 then some .levelHigh else if n = 5 then some .levelLow else none

/-- The arbiter mode of a code. -/
def modeOfCode (n : Nat) : Option ArbMode := if n = 1 then some .fixed else if n = 2 then some .weighted else none

/-- The door sides of a code. -/
def fittedOfCode (n : Nat) : Option Sides := if n ≤ 3 then some (sidesOfCode n) else none

/-! ### Fields (R180) -/

/-- The number of the first faulty field, in table order; 0 when every field that could be faulty is good. -/
def OrderCopy.faultyField (o : OrderCopy) : Nat :=
  if o.ident 0 = 0 then 1
  else if roleOfCode (o.num 4) = none then 2
  else if endOfCode (o.num 8) = none then 4
  else if fittedOfCode (o.num 12) = none then 6
  else if sensOfCode (o.num 34) = none then 11
  else if sensOfCode (o.num 36) = none then 12
  else if modeOfCode (o.num 42) = none then 15
  else 0

/-- The settings that a CONFIGURE without a faulty field takes, after clamping. -/
def OrderCopy.settings (o : OrderCopy) : Settings :=
  let count := min 6 (o.num 16)
  let high := clamp 256 960 (o.num 38) / 16 * 16
  { identity := o.ident 0, role := (roleOfCode (o.num 4)).getD .member, rank := min 3 (o.num 6),
    front := (endOfCode (o.num 8)).getD .a, swap := o.num 10 != 0,
    fitted := (fittedOfCode (o.num 12)).getD ⟨false, false⟩, size := clamp 1 40 (o.num 14), count := count,
    fallback := min count (o.num 18),
    filters := #v[o.num 20 % 256, o.num 22 % 256, o.num 24 % 256, o.num 26 % 256, o.num 28 % 256, o.num 30 % 256,
                  o.num 32 % 256],
    sens0 := (sensOfCode (o.num 34)).getD .both, sens1 := (sensOfCode (o.num 36)).getD .both, high := high,
    low := clamp 64 (high - 64) (o.num 40), mode := (modeOfCode (o.num 42)).getD .weighted, weight := min 7 (o.num 44),
    timeout := clamp 200 2000 (o.num 46), stagger := min 500 (o.num 48), stageGap := clamp 250 5000 (o.num 50),
    levels := #v[min 3 (o.num 52), min 3 (o.num 54), min 3 (o.num 56), min 3 (o.num 58), min 3 (o.num 60),
                 min 3 (o.num 62), min 3 (o.num 64), min 3 (o.num 66), min 3 (o.num 68), min 3 (o.num 70),
                 min 3 (o.num 72), min 3 (o.num 74)] }

/-- The offsets of the twelve level words. -/
def levelOffsets : List Nat := [52, 54, 56, 58, 60, 62, 64, 66, 68, 70, 72, 74]

/-- The numbers of the fields taken other than as written, in table order. A filter time is never counted; the levels are
one field (R180; log 17). -/
def OrderCopy.clampedFields (o : OrderCopy) : List Nat :=
  let c := o.settings
  [(3, o.num 6 != c.rank), (5, decide (1 < o.num 10)), (7, o.num 14 != c.size), (8, o.num 16 != c.count),
   (9, o.num 18 != c.fallback), (13, o.num 38 != c.high), (14, o.num 40 != c.low), (16, o.num 44 != c.weight),
   (17, o.num 46 != c.timeout), (18, o.num 48 != c.stagger), (19, o.num 50 != c.stageGap),
   (20, levelOffsets.any (fun i => decide (3 < o.num i)))].filterMap (fun x => if x.2 then some x.1 else none)

/-! ### Entry to ACTIVE (R181) -/

/-- The consist unit's entry: a LEAD enters SETTLING with cause ACTIVE, a MEMBER stays UNFORMED (R58). -/
def State.consistActive (s : State) : State :=
  match s.cfg.role with
  | .lead =>
    (((s.modConsist fun c => { c with role := .lead, roleState := .lead, holdOff := some 0 }).setCause .active 0 0)).setConsist
      .settling
  | .member => s.modConsist fun c => { c with role := .member, roleState := .member }

/-- A level sensitivity whose level is already active sets its class pending (R159). -/
def State.testAux (s : State) : State :=
  let s := if s.cfg.sens0.activeAt (s.level .aux0) then s.raise .aux0 else s
  if s.cfg.sens1.activeAt (s.level .aux1) then s.raise .aux1 else s

/-- The heating unit's entry (R137). -/
def State.heatActive (s : State) : State := if s.level .supply then s else s.supplyLost

/-- The end's entry: an end in PROBING starts HAIL and its lines are tested (R10, R19). -/
def State.endActive (s : State) (e : EndId) : State :=
  if (s.endOf e).state = .uncoupled then s else s.startProbing e

/-- The inputs whose running filter timers have reached the new filter times change at once (R154). -/
def State.qualifyAll (s : State) : State := allInputs.foldl State.qualify s

/-- The part takes the settings and enters ACTIVE, each block in turn (R181; log 17). -/
def State.activate (s : State) (c : Settings) : State :=
  let s := { s with cfg := c, part := .active, gpHeld := false }.touchAgain .ioView
  (((s.consistActive.heatActive.testAux).endActive .a).endActive .b).qualifyAll

end Sys2Proof.Machine
end

