-- ==== Sys2Proof/Machine/Orders.lean ====
section
/-! DEFINITION. The order unit: the take of a block and the completions of the nine orders (R176 to R178, R67, R79, R98 to
R100, R120, R121, R141 to R143, R163, R164). -/

namespace Sys2Proof.Machine

/-! ### NOTICE and the take (R174, R176) -/

/-- A NOTICE of a value (R174, R182). -/
def State.noticeOf (s : State) (v : Word) : State :=
  if h : v.toNat < 16 then
    let b : Fin 16 := ⟨v.toNat, h⟩
    if s.blockStatus b = stREADY then
      (s.setBlockStatus b stQUEUED).modOrders fun o => { o with queue := o.queue ++ [b] }
    else (s.modOrders fun o => { o with lastBad := v.toNat }).raise .noticeFault
  else (s.modOrders fun o => { o with lastBad := min 32 v.toNat }).raise .noticeFault

/-- The copy of a block's kind and parameter area (R176). -/
def State.copyBlock (s : State) (b : Fin 16) : OrderCopy :=
  { block := b, kind := s.mem.readWord (blockBase b + 2), params := s.mem.readWords (blockBase b + 0x20) 112 }

/-- The free order unit takes the block at the head of the notice queue (R176). -/
def State.takeOrder (s : State) : State :=
  match s.orders.executing, s.orders.queue with
  | none, b :: q =>
    (s.setBlockStatus b stTAKEN).modOrders fun o => { o with queue := q, executing := some (s.copyBlock b) }
  | _, _ => s

/-! ### Completions (R177) -/

/-- The order unit becomes free. -/
def State.freeUnit (s : State) : State := s.modOrders fun o => { o with executing := none }

/-- The order completes: outcome, ORDER_DONE, and the unit is free (R177). -/
def State.complete (s : State) (o : OrderCopy) (r : ResultCode) (fields : List Word) : State :=
  (s.completeBlock o.block r fields).freeUnit

/-- A completion acts on the executing order, if it is one of its kind (R177; log 20). -/
def State.completing (s : State) (mine : Word → Bool) (run : State → OrderCopy → State) : State :=
  match s.orders.executing with
  | some o => if mine o.kind then run s o else s
  | none => s

/-- An order that needs the part ACTIVE (R177, R179). -/
def State.inActive (s : State) (o : OrderCopy) (run : State → OrderCopy → State) : State :=
  if s.part = .active then run s o else s.complete o .wrongState []

/-- CONFIGURE (R180, R181). -/
def State.runConfigure (s : State) (o : OrderCopy) : State :=
  if s.part = .active then s.complete o .wrongState []
  else if o.faultyField ≠ 0 then s.complete o .badField [pageWord o.faultyField]
  else
    (s.activate o.settings).complete o .done [pageWord o.clampedFields.length, pageWord (o.clampedFields.headD 0)]

/-- The coach becomes LEAD by SET_ROLE (R79); the change of role state evaluates the train door summary (R116). -/
def State.becomeLead (s : State) : State :=
  (((s.modConsist fun c =>
      { c with role := .lead, roleState := .lead, followed := none, rosterWait := none, holdOff := some 0 }).setCause
    .role 0 0).setConsist .settling).evalSummary

/-- The coach leaves LEAD by SET_ROLE (R79); the change of role state evaluates the train door summary (R116). -/
def State.becomeMember (s : State) : State :=
  ((s.leaveLead.modConsist fun c => { c with role := .member, roleState := .member }).setConsist
    (if s.consist.roster.isSome then .stale else .unformed)).evalSummary

/-- The table of R79. -/
def State.applyRole (s : State) (r : Role) : State :=
  match s.consist.roleState, r with
  | .member, .lead => s.becomeLead
  | .yielded, .lead => s.becomeLead
  | .lead, .member => s.becomeMember
  | .yielded, .member =>
    ((s.modConsist fun c => { c with role := .member, roleState := .member }).showHeader s.consist).evalSummary
  | .member, .member => s
  | .lead, .lead => s

/-- SET_ROLE (R79). -/
def State.runSetRole (s : State) (o : OrderCopy) : State :=
  match roleOfCode (o.num 0) with
  | some r => (s.applyRole r).complete o .done []
  | none => s.complete o .badField []

/-- START_SURVEY (R67). -/
def State.runStartSurvey (s : State) (o : OrderCopy) : State :=
  if s.consist.roleState ≠ .lead then s.complete o .notLead []
  else if s.consist.state = .surveying then s.complete o .busy []
  else ((s.modConsist fun c => { c with partials := 0 }).setCause .start 0 0).beginSurvey.complete o .done []

/-- The first failure of the tests of DOOR_RELEASE (R98). -/
def State.releaseRefusal (s : State) (o : OrderCopy) : Option ResultCode :=
  if s.consist.roleState ≠ .lead then some .notLead
  else if s.consist.state ≠ .formed then some .consistUnsettled
  else if ¬ (1 ≤ o.num 0 ∧ o.num 0 ≤ 3) then some .badField
  else if ¬ (1 ≤ o.num 2 ∧ o.num 2 ≤ o.num 4 ∧ o.num 4 ≤ s.consist.n) then some .range
  else if s.level .zspd = false then some .noZeroSpeed
  else none

/-- The outcome code of the last release outcome, 0 for none. -/
def State.ownOutcome (s : State) : Word := ((s.door.lastRelease.map (·.outcome.code))).getD 0

/-- DOOR_RELEASE (R98, R99). -/
def State.runDoorRelease (s : State) (o : OrderCopy) : State :=
  match s.releaseRefusal o with
  | some r => s.complete o r []
  | none =>
    let g := s.consist.generation
    let (t, s) :=
      s.build .door .broadcast 0 (be16 g ++ [1, byteOf (o.num 0), byteOf (o.num 2), byteOf (o.num 4)]) []
    let (s, a, b) := s.placeBoth t
    let s := s.applyRelease g (o.num 0) (o.num 2) (o.num 4)
    s.complete o .done [endsWord a b, s.ownOutcome]

/-- DOOR_CLOSE (R100). -/
def State.runDoorClose (s : State) (o : OrderCopy) : State :=
  if s.consist.roleState ≠ .lead then s.complete o .notLead []
  else
    let (t, s) := s.build .door .broadcast 0 (be16 s.consist.generation ++ [2, 0, 0, 0]) []
    let (s, a, b) := s.placeBoth t
    s.applyClose.complete o .done [endsWord a b]

/-- HEAT_DEMAND (R120). -/
def State.runHeatDemand (s : State) (o : OrderCopy) : State :=
  match heatClassOfCode (o.num 2) with
  | some c =>
    let q := min s.cfg.count (o.num 0)
    (s.modHeat fun h => { h with demandQ := q, demandClass := c }).complete o .done
      [pageWord q, byteWord c.code]
  | none => s.complete o .badField []

/-- HEAT_SUPPLY (R121). -/
def State.runHeatSupply (s : State) (o : OrderCopy) : State :=
  let c := min 2000 (o.num 0)
  let p := min 100 (o.num 2)
  let t := clamp 1 10 (o.num 4)
  ((s.modHeat fun h => { h with capacity := c, derate := p, period := t }).testRound).complete o .done
    [pageWord c, pageWord p, pageWord t]

/-- The first failure of the tests of SEND_MESSAGE (R141). -/
def State.sendRefusal (s : State) (o : OrderCopy) : Option ResultCode :=
  if o.ident 0 = s.cfg.identity then some .badField
  else if ¬ (1 ≤ o.num 4 ∧ o.num 4 ≤ 200) then some .range
  else if o.ident 0 ≠ 0 ∧ 4 ≤ s.inFlight.length then some .tooManyInFlight
  else none

/-- The MSG body of an order (R141, R194). -/
def OrderCopy.msgBody (o : OrderCopy) : List Byte := byteOf (o.num 4) :: o.bytesFrom 6 (o.num 4)

/-- SEND_MESSAGE (R141 to R143). -/
def State.runSendMessage (s : State) (o : OrderCopy) : State :=
  match s.sendRefusal o with
  | some r => s.complete o r []
  | none =>
    let dest := o.ident 0
    let (t, s) := s.build .msg (if dest = 0 then .broadcast else .coach) dest o.msgBody []
    match s.placeJoint t with
    | none => s.complete o .queueFull []
    | some (s, a, b) =>
      if dest = 0 then s.complete o .done [endsWord a b, t.seq]
      else { s with inFlight := s.inFlight ++ [(⟨o.block, dest, t.seq, 0⟩ : InFlight)] }.freeUnit

/-- The levels of the host-owned outputs after set, clear and toggle (R163). -/
def maskedOutputs (out set clear toggle : BitVec 12) : BitVec 12 := ((out ||| set) &&& ~~~clear) ^^^ toggle

/-- SET_OUTPUTS (R163, R164). -/
def State.runSetOutputs (s : State) (o : OrderCopy) : State :=
  let named := o.word 0 ||| o.word 2 ||| o.word 4
  let ignored := named &&& ~~~(s.hostOwned.setWidth 16)
  let out := maskedOutputs s.outputs ((o.word 0).setWidth 12) ((o.word 2).setWidth 12) ((o.word 4).setWidth 12)
  let s := s.applyImage s.hostOwned out
  s.complete o .done [ignored, s.outputs.setWidth 16]

/-- A kind not among the nine orders (R177, R195). -/
def unknownKind (k : Word) : Bool := !(decide (1 ≤ k.toNat) && decide (k.toNat ≤ 9))

end Sys2Proof.Machine
end

