-- ==== Sys2Proof/Machine/Reset.lean ====
section
/-! DEFINITION. The two resets and the held RESET pin (R10, R19, R54, R80, R96, R118, R140, R152, R155, R165, R166, R184,
R185, R193). -/

namespace Sys2Proof.Machine

/-- Every qualified level is set to the raw level, every filter timer stops (R155). -/
def Inputs.requalified (x : Inputs) : Inputs :=
  { cplA := .reset x.cplA.raw, cplB := .reset x.cplB.raw, zspd := .reset x.zspd.raw, dloop := .reset x.dloop.raw,
    supply := .reset x.supply.raw, aux0 := .reset x.aux0.raw, aux1 := .reset x.aux1.raw }

/-- What both resets set alike: every unit's own state but the reset cause, the outputs and exchange memory. -/
def State.resetUnits (s : State) : State :=
  { s with part := .halted, ms := 0, cfg := .reset, seqs := Vector.replicate 12 1,
           lines := ⟨.reset, .reset, .reset, .reset⟩,
           ends := ⟨.reset s.inputs.cplA.raw, .reset s.inputs.cplB.raw⟩, consist := .reset, door := .reset,
           heat := .reset, inFlight := [], inputs := s.inputs.requalified, orders := .reset, events := .reset }

/-- Every page record is written with its counter as it stands. -/
def State.writePages (s : State) : State := pageRecs.foldl State.writeRecord s

/-- The RESET pin is released: power-on reset (R184). The raw levels, the waiting commands and the host's word stay. -/
def State.powerOn (s : State) : State :=
  { s.resetUnits with
      resetHeld := false, cause := .powerOn, gpHeld := false, deliveries := Vector.replicate 8 0, outputs := 0,
      revs := Vector.replicate 18 0, mem := [] }.writePages

/-- The RESET pin is asserted: outputs off, host port closed (R165, R167). -/
def State.holdReset (s : State) : State := { s with resetHeld := true, outputs := 0 }

/-- A held block becomes ABORTED, its result fields 0 (R185). -/
def State.abortBlock (s : State) (b : Fin 16) : State :=
  if s.blockHeld b then s.writeOutcome b .aborted [] else s

/-- Every held block becomes ABORTED (R185). -/
def State.abortBlocks (s : State) : State := allBlocks.foldl State.abortBlock s

/-- Begins a rewrite of every page record. -/
def State.touchAll (s : State) : State := pageRecs.foldl State.touch s

/-- What a soft reset sets before the pages are rewritten: held blocks aborted, every unit reset, GP0 to GP2 kept (R185,
R166). The millisecond count's word is written 0 (log 22). -/
def State.softUnits (s : State) : State :=
  { s.abortBlocks.resetUnits with cause := .soft, gpHeld := true, outputs := s.outputs &&& gpMask }.modMem
    (·.writeWords 0x1400 [0])

/-- Soft reset: every page record is rewritten once by the step's end, the I/O view too, whose door and heating images R166
hands one each (R185; the model's choice, log 6). -/
def State.softReset (s : State) : State := s.softUnits.touchAll

end Sys2Proof.Machine
end

