-- ==== Sys2Proof/WellFormed.lean ====
section
/-! DEFINITION. Which commands are commands of their row: the operands a row admits. An ill-formed command still has a
meaning, which log 19 gives. -/

namespace Sys2Proof

/-- The two flow characters STOP (0xF4) and GO (0xF5) are no operands of BYTE_RECEIVED (R26). -/
def isFlowByte (v : Byte) : Bool := v == 0xF4 || v == 0xF5

/-- The word number of the status word of an order block: block n starts at 0x0100 + n * 0x100 (R168). -/
def isStatusWord (w : BitVec 14) : Bool :=
  decide (0x80 ≤ w.toNat) && decide (w.toNat < 0x880) && w.toNat % 0x80 == 0

/-- The check of a command's operands against its row. -/
def Instr.wellFormed : Instr → Bool
  | .softReset v => v.getLsbD 1
  | .setEnable v => !v.getLsbD 1
  | .exchangeMemoryWrite w _ => decide (w.toNat < 0x3FFA) && !isStatusWord w
  | .byteReceived _ v => !isFlowByte v
  | .powerOnReset | .mask _ | .take | .notice _ | .registerWriteIgnored _ _ | .statusWordWrite _ _ | .orderTake
  | .configure | .setRole | .startSurvey | .doorRelease | .doorClose | .heatDemand | .heatSupply | .sendMessage
  | .setOutputs | .unknownOrder | .rawChange _ _ | .qualifiedChange _ | .energyPresent _ | .energyAbsent _
  | .settlingTimer _ | .gapTimeout _ | .restTimer _ | .stopReceived _ | .goReceived _ | .linkTimer _ | .hailTimer _
  | .telegramBoundary _ | .flowCharacterSent _ | .stallTimer _ | .dispatch _ | .keyExpiry _ | .holdOffTimer
  | .surveyTimeout | .rosterWaitTimer | .doorstatTimer | .recordStale _ | .roundTimer | .bidWindowClose | .rampStep
  | .lossTimer | .messageDeadline _ | .millisecondCount | .resetPinHeld => true

end Sys2Proof
end

