-- ==== Sys2Proof/Machine/HostPort.lean ====
section
/-! DEFINITION. Resets and host accesses: the meanings of the pin and host commands, and what a host read returns
(chapters 10 and 11, R196). -/

namespace Sys2Proof.Machine

/-- POWER_ON_RESET (R184). -/
def execPowerOnReset (s : State) : Host.Outcome State Fault Refusal := .next s.powerOn

/-- RESET_PIN_HELD (R184, R165). -/
def execResetPinHeld (s : State) : Host.Outcome State Fault Refusal := .next s.holdReset

/-! ### Registers -/

/-- A host write to CONTROL: soft reset, or the enable (R183, R196). -/
def State.writeControl (s : State) (v : Word) : State :=
  if v.getLsbD 1 then s.softReset else s.modEvents fun u => { u with enable := v.getLsbD 0 }

/-- SOFT_RESET (R185). -/
def execSoftReset (v : Word) (s : State) : Host.Outcome State Fault Refusal := partStep (fun s => s.writeControl v) s

/-- SET_ENABLE (R183). -/
def execSetEnable (v : Word) (s : State) : Host.Outcome State Fault Refusal := partStep (fun s => s.writeControl v) s

/-- A host write to MASK: a value over 4 takes 4 (R188). -/
def State.writeMask (s : State) (v : Word) : State := s.modEvents fun u => { u with threshold := min 4 v.toNat }

/-- MASK (R188). -/
def execMask (v : Word) (s : State) : Host.Outcome State Fault Refusal := partStep (fun s => s.writeMask v) s

/-- A host read of TAKE: the class returned loses its flag, unless its level is active; the host gets the code, or 0
(R191, R159). -/
def State.takeEvent (s : State) : State :=
  match s.takeChoice with
  | some c => { s.setPending c (s.staysPending c) with hostData := BitVec.ofNat 16 c.code }
  | none => { s with hostData := 0 }

/-- TAKE (R191). While RESET is held the read returns 0 and clears nothing (R167). -/
def execTake (s : State) : Host.Outcome State Fault Refusal :=
  if s.resetHeld then .next { s with hostData := 0 } else partStep State.takeEvent s

/-- NOTICE (R174). -/
def execNotice (v : Word) (s : State) : Host.Outcome State Fault Refusal := partStep (fun s => s.noticeOf v) s

/-- REGISTER_WRITE_IGNORED: a host write to IDENT, STATUS or TAKE (R182). -/
def State.ignoreWrite (s : State) (_ : ReadOnlyReg) (_ : Word) : State := s

/-- REGISTER_WRITE_IGNORED (R182). -/
def execRegisterWriteIgnored (reg : ReadOnlyReg) (v : Word) (s : State) : Host.Outcome State Fault Refusal :=
  partStep (fun s => s.ignoreWrite reg v) s

/-! ### Exchange memory -/

/-- A host write to a block's status word, as the port guards it (R173). -/
def State.hostStatus (s : State) (b : Fin 16) (v : Word) : State :=
  if s.blockHeld b then s else if v = stFREE ∨ v = stREADY then s.setBlockStatus b v else s

/-- STATUS_WORD_WRITE (R173). -/
def execStatusWordWrite (b : Fin 16) (v : Word) (s : State) : Host.Outcome State Fault Refusal :=
  partStep (fun s => s.hostStatus b v) s

/-- The block whose status word a word number is. -/
def statusBlock (w : BitVec 14) : Option (Fin 16) := allBlocks.find? (fun b => blockBase b == 2 * w.toNat)

/-- A host write to a word of the window (R167, R170, R173): exchange memory stores it, a status word under its guard; the
rest of the window ignores it (log 19 for the registers' offsets). -/
def State.hostWord (s : State) (w : BitVec 14) (v : Word) : State :=
  match statusBlock w with
  | some b => s.hostStatus b v
  | none => if w.toNat < 0x2000 then s.modMem (·.writeWords (2 * w.toNat) [v]) else s

/-- EXCHANGE_MEMORY_WRITE (R170). -/
def execExchangeMemoryWrite (w : BitVec 14) (v : Word) (s : State) : Host.Outcome State Fault Refusal :=
  partStep (fun s => s.hostWord w v) s

/-- What a host read of a word of the window returns (R167, R182, R183, R188, R191, R196). A read of TAKE is a command of
its own; this gives the code it would return. -/
def State.hostRead (s : State) (w : BitVec 14) : Word :=
  if s.resetHeld then 0
  else if w.toNat < 0x2000 then s.mem.readWord (2 * w.toNat)
  else if w.toNat = 0x3FFA then 0x3201
  else if w.toNat = 0x3FFB then s.statusWord
  else if w.toNat = 0x3FFD then BitVec.ofNat 16 ((s.takeChoice.map EventClass.code).getD 0)
  else if w.toNat = 0x3FFE then BitVec.ofNat 16 s.events.threshold
  else if w.toNat = 0x3FFF then flagWord s.events.enable
  else 0

end Sys2Proof.Machine
end

