-- ==== Sys2Proof/Machine/LineFamily.lean ====
section
/-! DEFINITION. Commands of the inputs and of the line units: raw and qualified changes, energy, line timers, received
bytes and flow characters (chapters 1, 2 and 9). -/

namespace Sys2Proof.Machine

/-- RAW_CHANGE (R153). While RESET is held only the pin's level moves (R155; log 5). -/
def execRawChange (i : Input) (level : Bool) (s : State) : Host.Outcome State Fault Refusal :=
  if s.resetHeld then .next (s.modInput i fun r => { r with raw := level })
  else partStep (fun s => s.rawChange i level) s

/-- QUALIFIED_CHANGE (R153, R156). -/
def execQualifiedChange (i : Input) (s : State) : Host.Outcome State Fault Refusal := partStep (fun s => s.qualify i) s

/-- ENERGY_PRESENT (R2, R3). -/
def execEnergyPresent (l : LineId) (s : State) : Host.Outcome State Fault Refusal := partStep (fun s => s.energyOn l) s

/-- ENERGY_ABSENT (R2, R5). -/
def execEnergyAbsent (l : LineId) (s : State) : Host.Outcome State Fault Refusal := partStep (fun s => s.energyOff l) s

/-- SETTLING_TIMER (R4). -/
def execSettlingTimer (l : LineId) (s : State) : Host.Outcome State Fault Refusal :=
  partStep (fun s => s.qualifyLine l) s

/-- GAP_TIMEOUT (R6). -/
def execGapTimeout (l : LineId) (s : State) : Host.Outcome State Fault Refusal := partStep (fun s => s.gapTimeout l) s

/-- REST_TIMER (R9). -/
def execRestTimer (l : LineId) (s : State) : Host.Outcome State Fault Refusal := partStep (fun s => s.endRest l) s

/-- BYTE_RECEIVED (R27, R28). -/
def execByteReceived (l : LineId) (v : Byte) (s : State) : Host.Outcome State Fault Refusal :=
  partStep (fun s => s.byteIn l v) s

/-- STOP_RECEIVED (R38). -/
def execStopReceived (l : LineId) (s : State) : Host.Outcome State Fault Refusal := partStep (fun s => s.recvStop l) s

/-- GO_RECEIVED (R38). -/
def execGoReceived (l : LineId) (s : State) : Host.Outcome State Fault Refusal := partStep (fun s => s.recvGo l) s

end Sys2Proof.Machine
end

