-- ==== Sys2Proof/Machine/OrderFamily.lean ====
section
/-! DEFINITION. The order unit's commands: the take, and the completion of each kind of order (chapter 10, R195). -/

namespace Sys2Proof.Machine

/-- ORDER_TAKE (R176). -/
def execOrderTake (s : State) : Host.Outcome State Fault Refusal := partStep State.takeOrder s

/-- CONFIGURE: kind 1 (R180, R181). -/
def execConfigure (s : State) : Host.Outcome State Fault Refusal :=
  partStep (fun s => s.completing (· == 1) State.runConfigure) s

/-- SET_ROLE: kind 2 (R79). -/
def execSetRole (s : State) : Host.Outcome State Fault Refusal :=
  partStep (fun s => s.completing (· == 2) (fun s o => s.inActive o State.runSetRole)) s

/-- START_SURVEY: kind 3 (R67). -/
def execStartSurvey (s : State) : Host.Outcome State Fault Refusal :=
  partStep (fun s => s.completing (· == 3) (fun s o => s.inActive o State.runStartSurvey)) s

/-- DOOR_RELEASE: kind 4 (R98, R99). -/
def execDoorRelease (s : State) : Host.Outcome State Fault Refusal :=
  partStep (fun s => s.completing (· == 4) (fun s o => s.inActive o State.runDoorRelease)) s

/-- DOOR_CLOSE: kind 5 (R100). -/
def execDoorClose (s : State) : Host.Outcome State Fault Refusal :=
  partStep (fun s => s.completing (· == 5) (fun s o => s.inActive o State.runDoorClose)) s

/-- HEAT_DEMAND: kind 6 (R120). -/
def execHeatDemand (s : State) : Host.Outcome State Fault Refusal :=
  partStep (fun s => s.completing (· == 6) (fun s o => s.inActive o State.runHeatDemand)) s

/-- HEAT_SUPPLY: kind 7 (R121). -/
def execHeatSupply (s : State) : Host.Outcome State Fault Refusal :=
  partStep (fun s => s.completing (· == 7) (fun s o => s.inActive o State.runHeatSupply)) s

/-- SEND_MESSAGE: kind 8 (R141 to R143). -/
def execSendMessage (s : State) : Host.Outcome State Fault Refusal :=
  partStep (fun s => s.completing (· == 8) (fun s o => s.inActive o State.runSendMessage)) s

/-- SET_OUTPUTS: kind 9, in either part state (R163, R164, R177). -/
def execSetOutputs (s : State) : Host.Outcome State Fault Refusal :=
  partStep (fun s => s.completing (· == 9) State.runSetOutputs) s

/-- UNKNOWN_ORDER: any other kind, in either part state (R177). -/
def execUnknownOrder (s : State) : Host.Outcome State Fault Refusal :=
  partStep (fun s => s.completing unknownKind (fun s o => s.complete o .unknownOrder [])) s

end Sys2Proof.Machine
end

