-- ==== Sys2Proof/Machine/Clock.lean ====
section
/-! DEFINITION. One millisecond of the part's timebase: every running timer goes on, up to its limit, and the millisecond
count steps (spec/00_scope.md, Conventions; R17; log 1). -/

namespace Sys2Proof.Machine

/-- The gap timer runs while a candidate is open (R6). -/
def Assembler.tick : Assembler → Assembler
  | .opened bs g => .opened bs (min 2 (g + 1))
  | .escaped bs g => .escaped bs (min 2 (g + 1))
  | .waiting => .waiting
  | .discarding => .discarding

/-- Settling, rest and gap timers (R4, R6, R9). -/
def LineUnit.tick (u : LineUnit) : LineUnit :=
  { u with settling := bump 100 u.settling, rest := bump 1000 u.rest, asm := u.asm.tick }

/-- Link, HAIL and stall timers (R12, R16, R39). -/
def EndUnit.tick (u : EndUnit) : EndUnit :=
  { u with link := bump 150 u.link, hail := bump 50 u.hail, stall := bump 200 u.stall }

/-- Hold-off, survey and roster wait timers (R60, R74, R78). -/
def ConsistUnit.tick (c : ConsistUnit) : ConsistUnit :=
  { c with holdOff := bump 200 c.holdOff, survey := bump 2000 c.survey, rosterWait := bump 66535 c.rosterWait }

/-- The age of a door status record (R114). -/
def DoorRecord.tick (r : DoorRecord) : DoorRecord := { r with age := r.age + 1 }

/-- The DOORSTAT timer and the records' ages (R110, R114). -/
def DoorUnit.tick (d : DoorUnit) : DoorUnit :=
  { d with stat := bump 100 d.stat, recF := d.recF.map DoorRecord.tick, recR := d.recR.map DoorRecord.tick }

/-- Loss and round timers, the bid window, the time to the next ramp step (R122, R125, R133, R136). -/
def HeatUnit.tick (h : HeatUnit) : HeatUnit :=
  { h with loss := bump 30000 h.loss, round := bump 10000 h.round, window := bump 300 h.window,
           ramp := h.ramp.map fun r => { r with left := r.left - 1 } }

/-- The filter timer (R153). -/
def InputRec.tick (r : InputRec) : InputRec := { r with timer := bump 255 r.timer }

/-- The deadline timer of an in-flight entry (R145). -/
def InFlight.tick (x : InFlight) : InFlight := { x with timer := min 1000 (x.timer + 1) }

/-- One millisecond. The count's word on the status page is written with it (R17, R168). -/
def State.tick (s : State) : State :=
  { s with
      ms := s.ms + 1,
      lines := ⟨s.lines.a1.tick, s.lines.a2.tick, s.lines.b1.tick, s.lines.b2.tick⟩,
      ends := ⟨s.ends.a.tick, s.ends.b.tick⟩, consist := s.consist.tick, door := s.door.tick, heat := s.heat.tick,
      inputs := ⟨s.inputs.cplA.tick, s.inputs.cplB.tick, s.inputs.zspd.tick, s.inputs.dloop.tick, s.inputs.supply.tick,
                 s.inputs.aux0.tick, s.inputs.aux1.tick⟩,
      inFlight := s.inFlight.map InFlight.tick, mem := s.mem.writeWords 0x1400 [s.ms + 1] }

end Sys2Proof.Machine
end

