-- ==== Sys2Proof/Machine/TrainFamily.lean ====
section
/-! DEFINITION. Commands of the consist, door, heating and message units' timers, and the millisecond count (chapters 4, 6,
7, 8, R17). A timer's command acts once the timer has reached its limit (log 1). -/

namespace Sys2Proof.Machine

/-- The hold-off timer has reached 200 ms in SETTLING (R60, R64). -/
def State.holdOffOut (s : State) : State :=
  if s.consist.roleState = .lead ∧ s.consist.state = .settling ∧ reached s.consist.holdOff 200 then s.beginSurvey else s

/-- HOLD_OFF_TIMER (R60). -/
def execHoldOffTimer (s : State) : Host.Outcome State Fault Refusal := partStep State.holdOffOut s

/-- The survey timer has reached the survey timeout (R74). -/
def State.surveyOut (s : State) : State :=
  if s.consist.roleState = .lead ∧ s.consist.state = .surveying ∧ reached s.consist.survey s.cfg.timeout then s.endSurvey
  else s

/-- SURVEY_TIMEOUT (R74). -/
def execSurveyTimeout (s : State) : Host.Outcome State Fault Refusal := partStep State.surveyOut s

/-- The roster wait has reached the followed survey's timeout plus 1000 ms (R78). -/
def State.rosterWaitOut (s : State) : State :=
  match s.consist.followed with
  | some x =>
    if s.consist.state = .surveying ∧ reached s.consist.rosterWait (x.timeout + 1000) then s.endWait else s
  | none => s

/-- ROSTER_WAIT_TIMER (R78). -/
def execRosterWaitTimer (s : State) : Host.Outcome State Fault Refusal := partStep State.rosterWaitOut s

/-- The DOORSTAT timer has reached 100 ms (R110). -/
def State.statOut (s : State) : State :=
  if reached s.door.stat 100 then (s.modDoor fun d => { d with stat := some 0 }).originateStat else s

/-- DOORSTAT_TIMER (R110). -/
def execDoorstatTimer (s : State) : Host.Outcome State Fault Refusal := partStep State.statOut s

/-- The record of a side. -/
def DoorUnit.record (d : DoorUnit) : Side → Option DoorRecord
  | .f => d.recF
  | .r => d.recR

/-- A record has reached an age of 300 ms: the summary is evaluated (R114, R116). -/
def State.recordStale (s : State) (x : Side) : State :=
  match s.door.record x with
  | some r => if 300 ≤ r.age then s.evalSummary else s
  | none => s

/-- RECORD_STALE (R114). -/
def execRecordStale (x : Side) (s : State) : Host.Outcome State Fault Refusal := partStep (fun s => s.recordStale x) s

/-- ROUND_TIMER (R122). -/
def execRoundTimer (s : State) : Host.Outcome State Fault Refusal := partStep State.testRound s

/-- The bid window has been open for 300 ms (R125). -/
def State.windowOut (s : State) : State := if reached s.heat.window 300 then s.closeWindow else s

/-- BID_WINDOW_CLOSE (R125). -/
def execBidWindowClose (s : State) : Host.Outcome State Fault Refusal := partStep State.windowOut s

/-- RAMP_STEP (R133). -/
def execRampStep (s : State) : Host.Outcome State Fault Refusal := partStep State.stepRamp s

/-- LOSS_TIMER (R136). -/
def execLossTimer (s : State) : Host.Outcome State Fault Refusal := partStep State.testLoss s

/-- MESSAGE_DEADLINE (R145). -/
def execMessageDeadline (b : Fin 16) (s : State) : Host.Outcome State Fault Refusal :=
  partStep (fun s => s.passDeadline b) s

/-- MILLISECOND_COUNT (R17). -/
def execMillisecondCount (s : State) : Host.Outcome State Fault Refusal := partStep State.tick s

end Sys2Proof.Machine
end

