-- ==== Sys2Proof/Machine/Dispatch.lean ====
section
/-! DEFINITION. The dispatch of a command to its meaning: one arm for each constructor of Instr. -/

namespace Sys2Proof.Machine

/-- The command's effect on everything but the queue. -/
def exec (i : Instr) (s : State) : Host.Outcome State Fault Refusal :=
  match i with
  | .powerOnReset => Sys2Proof.Machine.execPowerOnReset s
  | .softReset v => Sys2Proof.Machine.execSoftReset v s
  | .setEnable v => Sys2Proof.Machine.execSetEnable v s
  | .mask v => Sys2Proof.Machine.execMask v s
  | .take => Sys2Proof.Machine.execTake s
  | .notice v => Sys2Proof.Machine.execNotice v s
  | .registerWriteIgnored reg v => Sys2Proof.Machine.execRegisterWriteIgnored reg v s
  | .statusWordWrite block v => Sys2Proof.Machine.execStatusWordWrite block v s
  | .exchangeMemoryWrite word v => Sys2Proof.Machine.execExchangeMemoryWrite word v s
  | .orderTake => Sys2Proof.Machine.execOrderTake s
  | .configure => Sys2Proof.Machine.execConfigure s
  | .setRole => Sys2Proof.Machine.execSetRole s
  | .startSurvey => Sys2Proof.Machine.execStartSurvey s
  | .doorRelease => Sys2Proof.Machine.execDoorRelease s
  | .doorClose => Sys2Proof.Machine.execDoorClose s
  | .heatDemand => Sys2Proof.Machine.execHeatDemand s
  | .heatSupply => Sys2Proof.Machine.execHeatSupply s
  | .sendMessage => Sys2Proof.Machine.execSendMessage s
  | .setOutputs => Sys2Proof.Machine.execSetOutputs s
  | .unknownOrder => Sys2Proof.Machine.execUnknownOrder s
  | .rawChange input level => Sys2Proof.Machine.execRawChange input level s
  | .qualifiedChange input => Sys2Proof.Machine.execQualifiedChange input s
  | .energyPresent line => Sys2Proof.Machine.execEnergyPresent line s
  | .energyAbsent line => Sys2Proof.Machine.execEnergyAbsent line s
  | .settlingTimer line => Sys2Proof.Machine.execSettlingTimer line s
  | .gapTimeout line => Sys2Proof.Machine.execGapTimeout line s
  | .restTimer line => Sys2Proof.Machine.execRestTimer line s
  | .byteReceived line value => Sys2Proof.Machine.execByteReceived line value s
  | .stopReceived line => Sys2Proof.Machine.execStopReceived line s
  | .goReceived line => Sys2Proof.Machine.execGoReceived line s
  | .linkTimer side => Sys2Proof.Machine.execLinkTimer side s
  | .hailTimer side => Sys2Proof.Machine.execHailTimer side s
  | .telegramBoundary side => Sys2Proof.Machine.execTelegramBoundary side s
  | .flowCharacterSent side => Sys2Proof.Machine.execFlowCharacterSent side s
  | .stallTimer side => Sys2Proof.Machine.execStallTimer side s
  | .dispatch side => Sys2Proof.Machine.execDispatch side s
  | .keyExpiry side => Sys2Proof.Machine.execKeyExpiry side s
  | .holdOffTimer => Sys2Proof.Machine.execHoldOffTimer s
  | .surveyTimeout => Sys2Proof.Machine.execSurveyTimeout s
  | .rosterWaitTimer => Sys2Proof.Machine.execRosterWaitTimer s
  | .doorstatTimer => Sys2Proof.Machine.execDoorstatTimer s
  | .recordStale side => Sys2Proof.Machine.execRecordStale side s
  | .roundTimer => Sys2Proof.Machine.execRoundTimer s
  | .bidWindowClose => Sys2Proof.Machine.execBidWindowClose s
  | .rampStep => Sys2Proof.Machine.execRampStep s
  | .lossTimer => Sys2Proof.Machine.execLossTimer s
  | .messageDeadline block => Sys2Proof.Machine.execMessageDeadline block s
  | .millisecondCount => Sys2Proof.Machine.execMillisecondCount s
  | .resetPinHeld => Sys2Proof.Machine.execResetPinHeld s

end Sys2Proof.Machine
end

