-- ==== Sys2Proof/Machine/Step.lean ====
section
/-! DEFINITION. One step: the command at the front of the queue. -/

namespace Sys2Proof.Machine

/-- Takes the command at the front of the queue and runs it on the state with the queue's rest. On an empty queue the part
idles (log 2). -/
def step (s : State) : Host.Outcome State Fault Refusal :=
  match s.pending with
  | [] => .next s
  | c :: q => exec c { s with pending := q }

/-- Puts the command a word spells at the front of the queue. No word spells one (log 2). -/
def State.withFetchWord (s : State) (nbits w : Nat) : State :=
  match decodeTableWord nbits w with
  | some c => { s with pending := c :: s.pending }
  | none => s

end Sys2Proof.Machine
end

