-- ==== Sys2Proof/Safety.lean ====
section
/-! DEFINITION. The terms in which the statements speak: what a step leaves unchanged, and the invariants. -/

namespace Sys2Proof.Machine

/-- The bytes of the ten page records: front page, consist page, lines and ends, traffic of A and B, door view, door
summary, heating view, last allocation table, I/O view (R168, R195). -/
def isPageByte (a : Nat) : Bool :=
  decide (a < 0x0E) || (decide (0x10 ≤ a) && decide (a < 0x5C)) || (decide (0x1100 ≤ a) && decide (a < 0x112C))
    || (decide (0x1200 ≤ a) && decide (a < 0x1400)) || (decide (0x1410 ≤ a) && decide (a < 0x144E))
    || (decide (0x1460 ≤ a) && decide (a < 0x1472)) || (decide (0x1480 ≤ a) && decide (a < 0x1492))
    || (decide (0x14A0 ≤ a) && decide (a < 0x14BC)) || (decide (0x14E0 ≤ a) && decide (a < 0x1534))
    || (decide (0x1560 ≤ a) && decide (a < 0x158A)) || (decide (0x15C0 ≤ a) && decide (a < 0x171A))
    || (decide (0x1780 ≤ a) && decide (a < 0x17D2))

/-- `t` is `s` but for the ten page records that the part rewrites by itself (R169): every field but exchange memory and
the revision counters is that of `s`, every byte of exchange memory outside those records reads as in `s`, and the
inbox slots' counters are those of `s`. -/
def UpToPages (s t : State) : Prop :=
  t = { s with mem := t.mem, revs := t.revs } ∧ (∀ a, isPageByte a = false → t.mem.read a = s.mem.read a)
    ∧ ∀ n : Fin 8, t.rev (.slot n) = s.rev (.slot n)

/-- The command answers a next state that is `u` but for the page records. -/
def Yields (c : Instr) (s u : State) : Prop := ∃ t, exec c s = .next t ∧ UpToPages u t

/-- Every page record's counter is even: no rewrite is open (R169). -/
abbrev State.evenPages (s : State) : Prop := ∀ r ∈ pageRecs, (s.rev r).getLsbD 0 = false

/-- Exchange memory shows a page record whole: its counter and all its fields as the state gives them (R169, R195). -/
def State.shows (s : State) (r : Rec) : Prop :=
  s.mem.readWord r.base = s.rev r ∧ ∀ x ∈ s.recordRuns r, s.mem.readWords x.1 x.2.length = x.2

/-- Exchange memory shows a number at an offset, as far as a word can hold it (R195). -/
def State.numberAt (s : State) (a n : Nat) : Prop := n < 65536 → s.mem.readWord a = BitVec.ofNat 16 n

/-- Exchange memory shows a flag at an offset: 1 when set (R195). -/
def State.flagAt (s : State) (a : Nat) (b : Bool) : Prop := s.mem.readWord a = if b = true then 1 else 0

/-- Exchange memory shows an identity at an offset, low word first (R195). -/
def State.identityAt (s : State) (a : Nat) (i : Ident) : Prop :=
  s.mem.readWord a = i.setWidth 16 ∧ s.mem.readWord (a + 2) = (i >>> 16).setWidth 16

/-- Exchange memory shows a list of bytes in `n` words, unused ones 0 (R195). -/
def State.listAt (s : State) (a n : Nat) (l : List Byte) : Prop :=
  ∀ i, i < n → s.mem.readWord (a + 2 * i) = (l.getD i 0).setWidth 16

/-- The bytes of a page record, its counter's among them. -/
def State.recordByte (s : State) (r : Rec) (a : Nat) : Prop :=
  (r.base ≤ a ∧ a < r.base + 2) ∨ ∃ x ∈ s.recordRuns r, x.1 ≤ a ∧ a < x.1 + 2 * x.2.length

/-- The order unit executes the order `o`, RESET is not held, and the part is ACTIVE (R176, R177). -/
def State.executes (s : State) (o : OrderCopy) : Prop :=
  s.resetHeld = false ∧ s.part = .active ∧ s.orders.executing = some o

/-- No class is pending of a higher level than `c`, nor one of its level with a lower code (R191). -/
def State.ranksFirst (s : State) (c : EventClass) : Prop :=
  s.isPending c = true ∧ ∀ d, s.isPending d = true →
    s.levelOf d < s.levelOf c ∨ (s.levelOf d = s.levelOf c ∧ c.code ≤ d.code)

/-- What plain placement of a telegram makes of an end whose sending lines are `lines` (R47, R48, R50): nothing where it is
not LINKED; the queue takes the telegram as admission allows while the transmitter cannot start; an idle end with nothing
waiting starts it at once. -/
def Placed (lines : List LineNo) (t : Telegram) (u v : EndUnit) : Prop :=
  (u.state ≠ .linked → v = u)
    ∧ (u.state = .linked → (u.sending.isSome = true ∨ lines = [] ∨ (u.recvStop = true ∧ u.hailDue = false)) →
        v = { u with originQ := (admitOrigin t u.originQ).getD u.originQ })
    ∧ (u.state = .linked → u.sending = none → lines ≠ [] → u.recvStop = false → u.hailDue = false → u.relayQ = [] →
        u.originQ = [] → v = { u with sending := some ⟨t, lines⟩, relayRun := 0 })

/-- Plain placement enters a telegram at an end (R47). -/
def State.enters (s : State) (e : EndId) (t : Telegram) : Bool :=
  (s.endOf e).state == .linked && (admitOrigin t (s.endOf e).originQ).isSome

/-- The telegram a unit of this coach originates in state `s` (R22). -/
def State.originates (s : State) (k : Kind) (x : Scope) (dest : Ident) (body route : List Byte) : Telegram :=
  buildTelegram k x s.cfg.identity dest s.seqs[k.idx] body route

/-- The relay leg of a telegram `x` received at `e`, from the state `s` to `u` (R41, R44): towards an end that is not LINKED
it leaves the buffer; where the relay queue has no room it stays blocked, marked CONSUMED as `c` says; else it leaves the
buffer and enters the queue, and an idle transmitter is at a boundary (R50). -/
def RelayLeg (s : State) (e : EndId) (x : Telegram) (c : Bool) (u : State) : Prop :=
  let o := s.endOf e.opp
  let y := s.relayForm x
  let d := s.dropHead e
  (o.state ≠ .linked → u = d)
    ∧ (o.state = .linked → admission y o.relayQ = none →
        u = { s with ends := s.ends.set e { s.endOf e with blocked := true, consumed := c } })
    ∧ ∀ q, o.state = .linked → admission y o.relayQ = some q →
        u = ({ d with ends := d.ends.set e.opp { o with relayQ := q } } : State).boundary e.opp

/-- One bad candidate on a line that is sending, its assembler left as `a` (R7, R8, R9): the score gains 4, up to 32; at 32 the
line rests and carries nothing more, from 16 on an UP line is SUSPECT, a SUSPECT line at 7 or less is UP. -/
def State.afterBad (s : State) (l : LineId) (a : Assembler) : State :=
  let u := s.lineOf l
  let n := if u.score + 4 < 32 then u.score + 4 else 32
  let x : LineState := if u.state = .up ∧ 16 ≤ n then .suspect else if u.state = .suspect ∧ n ≤ 7 then .up else u.state
  if n = 32 then
    ({ s with
        lines := s.lines.set l { u with state := .rest, score := 32, asm := .waiting, settling := none, rest := some 0 },
        ends := s.ends.set l.side
          { s.endOf l.side with
              sending := (s.endOf l.side).sending.map
                fun y => { y with lines := y.lines.filter (fun m => m != l.no) } } } : State).raise .lineChange
  else
    let w : State := { s with lines := s.lines.set l { u with state := x, score := n, asm := a } }
    if x = u.state then w else w.raise .lineChange

/-- What an assembler reports of bytes received one after the other, without the empty reports (R27, R28). -/
def feed (a : Assembler) : List Byte → Assembler × List AsmReport
  | [] => (a, [])
  | v :: vs =>
    let (b, r) := asmStep a v
    let (z, rs) := feed b vs
    (z, if r = .nothing then rs else r :: rs)

/-! ### Invariants -/

/-- Exchange memory keeps its canonical form. -/
abbrev State.memWf (s : State) : Prop := s.mem.wf

/-- Every revision counter is even, the inbox slots' too (R169). -/
abbrev State.countersEven (s : State) : Prop := ∀ i : Fin 18, s.revs[i].getLsbD 0 = false

/-- The capacities of an end: its queues (R45), receive buffer (R34), duplicate filter (R32) and relay run (R52). -/
def EndUnit.fits (u : EndUnit) : Prop :=
  u.relayQ.length ≤ 8 ∧ u.originQ.length ≤ 8 ∧ u.fill ≤ 1024 ∧ u.filter.length ≤ 16 ∧ u.relayRun ≤ 8

/-- The bytes an assembler has collected. -/
def Assembler.collected : Assembler → Nat
  | .opened bs _ => bs.length
  | .escaped bs _ => bs.length
  | .waiting => 0
  | .discarding => 0

/-- The bounds of a line: error score (R7) and candidate length (R28). -/
def LineUnit.fits (u : LineUnit) : Prop := u.score ≤ 32 ∧ u.asm.collected ≤ 320

/-- Every queue, buffer, list and score keeps within its capacity (R7, R28, R32, R34, R45, R52, R144, R146, R188). -/
def State.fits (s : State) : Prop :=
  (∀ e, (s.ends.get e).fits) ∧ (∀ l, (s.lines.get l).fits) ∧ s.cfg.weight ≤ 7 ∧ s.inFlight.length ≤ 4
    ∧ s.events.threshold ≤ 4 ∧ s.orders.lastBad ≤ 63 ∧ (∀ i : Fin 12, s.cfg.levels[i] ≤ 3)
    ∧ ∀ n : Fin 8, s.deliveries[n] ≤ 255

/-- A line at rest in HALTED: DARK, assembler empty, timers stopped (R10). -/
def LineUnit.quiet (u : LineUnit) : Prop :=
  u.state = .dark ∧ u.asm = .waiting ∧ u.settling = none ∧ u.rest = none

/-- An end at rest in HALTED: not LINKED, nothing received, queued, due or sent (R19, R54). -/
def EndUnit.quiet (u : EndUnit) : Prop :=
  u.state ≠ .linked ∧ u.buffer = [] ∧ u.blocked = false ∧ u.relayQ = [] ∧ u.originQ = [] ∧ u.sending = none
    ∧ u.hailDue = false ∧ u.hail = none ∧ u.link = none ∧ u.recvStop = false ∧ u.stall = none ∧ u.flowDue = none

/-- The coupler side, the consist, the doors, the heating and the messages are silent (R179). -/
def State.quiet (s : State) : Prop :=
  s.cfg = .reset ∧ (∀ l, (s.lines.get l).quiet) ∧ (∀ e, (s.ends.get e).quiet) ∧ s.consist = .reset
    ∧ s.door = .reset ∧ s.heat = .reset ∧ s.inFlight = [] ∧ s.outputs &&& 0x1FF = 0

/-- In HALTED the part is silent (R179). -/
def State.haltedQuiet (s : State) : Prop := s.part = .halted → s.quiet

/-- A release in effect stands on all that R102 and R104 ask for: the roster it names is the one in force, this coach lies
in its range, and zero speed is qualified (R97, R104, R107, R108). -/
def State.releaseStands (s : State) (r : Release) : Prop :=
  s.consist.state = .formed ∧ s.level .zspd = true ∧ r.generation = s.consist.generation
    ∧ r.first ≤ s.consist.position ∧ s.consist.position ≤ r.last

/-- The door outputs show the group, and a release stands only where it may (R97, R162, R165). -/
def State.doorsSafe (s : State) : Prop :=
  s.haltedQuiet ∧ (s.resetHeld = true → s.outputs = 0)
    ∧ (s.resetHeld = false → s.part = .active → s.outputs &&& doorMask = s.door.group.image)
    ∧ ∀ x r, s.door.group = .released x r → s.releaseStands r

/-- The stages on stay within the limit in force, the limit within the stage count, the ramp within the limit; the stage
outputs show the stages on; without supply nothing is on (R132 to R137). -/
def State.heatSafe (s : State) : Prop :=
  s.haltedQuiet ∧ s.cfg.fallback ≤ s.cfg.count ∧ s.cfg.count ≤ 6
    ∧ s.heat.on ≤ s.heat.limit ∧ s.heat.limit ≤ s.cfg.count
    ∧ (∀ r, s.heat.ramp = some r → s.heat.state = .held ∧ s.heat.on < r.target ∧ r.target ≤ s.heat.limit)
    ∧ (s.heat.state = .noGrant ∨ s.heat.state = .supplyOff → s.heat.limit = 0)
    ∧ (s.heat.state = .shed → s.heat.limit ≤ s.cfg.fallback)
    ∧ (s.part = .active → s.level .supply = false → s.heat.state = .supplyOff)
    ∧ (s.resetHeld = true → s.outputs = 0)
    ∧ (s.resetHeld = false → s.part = .active → s.outputs &&& stageMask s.cfg.count = stageMask s.heat.on)

/-- The order unit and the order blocks agree: the notice queue holds each QUEUED block once, every TAKEN block is the one
executing or in flight, and no block is two of these (R172, R175, R176, R144). -/
def State.ordersAgree (s : State) : Prop :=
  (s.orders.queue ++ (s.orders.executing.map (·.block)).toList ++ s.inFlight.map (·.block)).Nodup
    ∧ (∀ b, s.blockStatus b = stQUEUED ↔ b ∈ s.orders.queue)
    ∧ (∀ b, s.blockStatus b = stTAKEN ↔ (s.orders.executing.map (·.block) = some b ∨ b ∈ s.inFlight.map (·.block)))
    ∧ ∀ b, (s.blockStatus b).toNat ≤ 6

/-- The entries of a roll list without a gap reach as far as its length (R73). -/
def RollSide.sound (x : RollSide) : Prop := ∀ t, x.complete = some t → t ≤ x.run

/-- A roster has 1 to 32 entries; a FORMED coach holds one and stands in it at its own position under its own identity
(R81, R85, R89, R91, R92). -/
def State.rosterHolds (s : State) : Prop :=
  s.haltedQuiet ∧ s.consist.sideF.sound ∧ s.consist.sideR.sound
    ∧ (∀ r, s.consist.roster = some r → 1 ≤ r.entries.length ∧ r.entries.length ≤ 32)
    ∧ (s.consist.state = .formed → (s.consist.entryAt s.consist.position).map (·.identity) = some s.cfg.identity)

end Sys2Proof.Machine
end

