-- ==== Sys2Proof/Certificates/Slice0/Obligations.lean ====
section
/-! DEFINITION. The statements for the provers. A statement that rests on a choice of the model names the log entry
(notes/assumptions/<n>.md) in its docstring. -/

open Sys2Proof Sys2Proof.Machine

/-! ### Steps, pins and resets -/

/-- A step takes the command at the front of the queue and runs it on the state with the queue's rest; with nothing
waiting the part idles (log 2). -/
def Obligations.StepRunsFrontCommand : Prop :=
  (∀ (c : Instr) (q : List Instr) (s : State), s.pending = c :: q → step s = exec c { s with pending := q })
    ∧ ∀ s : State, s.pending = [] → step s = .next s

/-- Every command answers a next state in every state, and the commands that wait are not touched. -/
def Obligations.EveryCommandAnswers : Prop :=
  ∀ (c : Instr) (s : State), ∃ t, exec c s = .next t ∧ t.pending = s.pending

/-- While RESET is held no command but its release changes anything (the model's choice, log 5): a read of TAKE returns
0 and clears nothing, and a pin's raw level moves alone. Asserting RESET turns all twelve outputs off; the interrupt
line is then low and host reads return 0. The coupler lines are off (the model's choice, log 5). -/
def Obligations.ResetPin : Prop :=
  (∀ s : State, s.resetHeld = true →
      exec .take s = .next { s with hostData := 0 }
        ∧ (∀ i v, exec (.rawChange i v) s = .next { s with inputs := s.inputs.set i { s.inputs.get i with raw := v } })
        ∧ ∀ c, c ≠ .powerOnReset → c ≠ .resetPinHeld → c ≠ .take → (∀ i v, c ≠ .rawChange i v) → exec c s = .next s)
  ∧ (∀ s : State, ∃ t, exec .resetPinHeld s = .next t ∧ t = { s with resetHeld := true, outputs := 0 }
      ∧ t.interruptLine = false ∧ (∀ w, t.hostRead w = 0) ∧ ∀ l, t.lineOutput l = .off)

/-- Power-on reset: every unit at its reset value, each end by its coupler input, the qualified levels at the raw
levels, the coupler lines off, exchange memory 0 outside the page records, and the page records showing the reset
contents with their counters at 0. -/
def Obligations.PowerOnReset : Prop :=
  ∀ s : State, ∃ t, exec .powerOnReset s = .next t
    ∧ t = { State.reset with
              pending := s.pending, hostData := s.hostData, inputs := s.inputs.requalified,
              ends := ⟨.reset s.inputs.cplA.raw, .reset s.inputs.cplB.raw⟩, mem := t.mem }
    ∧ (∀ l, t.lineOutput l = .off)
    ∧ (∀ a, isPageByte a = false → t.mem.read a = 0) ∧ ∀ r ∈ pageRecs, t.shows r

/-- The reset values the spec gives, and the state after reset is what power-on reset leaves (raw levels: log 3). The
reset state meets every invariant. -/
def Obligations.ResetState : Prop :=
  (
    let s := State.reset
    exec .powerOnReset s = .next s
      ∧ s.part = .halted ∧ s.cause = .powerOn ∧ s.gpHeld = false ∧ s.ms = 0 ∧ s.outputs = 0 ∧ s.inFlight = []
      ∧ (∀ k : Fin 12, s.seqs[k] = 1) ∧ (∀ r : Fin 18, s.revs[r] = 0) ∧ (∀ n : Fin 8, s.deliveries[n] = 0)
      ∧ (∀ l, s.lineOf l = { state := .dark, energy := false, score := 0, settling := none, rest := none, asm := .waiting }
          ∧ s.lineOutput l = .off)
      ∧ (∀ e, (s.endOf e).state = .uncoupled ∧ (s.endOf e).neighbour = none ∧ (s.endOf e).filter = []
          ∧ (s.endOf e).buffer = [] ∧ (s.endOf e).relayQ = [] ∧ (s.endOf e).originQ = [] ∧ (s.endOf e).sentStop = false
          ∧ (s.endOf e).recvStop = false ∧ (s.endOf e).sending = none ∧ (s.endOf e).hailDue = false)
      ∧ s.consist.roleState = .member ∧ s.consist.state = .unformed ∧ s.consist.roster = none
      ∧ s.consist.lastGeneration = 0 ∧ s.consist.partials = 0 ∧ s.consist.resurvey = false ∧ s.consist.followed = none
      ∧ s.door.group = .idle ∧ s.door.lastRelease = none ∧ s.door.summary.value = .unknown
      ∧ s.heat.state = .noGrant ∧ s.heat.limit = 0 ∧ s.heat.on = 0 ∧ s.heat.tSeen = 2 ∧ s.heat.capacity = 0
      ∧ s.heat.derate = 100 ∧ s.heat.period = 2 ∧ s.heat.roundNo = 1
      ∧ s.cfg.identity = 0 ∧ s.cfg.high = 640 ∧ s.cfg.low = 256 ∧ s.cfg.mode = .weighted ∧ s.cfg.weight = 3
      ∧ s.cfg.timeout = 500 ∧ s.cfg.stagger = 100 ∧ s.cfg.stageGap = 1000 ∧ s.cfg.size = 1 ∧ s.cfg.count = 0
      ∧ s.cfg.filters.toList = [200, 200, 20, 50, 100, 10, 10]
      ∧ s.cfg.levels.toList = [2, 2, 2, 2, 1, 1, 1, 1, 1, 0, 1, 1]
      ∧ s.orders.queue = [] ∧ s.orders.executing = none ∧ s.orders.lastBad = 63
      ∧ (∀ x, s.isPending x = false) ∧ s.events.threshold = 4 ∧ s.events.enable = false ∧ s.interruptLine = false
      ∧ ∀ b, s.blockStatus b = stFREE)
  ∧ (
    let s := State.reset
    s.memWf ∧ s.countersEven ∧ s.evenPages ∧ s.fits ∧ s.haltedQuiet ∧ s.doorsSafe ∧ s.heatSafe ∧ s.ordersAgree
      ∧ s.rosterHolds ∧ ∀ r ∈ pageRecs, s.shows r)

/-- Soft reset: held blocks become ABORTED with result code ABORTED and result fields 0, every unit takes its reset
value, the general outputs and the delivery numbers keep theirs, the coupler lines are off, every page record is
rewritten once (the model's choice for the two images of the I/O view, log 6), and no other byte of exchange memory
changes but the millisecond count's word (the model's choice, log 22). -/
def Obligations.SoftReset : Prop :=
  ∀ (v : Word) (s : State), v.getLsbD 1 = true → s.resetHeld = false → s.evenPages →
    ∃ t, exec (.softReset v) s = .next t
      ∧ t = { s with
                part := .halted, cause := .soft, gpHeld := true, ms := 0, cfg := .reset, seqs := Vector.replicate 12 1,
                lines := ⟨.reset, .reset, .reset, .reset⟩,
                ends := ⟨.reset s.inputs.cplA.raw, .reset s.inputs.cplB.raw⟩, consist := .reset, door := .reset,
                heat := .reset, inFlight := [], inputs := s.inputs.requalified, outputs := s.outputs &&& 0xE00,
                orders := .reset, events := .reset, revs := t.revs, mem := t.mem }
      ∧ (∀ l, t.lineOutput l = .off)
      ∧ (∀ r ∈ pageRecs, t.rev r = s.rev r + 2 ∧ t.shows r) ∧ (∀ n, t.rev (.slot n) = s.rev (.slot n))
      ∧ (∀ b, s.blockHeld b = true →
          t.blockStatus b = 6 ∧ t.mem.readWords (blockBase b + 4) 14 = 13 :: List.replicate 13 0)
      ∧ t.mem.readWord 0x1400 = 0
      ∧ ∀ a, isPageByte a = false → a ≠ 0x1400 → a ≠ 0x1401 →
          (∀ b, s.blockHeld b = true →
            a < blockBase b ∨ (blockBase b + 2 ≤ a ∧ a < blockBase b + 4) ∨ blockBase b + 32 ≤ a) →
          t.mem.read a = s.mem.read a

/-! ### The host port and the event unit -/

/-- A write to CONTROL without the soft-reset position: the enable takes the value written, and nothing else happens. A
write to IDENT, STATUS or TAKE is ignored; IDENT reads 0x3201, and NOTICE and the unused part of the window read 0. -/
def Obligations.ControlAndReadOnlyRegisters : Prop :=
  (∀ (v : Word) (s : State), v.getLsbD 1 = false → s.resetHeld = false → s.evenPages →
      ∃ t, exec (.setEnable v) s = .next t ∧ t = { s with events := { s.events with enable := v.getLsbD 0 } }
        ∧ t.hostRead 0x3FFF = (if v.getLsbD 0 then 1 else 0))
  ∧ (∀ (reg : ReadOnlyReg) (v : Word) (s : State), s.evenPages →
      exec (.registerWriteIgnored reg v) s = .next s
        ∧ (s.resetHeld = false → s.hostRead 0x3FFA = 0x3201 ∧ s.hostRead 0x3FFC = 0)
        ∧ ∀ w : BitVec 14, 0x2000 ≤ w.toNat → w.toNat < 0x3FFA → s.hostRead w = 0)

/-- MASK (R188): 0 to 4 is taken as written and a greater value as 4; a read returns the threshold in force; both
resets set 4; no flag moves and the choice of TAKE does not change; with the threshold at 4 only the two fixed classes
assert the line, with the threshold at 0 every pending class does. The interrupt line: asserted exactly when RESET is
not held, the enable is 1, and a pending class has a level at or above the threshold or LEAD_CONFLICT or DOOR_INTERLOCK
is pending. It is low after both resets. -/
def Obligations.MaskAndInterruptLine : Prop :=
  ((∀ (v : Word) (s : State), s.resetHeld = false → s.evenPages →
      ∃ t, exec (.mask v) s = .next t
        ∧ t = { s with events := { s.events with threshold := if v.toNat ≤ 4 then v.toNat else 4 } }
        ∧ t.takeChoice = s.takeChoice ∧ (∀ c, t.isPending c = s.isPending c)
        ∧ t.hostRead 0x3FFE = BitVec.ofNat 16 (if v.toNat ≤ 4 then v.toNat else 4))
    ∧ (∀ s t : State, exec .powerOnReset s = .next t → t.events.threshold = 4)
    ∧ (∀ (v : Word) (s t : State), v.getLsbD 1 = true → s.resetHeld = false → exec (.softReset v) s = .next t →
        t.events.threshold = 4)
    ∧ ∀ s : State, s.resetHeld = false → s.events.enable = true → (∀ i : Fin 12, s.cfg.levels[i] ≤ 3) →
        (s.events.threshold = 4 →
          (s.interruptLine = true ↔ s.isPending .leadConflict = true ∨ s.isPending .doorInterlock = true))
        ∧ (s.events.threshold = 0 → (s.interruptLine = true ↔ ∃ c, s.isPending c = true)))
  ∧ ((∀ s : State, s.interruptLine = true ↔
      s.resetHeld = false ∧ s.events.enable = true
        ∧ ((∃ c, s.isPending c = true ∧ s.events.threshold ≤ s.levelOf c)
            ∨ s.isPending .leadConflict = true ∨ s.isPending .doorInterlock = true))
    ∧ (∀ s t : State, exec .powerOnReset s = .next t → t.interruptLine = false)
    ∧ ∀ (v : Word) (s t : State), v.getLsbD 1 = true → s.resetHeld = false → exec (.softReset v) s = .next t →
        t.interruptLine = false)

/-- TAKE: with no class pending the host gets 0 and nothing changes; else it gets the code of the pending class of the
highest level and, among those, of the lowest code, and that class's flag is cleared, unless it is an AUX class under a
level sensitivity whose level is active. No other flag moves. While RESET is held it returns 0 and clears nothing; a
host write to TAKE is ignored. `hostData` is what the read returned. STATUS at the moment of the read: part state at
bit 0, queue length from bit 1, highest pending level or 7 from bit 6, the interrupt line at bit 9, the last bad notice
from bit 10. -/
def Obligations.TakeAndStatus : Prop :=
  ((∀ s : State, s.resetHeld = true → exec .take s = .next { s with hostData := 0 })
    ∧ (∀ (v : Word) (s : State), s.evenPages → exec (.registerWriteIgnored .take v) s = .next s)
    ∧ ∀ s : State, s.resetHeld = false → s.evenPages →
      ((∀ c, s.isPending c = false) → exec .take s = .next { s with hostData := 0 })
      ∧ ∀ c, s.ranksFirst c → ∃ t, exec .take s = .next t
          ∧ t = { s with hostData := BitVec.ofNat 16 c.code, events := { s.events with flags := t.events.flags } }
          ∧ (∀ d, d ≠ c → t.isPending d = s.isPending d)
          ∧ (t.isPending c = true ↔
              (c = .aux0 ∧ (s.cfg.sens0 = .levelHigh ∧ s.level .aux0 = true ∨ s.cfg.sens0 = .levelLow ∧ s.level .aux0 = false))
              ∨ (c = .aux1
                ∧ (s.cfg.sens1 = .levelHigh ∧ s.level .aux1 = true ∨ s.cfg.sens1 = .levelLow ∧ s.level .aux1 = false))))
  ∧ (∀ s : State, s.resetHeld = false → s.orders.queue.length ≤ 16 → s.orders.lastBad ≤ 63 →
      (∀ c, s.levelOf c ≤ 4) →
      let v := s.hostRead 0x3FFB
      (v.getLsbD 0 = true ↔ s.part = .active)
        ∧ v.toNat / 2 % 32 = s.orders.queue.length
        ∧ ((∀ c, s.isPending c = false) → v.toNat / 64 % 8 = 7)
        ∧ (∀ c, s.ranksFirst c → v.toNat / 64 % 8 = s.levelOf c)
        ∧ v.getLsbD 9 = s.interruptLine
        ∧ v.toNat / 1024 = s.orders.lastBad)

/-- NOTICE: a block number 0 to 15 of a READY block queues it; anything else is a fault, which STATUS shows and nothing
else changes. The take: the head of the notice queue becomes TAKEN, and its kind and parameter area are copied; with
nothing queued or an order executing the command changes nothing. -/
def Obligations.NoticeAndTake : Prop :=
  (∀ (v : Word) (s : State), s.resetHeld = false → s.evenPages →
      (∀ b : Fin 16, v.toNat = b.val → s.blockStatus b = stREADY →
        ∃ t, exec (.notice v) s = .next t
          ∧ t = { s with orders := { s.orders with queue := s.orders.queue ++ [b] }, mem := t.mem }
          ∧ t.blockStatus b = stQUEUED
          ∧ ∀ a, a ≠ blockBase b → a ≠ blockBase b + 1 → t.mem.read a = s.mem.read a)
      ∧ ((∀ b : Fin 16, v.toNat = b.val → s.blockStatus b ≠ stREADY) →
          exec (.notice v) s = .next
            ({ s with orders := { s.orders with lastBad := if v.toNat < 32 then v.toNat else 32 } }.raise .noticeFault)))
  ∧ (∀ s : State, s.resetHeld = false → s.evenPages →
      (∀ b q, s.orders.executing = none → s.orders.queue = b :: q →
        ∃ t, exec .orderTake s = .next t
          ∧ t = { s with
                    orders := { s.orders with
                      queue := q,
                      executing := some ⟨b, s.mem.readWord (blockBase b + 2), s.mem.readWords (blockBase b + 0x20) 112⟩ },
                    mem := t.mem }
          ∧ t.blockStatus b = stTAKEN
          ∧ ∀ a, a ≠ blockBase b → a ≠ blockBase b + 1 → t.mem.read a = s.mem.read a)
      ∧ (s.orders.executing ≠ none ∨ s.orders.queue = [] → exec .orderTake s = .next s))

/-- The guard of the status word (R173): a held block's is not written; else FREE and READY are stored and any other
value is not. No other byte of exchange memory changes. A host write to a word of exchange memory that is no status
word is stored and reads back; one to the unused part of the window, and at the registers' offsets 0x3FFA on (the
model's choice, log 19), is ignored. Nothing else changes. -/
def Obligations.HostWritesToMemory : Prop :=
  (∀ (b : Fin 16) (v : Word) (s : State), s.resetHeld = false → s.evenPages →
      (s.blockStatus b = stQUEUED ∨ s.blockStatus b = stTAKEN ∨ (v ≠ stFREE ∧ v ≠ stREADY) →
        exec (.statusWordWrite b v) s = .next s)
      ∧ (s.blockStatus b ≠ stQUEUED → s.blockStatus b ≠ stTAKEN → v = stFREE ∨ v = stREADY →
        ∃ t, exec (.statusWordWrite b v) s = .next t ∧ t = { s with mem := t.mem } ∧ t.blockStatus b = v
          ∧ ∀ a, a ≠ blockBase b → a ≠ blockBase b + 1 → t.mem.read a = s.mem.read a))
  ∧ (∀ (w : BitVec 14) (v : Word) (s : State), s.resetHeld = false → s.evenPages → isStatusWord w = false →
      (w.toNat < 0x2000 →
        ∃ t, exec (.exchangeMemoryWrite w v) s = .next t ∧ t = { s with mem := t.mem } ∧ t.hostRead w = v
          ∧ ∀ a, a ≠ 2 * w.toNat → a ≠ 2 * w.toNat + 1 → t.mem.read a = s.mem.read a)
      ∧ (0x2000 ≤ w.toNat → exec (.exchangeMemoryWrite w v) s = .next s))

/-- What a page record shows when exchange memory shows it whole, word by word (R195; a number as far as a word can
hold it). Front page (R171): layout version, part state, reset cause, identity, flag, and the settings as taken.
Consist page (R95): header and 32 entry slots; without a roster N, generation and flags are 0 (R96), lead identity,
rank and f too (the model's choice, log 37). Status page (the places of fields that R195 orders: log 32): lines and
ends (R14) with the neighbour records, the traffic of each end (R53), the door view (R109), and the door summary with
both side records (R116). The heating view and the last allocation table (R139): an absent value 0, an absent age
0xFFFF (the class of an absent bid: log 31). The I/O view (R157): levels, filter times, sensitivities, and for each
output level and owner. -/
def Obligations.PageFields : Prop :=
  (∀ s : State,
      let w := s.mem.readWord
      let c := s.cfg
      let u := s.consist
      let role : Role → Word := fun x => match x with | .lead => 1 | .member => 2
      let letter : Option EndId → Word := fun x => match x with | none => 0 | some .a => 1 | some .b => 2
      let sides : Sides → Word := fun x => (if x.l then 1 else 0) + (if x.r then 2 else 0)
      let sens : Sensitivity → Word := fun x => match x with
        | .rising => 1 | .falling => 2 | .both => 3 | .levelHigh => 4 | .levelLow => 5
      (s.shows .front →
        w 0x00 = s.rev .front ∧ w 0x02 = 1 ∧ w 0x04 = (match s.part with | .halted => 0 | .active => 1)
        ∧ w 0x06 = (match s.cause with | .powerOn => 1 | .soft => 2) ∧ s.identityAt 0x08 c.identity ∧ s.flagAt 0x0C s.gpHeld
        ∧ s.identityAt 0x10 c.identity ∧ w 0x14 = role c.role ∧ s.numberAt 0x16 c.rank ∧ w 0x18 = letter (some c.front)
        ∧ s.flagAt 0x1A c.swap ∧ w 0x1C = sides c.fitted ∧ s.numberAt 0x1E c.size ∧ s.numberAt 0x20 c.count
        ∧ s.numberAt 0x22 c.fallback ∧ (∀ i : Fin 7, s.numberAt (0x24 + 2 * i.val) c.filters[i])
        ∧ w 0x32 = sens c.sens0 ∧ w 0x34 = sens c.sens1 ∧ s.numberAt 0x36 c.high ∧ s.numberAt 0x38 c.low
        ∧ w 0x3A = (match c.mode with | .fixed => 1 | .weighted => 2) ∧ s.numberAt 0x3C c.weight
        ∧ s.numberAt 0x3E c.timeout ∧ s.numberAt 0x40 c.stagger ∧ s.numberAt 0x42 c.stageGap
        ∧ ∀ i : Fin 12, s.numberAt (0x44 + 2 * i.val) c.levels[i])
      ∧ (s.shows .consist →
        w 0x1100 = s.rev .consist ∧ w 0x1102 = (match u.roleState with | .lead => 1 | .member => 2 | .yielded => 3)
        ∧ w 0x1104 = (match u.state with | .unformed => 0 | .settling => 1 | .surveying => 2 | .formed => 3 | .stale => 4)
        ∧ s.flagAt 0x1106 u.resurvey ∧ s.numberAt 0x1108 u.partials
        ∧ w 0x110A = (match u.surveyCause.cause with
          | .none => 0 | .active => 1 | .link => 2 | .change => 3 | .start => 4 | .conflict => 5 | .resurvey => 6 | .role => 7)
        ∧ w 0x110C = u.surveyCause.endCode.setWidth 16 ∧ s.identityAt 0x110E u.surveyCause.identity
        ∧ (∀ r, u.roster = some r →
          w 0x1112 = r.generation ∧ s.identityAt 0x1116 r.leadId ∧ w 0x111A = r.leadRank.setWidth 16
            ∧ s.numberAt 0x111C r.entries.length ∧ s.numberAt 0x111E r.f
            ∧ w 0x1120 = (if r.isPartial then 1 else 0) + (if r.overlength then 2 else 0) + (if r.dupIdentity then 4 else 0))
        ∧ (u.roster = none → w 0x1112 = 0 ∧ ∀ i, i < 6 → w (0x1116 + 2 * i) = 0)
        ∧ w 0x1114 = u.lastGeneration ∧ s.numberAt 0x1122 u.position ∧ w 0x1124 = u.orientation.setWidth 16
        ∧ w 0x1126 = letter u.leadEnd ∧ w 0x1128 = letter u.awayEnd ∧ s.flagAt 0x112A u.terminal
        ∧ ∀ p, p < 32 →
          let a := 0x1200 + 16 * p
          let x := ((u.roster.map (·.entries)).getD [])[p]?
          (∀ e, x = some e → w a = 1 ∧ s.identityAt (a + 2) e.identity ∧ w (a + 6) = e.orientation.setWidth 16
            ∧ w (a + 8) = (if e.lead then 1 else 0) + (if e.terminal then 2 else 0) ∧ w (a + 10) = e.doors.setWidth 16
            ∧ w (a + 12) = e.size.setWidth 16 ∧ w (a + 14) = e.count.setWidth 16)
          ∧ (x = none → ∀ i, i < 8 → w (a + 2 * i) = 0)))
  ∧ (∀ s : State,
      let w := s.mem.readWord
      let sides : Sides → Word := fun x => (if x.l then 1 else 0) + (if x.r then 2 else 0)
      let side : Nat → Option DoorRecord → Prop := fun a r =>
        (∀ x, r = some x → w a = x.generation ∧ s.flagAt (a + 2) x.allClosed ∧ s.flagAt (a + 4) x.overflow
          ∧ s.flagAt (a + 6) x.mismatch ∧ w (a + 8) = x.count.setWidth 16 ∧ s.listAt (a + 10) 8 x.list
          ∧ w (a + 26) = x.received ∧ s.numberAt (a + 28) x.age)
        ∧ (r = none → ∀ i, i < 15 → w (a + 2 * i) = 0)
      let traffic : Nat → EndUnit → Prop := fun a u =>
        s.numberAt a u.fill ∧ s.numberAt (a + 2) u.buffer.length ∧ s.flagAt (a + 4) u.blocked
          ∧ s.numberAt (a + 6) u.relayQ.length ∧ s.numberAt (a + 8) u.originQ.length ∧ s.flagAt (a + 10) u.sentStop
          ∧ s.flagAt (a + 12) u.recvStop ∧ s.flagAt (a + 14) u.stalled
      (s.shows .lines →
        w 0x1410 = s.rev .lines
        ∧ (∀ a l, (a, l) ∈ [(0x1412, (⟨.a, .one⟩ : LineId)), (0x1416, ⟨.a, .two⟩), (0x141A, ⟨.b, .one⟩), (0x141E, ⟨.b, .two⟩)] →
          w a = (match (s.lineOf l).state with | .dark => 0 | .settling => 1 | .up => 2 | .suspect => 3 | .rest => 4)
            ∧ s.numberAt (a + 2) (s.lineOf l).score)
        ∧ ∀ a e, (a, e) ∈ [(0x1422, EndId.a), (0x1438, .b)] →
          let usable : LineNo → Prop := fun n => (s.lineOf ⟨e, n⟩).state = .up ∨ (s.lineOf ⟨e, n⟩).state = .suspect
          let one := (usable .one ∧ ¬ usable .two) ∨ (usable .two ∧ ¬ usable .one)
          w a = (match (s.endOf e).state with | .uncoupled => 0 | .probing => 1 | .linked => 2)
          ∧ w (a + 2) = (if usable .one ∧ usable .two then 2 else if one then 1 else 0)
          ∧ w (a + 4) = (if (s.endOf e).state = .linked ∧ one then 1 else 0)
          ∧ (∀ n, (s.endOf e).neighbour = some n → s.identityAt (a + 6) n.identity ∧ w (a + 10) = n.peerEnd.setWidth 16
            ∧ w (a + 12) = n.role.setWidth 16 ∧ w (a + 14) = n.generation ∧ s.identityAt (a + 16) n.lead
            ∧ w (a + 20) = n.heard)
          ∧ ((s.endOf e).neighbour = none → ∀ i, i < 8 → w (a + 6 + 2 * i) = 0))
      ∧ (s.shows .trafficA → w 0x1460 = s.rev .trafficA ∧ traffic 0x1462 (s.endOf .a))
      ∧ (s.shows .trafficB → w 0x1480 = s.rev .trafficB ∧ traffic 0x1482 (s.endOf .b))
      ∧ (s.shows .doorView →
        w 0x14A0 = s.rev .doorView
        ∧ w 0x14A2 = (match s.door.group with | .idle => 0 | .released _ _ => 1 | .closing => 2)
        ∧ (∀ x r, s.door.group = .released x r →
          w 0x14A4 = sides x ∧ w 0x14A6 = r.generation ∧ s.numberAt 0x14A8 r.first ∧ s.numberAt 0x14AA r.last)
        ∧ ((∀ x r, s.door.group ≠ .released x r) → ∀ i, i < 4 → w (0x14A4 + 2 * i) = 0)
        ∧ w 0x14AC = (match s.door.drop with | .none => 0 | .close => 1 | .zeroSpeed => 2 | .consist => 3)
        ∧ (∀ r, s.door.lastRelease = some r →
          w 0x14AE = r.generation ∧ s.numberAt 0x14B0 r.trainSide ∧ s.numberAt 0x14B2 r.first ∧ s.numberAt 0x14B4 r.last
            ∧ w 0x14B6 = sides r.sides
            ∧ w 0x14B8 = (match r.outcome with
              | .applied => 1 | .notFormed => 2 | .generation => 3 | .outOfRange => 4 | .noZeroSpeed => 5 | .noSide => 6))
        ∧ (s.door.lastRelease = none → ∀ i, i < 6 → w (0x14AE + 2 * i) = 0)
        ∧ s.flagAt 0x14BA (s.level .dloop))
      ∧ (s.shows .doorSummary →
        w 0x14E0 = s.rev .doorSummary
        ∧ w 0x14E2 = (match s.door.summary.value with | .unknown => 0 | .allClosed => 1 | .opened => 2)
        ∧ s.numberAt 0x14E4 s.door.summary.count ∧ s.flagAt 0x14E6 s.door.summary.overflow
        ∧ s.listAt 0x14E8 8 s.door.summary.list ∧ side 0x14F8 s.door.recF ∧ side 0x1516 s.door.recR))
  ∧ (∀ s : State,
      let w := s.mem.readWord
      let h := s.heat
      let c := s.cfg
      let cls : HeatClass → Word := fun x => match x with | .essential => 1 | .comfort => 2
      let sens : Sensitivity → Word := fun x => match x with
        | .rising => 1 | .falling => 2 | .both => 3 | .levelHigh => 4 | .levelLow => 5
      (s.shows .heatView →
        w 0x1560 = s.rev .heatView
        ∧ w 0x1562 = (match h.state with | .noGrant => 0 | .held => 1 | .shed => 2 | .supplyOff => 3)
        ∧ s.numberAt 0x1564 h.limit ∧ s.numberAt 0x1566 h.on
        ∧ (∀ r, h.ramp = some r → s.numberAt 0x1568 r.target ∧ w 0x156A = r.dueAt)
        ∧ (h.ramp = none → w 0x1568 = 0 ∧ w 0x156A = 0)
        ∧ (∀ g, h.grant = some g →
          w 0x156C = g.generation ∧ w 0x156E = g.round ∧ s.numberAt 0x1570 g.stages ∧ s.flagAt 0x1572 g.void)
        ∧ (h.grant = none → ∀ i, i < 4 → w (0x156C + 2 * i) = 0)
        ∧ s.numberAt 0x1574 h.tSeen ∧ s.numberAt 0x1576 h.demandQ ∧ w 0x1578 = cls h.demandClass
        ∧ s.numberAt 0x157A h.capacity ∧ s.numberAt 0x157C h.derate ∧ s.numberAt 0x157E h.period
        ∧ s.numberAt 0x1580 c.size ∧ s.numberAt 0x1582 c.count ∧ s.numberAt 0x1584 c.fallback
        ∧ s.numberAt 0x1586 c.stagger ∧ s.numberAt 0x1588 c.stageGap)
      ∧ (s.shows .allocTable →
        w 0x15C0 = s.rev .allocTable
        ∧ (∀ a, h.alloc = some a →
          w 0x15C2 = a.generation ∧ w 0x15C4 = a.round ∧ s.numberAt 0x15C6 a.capacity ∧ s.numberAt 0x15C8 a.derate
          ∧ s.flagAt 0x15CA a.supply ∧ s.numberAt 0x15CC a.effective ∧ s.numberAt 0x15CE a.essential
          ∧ s.numberAt 0x15D0 a.available ∧ s.numberAt 0x15D2 a.comfort ∧ s.numberAt 0x15D4 a.leftEssential
          ∧ s.numberAt 0x15D6 a.leftComfort ∧ s.numberAt 0x15D8 a.total
          ∧ ∀ p, p < 32 →
            let k := 0x15DA + 10 * p
            (∀ r, a.rows[p]? = some r →
              s.numberAt k r.q ∧ w (k + 2) = (match r.cls with | some x => cls x | none => 0) ∧ s.numberAt (k + 4) r.size
              ∧ (∀ n, r.age = some n → s.numberAt (k + 6) n) ∧ (r.age = none → w (k + 6) = 0xFFFF)
              ∧ s.numberAt (k + 8) r.stages)
            ∧ (a.rows[p]? = none → ∀ i, i < 5 → w (k + 2 * i) = 0))
        ∧ (h.alloc = none → ∀ i, i < 172 → w (0x15C2 + 2 * i) = 0))
      ∧ (s.shows .ioView → c.count ≤ 6 →
        w 0x1780 = s.rev .ioView
        ∧ (∀ (k : Fin 7) i, (k, i) ∈ [((0 : Fin 7), Input.cplA), (1, .cplB), (2, .zspd), (3, .dloop), (4, .supply), (5, .aux0),
            (6, .aux1)] →
          s.flagAt (0x1782 + 4 * k.val) (s.level i) ∧ s.numberAt (0x1784 + 4 * k.val) c.filters[k])
        ∧ w 0x179E = sens c.sens0 ∧ w 0x17A0 = sens c.sens1
        ∧ ∀ i, i < 12 → s.flagAt (0x17A2 + 4 * i) (s.outputs.getLsbD i)
          ∧ w (0x17A4 + 4 * i) = (if 9 ≤ i then 3 else if s.part = .halted then 4 else if i < 3 then 1
            else if i < 3 + c.count then 2 else 3)))

/-! ### Orders -/

/-- What the completion of an order writes: result code, 13 words of result fields (0 beyond those given), then the
status DONE, ABORTED or REFUSED; ORDER_DONE is pending and the order unit free. Nothing else changes. A completion
command whose kind is not that of the executing order finds nothing to complete (log 20). -/
def Obligations.Completion : Prop :=
  (∀ (s : State) (o : OrderCopy) (r : ResultCode) (f : List Word),
      let t := s.complete o r f
      t = { s with
              orders := { s.orders with executing := none }, events := { s.events with flags := t.events.flags },
              mem := t.mem }
        ∧ t.blockStatus o.block = (if r = .done then stDONE else if r = .aborted then stABORTED else stREFUSED)
        ∧ t.mem.readWords (blockBase o.block + 4) 14 = r.code :: (List.range 13).map (fun i => f.getD i 0)
        ∧ t.isPending .orderDone = true ∧ (∀ c, c ≠ .orderDone → t.isPending c = s.isPending c)
        ∧ ∀ a, (a < blockBase o.block ∨ (blockBase o.block + 2 ≤ a ∧ a < blockBase o.block + 4)
              ∨ blockBase o.block + 32 ≤ a) → t.mem.read a = s.mem.read a)
  ∧ (∀ s : State, s.resetHeld = false → s.evenPages →
      ∀ k c, (k, c) ∈ [((1 : Word), Instr.configure), (2, .setRole), (3, .startSurvey), (4, .doorRelease), (5, .doorClose),
                       (6, .heatDemand), (7, .heatSupply), (8, .sendMessage), (9, .setOutputs)] →
        (∀ o, s.orders.executing = some o → o.kind ≠ k) → exec c s = .next s)

/-- Kind and part state come before an order's own tests: a kind that is none of the nine is refused UNKNOWN_ORDER in
either part state; in HALTED every kind but CONFIGURE and SET_OUTPUTS is refused WRONG_STATE; in ACTIVE CONFIGURE is.
-/
def Obligations.OrdersByKindAndState : Prop :=
  ∀ (s : State) (o : OrderCopy), s.resetHeld = false → s.orders.executing = some o →
    (o.kind.toNat = 0 ∨ 9 < o.kind.toNat → Yields .unknownOrder s (s.complete o .unknownOrder []))
    ∧ (s.part = .active → o.kind = 1 → Yields .configure s (s.complete o .wrongState []))
    ∧ (s.part = .halted →
        (o.kind = 2 → Yields .setRole s (s.complete o .wrongState []))
        ∧ (o.kind = 3 → Yields .startSurvey s (s.complete o .wrongState []))
        ∧ ∀ k c, (k, c) ∈ [((4 : Word), Instr.doorRelease), (5, .doorClose), (6, .heatDemand), (7, .heatSupply),
                           (8, .sendMessage)] →
            o.kind = k → Yields c s (s.complete o .wrongState []))

/-- CONFIGURE in HALTED: the first field in table order that holds a value outside its set refuses the order BAD_FIELD
with its number as the result field, and nothing else changes. The settings a CONFIGURE takes (R180), and the numbers
of the fields it counts as clamped: those taken other than as written, in table order, without the filter times, the
twelve levels as one field (the model's choice, log 17). -/
def Obligations.ConfigureFields : Prop :=
  (∀ (s : State) (o : OrderCopy), s.resetHeld = false → s.part = .halted → s.orders.executing = some o → o.kind = 1 →
      let faulty : Nat → Prop := fun n =>
        (n = 1 ∧ o.ident 0 = 0) ∨ (n = 2 ∧ o.num 4 ≠ 1 ∧ o.num 4 ≠ 2) ∨ (n = 4 ∧ o.num 8 ≠ 1 ∧ o.num 8 ≠ 2)
          ∨ (n = 6 ∧ 3 < o.num 12) ∨ (n = 11 ∧ (o.num 34 = 0 ∨ 5 < o.num 34)) ∨ (n = 12 ∧ (o.num 36 = 0 ∨ 5 < o.num 36))
          ∨ (n = 15 ∧ o.num 42 ≠ 1 ∧ o.num 42 ≠ 2)
      ∀ n, faulty n → (∀ m, m < n → ¬ faulty m) →
        Yields .configure s (s.complete o .badField [BitVec.ofNat 16 n]))
  ∧ (∀ o : OrderCopy,
      let c := o.settings
      c.identity = o.ident 0 ∧ c.rank = min 3 (o.num 6) ∧ c.swap = decide (o.num 10 ≠ 0)
        ∧ c.size = (if o.num 14 = 0 then 1 else if 40 < o.num 14 then 40 else o.num 14)
        ∧ c.count = (if 6 < o.num 16 then 6 else o.num 16)
        ∧ c.fallback = (if c.count < o.num 18 then c.count else o.num 18)
        ∧ (∀ i : Fin 7, c.filters[i] = o.num (20 + 2 * i.val) % 256)
        ∧ (∀ n x, (n, x) ∈ [(1, Sensitivity.rising), (2, .falling), (3, .both), (4, .levelHigh), (5, .levelLow)] →
            (o.num 34 = n → c.sens0 = x) ∧ (o.num 36 = n → c.sens1 = x))
        ∧ 256 ≤ c.high ∧ c.high ≤ 960 ∧ c.high % 16 = 0
        ∧ (256 ≤ o.num 38 → o.num 38 ≤ 960 → c.high ≤ o.num 38 ∧ o.num 38 < c.high + 16)
        ∧ (o.num 38 < 256 → c.high = 256) ∧ (960 < o.num 38 → c.high = 960)
        ∧ c.low = (if o.num 40 < 64 then 64 else if c.high - 64 < o.num 40 then c.high - 64 else o.num 40)
        ∧ c.weight = min 7 (o.num 44)
        ∧ c.timeout = (if o.num 46 < 200 then 200 else if 2000 < o.num 46 then 2000 else o.num 46)
        ∧ c.stagger = min 500 (o.num 48)
        ∧ c.stageGap = (if o.num 50 < 250 then 250 else if 5000 < o.num 50 then 5000 else o.num 50)
        ∧ (∀ i : Fin 12, c.levels[i] = min 3 (o.num (52 + 2 * i.val)))
        ∧ (o.num 4 = 1 → c.role = .lead) ∧ (o.num 4 = 2 → c.role = .member)
        ∧ (o.num 8 = 1 → c.front = .a) ∧ (o.num 8 = 2 → c.front = .b)
        ∧ (o.num 12 ≤ 3 → c.fitted.code = o.num 12)
        ∧ (o.num 42 = 1 → c.mode = .fixed) ∧ (o.num 42 = 2 → c.mode = .weighted)
        ∧ o.clampedFields.Pairwise (· < ·)
        ∧ ∀ n, n ∈ o.clampedFields ↔
            (n = 3 ∧ o.num 6 ≠ c.rank) ∨ (n = 5 ∧ 1 < o.num 10) ∨ (n = 7 ∧ o.num 14 ≠ c.size)
              ∨ (n = 8 ∧ o.num 16 ≠ c.count) ∨ (n = 9 ∧ o.num 18 ≠ c.fallback) ∨ (n = 13 ∧ o.num 38 ≠ c.high)
              ∨ (n = 14 ∧ o.num 40 ≠ c.low) ∨ (n = 16 ∧ o.num 44 ≠ c.weight) ∨ (n = 17 ∧ o.num 46 ≠ c.timeout)
              ∨ (n = 18 ∧ o.num 48 ≠ c.stagger) ∨ (n = 19 ∧ o.num 50 ≠ c.stageGap)
              ∨ (n = 20 ∧ ∃ i : Fin 12, 3 < o.num (52 + 2 * i.val)))

/-- A CONFIGURE without a faulty field moves the part from HALTED to ACTIVE: the settings are in force, a LEAD is
SETTLING with cause ACTIVE, with end and identity 0 (the model's choice, log 18), and its hold-off timer started while
a MEMBER stays UNFORMED, an end that is not UNCOUPLED runs its HAIL timer, its lines with energy are SETTLING and its
DARK ones offer idle drive, the heating unit is in SUPPLY_OFF without supply, and the order is DONE. -/
def Obligations.ConfigureEntersActive : Prop :=
  ∀ (s : State) (o : OrderCopy), s.resetHeld = false → s.part = .halted → s.quiet → s.orders.executing = some o →
    o.kind = 1 → o.faultyField = 0 →
    ∃ t, exec .configure s = .next t
      ∧ t.part = .active ∧ t.cfg = o.settings ∧ t.gpHeld = false ∧ t.orders.executing = none
      ∧ t.blockStatus o.block = stDONE
      ∧ t.mem.readWords (blockBase o.block + 4) 3
          = [0, BitVec.ofNat 16 o.clampedFields.length, BitVec.ofNat 16 (o.clampedFields.headD 0)]
      ∧ t.isPending .orderDone = true
      ∧ (o.num 4 = 1 →
          t.consist = { s.consist with
            role := .lead, roleState := .lead, state := .settling, surveyCause := ⟨.active, 0, 0⟩, holdOff := some 0 }
          ∧ t.isPending .consistChange = true)
      ∧ (o.num 4 = 2 → t.consist = s.consist)
      ∧ (∀ e, (t.endOf e).state ≠ .uncoupled → (t.endOf e).hail = some 0)
      ∧ (∀ l, (t.lineOf l).state = .settling ↔
          ((s.lineOf l).energy = true ∧ (t.endOf l.side).state ≠ .uncoupled))
      ∧ (∀ l, (t.lineOf l).state = .dark →
          t.lineOutput l = if (t.endOf l.side).state = .uncoupled then .off else .idle)
      ∧ (t.level .supply = false → t.heat.state = .supplyOff ∧ t.isPending .heatShed = true)
      ∧ t.door = s.door ∧ t.inFlight = s.inFlight ∧ t.deliveries = s.deliveries ∧ t.outputs = s.outputs
      ∧ ∀ a, isPageByte a = false →
          (a < blockBase o.block ∨ (blockBase o.block + 2 ≤ a ∧ a < blockBase o.block + 4)
            ∨ blockBase o.block + 32 ≤ a) → t.mem.read a = s.mem.read a

/-- SET_ROLE by the table of R79; the cause ROLE has end and identity 0 (the model's choice, log 18). A coach that
leaves LEAD empties its door records and bids and stops its rounds; one that leaves FORMED drops a release, voids its
grant and stops rounds and DOORSTAT; the summary is then UNKNOWN. Its frame: lines, ends, sequence counters, inputs,
settings and messages are untouched, and exchange memory moves in the page records and the order's block alone. -/
def Obligations.SetRole : Prop :=
  ∀ (s : State) (o : OrderCopy), s.executes o → o.kind = 2 →
    let takes := o.num 0 = 1 ∧ s.consist.roleState ≠ .lead
    let leaves := o.num 0 = 2 ∧ s.consist.roleState = .lead
    let unsettles := (takes ∨ leaves) ∧ s.consist.state = .formed
    let voided := unsettles ∧ s.heat.state = .held
    ∃ t, exec .setRole s = .next t
      ∧ t = { s with
                consist := t.consist, door := t.door, heat := t.heat, outputs := t.outputs, orders := t.orders,
                events := t.events, revs := t.revs, mem := t.mem }
      ∧ t.orders = { s.orders with executing := none } ∧ t.isPending .orderDone = true
      ∧ (∀ a, isPageByte a = false →
          (a < blockBase o.block ∨ (blockBase o.block + 2 ≤ a ∧ a < blockBase o.block + 4)
            ∨ blockBase o.block + 32 ≤ a) → t.mem.read a = s.mem.read a)
      ∧ (o.num 0 ≠ 1 → o.num 0 ≠ 2 → t.consist = s.consist ∧ t.blockStatus o.block = stREFUSED
          ∧ t.mem.readWord (blockBase o.block + 4) = 3)
      ∧ (o.num 0 = 1 ∨ o.num 0 = 2 → t.blockStatus o.block = stDONE
          ∧ t.mem.readWords (blockBase o.block + 4) 14 = List.replicate 14 0)
      ∧ (o.num 0 = 1 → s.consist.roleState ≠ .lead →
          t.consist = { s.consist with
            role := .lead, roleState := .lead, followed := none, rosterWait := none, holdOff := some 0,
            surveyCause := ⟨.role, 0, 0⟩, state := .settling })
      ∧ (o.num 0 = 2 → s.consist.roleState = .lead →
          t.consist = { s.consist with
            role := .member, roleState := .member, holdOff := none, resurvey := false, survey := none,
            sideF := if s.consist.survey.isSome then .empty else s.consist.sideF,
            sideR := if s.consist.survey.isSome then .empty else s.consist.sideR,
            state := if s.consist.roster.isSome then .stale else .unformed })
      ∧ (o.num 0 = 2 → s.consist.roleState = .yielded →
          t.consist = { s.consist with role := .member, roleState := .member })
      ∧ (o.num 0 = 2 → s.consist.roleState = .member → t.consist = s.consist)
      ∧ (o.num 0 = 1 → s.consist.roleState = .lead → t.consist = s.consist)
      ∧ (t.consist.state ≠ s.consist.state → t.isPending .consistChange = true)
      ∧ t.heat = { s.heat with
          grant := if unsettles then s.heat.grant.map (fun g => { g with void := true }) else s.heat.grant,
          ramp := if voided then none else s.heat.ramp, limit := if voided then s.heat.on else s.heat.limit,
          round := if unsettles ∨ leaves then none else s.heat.round,
          window := if unsettles ∨ leaves then none else s.heat.window,
          bids := if leaves then Vector.replicate 32 none else s.heat.bids }
      ∧ t.door = { s.door with
          group := t.door.group, drop := t.door.drop, stat := if unsettles then none else s.door.stat,
          recF := if leaves then none else s.door.recF, recR := if leaves then none else s.door.recR,
          summary := if takes ∨ leaves ∨ (o.num 0 = 2 ∧ s.consist.roleState = .yielded) then ⟨.unknown, 0, [], false⟩
            else s.door.summary }
      ∧ (t.door.summary ≠ s.door.summary → t.isPending .doorSummary = true)
      ∧ (∀ x r, s.door.group = .released x r → unsettles →
          t.door.group = .idle ∧ t.door.drop = .consist ∧ t.outputs = s.outputs &&& 0xFF8)
      ∧ (¬ unsettles ∨ (∀ x r, s.door.group ≠ .released x r) →
          t.door.group = s.door.group ∧ t.door.drop = s.door.drop ∧ t.outputs = s.outputs)

/-- START_SURVEY: refused NOT_LEAD for a coach that is not lead, BUSY while SURVEYING; else the partial count is 0, the
cause is START, with end and identity 0 (the model's choice, log 18), a survey begins, and the order is DONE. A FORMED
lead with neither end LINKED surveys itself in the step: the consist page is rewritten twice, the cause going with the
entry to SURVEYING (the model's count, log 6), and a door summary other than UNKNOWN passes through UNKNOWN, with
DOOR_SUMMARY raised and its record rewritten twice (the model's moments, log 7, and count, log 6). -/
def Obligations.StartSurvey : Prop :=
  ∀ (s : State) (o : OrderCopy), s.executes o → o.kind = 3 →
    (s.consist.roleState ≠ .lead → Yields .startSurvey s (s.complete o .notLead []))
    ∧ (s.consist.roleState = .lead → s.consist.state = .surveying → Yields .startSurvey s (s.complete o .busy []))
    ∧ (s.consist.roleState = .lead → s.consist.state ≠ .surveying →
        Yields .startSurvey s
          (({ s with consist := { s.consist with partials := 0, surveyCause := ⟨.start, 0, 0⟩ } }.beginSurvey).complete o
            .done []))
    ∧ (s.consist.roleState = .lead → s.consist.state = .formed → (∀ e, (s.endOf e).state ≠ .linked) → s.evenPages →
        ∃ t, exec .startSurvey s = .next t
          ∧ t.consist.state = .formed ∧ t.isPending .consistChange = true ∧ t.rev .consist = s.rev .consist + 4
          ∧ (s.door.summary.value ≠ .unknown →
              t.isPending .doorSummary = true ∧ t.rev .doorSummary = s.rev .doorSummary + 4))

/-- DOOR_RELEASE refused: the tests in their order, the first failure gives the result code. DOOR_RELEASE carried out:
a DOOR of kind RELEASE with the installed generation is placed out of both ends, the lead's own outcome is recorded and
an applied release releases the mapped sides, and the result fields give the ends placed and the own outcome. -/
def Obligations.DoorRelease : Prop :=
  (∀ (s : State) (o : OrderCopy), s.executes o → o.kind = 4 →
      (s.consist.roleState ≠ .lead → Yields .doorRelease s (s.complete o .notLead []))
      ∧ (s.consist.roleState = .lead →
        (s.consist.state ≠ .formed → Yields .doorRelease s (s.complete o .consistUnsettled []))
        ∧ (s.consist.state = .formed →
          (o.num 0 = 0 ∨ 3 < o.num 0 → Yields .doorRelease s (s.complete o .badField []))
          ∧ (1 ≤ o.num 0 → o.num 0 ≤ 3 →
            (o.num 2 = 0 ∨ o.num 4 < o.num 2 ∨ s.consist.n < o.num 4 → Yields .doorRelease s (s.complete o .range []))
            ∧ (1 ≤ o.num 2 → o.num 2 ≤ o.num 4 → o.num 4 ≤ s.consist.n →
                s.level .zspd = false → Yields .doorRelease s (s.complete o .noZeroSpeed []))))))
  ∧ (∀ (s : State) (o : OrderCopy), s.executes o → o.kind = 4 → s.consist.roleState = .lead → s.consist.state = .formed →
      1 ≤ o.num 0 → o.num 0 ≤ 3 → 1 ≤ o.num 2 → o.num 2 ≤ o.num 4 → o.num 4 ≤ s.consist.n → s.level .zspd = true →
      let g := s.consist.generation
      let d := s.originates .door .broadcast 0 (be16 g ++ [1, byteOf (o.num 0), byteOf (o.num 2), byteOf (o.num 4)]) []
      let x := mapSides (o.num 0) s.consist.orientation s.cfg.swap s.cfg.fitted
      let inRange := o.num 2 ≤ s.consist.position ∧ s.consist.position ≤ o.num 4
      let y : Sides := match s.door.group with
        | .released y _ => ⟨y.l || x.l, y.r || x.r⟩
        | .idle => x
        | .closing => x
      ∃ t, exec .doorRelease s = .next t
        ∧ t = { s with
                  seqs := t.seqs, ends := t.ends, door := t.door, outputs := t.outputs, orders := t.orders,
                  events := t.events, revs := t.revs, mem := t.mem }
        ∧ (∀ e, Placed (s.sendingLines e) d (s.endOf e) (t.endOf e))
        ∧ (inRange → x ≠ ⟨false, false⟩ →
            t.door = { s.door with
              group := .released y ⟨g, o.num 2, o.num 4⟩,
              lastRelease := some ⟨g, o.num 0, o.num 2, o.num 4, x, .applied⟩ }
            ∧ t.outputs = (s.outputs &&& 0xFF8) ||| (if y.l then 1 else 0) ||| (if y.r then 2 else 0))
        ∧ (inRange → x = ⟨false, false⟩ → t.outputs = s.outputs
            ∧ t.door = { s.door with lastRelease := some ⟨g, o.num 0, o.num 2, o.num 4, ⟨false, false⟩, .noSide⟩ })
        ∧ (¬ inRange → t.outputs = s.outputs
            ∧ t.door = { s.door with lastRelease := some ⟨g, o.num 0, o.num 2, o.num 4, ⟨false, false⟩, .outOfRange⟩ })
        ∧ t.blockStatus o.block = stDONE
        ∧ t.mem.readWords (blockBase o.block + 4) 3
            = [0, (if s.enters .a d then 1 else 0) + (if s.enters .b d then 2 else 0),
               if inRange then (if x = ⟨false, false⟩ then 6 else 1) else 4]
        ∧ t.isPending .orderDone = true ∧ (∀ c, c ≠ .orderDone → t.isPending c = s.isPending c))

/-- DOOR_CLOSE: refused NOT_LEAD for a coach that is not lead; a lead places a DOOR of kind CLOSE out of both ends in
any consist state and closes its own doors: CLOSING, or IDLE at once where the coach is closed. -/
def Obligations.DoorClose : Prop :=
  ∀ (s : State) (o : OrderCopy), s.executes o → o.kind = 5 →
    (s.consist.roleState ≠ .lead → Yields .doorClose s (s.complete o .notLead []))
    ∧ (s.consist.roleState = .lead →
      let d := s.originates .door .broadcast 0 (be16 s.consist.generation ++ [2, 0, 0, 0]) []
      ∃ t, exec .doorClose s = .next t
        ∧ t = { s with
                  seqs := t.seqs, ends := t.ends, door := t.door, outputs := t.outputs, orders := t.orders,
                  events := t.events, revs := t.revs, mem := t.mem }
        ∧ (∀ e, Placed (s.sendingLines e) d (s.endOf e) (t.endOf e))
        ∧ t.door = { s.door with
            drop := .close,
            group := match s.door.group with
              | .closing => .closing
              | .idle => if s.level .dloop then .idle else .closing
              | .released _ _ => if s.level .dloop then .idle else .closing }
        ∧ (s.door.group ≠ .closing → t.outputs = (s.outputs &&& 0xFF8) ||| (if s.level .dloop then 0 else 4))
        ∧ (s.door.group = .closing → t.outputs = s.outputs)
        ∧ t.blockStatus o.block = stDONE
        ∧ t.mem.readWords (blockBase o.block + 4) 2
            = [0, (if s.enters .a d then 1 else 0) + (if s.enters .b d then 2 else 0)]
        ∧ t.isPending .orderDone = true ∧ (∀ c, c ≠ .orderDone → t.isPending c = s.isPending c))

/-- The coach sides of a train side (R103): LEFT is side L for orientation A-FRONT and side R for the other, the swap
flag exchanges them, and only fitted sides count. -/
def Obligations.DoorSides : Prop :=
  ∀ (train : Nat) (w : Byte) (swap : Bool) (fitted : Sides),
    let x := mapSides train w swap fitted
    let straight := (decide (w = 1) != swap)
    (x.l = true ↔ fitted.l = true ∧ (train = 3 ∨ (train = 1 ∧ straight = true) ∨ (train = 2 ∧ straight = false)))
      ∧ (x.r = true ↔ fitted.r = true ∧ (train = 3 ∨ (train = 2 ∧ straight = true) ∨ (train = 1 ∧ straight = false)))

/-- HEAT_DEMAND: a class outside ESSENTIAL and COMFORT is refused BAD_FIELD; else the demand is set, the stages clamped
to the stage count, and both come back as result fields. HEAT_SUPPLY: capacity, derating and round period are taken
clamped and come back as result fields; a round that the new period finds due opens at once. -/
def Obligations.HeatOrders : Prop :=
  (∀ (s : State) (o : OrderCopy), s.executes o → o.kind = 6 →
      (o.num 2 ≠ 1 → o.num 2 ≠ 2 → Yields .heatDemand s (s.complete o .badField []))
      ∧ (s.cfg.count ≤ 6 → ∀ c : HeatClass, (o.num 2 = 1 ∧ c = .essential) ∨ (o.num 2 = 2 ∧ c = .comfort) →
          let q := if s.cfg.count < o.num 0 then s.cfg.count else o.num 0
          Yields .heatDemand s
            ({ s with heat := { s.heat with demandQ := q, demandClass := c } }.complete o .done
              [BitVec.ofNat 16 q, o.word 2])))
  ∧ (∀ (s : State) (o : OrderCopy), s.executes o → o.kind = 7 →
      let c := if 2000 < o.num 0 then 2000 else o.num 0
      let p := if 100 < o.num 2 then 100 else o.num 2
      let n := if o.num 4 = 0 then 1 else if 10 < o.num 4 then 10 else o.num 4
      let u := { s with heat := { s.heat with capacity := c, derate := p, period := n } }
      let f := [BitVec.ofNat 16 c, BitVec.ofNat 16 p, BitVec.ofNat 16 n]
      (reached s.heat.round (1000 * n) = false → Yields .heatSupply s (u.complete o .done f))
        ∧ (reached s.heat.round (1000 * n) = true → Yields .heatSupply s (u.openRound.complete o .done f)))

/-- SEND_MESSAGE refused: own identity BAD_FIELD, a length outside 1 to 200 RANGE, four unicasts in flight
TOO_MANY_IN_FLIGHT, in this order and without a sequence number; a LINKED end whose queue has no room for the telegram
QUEUE_FULL, with the sequence number used. SEND_MESSAGE placed: the MSG goes out of every LINKED end; a broadcast
completes DONE with the ends placed and its sequence number; a unicast stays TAKEN in the in-flight list with a
deadline timer of 0, and the order unit is free. -/
def Obligations.SendMessage : Prop :=
  (∀ (s : State) (o : OrderCopy), s.executes o → o.kind = 8 →
      (o.ident 0 = s.cfg.identity → Yields .sendMessage s (s.complete o .badField []))
      ∧ (o.ident 0 ≠ s.cfg.identity →
        (o.num 4 = 0 ∨ 200 < o.num 4 → Yields .sendMessage s (s.complete o .range []))
        ∧ (1 ≤ o.num 4 → o.num 4 ≤ 200 →
          (o.ident 0 ≠ 0 → 4 ≤ s.inFlight.length → Yields .sendMessage s (s.complete o .tooManyInFlight []))
          ∧ (o.ident 0 = 0 ∨ s.inFlight.length < 4 →
            let m := s.originates .msg (if o.ident 0 = 0 then .broadcast else .coach) (o.ident 0) o.msgBody []
            (∃ e, (s.endOf e).state = .linked ∧ admission m (s.endOf e).originQ = none) →
              Yields .sendMessage s
                ({ s with seqs := s.seqs.set 10 (succ1 s.seqs[10]) }.complete o .queueFull [])))))
  ∧ (∀ (s : State) (o : OrderCopy), s.executes o → o.kind = 8 → o.ident 0 ≠ s.cfg.identity → 1 ≤ o.num 4 →
      o.num 4 ≤ 200 → (o.ident 0 = 0 ∨ s.inFlight.length < 4) →
      let m := s.originates .msg (if o.ident 0 = 0 then .broadcast else .coach) (o.ident 0) o.msgBody []
      (∀ e, (s.endOf e).state = .linked → (admission m (s.endOf e).originQ).isSome = true) →
      ∃ t, exec .sendMessage s = .next t
        ∧ t = { s with
                  seqs := t.seqs, ends := t.ends, inFlight := t.inFlight, orders := { s.orders with executing := none },
                  events := t.events, revs := t.revs, mem := t.mem }
        ∧ (∀ e, Placed (s.sendingLines e) m (s.endOf e) (t.endOf e))
        ∧ (o.ident 0 = 0 → t.inFlight = s.inFlight ∧ t.blockStatus o.block = stDONE ∧ t.isPending .orderDone = true
            ∧ t.mem.readWords (blockBase o.block + 4) 3
                = [(0 : Word), (if (s.endOf .a).state = .linked then 1 else 0) + (if (s.endOf .b).state = .linked then 2 else 0),
                   s.seqs[10]])
        ∧ (o.ident 0 ≠ 0 → t.inFlight = s.inFlight ++ [⟨o.block, o.ident 0, s.seqs[10], 0⟩]
            ∧ t.blockStatus o.block = s.blockStatus o.block ∧ ∀ c, t.isPending c = s.isPending c))

/-- SET_OUTPUTS in either part state: the host-owned outputs take set, clear and toggle in this order; every other
output keeps its level; the result fields give the named bits that the host does not own and the levels after. -/
def Obligations.SetOutputs : Prop :=
  ∀ (s : State) (o : OrderCopy), s.resetHeld = false → s.orders.executing = some o → o.kind = 9 → s.cfg.count ≤ 6 →
    let owned : Nat → Bool := fun i =>
      decide (9 ≤ i ∧ i < 12) || (decide (s.part = .active) && decide (3 + s.cfg.count ≤ i ∧ i < 9))
    ∃ t, exec .setOutputs s = .next t
      ∧ t = { s with
                outputs := t.outputs, orders := { s.orders with executing := none }, events := t.events, revs := t.revs,
                mem := t.mem }
      ∧ (∀ i, i < 12 → t.outputs.getLsbD i =
          if owned i then
            (((s.outputs.getLsbD i || (o.word 0).getLsbD i) && !(o.word 2).getLsbD i) != (o.word 4).getLsbD i)
          else s.outputs.getLsbD i)
      ∧ t.blockStatus o.block = stDONE
      ∧ t.mem.readWord (blockBase o.block + 4) = 0
      ∧ (∀ i, i < 16 → (t.mem.readWord (blockBase o.block + 6)).getLsbD i =
          (((o.word 0).getLsbD i || (o.word 2).getLsbD i || (o.word 4).getLsbD i) && !owned i))
      ∧ t.mem.readWord (blockBase o.block + 8) = t.outputs.setWidth 16
      ∧ t.isPending .orderDone = true ∧ (∀ c, c ≠ .orderDone → t.isPending c = s.isPending c)

/-! ### Inputs -/

/-- RAW_CHANGE: the raw level moves; the filter timer runs from 0 once it differs from the qualified level, runs on
while it differs, and stops when it is equal again. A filter time of 0 makes the difference a qualified change in the
same step. QUALIFIED_CHANGE of an input whose change has no further effect: the qualified level takes the raw level and
the timer stops. A filter timer below the filter time, or stopped, leaves everything (the model's choice, log 1). A
qualified change of an AUX input sets its class pending exactly where its sensitivity names it (R158, R159): RISING and
LEVEL-HIGH at a change to asserted, FALLING and LEVEL-LOW at one to not asserted, BOTH at every one. `evalSummary` is
the evaluation of the train door summary that R116 asks for at the event (one moment: log 7). -/
def Obligations.InputFilter : Prop :=
  (∀ (s : State) (i : Input) (v : Bool), s.resetHeld = false →
      let r := s.inputs.get i
      let u : State := { s with
        inputs := s.inputs.set i
          { raw := v, qualified := r.qualified, timer := if v = r.qualified then none else some (r.timer.getD 0) } }
      (v = r.qualified ∨ s.cfg.filters[inputIdx i] ≠ 0 → Yields (.rawChange i v) s u)
        ∧ (v ≠ r.qualified → s.cfg.filters[inputIdx i] = 0 → Yields (.rawChange i v) s (u.qualify i)))
  ∧ (∀ (s : State) (i : Input), s.resetHeld = false →
      let r := s.inputs.get i
      let u : State := { s with inputs := s.inputs.set i { raw := r.raw, qualified := r.raw, timer := none } }
      ((r.timer = none ∨ ∃ n, r.timer = some n ∧ n < s.cfg.filters[inputIdx i]) → Yields (.qualifiedChange i) s s)
      ∧ ∀ n, r.timer = some n → s.cfg.filters[inputIdx i] ≤ n →
        (i = .zspd → (r.raw = true ∨ ∀ x d, s.door.group ≠ .released x d) → Yields (.qualifiedChange i) s u)
        ∧ (i = .dloop → (r.raw = false ∨ s.door.group ≠ .closing) → Yields (.qualifiedChange i) s u.evalSummary)
        ∧ (i = .supply → (r.raw = true ∨ s.part = .halted ∨ s.heat.state = .supplyOff) → Yields (.qualifiedChange i) s u))
  ∧ (∀ (s : State) (n : Nat) (x : Sensitivity) (v : Bool), s.resetHeld = false →
      let named := x = .both ∨ (v = true ∧ (x = .rising ∨ x = .levelHigh)) ∨ (v = false ∧ (x = .falling ∨ x = .levelLow))
      (s.inputs.aux0.timer = some n → s.cfg.filters[5] ≤ n → s.inputs.aux0.raw = v → s.cfg.sens0 = x →
        let u : State := { s with inputs := { s.inputs with aux0 := ⟨v, v, none⟩ } }
        (named → Yields (.qualifiedChange .aux0) s (u.raise .aux0)) ∧ (¬ named → Yields (.qualifiedChange .aux0) s u))
      ∧ (s.inputs.aux1.timer = some n → s.cfg.filters[6] ≤ n → s.inputs.aux1.raw = v → s.cfg.sens1 = x →
        let u : State := { s with inputs := { s.inputs with aux1 := ⟨v, v, none⟩ } }
        (named → Yields (.qualifiedChange .aux1) s (u.raise .aux1)) ∧ (¬ named → Yields (.qualifiedChange .aux1) s u)))

/-- Loss of zero speed drops a release: the group goes to CLOSING, or to IDLE where the coach is closed, with reason
ZERO_SPEED, and DOOR_INTERLOCK is pending. A closed loop ends CLOSING. Loss of supply in ACTIVE takes the heating unit
to SUPPLY_OFF from any other state: limit 0, nothing on, ramp and loss timer gone, the stage outputs off, HEAT_SHED
pending. `evalSummary` is the evaluation of the train door summary that R116 asks for at the event (one moment: log 7).
-/
def Obligations.Interlocks : Prop :=
  (∀ (s : State) (n : Nat), s.resetHeld = false → s.part = .active →
      (∀ x d, s.inputs.zspd.timer = some n → s.cfg.filters[2] ≤ n → s.inputs.zspd.raw = false →
        s.door.group = .released x d →
        Yields (.qualifiedChange .zspd) s
          (({ s with
                inputs := { s.inputs with zspd := ⟨false, false, none⟩ },
                door := { s.door with
                  drop := .zeroSpeed, group := if s.inputs.dloop.qualified then .idle else .closing },
                outputs := (s.outputs &&& 0xFF8) ||| (if s.inputs.dloop.qualified then 0 else 4) } : State).raise
            .doorInterlock))
      ∧ (s.inputs.dloop.timer = some n → s.cfg.filters[3] ≤ n → s.inputs.dloop.raw = true → s.door.group = .closing →
        Yields (.qualifiedChange .dloop) s
          ({ s with
                inputs := { s.inputs with dloop := ⟨true, true, none⟩ }, door := { s.door with group := .idle },
                outputs := s.outputs &&& 0xFF8 } : State).evalSummary))
  ∧ (∀ (s : State) (n : Nat), s.resetHeld = false → s.part = .active → s.inputs.supply.timer = some n →
      s.cfg.filters[4] ≤ n → s.inputs.supply.raw = false → s.heat.state ≠ .supplyOff → s.cfg.count ≤ 6 →
      ∃ t, exec (.qualifiedChange .supply) s = .next t
        ∧ t.heat = { s.heat with state := .supplyOff, limit := 0, on := 0, ramp := none, loss := none }
        ∧ t.inputs = { s.inputs with supply := ⟨false, false, none⟩ }
        ∧ (∀ i, i < 12 → t.outputs.getLsbD i =
            if 3 ≤ i ∧ i < 3 + s.cfg.count then false else s.outputs.getLsbD i)
        ∧ t.isPending .heatShed = true
        ∧ t = { s with
                  inputs := t.inputs, heat := t.heat, outputs := t.outputs, door := t.door, events := t.events,
                  revs := t.revs, mem := t.mem })

/-- A coupler input that falls takes its end to UNCOUPLED with everything R11 and R13 name emptied, cleared and
stopped, both lines DARK; leaving LINKED, it hands LEAVE with the identity the record held, and a blocked head of the
opposite buffer is taken afresh. One that rises takes an UNCOUPLED end to PROBING; in ACTIVE, HAIL is then due with its
timer started, its DARK lines with energy are SETTLING, and the transmitter is at a boundary; in HALTED nothing is due
and the lines stay. LINE_CHANGE is raised. The qualified level is taken in every case. `evalSummary` is the evaluation
of the train door summary that R116 asks for at the event (one moment: log 7). -/
def Obligations.CouplerInput : Prop :=
  ∀ (s : State) (e : EndId) (n : Nat), s.resetHeld = false →
    let i : Input := match e with | .a => .cplA | .b => .cplB
    let r := s.inputs.get i
    let u := s.endOf e
    let w : State := { s with inputs := s.inputs.set i ⟨r.raw, r.raw, none⟩ }
    let both : (LineUnit → LineUnit) → Lines := fun f =>
      (s.lines.set ⟨e, .one⟩ (f (s.lineOf ⟨e, .one⟩))).set ⟨e, .two⟩ (f (s.lineOf ⟨e, .two⟩))
    let dark : LineUnit → LineUnit := fun x =>
      if x.state = .dark then x else { x with state := .dark, settling := none, rest := none, asm := .waiting }
    let tested : LineUnit → LineUnit := fun x =>
      if x.state = .dark ∧ x.energy = true then
        { state := .settling, energy := true, score := 0, settling := some 0, rest := none, asm := .waiting }
      else x
    r.timer = some n → s.cfg.filters[inputIdx i] ≤ n →
      (r.raw = false →
        (u.state = .uncoupled → Yields (.qualifiedChange i) s w)
        ∧ (u.state = .probing →
          Yields (.qualifiedChange i) s
            (({ w with
                lines := both dark,
                ends := s.ends.set e
                  { u with state := .uncoupled, link := none, hail := none, hailDue := false, sending := none } } :
              State).raise .lineChange))
        ∧ (u.state = .linked →
          let v := ({ w with
              lines := both dark,
              ends := s.ends.set e
                { u with
                    state := .uncoupled, link := none, hail := none, hailDue := false, sending := none, relayQ := [],
                    originQ := [], recvStop := false, stall := none, stalled := false, filter := [],
                    neighbour := none } } : State).raise .lineChange
          let y := v.evalSummary.linkChange (.leave e (u.neighbour.map (·.identity)))
          ((y.endOf e.opp).blocked = false → Yields (.qualifiedChange i) s y)
            ∧ ((y.endOf e.opp).blocked = true → Yields (.qualifiedChange i) s (y.dispatchHead e.opp))))
      ∧ (r.raw = true →
        (u.state ≠ .uncoupled → Yields (.qualifiedChange i) s w)
        ∧ (u.state = .uncoupled → s.part = .halted →
          Yields (.qualifiedChange i) s
            (({ w with ends := s.ends.set e { u with state := .probing, link := none } } : State).raise .lineChange))
        ∧ (u.state = .uncoupled → s.part = .active →
          Yields (.qualifiedChange i) s
            ((({ w with
                lines := both tested,
                ends := s.ends.set e { u with state := .probing, link := none, hail := some 0, hailDue := true } } :
              State).raise .lineChange).boundary e)))

/-! ### Lines -/

/-- The output condition of a line (R1): idle drive with bytes in SETTLING, UP and SUSPECT, off in REST, and in DARK
idle drive where the part is ACTIVE and the end not UNCOUPLED, else off; while RESET is held it is off (the model's
choice, log 5). ENERGY_PRESENT: a DARK line of a coupled end in ACTIVE enters SETTLING with score 0 and its timer at 0;
elsewhere the energy is noted and nothing else of the line changes. No other line changes. A transmitter that waited
for a line is at a boundary. ENERGY_ABSENT: a line that is sending goes DARK with its score kept and its fragment
discarded unscored, and it carries no more bytes of the telegram in transmission, which stays there also where no line
carries it any more (the model's choice, log 33); a DARK or REST line keeps its state. SETTLING_TIMER at 100 ms: UP
with a score below 16, else SUSPECT. Before, and in any other line state, nothing (the model's choice, log 1).
REST_TIMER at 1000 ms: the line leaves REST for DARK with its score kept, or straight into SETTLING with score 0 where
the part is ACTIVE, the end coupled and energy present. Before, and in any other line state, nothing (the model's
choice, log 1). -/
def Obligations.LineStates : Prop :=
  (∀ (s : State) (l : LineId),
      (s.resetHeld = true → s.lineOutput l = .off)
      ∧ (s.resetHeld = false →
        ((s.lineOf l).state = .settling ∨ (s.lineOf l).state = .up ∨ (s.lineOf l).state = .suspect →
          s.lineOutput l = .bytes)
        ∧ ((s.lineOf l).state = .rest → s.lineOutput l = .off)
        ∧ ((s.lineOf l).state = .dark → s.part = .active → (s.endOf l.side).state ≠ .uncoupled → s.lineOutput l = .idle)
        ∧ ((s.lineOf l).state = .dark → s.part = .halted ∨ (s.endOf l.side).state = .uncoupled → s.lineOutput l = .off)))
  ∧ (∀ (s : State) (l : LineId), s.resetHeld = false →
      let u := s.lineOf l
      let starts := s.part = .active ∧ (s.endOf l.side).state ≠ .uncoupled ∧ u.state = .dark
      (starts → Yields (.energyPresent l) s
        ((({ s with
              lines := s.lines.set l
                { state := .settling, energy := true, score := 0, settling := some 0, rest := none, asm := .waiting } } :
          State).raise .lineChange).boundary l.side))
      ∧ (¬ starts → Yields (.energyPresent l) s
        (({ s with lines := s.lines.set l { u with energy := true } } : State).boundary l.side)))
  ∧ (∀ (s : State) (l : LineId), s.resetHeld = false →
      let u := s.lineOf l
      (u.state = .dark ∨ u.state = .rest →
        Yields (.energyAbsent l) s { s with lines := s.lines.set l { u with energy := false } })
      ∧ (u.state = .settling ∨ u.state = .up ∨ u.state = .suspect →
        Yields (.energyAbsent l) s
          (({ s with
                lines := s.lines.set l
                  { state := .dark, energy := false, score := u.score, settling := none, rest := none, asm := .waiting },
                ends := s.ends.set l.side
                  { s.endOf l.side with
                      sending := (s.endOf l.side).sending.map
                        fun x => { x with lines := x.lines.filter (fun m => m != l.no) } } } : State).raise .lineChange)))
  ∧ (∀ (s : State) (l : LineId), s.resetHeld = false →
      let u := s.lineOf l
      (∀ n, u.state = .settling → u.settling = some n → 100 ≤ n →
        Yields (.settlingTimer l) s
          (({ s with
                lines := s.lines.set l
                  { u with state := if u.score < 16 then .up else .suspect, settling := none } } : State).raise .lineChange))
      ∧ (u.state ≠ .settling ∨ u.settling = none ∨ (∃ n, u.settling = some n ∧ n < 100) → Yields (.settlingTimer l) s s))
  ∧ (∀ (s : State) (l : LineId), s.resetHeld = false →
      let u := s.lineOf l
      let v : LineUnit :=
        if s.part = .active ∧ (s.endOf l.side).state ≠ .uncoupled ∧ u.energy = true then
          { state := .settling, energy := true, score := 0, settling := some 0, rest := none, asm := .waiting }
        else { u with state := .dark, settling := none, rest := none, asm := .waiting }
      (∀ n, u.state = .rest → u.rest = some n → 1000 ≤ n →
        Yields (.restTimer l) s
          ((({ s with lines := s.lines.set l v } : State).raise .lineChange).boundary l.side))
      ∧ (u.state ≠ .rest ∨ u.rest = none ∨ (∃ n, u.rest = some n ∧ n < 1000) → Yields (.restTimer l) s s))

/-- The byte assembler (R27, R28): with no candidate open START opens one, END ends a discarding, any other byte starts
one with a framing error; inside a candidate ESC escapes, END closes, START restarts with a framing error and any other
byte is collected, up to 320; after an ESC only the codes 1 to 5 are good, and END there leaves the assembler WAITING
(the table of R28 against its prose, the model's choice, log 34). BYTE_RECEIVED: a line that is not sending takes no
byte; a byte that neither closes nor spoils a candidate moves the assembler alone; one that spoils a candidate, or
closes one that fails its checks, scores one bad candidate: 4 more, up to 32; at 32 the line rests, and a telegram in
transmission that it alone carried stays there on no line (the model's choice, log 33); from 16 on an UP line is
SUSPECT, a SUSPECT line at 7 or less is UP. The checks of a closed candidate in their order (R29): length, body check,
route check, header; the first that fails gives the cause. The header agrees with the table of kinds (R30). GAP_TIMEOUT
inside an open candidate of 2 ms: the fragment goes and scores one bad candidate. Before, and with no candidate open,
nothing (the model's choice, log 1). -/
def Obligations.CandidateBytes : Prop :=
  (∀ (v : Byte) (bs : List Byte) (g : Nat),
      asmStep .waiting v =
          (if v = 0xF1 then (.opened [] 0, .nothing) else (.discarding, .bad .framing))
        ∧ asmStep .discarding v =
          (if v = 0xF1 then (.opened [] 0, .nothing) else if v = 0xF2 then (.waiting, .nothing) else (.discarding, .nothing))
        ∧ asmStep (.opened bs g) v =
          (if v = 0xF3 then (.escaped bs 0, .nothing)
           else if v = 0xF2 then (.waiting, .closed bs)
           else if v = 0xF1 then (.opened [] 0, .bad .framing)
           else if bs.length < 320 then (.opened (bs ++ [v]) 0, .nothing) else (.discarding, .bad .framing))
        ∧ asmStep (.escaped bs g) v =
          (if 1 ≤ v.toNat ∧ v.toNat ≤ 5 then
             (if bs.length < 320 then (.opened (bs ++ [v + 0xF0]) 0, .nothing) else (.discarding, .bad .framing))
           else if v = 0xF1 then (.opened [] 0, .bad .escape)
           else if v = 0xF2 then (.waiting, .bad .escape) else (.discarding, .bad .escape)))
  ∧ (∀ (s : State) (l : LineId) (v : Byte), s.resetHeld = false → v ≠ 0xF4 → v ≠ 0xF5 →
      let u := s.lineOf l
      let a := (asmStep u.asm v).1
      let bad := (∃ c, (asmStep u.asm v).2 = .bad c) ∨ ∃ bs c, (asmStep u.asm v).2 = .closed bs ∧ checkCandidate bs = .bad c
      (u.state = .dark ∨ u.state = .rest → Yields (.byteReceived l v) s s)
      ∧ (u.state = .settling ∨ u.state = .up ∨ u.state = .suspect →
        ((asmStep u.asm v).2 = .nothing →
          Yields (.byteReceived l v) s { s with lines := s.lines.set l { u with asm := a } })
        ∧ (bad → Yields (.byteReceived l v) s (s.afterBad l a))))
  ∧ (∀ c : List Byte,
      let b := (rd16 c 13).toNat
      let g := (rd8 c (18 + b)).toNat
      let body := crc 0xFFFF (c.take (15 + b)) = rd16 c (15 + b)
      let route := crc 0 ((c.drop (17 + b)).take (2 + g)) = rd16 c (19 + b + g)
      let read : Kind → Scope → Telegram := fun k x =>
        ⟨k, x, rd32 c 3, rd32 c 7, rd16 c 11, (c.drop 15).take b, rd16 c (15 + b), rd8 c (17 + b), (c.drop (19 + b)).take g,
          rd16 c (19 + b + g)⟩
      let header : Kind → Scope → Prop := fun k x =>
        rd8 c 1 = byteOf k.cls.code ∧ x ∈ k.scopes ∧ ¬ (x = .coach ∧ rd32 c 7 = 0) ∧ rd8 c (17 + b) ≠ 0
          ∧ (k = .hail → rd8 c (17 + b) = 1) ∧ k.bodyLengthOk b = true ∧ k.routeLengthOk g = true
      (c.length < 21 ∨ c.length ≠ 21 + b + g → checkCandidate c = .bad .framing)
      ∧ (21 ≤ c.length → c.length = 21 + b + g →
        (¬ body → checkCandidate c = .bad .bodyCheck)
        ∧ (body → ¬ route → checkCandidate c = .bad .routeCheck)
        ∧ (body → route →
          (∀ k x, rd8 c 0 = k.code → rd8 c 2 = x.code → header k x → checkCandidate c = .good (read k x))
          ∧ ((∀ k x, rd8 c 0 = k.code → rd8 c 2 = x.code → ¬ header k x) → checkCandidate c = .bad .framing))))
  ∧ (∀ (s : State) (l : LineId), s.resetHeld = false →
      let u := s.lineOf l
      (∀ bs g, (u.state = .settling ∨ u.state = .up ∨ u.state = .suspect) → (u.asm = .opened bs g ∨ u.asm = .escaped bs g) →
        (g < 2 → Yields (.gapTimeout l) s s) ∧ (2 ≤ g → Yields (.gapTimeout l) s (s.afterBad l .waiting)))
      ∧ (u.state = .dark ∨ u.state = .rest ∨ u.asm = .waiting ∨ u.asm = .discarding → Yields (.gapTimeout l) s s))

/-- The END of a good telegram: the score falls by 1 and the line is judged; a SETTLING line does not deliver it, an UP
or SUSPECT one does. Delivery: the link timer restarts. A key held drops the telegram; else the key enters the filter,
where the oldest of 16 goes first. At a LINKED end a HAIL of an identity other than 0 writes the neighbour record, and
where the record was empty or of another identity NEW_PEER is handed, with the former and the new one; any other
telegram is offered to the receive buffer. A PROBING end enters LINKED: LINE_CHANGE is raised and ENTER handed, with
the identity of a HAIL that passed the filter, else with none. A telegram offered to the receive buffer enters at its
tail where it fits into 1024 bytes, and high water makes STOP due; else it is discarded and RX_OVERFLOW raised.
`evalSummary` is the evaluation of the train door summary that R116 asks for at the event (one moment: log 7). -/
def Obligations.TelegramDelivery : Prop :=
  (∀ (s : State) (l : LineId) (bs : List Byte) (g : Nat) (x : Telegram), s.resetHeld = false →
      let u := s.lineOf l
      let n := u.score - 1
      let v : LineUnit := { u with
        score := n, asm := .waiting,
        state := if u.state = .up ∧ 16 ≤ n then .suspect else if u.state = .suspect ∧ n ≤ 7 then .up else u.state }
      let w : State := { s with lines := s.lines.set l v }
      let z := if v.state = u.state then w else w.raise .lineChange
      u.score ≤ 32 → u.asm = .opened bs g → checkCandidate bs = .good x →
      (u.state = .settling → Yields (.byteReceived l 0xF2) s z)
      ∧ (u.state = .up ∨ u.state = .suspect → Yields (.byteReceived l 0xF2) s (z.deliver l.side x)))
  ∧ (∀ (s : State) (e : EndId) (x : Telegram),
      let n := s.endOf e
      let held := ∃ k ∈ n.filter, k.origin = x.origin ∧ k.kind = x.kind ∧ k.seq = x.seq
      let keys := (if n.filter.length < 16 then n.filter else n.filter.tail) ++ [⟨x.origin, x.kind, x.seq, s.ms⟩]
      let id := rd32 x.body 0
      let heard : Neighbour := ⟨id, rd8 x.body 4, rd8 x.body 5, rd16 x.body 6, rd32 x.body 8, s.ms⟩
      (n.state = .linked →
        let upd : EndUnit → State := fun u => { s with ends := s.ends.set e { u with link := some 0 } }
        let w := upd { n with filter := keys }
        let h := (upd { n with filter := keys, neighbour := some heard }).touch .lines
        (held → s.deliver e x = upd n)
        ∧ (¬ held → x.kind ≠ .hail → s.deliver e x = w.offer e x)
        ∧ (¬ held → x.kind = .hail →
          (id = 0 → s.deliver e x = w)
          ∧ (id ≠ 0 → (∀ m, n.neighbour = some m → m.identity = id → s.deliver e x = h)
            ∧ ((∀ m, n.neighbour = some m → m.identity ≠ id) →
                s.deliver e x = h.linkChange (.newPeer e (n.neighbour.map (·.identity)) id)))))
      ∧ (n.state = .probing →
        let v := (({ s with ends := s.ends.set e { n with state := .linked, link := some 0 } } : State).raise
          .lineChange).evalSummary
        let w := v.modEnd e fun u => { u with filter := keys }
        let h := (w.modEnd e fun u => { u with neighbour := some heard }).touch .lines
        (held → s.deliver e x = v.linkChange (.enter e none))
        ∧ (¬ held → x.kind ≠ .hail → s.deliver e x = (w.linkChange (.enter e none)).offer e x)
        ∧ (¬ held → x.kind = .hail →
          (id = 0 → s.deliver e x = w.linkChange (.enter e none))
          ∧ (id ≠ 0 → s.deliver e x = h.linkChange (.enter e (some id))))))
  ∧ (∀ (s : State) (e : EndId) (x : Telegram),
      let n := s.endOf e
      let v := { n with buffer := n.buffer ++ [x] }
      (1024 < n.fill + x.length → s.offer e x = s.raise .rxOverflow)
      ∧ (n.fill + x.length ≤ 1024 →
        (n.fill + x.length < s.cfg.high ∨ n.sentStop = true → s.offer e x = { s with ends := s.ends.set e v })
        ∧ (s.cfg.high ≤ n.fill + x.length → n.sentStop = false →
            s.offer e x = { s with ends := s.ends.set e { v with sentStop := true, flowDue := some .stop } })))

/-! ### Ends and the relay switch -/

/-- STOP and GO: a usable line passes them to its end, a SETTLING line only restarts its gap timer, a DARK or REST line
ignores them. STOP sets received-STOP and starts the stall timer; GO clears both with the stalled flag, and the
transmitter is at a boundary: a telegram that waited starts. STALL_TIMER at 200 ms: the end is shown stalled,
FLOW_STALL is raised, the timer stops. Before, nothing (the model's choice, log 1). FLOW_CHARACTER_SENT: a due STOP or
GO goes out on the lines that carry the telegram in transmission, or on the sending lines of an idle transmitter, and
is no longer due; without such a line it stays due, also where a telegram in transmission is carried by none (the
model's choice, log 33). `lastFlow` is the model's own field (log 4). -/
def Obligations.FlowCharacters : Prop :=
  (∀ (s : State) (l : LineId), s.resetHeld = false →
      let u := s.lineOf l
      let n := s.endOf l.side
      let heard : State := { s with lines := s.lines.set l { u with asm := u.asm.restartGap } }
      (u.state = .dark ∨ u.state = .rest → Yields (.stopReceived l) s s ∧ Yields (.goReceived l) s s)
      ∧ (u.state = .settling → Yields (.stopReceived l) s heard ∧ Yields (.goReceived l) s heard)
      ∧ (u.state = .up ∨ u.state = .suspect →
        (n.recvStop = true → Yields (.stopReceived l) s heard
          ∧ Yields (.goReceived l) s
              (({ heard with
                  ends := s.ends.set l.side { n with recvStop := false, stall := none, stalled := false } } :
                State).boundary l.side))
        ∧ (n.recvStop = false → Yields (.goReceived l) s heard
          ∧ Yields (.stopReceived l) s
              { heard with ends := s.ends.set l.side { n with recvStop := true, stall := some 0 } })))
  ∧ (∀ (s : State) (e : EndId), s.resetHeld = false →
      (∀ n, (s.endOf e).stall = some n → 200 ≤ n →
        Yields (.stallTimer e) s
          (({ s with ends := s.ends.set e { s.endOf e with stall := none, stalled := true } } : State).raise .flowStall))
      ∧ ((s.endOf e).stall = none ∨ (∃ n, (s.endOf e).stall = some n ∧ n < 200) → Yields (.stallTimer e) s s))
  ∧ (∀ (s : State) (e : EndId), s.resetHeld = false →
      let u := s.endOf e
      let lines := match u.sending with | some x => x.lines | none => s.sendingLines e
      (u.flowDue = none ∨ lines = [] → Yields (.flowCharacterSent e) s s)
      ∧ ∀ c, u.flowDue = some c → lines ≠ [] →
          Yields (.flowCharacterSent e) s
            { s with ends := s.ends.set e { u with flowDue := none, lastFlow := some (c, lines) } })

/-- LINK_TIMER at 150 ms: a LINKED end leaves for PROBING; its queues, filter and neighbour record are empty,
received-STOP and stall timing gone, a telegram in transmission other than HAIL cut; its receive buffer, sent-STOP and
HAIL timer stay. LEAVE is handed with the identity the record held; a blocked head of the opposite buffer is then taken
afresh, and the transmitter is at a boundary. Before 150 ms, or at another end, nothing (the model's choice, log 1).
KEY_EXPIRY acts on the oldest key of the filter (the model's choice, log 26): it goes when 100 ms have passed since its
entry, and no other key; before, nothing (the model's choice, log 1). `evalSummary` is the evaluation of the train door
summary that R116 asks for at the event (one moment: log 7). -/
def Obligations.EndTimers : Prop :=
  (∀ (s : State) (e : EndId), s.resetHeld = false →
      let u := s.endOf e
      let v := ({ s with
          ends := s.ends.set e
            { u with
                state := .probing, link := none, neighbour := none, filter := [], relayQ := [], originQ := [],
                recvStop := false, stall := none, stalled := false,
                sending := u.sending.filter (fun x => decide (x.telegram.kind = .hail)) } } : State).raise .lineChange
      let y := v.evalSummary.linkChange (.leave e (u.neighbour.map (·.identity)))
      (∀ n, u.state = .linked → u.link = some n → 150 ≤ n →
        ((y.endOf e.opp).blocked = false → Yields (.linkTimer e) s (y.boundary e))
        ∧ ((y.endOf e.opp).blocked = true → Yields (.linkTimer e) s ((y.dispatchHead e.opp).boundary e)))
      ∧ (u.state ≠ .linked ∨ u.link = none ∨ (∃ n, u.link = some n ∧ n < 150) → Yields (.linkTimer e) s s))
  ∧ (∀ (s : State) (e : EndId), s.resetHeld = false →
      ((s.endOf e).filter = [] → Yields (.keyExpiry e) s s)
      ∧ ∀ k ks, (s.endOf e).filter = k :: ks →
          (100 ≤ (s.ms - k.entered).toNat →
            Yields (.keyExpiry e) s { s with ends := s.ends.set e { s.endOf e with filter := ks } })
          ∧ ((s.ms - k.entered).toNat < 100 → Yields (.keyExpiry e) s s))

/-- HAIL_TIMER at 50 ms: the timer restarts, HAIL is due, and the transmitter is at a boundary; before, or stopped,
nothing (the model's choice, log 1). TELEGRAM_BOUNDARY: the transmitter is idle again and at a boundary; an idle one
has none. At a boundary nothing starts inside a telegram, one that no line carries any more included (the model's
choice, log 33), or without a line sending; a due HAIL goes first, on every sending line, with identity, end, role
state, installed generation and lead followed; else a LINKED end without received-STOP sends what the arbiter chooses,
and where that leaves the relay queue a blocked head of the opposite buffer is taken afresh (order: the model's choice,
log 8). The lead followed, as HAIL carries it (R16): a lead its own identity; elsewhere the lead of the survey followed
in SURVEYING, else that of the installed roster, else 0. -/
def Obligations.HailAndBoundary : Prop :=
  (∀ (s : State) (e : EndId), s.resetHeld = false →
      (∀ n, (s.endOf e).hail = some n → 50 ≤ n →
        Yields (.hailTimer e) s
          (({ s with ends := s.ends.set e { s.endOf e with hail := some 0, hailDue := true } } : State).boundary e))
      ∧ ((s.endOf e).hail = none ∨ (∃ n, (s.endOf e).hail = some n ∧ n < 50) → Yields (.hailTimer e) s s))
  ∧ ((∀ (s : State) (e : EndId), s.resetHeld = false →
      ((s.endOf e).sending = none → Yields (.telegramBoundary e) s s)
      ∧ ((s.endOf e).sending ≠ none →
          Yields (.telegramBoundary e) s
            (({ s with ends := s.ends.set e { s.endOf e with sending := none } } : State).boundary e)))
    ∧ ∀ (s : State) (e : EndId),
      let u := s.endOf e
      let ls := s.sendingLines e
      let body := be32 s.cfg.identity
        ++ ([match e with | .a => 1 | .b => 2,
             match s.consist.roleState with | .lead => 1 | .member => 2 | .yielded => 3] : List Byte)
        ++ be16 s.consist.generation ++ be32 s.followedLead
      (u.sending ≠ none ∨ ls = [] → s.boundary e = s)
      ∧ (u.sending = none → ls ≠ [] →
        (u.hailDue = true → u.state ≠ .uncoupled →
          s.boundary e = { s with
            seqs := s.seqs.set 0 (succ1 s.seqs[0]),
            ends := s.ends.set e
              { u with hailDue := false, sending := some ⟨s.originates .hail .neighbour 0 body [], ls⟩ } })
        ∧ (u.hailDue = false ∨ u.state = .uncoupled →
          (u.state ≠ .linked ∨ u.recvStop = true ∨ (u.relayQ = [] ∧ u.originQ = []) → s.boundary e = s)
          ∧ (u.state = .linked → u.recvStop = false → ∀ r x m, u.arbitrate s.cfg = some (r, x, m) →
            let y : State := { s with ends := s.ends.set e { m with sending := some ⟨x, ls⟩ } }
            (r = false ∨ (s.endOf e.opp).blocked = false → s.boundary e = y)
            ∧ (r = true → (s.endOf e.opp).blocked = true → s.boundary e = y.dispatchHead e.opp)))))
  ∧ (∀ s : State,
      (s.consist.roleState = .lead → s.followedLead = s.cfg.identity)
      ∧ (s.consist.roleState ≠ .lead →
        (∀ x, s.consist.state = .surveying → s.consist.followed = some x → s.followedLead = x.lead)
        ∧ (s.consist.state ≠ .surveying ∨ s.consist.followed = none →
          (∀ r, s.consist.roster = some r → s.followedLead = r.leadId) ∧ (s.consist.roster = none → s.followedLead = 0))))

/-- The transmit arbiter: the head of the better class goes; of equal classes FIXED sends the relayed one, WEIGHTED the
relayed one until the relay run has reached W + 1 and then the originated one. The relay run counts relayed telegrams
of such ties and is 0 after every other choice. -/
def Obligations.ArbiterChoice : Prop :=
  ∀ (u : EndUnit) (c : Settings) (x y : Telegram) (p q : List Telegram),
    (u.relayQ = [] → u.originQ = [] → u.arbitrate c = none)
    ∧ (u.relayQ = x :: p → u.originQ = [] → u.arbitrate c = some (true, x, { u with relayQ := p, relayRun := 0 }))
    ∧ (u.relayQ = [] → u.originQ = y :: q → u.arbitrate c = some (false, y, { u with originQ := q, relayRun := 0 }))
    ∧ (u.relayQ = x :: p → u.originQ = y :: q →
      (x.cls < y.cls → u.arbitrate c = some (true, x, { u with relayQ := p, relayRun := 0 }))
      ∧ (y.cls < x.cls → u.arbitrate c = some (false, y, { u with originQ := q, relayRun := 0 }))
      ∧ (x.cls = y.cls → c.mode = .fixed → u.arbitrate c = some (true, x, { u with relayQ := p, relayRun := 0 }))
      ∧ (x.cls = y.cls → c.mode = .weighted →
        (u.relayRun ≤ c.weight → u.arbitrate c = some (true, x, { u with relayQ := p, relayRun := u.relayRun + 1 }))
        ∧ (c.weight < u.relayRun → u.arbitrate c = some (false, y, { u with originQ := q, relayRun := 0 }))))

/-- Admission to a queue in class order: below 8 telegrams the newcomer stands behind every one of its own or a better
class; a full queue drops its newest telegram of the worst class for a newcomer of a better class and refuses any
other; an origin queue then lets a DOOR or CONSIST newcomer replace the oldest of its own class. Order and length are
kept. -/
def Obligations.QueueAdmission : Prop :=
  ∀ (t : Telegram) (q : List Telegram), q.Pairwise (fun x y => x.cls ≤ y.cls) → q.length ≤ 8 →
    (q.length < 8 → ∃ l r, q = l ++ r ∧ admission t q = some (l ++ t :: r)
      ∧ (∀ x ∈ l, x.cls ≤ t.cls) ∧ ∀ x ∈ r, t.cls < x.cls)
    ∧ (q.length = 8 → (∀ x ∈ q, x.cls ≤ t.cls) → admission t q = none)
    ∧ (q.length = 8 → (∃ x ∈ q, t.cls < x.cls) → ∃ l r u, q = l ++ r ++ [u] ∧ admission t q = some (l ++ t :: r)
      ∧ (∀ x ∈ l, x.cls ≤ t.cls) ∧ ∀ x ∈ r, t.cls < x.cls)
    ∧ (∀ p, admitOrigin t q = some p → p.Pairwise (fun x y => x.cls ≤ y.cls) ∧ p.length ≤ 8 ∧ t ∈ p)
    ∧ (admission t q = none →
        (1 < t.cls ∨ (∀ x ∈ q, x.cls ≠ t.cls) → admitOrigin t q = none)
        ∧ (t.cls ≤ 1 → ∀ l x r, q = l ++ x :: r → x.cls = t.cls → (∀ y ∈ l, y.cls ≠ t.cls) →
            admitOrigin t q = some (l ++ r ++ [t])))

/-- DISPATCH takes the head of a receive buffer; a blocked head whose relay queue is still full stays (the model's
choice, log 25). The head by its scope: a head of more than 31 hops leaves. A BROADCAST head is consumed, unless it is
marked CONSUMED, and then relayed unless its unit withholds relay; a TOWARD_LEAD head is consumed at the lead and
elsewhere relayed, unless it arrived by the lead end held; a COACH head is consumed at its destination and relayed
elsewhere. With an empty buffer nothing happens. The lead end held (R56): none at a lead; elsewhere none in UNFORMED,
the survey lead end in SURVEYING, the installed lead end in FORMED and STALE. -/
def Obligations.DispatchRoutes : Prop :=
  ((∀ (s : State) (e : EndId), s.resetHeld = false →
      let full := (s.endOf e).blocked = true ∧ (s.endOf e.opp).state = .linked ∧ 8 ≤ (s.endOf e.opp).relayQ.length
      (full → Yields (.dispatch e) s s) ∧ (¬ full → Yields (.dispatch e) s (s.dispatchHead e)))
    ∧ ∀ (s : State) (e : EndId),
      ((s.endOf e).buffer = [] → s.dispatchHead e = s)
      ∧ ∀ x q, (s.endOf e).buffer = x :: q →
        (31 < x.hop.toNat → s.dispatchHead e = s.dropHead e)
        ∧ (x.hop.toNat ≤ 31 →
          (x.scope = .broadcast → (s.endOf e).consumed = true → RelayLeg s e x true (s.dispatchHead e))
          ∧ (x.scope = .broadcast → (s.endOf e).consumed = false →
            ((s.consume e x).2 = true → s.dispatchHead e = (s.consume e x).1.dropHead e)
            ∧ ((s.consume e x).2 = false → RelayLeg (s.consume e x).1 e x true (s.dispatchHead e)))
          ∧ (x.scope = .towardLead →
            (s.consist.roleState = .lead → s.dispatchHead e = (s.consume e x).1.dropHead e)
            ∧ (s.consist.roleState ≠ .lead →
              (s.heldEnd = some e → s.dispatchHead e = s.dropHead e)
              ∧ (s.heldEnd ≠ some e → RelayLeg s e x false (s.dispatchHead e))))
          ∧ (x.scope = .coach →
            (x.dest = s.cfg.identity → s.dispatchHead e = (s.consume e x).1.dropHead e)
            ∧ (x.dest ≠ s.cfg.identity → RelayLeg s e x false (s.dispatchHead e)))))
  ∧ (∀ s : State,
      (s.consist.roleState = .lead → s.heldEnd = none)
      ∧ (s.consist.roleState ≠ .lead →
        (s.consist.state = .unformed → s.heldEnd = none)
        ∧ (∀ x, s.consist.state = .surveying → s.consist.followed = some x → s.heldEnd = some x.leadEnd)
        ∧ (s.consist.state = .formed ∨ s.consist.state = .stale → s.heldEnd = s.consist.leadEnd)))

/-- A buffer head that leaves takes its marks with it; at or below low water a STOP sent is taken back: a GO is due, or
the STOP still waiting is dropped. A telegram is relayed with one more hop, the route data of a DOORSTAT merged, the
fixed part and its check as received and a fresh route check. -/
def Obligations.DepartureAndRelayForm : Prop :=
  (∀ (s : State) (e : EndId) (x : Telegram) (q : List Telegram), (s.endOf e).buffer = x :: q →
    let u := s.endOf e
    let v := { u with buffer := q, consumed := false, blocked := false }
    (u.sentStop = false ∨ s.cfg.low < (q.map Telegram.length).sum → s.dropHead e = { s with ends := s.ends.set e v })
    ∧ (u.sentStop = true → (q.map Telegram.length).sum ≤ s.cfg.low →
        s.dropHead e = { s with
          ends := s.ends.set e
            { v with sentStop := false, flowDue := if u.flowDue = some .stop then none else some .go } }))
  ∧ ∀ (s : State) (x : Telegram),
    let y := s.relayForm x
    let isOpen := s.level .dloop = false
    let same := s.consist.state = .formed ∧ s.consist.generation = rd16 x.body 0
    y = { x with hop := x.hop + 1, route := y.route, routeCheck := crc 0 ([x.hop + 1, byteOf y.route.length] ++ y.route) }
      ∧ y.fixedPart = x.fixedPart ∧ y.bodyCheck = x.bodyCheck
      ∧ (x.kind ≠ .doorstat → y.route = x.route)
      ∧ (x.kind = .doorstat →
        ((rd8 y.route 0).getLsbD 0 = true ↔ (rd8 x.route 0).getLsbD 0 = true ∧ ¬ isOpen)
        ∧ ((rd8 y.route 0).getLsbD 1 = true ↔ (rd8 x.route 0).getLsbD 1 = true ∨ ¬ same)
        ∧ ((rd8 y.route 0).getLsbD 2 = true ↔
            (rd8 x.route 0).getLsbD 2 = true ∨ (isOpen ∧ same ∧ 8 ≤ (x.route.drop 2).length))
        ∧ (¬ isOpen → rd8 y.route 1 = rd8 x.route 1)
        ∧ (isOpen → (rd8 x.route 1).toNat < 32 → (rd8 y.route 1).toNat = (rd8 x.route 1).toNat + 1)
        ∧ (isOpen → (rd8 x.route 1).toNat = 32 → rd8 y.route 1 = 32)
        ∧ (isOpen ∧ same ∧ (x.route.drop 2).length < 8 → y.route.drop 2 = x.route.drop 2 ++ [byteOf s.consist.position])
        ∧ (¬ (isOpen ∧ same ∧ (x.route.drop 2).length < 8) → y.route.drop 2 = x.route.drop 2))

/-! ### Doors -/

/-- A DOOR consumed: the lead ignores it. A RELEASE with a train side 1 to 3 records the first failing test, or
APPLIED, and releases the mapped sides beside those already released; a CLOSE closes; any other kind or side is
ignored. -/
def Obligations.DoorTelegram : Prop :=
  ∀ (s : State) (e : EndId) (x : Telegram), x.kind = .door →
    let u := (s.consume e x).1
    let g := rd16 x.body 0
    let side := (rd8 x.body 3).toNat
    let first := (rd8 x.body 4).toNat
    let last := (rd8 x.body 5).toNat
    let y := mapSides side s.consist.orientation s.cfg.swap s.cfg.fitted
    let inRange := first ≤ s.consist.position ∧ s.consist.position ≤ last
    let outcome : ReleaseOutcome → Prop := fun o =>
      (o = .notFormed ∧ s.consist.state ≠ .formed)
        ∨ (s.consist.state = .formed ∧
          ((o = .generation ∧ g ≠ s.consist.generation)
            ∨ (g = s.consist.generation ∧
              ((o = .outOfRange ∧ ¬ inRange)
                ∨ (inRange ∧
                  ((o = .noZeroSpeed ∧ s.level .zspd = false)
                    ∨ (s.level .zspd = true ∧
                      ((o = .noSide ∧ y = ⟨false, false⟩) ∨ (o = .applied ∧ y ≠ ⟨false, false⟩)))))))))
    let z : Sides := match s.door.group with
      | .released y' _ => ⟨y'.l || y.l, y'.r || y.r⟩
      | .idle => y
      | .closing => y
    (s.consume e x).2 = false
    ∧ u = { s with door := u.door, outputs := u.outputs, revs := u.revs }
    ∧ (s.consist.roleState = .lead ∨ (rd8 x.body 2 ≠ 1 ∧ rd8 x.body 2 ≠ 2) ∨ (rd8 x.body 2 = 1 ∧ (side = 0 ∨ 3 < side)) →
        u = s)
    ∧ (s.consist.roleState ≠ .lead → rd8 x.body 2 = 1 → 1 ≤ side → side ≤ 3 → ∀ o, outcome o →
        (o ≠ .applied → u.outputs = s.outputs
          ∧ u.door = { s.door with lastRelease := some ⟨g, side, first, last, ⟨false, false⟩, o⟩ })
        ∧ (o = .applied →
            u.door = { s.door with
              group := .released z ⟨g, first, last⟩, lastRelease := some ⟨g, side, first, last, y, .applied⟩ }
            ∧ (s.part = .active →
                u.outputs = (s.outputs &&& 0xFF8) ||| (if z.l then 1 else 0) ||| (if z.r then 2 else 0))))
    ∧ (s.consist.roleState ≠ .lead → rd8 x.body 2 = 2 →
        u.door = { s.door with
          drop := .close,
          group := match s.door.group with
            | .closing => .closing
            | .idle => if s.level .dloop then .idle else .closing
            | .released _ _ => if s.level .dloop then .idle else .closing }
        ∧ (s.part = .active → s.door.group ≠ .closing →
            u.outputs = (s.outputs &&& 0xFF8) ||| (if s.level .dloop then 0 else 4))
        ∧ (s.door.group = .closing → u.outputs = s.outputs))

/-- DOORSTAT_TIMER at 100 ms: the timer restarts and a DOORSTAT with this coach as its first entry goes out of the lead
end. The side is F up to position f and R beyond f + 1 (at f + 1: log 14). Its number is used also where no end takes
it (the model's choice, log 9). Before 100 ms, or stopped, nothing (the model's choice, log 1). A DOORSTAT consumed at
the lead gives the record of its side where side code and arrival end agree, and is ignored elsewhere. The summary is
evaluated, and its record is rewritten also where the summary stands. RECORD_STALE of a record of 300 ms evaluates the
train door summary; before, nothing (the model's choice, log 1). `evalSummary` is the evaluation of the train door
summary that R116 asks for at the event (one moment: log 7). -/
def Obligations.Doorstat : Prop :=
  (∀ s : State, s.resetHeld = false →
      (s.door.stat = none ∨ (∃ n, s.door.stat = some n ∧ n < 100) → Yields .doorstatTimer s s)
      ∧ ∀ n e, s.door.stat = some n → 100 ≤ n → s.consist.leadEnd = some e → s.consist.position ≠ s.consist.f + 1 →
        let side : Byte := if s.consist.position ≤ s.consist.f then 1 else 2
        let route : List Byte := if s.level .dloop then [1, 0] else [0, 1, byteOf s.consist.position]
        let d := s.originates .doorstat .towardLead 0 (be16 s.consist.generation ++ [side]) route
        ∃ t, exec .doorstatTimer s = .next t
          ∧ t = { s with
                    door := { s.door with stat := some 0 }, seqs := t.seqs, ends := t.ends, revs := t.revs, mem := t.mem }
          ∧ Placed (s.sendingLines e) d (s.endOf e) (t.endOf e) ∧ t.endOf e.opp = s.endOf e.opp
          ∧ t.seqs[6] = succ1 s.seqs[6]
          ∧ ∀ a, isPageByte a = false → t.mem.read a = s.mem.read a)
  ∧ (∀ (s : State) (e : EndId) (x : Telegram), x.kind = .doorstat → s.consist.roleState = .lead →
      let u := (s.consume e x).1
      let r : DoorRecord :=
        { generation := rd16 x.body 0, allClosed := (rd8 x.route 0).getLsbD 0, overflow := (rd8 x.route 0).getLsbD 2,
          mismatch := (rd8 x.route 0).getLsbD 1 || decide (rd16 x.body 0 ≠ s.consist.generation), count := rd8 x.route 1,
          list := x.route.drop 2, received := s.ms, age := 0 }
      let written : DoorUnit → Prop := fun d =>
        let v : State := { s with door := d }
        (v.summaryNow = s.door.summary → u = v.touchAgain .doorSummary) ∧ (v.summaryNow ≠ s.door.summary → u = v.evalSummary)
      (rd8 x.body 2 = 1 → e = s.cfg.front → written { s.door with recF := some r })
      ∧ (rd8 x.body 2 = 2 → e = s.cfg.front.opp → written { s.door with recR := some r })
      ∧ (¬ (rd8 x.body 2 = 1 ∧ e = s.cfg.front) → ¬ (rd8 x.body 2 = 2 ∧ e = s.cfg.front.opp) → u = s))
  ∧ (∀ (s : State) (x : Side), s.resetHeld = false →
      (∀ r, s.door.record x = some r → 300 ≤ r.age → Yields (.recordStale x) s s.evalSummary)
      ∧ (s.door.record x = none ∨ (∃ r, s.door.record x = some r ∧ r.age < 300) → Yields (.recordStale x) s s))

/-- The train door summary: UNKNOWN for a coach that is not a FORMED lead, and where the record of a linked side is
empty, 300 ms old or mismatched; ALL_CLOSED where every record and the lead's own loop say so; else OPEN with the
lead's own position first, the positions of the sides' lists up to 8, the counts added, and the overflow flag. A change
raises DOOR_SUMMARY. -/
def Obligations.TrainDoorSummary : Prop :=
  ∀ s : State,
    let linked : Option DoorRecord → Prop := fun r =>
      (r = s.door.recF ∧ (s.endOf s.cfg.front).state = .linked) ∨ (r = s.door.recR ∧ (s.endOf s.cfg.front.opp).state = .linked)
    let good : Prop := ∀ r, linked r → ∃ d, r = some d ∧ d.age < 300 ∧ d.mismatch = false
    let lead : Prop := s.consist.roleState = .lead ∧ s.consist.state = .formed
    let own : List Byte := if s.level .dloop then [] else [byteOf (s.consist.f + 1)]
    (s.evalSummary.door.summary = s.summaryNow)
    ∧ (s.evalSummary = { s with
        door := { s.door with summary := s.summaryNow }, events := s.evalSummary.events, revs := s.evalSummary.revs })
    ∧ (s.summaryNow = s.door.summary → s.evalSummary = s)
    ∧ (s.summaryNow ≠ s.door.summary → s.evalSummary.isPending .doorSummary = true)
    ∧ (¬ lead ∨ ¬ good → s.summaryNow = ⟨.unknown, 0, [], false⟩)
    ∧ (lead → good →
      (s.level .dloop = true → (∀ d, linked (some d) → d.allClosed = true) → s.summaryNow = ⟨.allClosed, 0, [], false⟩)
      ∧ (s.level .dloop = false ∨ (∃ d, linked (some d) ∧ d.allClosed = false) →
          let rs := (if (s.endOf s.cfg.front).state = .linked then s.door.recF.toList else [])
            ++ (if (s.endOf s.cfg.front.opp).state = .linked then s.door.recR.toList else [])
          let l := own ++ rs.flatMap (·.list)
          s.summaryNow = ⟨.opened, own.length + (rs.map (·.count.toNat)).sum, l.take 8,
            decide (8 < l.length) || rs.any (·.overflow)⟩))

/-! ### Heating -/

/-- A HEATCALL consumed at a coach that is not lead: T seen takes the period carried, 1 to 10, with the loss test at
once (R136), and where its round is of the roster in force and not answered yet a HEATBID with position, identity,
generation, demand and class goes out of the lead end; its number is used also where no end takes it (the model's
choice, log 9). The lead ignores a HEATCALL. A HEATBID consumed at a FORMED lead enters the bid table at its position,
with the round last opened and age 0 (log 24), where its generation is the one in force, its position is another
coach's and the roster shows its identity there; else it is ignored. A HEATGRANT consumed: not by the lead; by a FORMED
coach whose generation it carries, with supply, and with a pair for its position. A grant of n stages sets the limit to
n or the stage count, whichever is less; what is on above it goes off at once, and a ramp is scheduled, retargeted or
ended. The state is HELD and the loss timer restarts. -/
def Obligations.HeatTelegrams : Prop :=
  (∀ (s : State) (e : EndId) (x : Telegram), x.kind = .heatcall →
      let u := (s.consume e x).1
      let b := (rd8 x.body 4).toNat
      let n := if b = 0 then 1 else if 10 < b then 10 else b
      let call : CallId := ⟨x.origin, rd16 x.body 0, rd16 x.body 2⟩
      let w := ({ s with heat := { s.heat with tSeen := n } } : State).testLoss
      let cls : Byte := match s.heat.demandClass with | .essential => 1 | .comfort => 2
      let bid := s.originates .heatbid .towardLead 0
        ([byteOf s.consist.position] ++ be32 s.cfg.identity ++ be16 s.consist.generation ++ [byteOf s.heat.demandQ, cls]) []
      (s.consume e x).2 = false
      ∧ (s.consist.roleState = .lead → u = s)
      ∧ (s.consist.roleState ≠ .lead →
        (s.consist.state ≠ .formed ∨ call.generation ≠ s.consist.generation ∨ s.heat.lastCall = some call → u = w)
        ∧ (s.consist.state = .formed → call.generation = s.consist.generation → s.heat.lastCall ≠ some call →
          ∀ d, s.consist.leadEnd = some d →
            u = { w with heat := { w.heat with lastCall := some call }, seqs := u.seqs, ends := u.ends }
              ∧ u.seqs[8] = succ1 s.seqs[8]
              ∧ Placed (s.sendingLines d) bid (s.endOf d) (u.endOf d) ∧ u.endOf d.opp = s.endOf d.opp)))
  ∧ (∀ (s : State) (e : EndId) (x : Telegram), x.kind = .heatbid →
      let u := (s.consume e x).1
      let p := (rd8 x.body 0).toNat
      let good := s.consist.roleState = .lead ∧ s.consist.state = .formed ∧ rd16 x.body 5 = s.consist.generation
        ∧ p ≠ s.consist.position ∧ ∃ r, s.consist.entryAt p = some r ∧ r.identity = rd32 x.body 1
      (∀ c : HeatClass, (rd8 x.body 8 = 1 ∧ c = .essential) ∨ (rd8 x.body 8 = 2 ∧ c = .comfort) → good →
        u = { s with heat := { s.heat with
          bids := s.heat.bids.setIfInBounds (p - 1) (some ⟨(rd8 x.body 7).toNat, c, s.heat.currentRound, 0⟩) } })
      ∧ ((rd8 x.body 8 ≠ 1 ∧ rd8 x.body 8 ≠ 2) ∨ ¬ good → u = s))
  ∧ ((∀ (s : State) (e : EndId) (x : Telegram), x.kind = .heatgrant →
      let u := (s.consume e x).1
      let good := s.consist.roleState ≠ .lead ∧ s.consist.state = .formed ∧ rd16 x.body 0 = s.consist.generation
        ∧ s.level .supply = true
      (∀ n, good → pairFor s.consist.position (x.body.drop 4) = some n →
          u = s.applyGrant (rd16 x.body 0) (rd16 x.body 2) n)
        ∧ (¬ good ∨ pairFor s.consist.position (x.body.drop 4) = none → u = s))
    ∧ (∀ (p : Nat) (a n : Byte) (l : List Byte),
        pairFor p (a :: n :: l) = (if a.toNat = p then some n.toNat else pairFor p l) ∧ pairFor p [] = none
          ∧ pairFor p [a] = none)
    ∧ ∀ (s : State) (g r : Word) (n : Nat), s.part = .active → s.cfg.count ≤ 6 →
      let u := s.applyGrant g r n
      let m := if s.cfg.count < n then s.cfg.count else n
      let delay := 200 + (s.consist.position - 1) * s.cfg.stagger
      u = { s with heat := u.heat, outputs := u.outputs, events := u.events, revs := u.revs }
      ∧ u.heat = { s.heat with
          grant := some ⟨g, r, m, false⟩, state := .held, limit := m, on := if m < s.heat.on then m else s.heat.on,
          loss := some 0,
          ramp := if m ≤ s.heat.on then none
            else some (match s.heat.ramp with
              | some x => { x with target := m }
              | none => ⟨m, delay, s.ms + BitVec.ofNat 16 delay⟩) }
      ∧ (s.heat.on ≤ m → u.outputs = s.outputs)
      ∧ (m < s.heat.on → ∀ i, i < 12 → u.outputs.getLsbD i =
          if 3 ≤ i ∧ i < 3 + s.cfg.count then decide (i < 3 + m) else s.outputs.getLsbD i)
      ∧ (m ≠ s.heat.limit → u.isPending .heatChange = true) ∧ (m = s.heat.limit → u.events = s.events)
      ∧ ∀ c, c ≠ .heatChange → u.isPending c = s.isPending c)

/-- ROUND_TIMER at the round period opens a round: its number steps, the round timer restarts, every bid held is a
round older (the model's count, log 24), a HEATCALL with generation, round and period goes out of both ends and takes a
number also where no end is LINKED (log 9), the bid window opens, and the lead's own T seen is the period, with the
loss test at once (the model's choice, log 27). Before, nothing (the model's choice, log 1). BID_WINDOW_CLOSE after 300
ms: the lead's own demand enters the bid table, the allocation is computed from the bids no more than 3 rounds old,
clamped to each coach's stages, the table is kept (its total: the model's choice, log 31) and a HEATGRANT with one pair
for each position goes out of both ends, its number used also where no end is LINKED (log 9); the lead applies its own
share where supply is asserted. Before 300 ms nothing (the model's choice, log 1). -/
def Obligations.HeatingRounds : Prop :=
  (∀ s : State, s.resetHeld = false →
      (reached s.heat.round (1000 * s.heat.period) = false → Yields .roundTimer s s)
      ∧ (reached s.heat.round (1000 * s.heat.period) = true →
        let call := s.originates .heatcall .broadcast 0
          (be16 s.consist.generation ++ be16 s.heat.roundNo ++ [byteOf s.heat.period]) []
        ∃ w : State, Yields .roundTimer s w.testLoss
          ∧ w = { s with
              heat := { s.heat with
                roundNo := if s.heat.roundNo = 0xFFFF then 1 else s.heat.roundNo + 1, round := some 0, window := some 0,
                bids := s.heat.bids.map (Option.map fun b => { b with age := b.age + 1 }), tSeen := s.heat.period },
              seqs := w.seqs, ends := w.ends }
          ∧ (∀ e, Placed (s.sendingLines e) call (s.endOf e) (w.endOf e))
          ∧ w.seqs[7] = succ1 s.seqs[7]))
  ∧ (∀ s : State, s.resetHeld = false →
      (reached s.heat.window 300 = false → Yields .bidWindowClose s s)
      ∧ (reached s.heat.window 300 = true →
        let round := s.heat.currentRound
        let bids :=
          s.heat.bids.setIfInBounds (s.consist.position - 1) (some ⟨s.heat.demandQ, s.heat.demandClass, round, 0⟩)
        let entries := (s.consist.roster.map (·.entries)).getD []
        let ask : Option Bid → RosterEntry → Ask := fun b e => match b with
          | some b => ⟨if b.age ≤ 3 then min b.q e.count.toNat else 0, b.cls, e.size.toNat⟩
          | none => ⟨0, .comfort, e.size.toNat⟩
        let asks := List.zipWith ask bids.toList entries
        let cap := if s.level .supply then s.heat.capacity * s.heat.derate / 100 else 0
        let ns := allocate cap asks
        let grant := s.originates .heatgrant .broadcast 0 (be16 s.consist.generation ++ be16 round ++ grantPairs 1 ns) []
        ∃ (w : State) (a : Allocation),
          w = { s with
              heat := { s.heat with window := none, bids := bids, alloc := some a }, seqs := w.seqs, ends := w.ends }
          ∧ a.generation = s.consist.generation ∧ a.round = round ∧ a.effective = cap
          ∧ a.capacity = s.heat.capacity ∧ a.derate = s.heat.derate ∧ a.supply = s.level .supply
          ∧ a.essential = demandOf .essential asks ∧ a.comfort = demandOf .comfort asks
          ∧ a.available = cap - powerOf asks (heatPass .essential cap asks) ∧ a.leftEssential = a.available
          ∧ a.leftComfort + a.total = cap ∧ a.total = powerOf asks ns
          ∧ a.rows.map (·.stages) = ns ∧ a.rows.map (·.q) = asks.map (·.q) ∧ a.rows.map (·.size) = asks.map (·.size)
          ∧ a.rows.map (·.age) = List.zipWith (fun b _ => b.map (·.age)) bids.toList entries
          ∧ (∀ e, Placed (s.sendingLines e) grant (s.endOf e) (w.endOf e)) ∧ w.seqs[9] = succ1 s.seqs[9]
          ∧ (s.level .supply = false → Yields .bidWindowClose s w)
          ∧ (s.level .supply = true →
              Yields .bidWindowClose s
                (w.applyGrant s.consist.generation round (ns.getD (s.consist.position - 1) 0)))))

/-- The allocation (R127 to R130): no coach gets more than it asks for, and the stages granted never draw more than the
effective capacity. ESSENTIAL is served from all of it, COMFORT from what ESSENTIAL leaves. A class with demand 0 gets
nothing; one whose demand fits is served in full; else each position gets the floor of its share, and one sweep in
order of position gives one stage more where it asks for more and its stage size fits into what is left. A stage size
of 0 is taken as the arithmetic gives it (the model's choice, log 35). -/
def Obligations.Allocation : Prop :=
  ∀ (cap : Nat) (asks : List Ask),
    let ns := allocate cap asks
    let served : HeatClass → Nat → Prop := fun cls k =>
      let d := demandOf cls asks
      let share : Ask → Nat := fun a => if a.cls = cls then a.q * k / d else 0
      let taken : Nat → Nat := fun i =>
        (((asks.zip ns).take i).map fun p => if p.1.cls = cls then (p.2 - share p.1) * p.1.size else 0).sum
      let left : Nat → Nat := fun i => k - (asks.map fun a => share a * a.size).sum - taken i
      ∀ (i : Nat) (a : Ask) (n : Nat), asks[i]? = some a → ns[i]? = some n → a.cls = cls →
        (d = 0 → n = 0) ∧ (0 < d → d ≤ k → n = a.q)
        ∧ (k < d → n = share a + if share a < a.q ∧ a.size ≤ left i then 1 else 0)
    ns.length = asks.length ∧ powerOf asks ns ≤ cap
      ∧ (∀ (i : Nat) (a : Ask) (n : Nat), asks[i]? = some a → ns[i]? = some n → n ≤ a.q)
      ∧ served .essential cap ∧ served .comfort (cap - powerOf asks (heatPass .essential cap asks))

/-- RAMP_STEP when the step is due: one stage more goes on, and the next step follows a stage gap after this command
(the model's choice, log 28), or the ramp ends at its target. LOSS_TIMER tests the loss timer, as every change of T
seen does: at 3 times T seen in HELD the coach is in SHED, with the fallback as the limit where more is on. Before,
nothing (the model's choice, log 1). -/
def Obligations.RampAndLoss : Prop :=
  ∀ s : State, s.part = .active → s.cfg.count ≤ 6 →
    let image : Nat → BitVec 12 → Nat → Bool := fun m out i =>
      if 3 ≤ i ∧ i < 3 + s.cfg.count then decide (i < 3 + m) else out.getLsbD i
    let u := s.testLoss
    (s.resetHeld = false →
      ((s.heat.ramp = none ∨ ∃ r, s.heat.ramp = some r ∧ r.left ≠ 0) → Yields .rampStep s s)
      ∧ (∀ r, s.heat.ramp = some r → r.left = 0 →
        ∃ t, exec .rampStep s = .next t
          ∧ t = { s with
              heat := { s.heat with
                on := s.heat.on + 1,
                ramp := if s.heat.on + 1 < r.target then
                  some ⟨r.target, s.cfg.stageGap, s.ms + BitVec.ofNat 16 s.cfg.stageGap⟩ else none },
              outputs := t.outputs, revs := t.revs, mem := t.mem }
          ∧ (∀ i, i < 12 → t.outputs.getLsbD i = image (s.heat.on + 1) s.outputs i)
          ∧ ∀ a, isPageByte a = false → t.mem.read a = s.mem.read a)
      ∧ Yields .lossTimer s u)
    ∧ (s.heat.state ≠ .held ∨ reached s.heat.loss (3000 * s.heat.tSeen) = false → u = s)
    ∧ (s.heat.state = .held → reached s.heat.loss (3000 * s.heat.tSeen) = true →
      let m := if s.cfg.fallback < s.heat.on then s.cfg.fallback else s.heat.on
      u = { s with
          heat := { s.heat with state := .shed, limit := m, on := m, ramp := none, loss := none },
          outputs := u.outputs, events := u.events, revs := u.revs }
      ∧ (m < s.heat.on → ∀ i, i < 12 → u.outputs.getLsbD i = image m s.outputs i)
      ∧ (s.heat.on = m → u.outputs = s.outputs)
      ∧ u.isPending .heatShed = true ∧ ∀ c, c ≠ .heatShed → u.isPending c = s.isPending c)

/-! ### Consist -/

/-- A link change, and a CHANGE consumed, at the lead is a trigger with its cause: LINK with the end and the identity
the change carries, the new one for NEW_PEER, or 0; CHANGE with end and identity of the body, or the telegram's origin.
From FORMED to SETTLING with the cause, a fresh hold-off and no partials; in SETTLING the cause is written and the
hold-off starts anew; in SURVEYING the re-survey flag is set and the cause stays. Elsewhere a CHANGE consumed does
nothing, and a link change makes FORMED STALE and sends a CHANGE out of the lead end held, or of every LINKED end; its
number is used also where no end takes it (the model's choice, log 9). Leaving FORMED voids the grant and stops rounds
and DOORSTAT. -/
def Obligations.LinkChangeResponse : Prop :=
  (∀ (s : State) (k : LinkChange),
    let i : Ident := match k.kind with | .enter => k.peer.getD 0 | .leave => k.former.getD 0 | .newPeer => k.peer.getD 0
    let e : Byte := match k.side with | .a => 1 | .b => 2
    let code : Byte := match k.kind with | .enter => 1 | .leave => 2 | .newPeer => 3
    let u := s.linkChange k
    let ch := s.originates .change .towardLead 0 ([e, code] ++ be32 i) []
    (s.consist.roleState = .lead → u = s.trigger .link e i)
    ∧ (s.consist.roleState ≠ .lead →
      u = { s with
            consist := { s.consist with state := if s.consist.state = .formed then .stale else s.consist.state },
            door := u.door, heat := u.heat, outputs := u.outputs, ends := u.ends, seqs := u.seqs,
            events := u.events, revs := u.revs }
      ∧ u.seqs[1] = succ1 s.seqs[1]
      ∧ (∀ h, s.heldEnd = some h →
          Placed (s.sendingLines h) ch (s.endOf h) (u.endOf h) ∧ u.endOf h.opp = s.endOf h.opp)
      ∧ (s.heldEnd = none → ∀ d, Placed (s.sendingLines d) ch (s.endOf d) (u.endOf d))))
  ∧ (∀ (s : State) (e : EndId) (x : Telegram), x.kind = .change →
    let i := if rd32 x.body 2 = 0 then x.origin else rd32 x.body 2
    (s.consist.roleState = .lead → s.consume e x = (s.trigger .change (rd8 x.body 0) i, false))
    ∧ (s.consist.roleState ≠ .lead → s.consume e x = (s, false)))
  ∧ (∀ (s : State) (k : CauseKind) (e : Byte) (i : Ident),
    let u := s.trigger k e i
    u = { s with
          consist := u.consist, door := u.door, heat := u.heat, outputs := u.outputs, events := u.events, revs := u.revs }
    ∧ (s.consist.state = .formed → u.consist = { s.consist with
        state := .settling, surveyCause := ⟨k, e, i⟩, holdOff := some 0, partials := 0 })
    ∧ (s.consist.state = .settling →
        u = { s with consist := { s.consist with surveyCause := ⟨k, e, i⟩, holdOff := some 0 }, revs := u.revs })
    ∧ (s.consist.state = .surveying → u = { s with consist := { s.consist with resurvey := true }, revs := u.revs }))
  ∧ (∀ (s u : State),
    (∃ k, u = s.linkChange k) ∨ (∃ k e i, u = s.trigger k e i) →
    (s.consist.state = .formed → u.isPending .consistChange = true
      ∧ u.heat = { s.heat with
          grant := s.heat.grant.map (fun g => { g with void := true }),
          ramp := if s.heat.state = .held then none else s.heat.ramp,
          limit := if s.heat.state = .held then s.heat.on else s.heat.limit, round := none, window := none }
      ∧ u.door.stat = none ∧ u.door.summary = ⟨.unknown, 0, [], false⟩
      ∧ (∀ x r, s.door.group = .released x r →
          u.door.group = .idle ∧ u.door.drop = .consist ∧ (s.part = .active → u.outputs = s.outputs &&& 0xFF8)))
    ∧ (s.consist.state ≠ .formed →
        u.events = s.events ∧ u.door = s.door ∧ u.heat = s.heat ∧ u.outputs = s.outputs))

/-- The hold-off at 200 ms begins a survey in SETTLING; else HOLD_OFF_TIMER does nothing (the model's choice, log 1). A
survey takes as candidate the successor of the last generation, passing over what the neighbour records show, empties
both roll lists, enters SURVEYING and sends a SURVEY out of each LINKED end, the one of side R with the later number
(the model's choice, log 8); a side whose end is not LINKED is complete with length 0. A lone coach is FORMED at once,
and its consist page is rewritten twice, the installation with its change to FORMED being one (the model's count, log
6). -/
def Obligations.SurveyBegins : Prop :=
  (∀ s : State, s.resetHeld = false →
    (s.consist.roleState = .lead → s.consist.state = .settling → reached s.consist.holdOff 200 = true →
      Yields .holdOffTimer s s.beginSurvey
      ∧ (s.evenPages → (∀ e, (s.endOf e).state ≠ .linked) →
          ∃ t, exec .holdOffTimer s = .next t ∧ t.rev .consist = s.rev .consist + 4))
    ∧ (s.consist.roleState ≠ .lead ∨ s.consist.state ≠ .settling ∨ reached s.consist.holdOff 200 = false →
      Yields .holdOffTimer s s))
  ∧ (∀ s : State,
    let g := s.nextCandidate
    let shown : Word → Prop := fun w => ∃ e n, (s.endOf e).neighbour = some n ∧ n.generation = w
    g ≠ 0 ∧ ¬ shown g ∧ (¬ shown (succ1 s.consist.lastGeneration) → g = succ1 s.consist.lastGeneration))
  ∧ ∀ s : State,
    let u := s.beginSurvey
    let g := s.nextCandidate
    let front := s.cfg.front
    let on : EndId → Prop := fun e => (s.endOf e).state = .linked
    let done : RollSide := { RollSide.empty with complete := some 0 }
    let body : Byte → List Byte := fun x =>
      be32 s.cfg.identity ++ [byteOf s.cfg.rank] ++ be16 g ++ [x] ++ be16 (BitVec.ofNat 16 s.cfg.timeout)
    let q (n : Word) (x : Byte) := buildTelegram .survey .broadcast s.cfg.identity 0 n (body x) []
    u = { s with
          consist := u.consist, door := u.door, heat := u.heat, outputs := u.outputs, ends := u.ends, seqs := u.seqs,
          events := u.events, revs := u.revs }
    ∧ (on front ∨ on front.opp →
      u.consist = { s.consist with
        candidate := g, sideF := if (s.endOf front).state = .linked then .empty else done,
        sideR := if (s.endOf front.opp).state = .linked then .empty else done, resurvey := false, survey := some 0,
        holdOff := none, state := .surveying }
      ∧ (s.consist.state ≠ .surveying → u.isPending .consistChange = true)
      ∧ Placed (s.sendingLines front) (q s.seqs[2] 1) (s.endOf front) (u.endOf front)
      ∧ Placed (s.sendingLines front.opp) (q (if (s.endOf front).state = .linked then succ1 s.seqs[2] else s.seqs[2]) 2)
          (s.endOf front.opp) (u.endOf front.opp))
    ∧ (¬ on front → ¬ on front.opp →
      u.consist = { s.consist with
        candidate := g, sideF := done, sideR := done, resurvey := false, survey := none, holdOff := none,
        state := .formed, lastGeneration := g, position := 1,
        orientation := match front with | .a => 1 | .b => 2,
        leadEnd := none, awayEnd := none, terminal := true, partials := 0,
        roster := some ⟨g, s.cfg.identity, byteOf s.cfg.rank, 0, false, false, false,
          [⟨s.cfg.identity, match front with | .a => 1 | .b => 2, true, true, byteOf s.cfg.fitted.code,
            byteOf s.cfg.size, byteOf s.cfg.count⟩]⟩ }
      ∧ u.isPending .consistChange = true ∧ u.heat.round = some 0 ∧ u.heat.window = some 0)

/-- SURVEY_TIMEOUT ends the survey, and before it does nothing (the model's choice, log 1). The roster is assembled in
position order: side F from its far end inwards, the lead, side R outwards; each side as far as it is complete, an
incomplete one up to its first empty slot, side R cut to 32 coaches in all; partial where a side is not complete or was
cut. A coach of side F that faces the lead with End A stands B-FRONT (2), one of side R A-FRONT (1), and the other way
round for End B (another code: log 12). The roster goes out of both ends and is installed. The lead installs a roster:
it stands at position f + 1, the records and bids of the roster before are gone, the release and the grant are dropped.
A partial roster counts, up to 3; a partial one below 3 and a set re-survey flag lead to SETTLING with cause RESURVEY,
with end and identity 0 (the model's choice, log 18), and a fresh hold-off, any other roster to FORMED with a round
opened at once. -/
def Obligations.SurveyEnds : Prop :=
  ((∀ s : State, s.resetHeld = false →
      (s.consist.roleState = .lead → s.consist.state = .surveying → reached s.consist.survey s.cfg.timeout = true →
        Yields .surveyTimeout s s.endSurvey)
      ∧ (s.consist.roleState ≠ .lead ∨ s.consist.state ≠ .surveying ∨ reached s.consist.survey s.cfg.timeout = false →
        Yields .surveyTimeout s s))
    ∧ (∀ s : State, ∃ v : State,
      (∀ e, Placed (s.sendingLines e) (s.originates .roster .broadcast 0 s.assemble.body []) (s.endOf e) (v.endOf e))
        ∧ v = { s with consist := { s.consist with survey := none }, ends := v.ends, seqs := v.seqs }
        ∧ s.endSurvey = v.leadInstall s.assemble)
    ∧ (∀ y : RollSide,
      (∀ t, y.complete = some t → y.length = t)
      ∧ (y.complete = none → y.length ≤ 31
        ∧ (∀ i, i < y.length → ∃ v, y.entries.toList[i]? = some (some v))
        ∧ (y.length = 31 ∨ y.entries.toList[y.length]? = some none)))
    ∧ ∀ s : State, s.consist.sideF.sound → s.consist.sideR.sound →
      let r := s.assemble
      let f := s.consist.sideF.length
      let n := if 31 - f < s.consist.sideR.length then 31 - f else s.consist.sideR.length
      let entry : RollEntry → Byte → Byte → RosterEntry → Prop := fun x a b y =>
        y = ⟨x.origin, y.orientation, false, x.terminal, x.doors, x.size, x.count⟩
          ∧ (x.facing = 1 → y.orientation = a) ∧ (x.facing = 2 → y.orientation = b)
      r.generation = s.consist.candidate ∧ r.leadId = s.cfg.identity ∧ r.leadRank = byteOf s.cfg.rank ∧ r.f = f
        ∧ r.entries.length = f + 1 + n ∧ r.entries.length ≤ 32
        ∧ r.entries[f]? = some ⟨s.cfg.identity, match s.cfg.front with | .a => 1 | .b => 2, true,
            decide (f = 0 ∨ n = 0), byteOf s.cfg.fitted.code, byteOf s.cfg.size, byteOf s.cfg.count⟩
        ∧ (∀ d, 1 ≤ d → d ≤ f → ∃ x, s.consist.sideF.entries.toList[d - 1]? = some (some x)
            ∧ ∃ y, r.entries[f - d]? = some y ∧ entry x 2 1 y)
        ∧ (∀ d, 1 ≤ d → d ≤ n → ∃ x, s.consist.sideR.entries.toList[d - 1]? = some (some x)
            ∧ ∃ y, r.entries[f + d]? = some y ∧ entry x 1 2 y)
        ∧ (r.isPartial = true ↔
            s.consist.sideF.complete = none ∨ s.consist.sideR.complete = none ∨ 31 < f + s.consist.sideR.length)
        ∧ (r.overlength = true ↔ 31 < f + s.consist.sideR.length)
        ∧ (r.dupIdentity = true ↔ ¬ (r.entries.map (·.identity)).Nodup))
  ∧ (∀ (s : State) (r : Roster) (x : RosterEntry), r.entries[r.f]? = some x →
      let u := s.leadInstall r
      let p := if r.isPartial then min 3 (s.consist.partials + 1) else 0
      let again := s.consist.resurvey = true ∨ (r.isPartial = true ∧ p < 3)
      let c := { s.consist with
        roster := some r, lastGeneration := r.generation, position := r.f + 1, orientation := x.orientation,
        leadEnd := none, awayEnd := none, terminal := x.terminal, partials := p, resurvey := false }
      u = { s with
            consist := u.consist, door := u.door, heat := u.heat, outputs := u.outputs, ends := u.ends, seqs := u.seqs,
            events := u.events, revs := u.revs }
      ∧ u.isPending .consistChange = true ∧ u.door.recF = none ∧ u.door.recR = none
      ∧ (∀ y z, s.door.group = .released y z → u.door.group = .idle ∧ u.door.drop = .consist)
      ∧ (∀ i : Fin 32, u.heat.bids[i] = none)
      ∧ u.heat.grant = s.heat.grant.map (fun g => { g with void := true })
      ∧ (again → u.ends = s.ends ∧ u.seqs = s.seqs
          ∧ u.consist = { c with state := .settling, holdOff := some 0, surveyCause := ⟨.resurvey, 0, 0⟩ })
      ∧ (¬ again → u.consist = { c with state := .formed } ∧ u.heat.round = some 0 ∧ u.heat.window = some 0
          ∧ u.heat.roundNo = succ1 s.heat.roundNo ∧ u.heat.tSeen = s.heat.period))

/-- A SURVEY consumed at a coach that is not lead is followed, unless a survey already followed is of the same lead and
candidate or of a better lead: rank first, then identity. The coach notes it, enters SURVEYING, starts its roster wait
and answers with a ROLL out of the arrival end, whose terminal byte is 1 when set (the model's choice, log 36); a
SURVEY not followed is not relayed either. A SURVEY consumed at the lead: a better one makes it yield, with
LEAD_CONFLICT, the cause CONFLICT with end 0 (the model's choice, log 18), its own survey abandoned and rounds, records
and bids gone, and the SURVEY is followed and relayed. Any other is not relayed: a lead that surveys already does
nothing, and one that does not begins a survey with cause CONFLICT. -/
def Obligations.SurveyConsumed : Prop :=
  (∀ (s : State) (e : EndId) (x : Telegram), x.kind = .survey → s.consist.roleState ≠ .lead →
      let u := (s.consume e x).1
      let m : Followed :=
        ⟨rd32 x.body 0, rd8 x.body 4, rd16 x.body 5, rd8 x.body 7, x.hop.toNat, e, (rd16 x.body 8).toNat⟩
      let better : Followed → Prop := fun y =>
        y.rank.toNat < m.rank.toNat ∨ (y.rank = m.rank ∧ y.lead.toNat < m.lead.toNat)
          ∨ (m.lead = y.lead ∧ m.candidate ≠ y.candidate)
      let yes := s.consist.state ≠ .surveying ∨ ∀ y, s.consist.followed = some y → better y
      let terminal : Byte := if (s.endOf e.opp).state = .linked then 0 else 1
      let roll := s.originates .roll .towardLead 0
        (be32 m.lead ++ be16 m.candidate
          ++ ([m.side, x.hop, match e with | .a => 1 | .b => 2, terminal, byteOf s.cfg.fitted.code, byteOf s.cfg.size,
               byteOf s.cfg.count] : List Byte)) []
      (¬ yes → s.consume e x = (s, true))
      ∧ (yes → (s.consume e x).2 = false
        ∧ u = { s with
              consist := { s.consist with followed := some m, rosterWait := some 0, state := .surveying },
              door := u.door, heat := u.heat, outputs := u.outputs, ends := u.ends, seqs := u.seqs, events := u.events,
              revs := u.revs }
        ∧ (s.consist.state ≠ .surveying → u.isPending .consistChange = true)
        ∧ (s.consist.state ≠ .formed →
            u.door = { s.door with summary := u.door.summary } ∧ u.heat = s.heat ∧ u.outputs = s.outputs)
        ∧ Placed (s.sendingLines e) roll (s.endOf e) (u.endOf e) ∧ u.endOf e.opp = s.endOf e.opp))
  ∧ (∀ (s : State) (e : EndId) (x : Telegram), x.kind = .survey → s.consist.roleState = .lead →
      let u := (s.consume e x).1
      let rank := (rd8 x.body 4).toNat
      let id := rd32 x.body 0
      let better := s.cfg.rank < rank ∨ (s.cfg.rank = rank ∧ s.cfg.identity.toNat < id.toNat)
      let c : SurveyCause := ⟨.conflict, 0, id⟩
      (better → (s.consume e x).2 = false ∧ u.isPending .leadConflict = true
        ∧ u.consist = { s.consist with
            roleState := .yielded, state := .surveying, surveyCause := c, survey := none, holdOff := none,
            resurvey := false, rosterWait := some 0,
            sideF := if s.consist.survey.isSome then .empty else s.consist.sideF,
            sideR := if s.consist.survey.isSome then .empty else s.consist.sideR,
            followed := some ⟨id, rd8 x.body 4, rd16 x.body 5, rd8 x.body 7, x.hop.toNat, e, (rd16 x.body 8).toNat⟩ }
        ∧ u.door.recF = none ∧ u.door.recR = none ∧ u.heat.round = none ∧ u.heat.window = none
        ∧ ∀ i : Fin 32, u.heat.bids[i] = none)
      ∧ (¬ better → s.consist.state = .surveying → s.consume e x = (s, true))
      ∧ (¬ better → s.consist.state ≠ .surveying →
          s.consume e x = (({ s with consist := { s.consist with surveyCause := c } } : State).beginSurvey, true)))

/-- A ROLL consumed at the lead fills its slot where it answers the survey in progress on the side of its arrival end;
the survey ends at once when both sides are complete. A slot filled stays; a side is complete at the first distance
without a gap before it whose coach is terminal. -/
def Obligations.RollCollected : Prop :=
  (∀ (s : State) (e : EndId) (x : Telegram), x.kind = .roll →
    let u := (s.consume e x).1
    let d := (rd8 x.body 7).toNat
    let good := s.consist.roleState = .lead ∧ s.consist.state = .surveying ∧ rd32 x.body 0 = s.cfg.identity
      ∧ rd16 x.body 4 = s.consist.candidate ∧ 1 ≤ d ∧ d ≤ 31
    let onF := rd8 x.body 6 = 1 ∧ e = s.cfg.front
    let onR := rd8 x.body 6 = 2 ∧ e = s.cfg.front.opp
    let en : RollEntry :=
      ⟨x.origin, rd8 x.body 8, decide (rd8 x.body 9 ≠ 0), rd8 x.body 10, rd8 x.body 11, rd8 x.body 12⟩
    let ends : State → State → Prop := fun v w =>
      (v.consist.sideF.complete = none ∨ v.consist.sideR.complete = none → w = v)
        ∧ (v.consist.sideF.complete ≠ none → v.consist.sideR.complete ≠ none → w = v.endSurvey)
    (¬ good ∨ (¬ onF ∧ ¬ onR) → u = s)
    ∧ (good → onF → ends { s with consist := { s.consist with sideF := s.consist.sideF.fill d en } } u)
    ∧ (good → onR → ends { s with consist := { s.consist with sideR := s.consist.sideR.fill d en } } u))
  ∧ ∀ (y : RollSide) (d : Nat) (en : RollEntry), 1 ≤ d → d ≤ 31 →
    let z := y.fill d en
    (y.entries.toList[d - 1]? ≠ some none → z = y)
    ∧ (y.entries.toList[d - 1]? = some none → z.entries.toList = y.entries.toList.set (d - 1) (some en)
      ∧ (∀ t, y.complete = some t → z.complete = some t)
      ∧ (y.complete = none → ∀ t, z.complete = some t ↔
          1 ≤ t ∧ t ≤ 31
            ∧ ∀ i, i < t → ∃ v, z.entries.toList[i]? = some (some v) ∧ (v.terminal = true ↔ i + 1 = t)))

/-- A ROSTER is accepted by a coach that follows the survey it closes: well formed, of the lead and candidate followed,
of another generation than the one in force. The coach installs it: FORMED at its computed position where the roster
shows its identity there, else UNFORMED. It drops release and grant either way. Any other ROSTER is ignored.
ROSTER_WAIT_TIMER at the followed survey's timeout plus 1000 ms: the coach gives the survey up, STALE where it holds a
roster and UNFORMED where it holds none. Before, nothing (the model's choice, log 1). `evalSummary` is the evaluation
of the train door summary that R116 asks for at the event (one moment: log 7). -/
def Obligations.RosterTaken : Prop :=
  (∀ (s : State) (e : EndId) (x : Telegram), x.kind = .roster →
      let u := (s.consume e x).1
      let r := rosterFrom x.body
      let n := (rd8 x.body 7).toNat
      let good : Followed → Prop := fun y =>
        s.consist.roleState ≠ .lead ∧ s.consist.state = .surveying ∧ s.consist.followed = some y ∧ y.lead = r.leadId
          ∧ y.candidate = r.generation ∧ r.generation ≠ s.consist.generation ∧ r.generation ≠ 0 ∧ 1 ≤ n ∧ n ≤ 32
          ∧ r.entries.length = n ∧ r.f < n ∧ r.entries.countP (·.lead) = 1
          ∧ (∃ z, r.entries[r.f]? = some z ∧ z.lead = true ∧ z.identity = r.leadId)
          ∧ ∀ z ∈ r.entries, z.orientation = 1 ∨ z.orientation = 2
      let base := { s.consist with roster := some r, lastGeneration := r.generation, followed := none, rosterWait := none }
      ((∀ y, ¬ good y) → u = s)
      ∧ ∀ y, good y → y.side = 1 ∨ y.side = 2 →
        let p := if y.side = 1 then r.f + 1 - y.distance else r.f + 1 + y.distance
        let away := y.leadEnd.opp
        u = { s with
              consist := u.consist, door := u.door, heat := u.heat, outputs := u.outputs, ends := u.ends, seqs := u.seqs,
              events := u.events, revs := u.revs }
        ∧ u.isPending .consistChange = true
        ∧ (∀ a b, s.door.group = .released a b → u.door.group = .idle ∧ u.door.drop = .consist)
        ∧ u.heat.grant = s.heat.grant.map (fun g => { g with void := true })
        ∧ (∀ z, 1 ≤ p → r.entries[p - 1]? = some z → z.identity = s.cfg.identity →
            u.consist = { base with
              state := .formed, position := p, orientation := z.orientation, leadEnd := some y.leadEnd,
              awayEnd := some away, terminal := decide ((s.endOf away).state ≠ .linked) }
            ∧ u.door.stat = if (s.endOf away).state ≠ .linked then some 0 else none)
        ∧ (p = 0 ∨ (∀ z, r.entries[p - 1]? = some z → z.identity ≠ s.cfg.identity) →
            u.consist = { base with
              state := .unformed, position := 0, orientation := 0, leadEnd := none, awayEnd := none, terminal := false }
            ∧ u.door.stat = none))
  ∧ (∀ (s : State), s.resetHeld = false →
      (∀ x n, s.consist.state = .surveying → s.consist.followed = some x → s.consist.rosterWait = some n →
        x.timeout + 1000 ≤ n →
        Yields .rosterWaitTimer s
          (({ s with consist := { s.consist with
                followed := none, rosterWait := none,
                state := if s.consist.roster = none then .unformed else .stale } } : State).raise
            .consistChange).evalSummary)
      ∧ (s.consist.state ≠ .surveying ∨ s.consist.followed = none ∨ s.consist.rosterWait = none
          ∨ (∃ x n, s.consist.followed = some x ∧ s.consist.rosterWait = some n ∧ n < x.timeout + 1000) →
        Yields .rosterWaitTimer s s))

/-! ### Messages and time -/

/-- A usable MSG takes the lowest FREE inbox slot: delivery number stepped, origin, its position as that of the first
entry of the installed roster that carries it or 0, kind, time, length and bytes written, the slot's counter up by 2,
MESSAGE_ARRIVED raised. A unicast is answered out of its arrival end, DELIVERED or, with no slot FREE, INBOX_FULL; one
of origin 0 is not answered. A MSG that is not usable is ignored. -/
def Obligations.MessageReceived : Prop :=
  ∀ (s : State) (e : EndId) (x : Telegram), x.kind = .msg →
    let u := (s.consume e x).1
    let len := (rd8 x.body 0).toNat
    let usable := 1 ≤ len ∧ len ≤ 200 ∧ x.body.length = len + 1
    let entries := (s.consist.roster.map (·.entries)).getD []
    let isFree : Fin 8 → Prop := fun n => s.mem.readWord (slotBase n + 4) = BitVec.ofNat 16 s.deliveries[n]
    let ack : Byte → Telegram := fun r => s.originates .msgack .coach x.origin (be16 x.seq ++ [r]) []
    (s.consume e x).2 = false
    ∧ u.endOf e.opp = s.endOf e.opp
    ∧ (¬ usable → u = s)
    ∧ (x.scope ≠ .coach ∨ x.origin = 0 → u.ends = s.ends ∧ u.seqs = s.seqs)
    ∧ (usable → (∀ n, ¬ isFree n) → u = { s with ends := u.ends, seqs := u.seqs }
        ∧ (x.scope = .coach → x.origin ≠ 0 → Placed (s.sendingLines e) (ack 2) (s.endOf e) (u.endOf e)))
    ∧ (usable → ∀ n, isFree n → (∀ m, m < n → ¬ isFree m) →
      let d := if s.deliveries[n] = 255 then 1 else s.deliveries[n] + 1
      u = { s with
            deliveries := s.deliveries.set n d, ends := u.ends, seqs := u.seqs, events := u.events, revs := u.revs,
            mem := u.mem }
      ∧ u.isPending .messageArrived = true ∧ (∀ c, c ≠ .messageArrived → u.isPending c = s.isPending c)
      ∧ u.rev (.slot n) = s.rev (.slot n) + 2 ∧ (∀ r, r ≠ .slot n → u.rev r = s.rev r)
      ∧ u.mem.readWords (slotBase n) 2 = [s.rev (.slot n) + 2, BitVec.ofNat 16 d]
      ∧ u.mem.readWords (slotBase n + 6) 2 = [x.origin.setWidth 16, (x.origin >>> 16).setWidth 16]
      ∧ (∀ l y r, entries = l ++ y :: r → y.identity = x.origin → (∀ z ∈ l, z.identity ≠ x.origin) → l.length < 65535 →
          u.mem.readWord (slotBase n + 0x0A) = BitVec.ofNat 16 (l.length + 1))
      ∧ ((∀ y ∈ entries, y.identity ≠ x.origin) → u.mem.readWord (slotBase n + 0x0A) = 0)
      ∧ u.mem.readWords (slotBase n + 0x0C) 3
          = [if x.scope = .coach then 2 else 1, s.ms, BitVec.ofNat 16 len]
      ∧ (∀ i, i < 200 → u.mem.read (slotBase n + 0x12 + i) = x.body.getD (i + 1) 0)
      ∧ (∀ a, (a < slotBase n ∨ (slotBase n + 4 ≤ a ∧ a < slotBase n + 6) ∨ slotBase n + 0x12 + 200 ≤ a) →
          u.mem.read a = s.mem.read a)
      ∧ (x.scope = .coach → x.origin ≠ 0 → Placed (s.sendingLines e) (ack 1) (s.endOf e) (u.endOf e)))

/-- A MSGACK finds the in-flight entry of its origin and sequence number: the entry leaves the list, and its block
completes DONE for DELIVERED and INBOX_FULL for a full inbox, with sequence number, arrival end and the time passed. A
MSGACK that matches none, or with another result, is ignored. MESSAGE_DEADLINE at 1000 ms: the block's in-flight entry
leaves the list and the block is refused TIMEOUT; the block is the command's operand (the model's choice, log 26).
Before, nothing (the model's choice, log 1). -/
def Obligations.MessageOutcome : Prop :=
  (∀ (s : State) (e : EndId) (x : Telegram), x.kind = .msgack →
      let u := (s.consume e x).1
      let mine : InFlight → Prop := fun y => y.dest = x.origin ∧ y.seq = rd16 x.body 0
      ((∀ y ∈ s.inFlight, ¬ mine y) ∨ (rd8 x.body 2 ≠ 1 ∧ rd8 x.body 2 ≠ 2) → u = s)
      ∧ ∀ l y r, s.inFlight = l ++ y :: r → mine y → (∀ z ∈ l, ¬ mine z) → y.timer < 65536 →
        rd8 x.body 2 = 1 ∨ rd8 x.body 2 = 2 →
        u = { s with inFlight := l ++ r, events := u.events, mem := u.mem }
        ∧ u.blockStatus y.block = (if rd8 x.body 2 = 1 then stDONE else stREFUSED)
        ∧ u.mem.readWords (blockBase y.block + 4) 4
            = [if rd8 x.body 2 = 1 then 0 else 10, y.seq, match e with | .a => 1 | .b => 2, BitVec.ofNat 16 y.timer]
        ∧ u.isPending .orderDone = true ∧ (∀ c, c ≠ .orderDone → u.isPending c = s.isPending c)
        ∧ ∀ a, (a < blockBase y.block ∨ (blockBase y.block + 2 ≤ a ∧ a < blockBase y.block + 4)
              ∨ blockBase y.block + 32 ≤ a) → u.mem.read a = s.mem.read a)
  ∧ (∀ (s : State) (b : Fin 16), s.resetHeld = false →
      ((∀ x ∈ s.inFlight, x.block = b → x.timer < 1000) → Yields (.messageDeadline b) s s)
      ∧ ∀ l x r, s.inFlight = l ++ x :: r → x.block = b → 1000 ≤ x.timer → (∀ y ∈ l, y.block ≠ b) →
        ∃ t, exec (.messageDeadline b) s = .next t
          ∧ t = { s with inFlight := l ++ r, events := t.events, revs := t.revs, mem := t.mem }
          ∧ t.blockStatus b = stREFUSED
          ∧ t.mem.readWords (blockBase b + 4) 14 = 11 :: List.replicate 13 0
          ∧ t.isPending .orderDone = true ∧ (∀ c, c ≠ .orderDone → t.isPending c = s.isPending c)
          ∧ ∀ a, isPageByte a = false →
              (a < blockBase b ∨ (blockBase b + 2 ≤ a ∧ a < blockBase b + 4) ∨ blockBase b + 32 ≤ a) →
              t.mem.read a = s.mem.read a)

/-- MILLISECOND_COUNT: the count steps, shown at 0x1400, and every running timer goes on by 1 ms up to its limit; a
stopped timer stays stopped. The inbox slots' counters stand. No timer's effect happens in this step (log 1). -/
def Obligations.MillisecondCount : Prop :=
  ∀ s : State, s.resetHeld = false →
    let up (limit : Nat) (x : Option Nat) : Option Nat := x.map (fun n => if n < limit then n + 1 else limit)
    let record (r : DoorRecord) : DoorRecord := { r with age := r.age + 1 }
    ∃ t, exec .millisecondCount s = .next t
      ∧ t = { s with
          ms := s.ms + 1, lines := t.lines, ends := t.ends, consist := t.consist, door := t.door, heat := t.heat,
          inputs := t.inputs, inFlight := t.inFlight, revs := t.revs, mem := t.mem }
      ∧ t.mem.readWord 0x1400 = s.ms + 1 ∧ (∀ n, t.rev (.slot n) = s.rev (.slot n))
      ∧ (∀ l, t.lineOf l = { s.lineOf l with
          settling := up 100 (s.lineOf l).settling, rest := up 1000 (s.lineOf l).rest, asm := (t.lineOf l).asm }
          ∧ (∀ bs n, (s.lineOf l).asm = .opened bs n → (t.lineOf l).asm = .opened bs (if n < 2 then n + 1 else 2))
          ∧ (∀ bs n, (s.lineOf l).asm = .escaped bs n → (t.lineOf l).asm = .escaped bs (if n < 2 then n + 1 else 2))
          ∧ ((s.lineOf l).asm = .waiting ∨ (s.lineOf l).asm = .discarding → (t.lineOf l).asm = (s.lineOf l).asm))
      ∧ (∀ e, t.endOf e = { s.endOf e with
          link := up 150 (s.endOf e).link, hail := up 50 (s.endOf e).hail, stall := up 200 (s.endOf e).stall })
      ∧ t.consist = { s.consist with
          holdOff := up 200 s.consist.holdOff, survey := up 2000 s.consist.survey,
          rosterWait := up 66535 s.consist.rosterWait }
      ∧ t.door = { s.door with
          stat := up 100 s.door.stat, recF := s.door.recF.map record, recR := s.door.recR.map record }
      ∧ t.heat = { s.heat with
          loss := up 30000 s.heat.loss, round := up 10000 s.heat.round, window := up 300 s.heat.window,
          ramp := s.heat.ramp.map fun r => { r with left := r.left - 1 } }
      ∧ (∀ i, t.inputs.get i = { s.inputs.get i with timer := up 255 (s.inputs.get i).timer })
      ∧ t.inFlight = s.inFlight.map (fun x => { x with timer := if x.timer < 1000 then x.timer + 1 else 1000 })
      ∧ ∀ a, isPageByte a = false → a ≠ 0x1400 → a ≠ 0x1401 → t.mem.read a = s.mem.read a

/-! ### Headlines -/

/-- After every step every page record is consistent with its counter: the counter is even, and either exchange memory
shows the record whole as the state has it, or the counter stands and no byte of the record moved but by a host write.
A record under change rewriting whose fields changed is shown. -/
def Obligations.PagesAfterAStep : Prop :=
  ∀ s t : State, s.evenPages → step s = .next t →
    t.evenPages
      ∧ ∀ r ∈ pageRecs,
        (t.shows r ∨ (t.rev r = s.rev r ∧ ∀ a, t.recordByte r a →
          (∀ w v, s.pending.head? = some (.exchangeMemoryWrite w v) → a ≠ 2 * w.toNat ∧ a ≠ 2 * w.toNat + 1) →
          t.mem.read a = s.mem.read a))
        ∧ (r.byChange = true → t.recordRuns r ≠ s.recordRuns r → t.shows r)

/-- Every step keeps exchange memory in its canonical form and every revision counter even. Every step keeps every
queue, buffer, list, score and threshold within its capacity. -/
def Obligations.BoundsKept : Prop :=
  (∀ s t : State, s.memWf → s.countersEven → step s = .next t → t.memWf ∧ t.countersEven)
  ∧ (∀ s t : State, s.fits → step s = .next t → t.fits)

/-- Every step keeps a HALTED part silent: coupler lines dark, ends at rest, consist, doors, heating and messages at
their reset values, door and heating outputs off. Every step keeps the doors safe: a release stands only at a FORMED
coach, under the roster and in the range it names, at qualified zero speed, and the door outputs show the group. -/
def Obligations.QuietAndDoorsKept : Prop :=
  (∀ s t : State, s.haltedQuiet → step s = .next t → t.haltedQuiet)
  ∧ (∀ s t : State, s.doorsSafe → step s = .next t → t.doorsSafe)

/-- Every step keeps the heating safe: stages on within the limit in force and the stage count, ramps within the limit,
the fallback after a loss, nothing on without supply, and the stage outputs show the stages on. -/
def Obligations.HeatStaysSafe : Prop := ∀ s t : State, s.heatSafe → step s = .next t → t.heatSafe

/-- Every step keeps order unit and order blocks in agreement: the notice queue holds each QUEUED block once, every
TAKEN block is executing or in flight, and no status word holds a code the part does not know. -/
def Obligations.OrdersStayInAgreement : Prop := ∀ s t : State, s.ordersAgree → step s = .next t → t.ordersAgree

/-- Every step keeps rosters sound: 1 to 32 coaches, and a FORMED coach stands in the roster in force at its own
position under its own identity. -/
def Obligations.RosterStaysSound : Prop := ∀ s t : State, s.rosterHolds → step s = .next t → t.rosterHolds

/-- What goes out on a line comes in as it was: the byte assembler, fed the wire form of a telegram whose checks and
header are right, reports nothing but its bytes closed by the END, and the candidate check reads the telegram back
whole. A roster survives its ROSTER: the body that the lead sends reads back as the roster it installs. -/
def Obligations.RoundTrips : Prop :=
  (∀ t : Telegram, t.bodyCheck = t.bodyCrc → t.routeCheck = t.routeCrc → headerOk t (byteOf t.kind.cls.code) = true →
      feed .waiting t.wire = (.waiting, [.closed t.bytes]) ∧ checkCandidate t.bytes = .good t)
  ∧ (∀ r : Roster, r.entries.length ≤ 32 → r.f < 256 →
      rosterFrom r.body = r ∧ (rd8 r.body 7).toNat = r.entries.length ∧ r.body.length = 10 + 9 * r.entries.length)
end

