-- ==== Sys2Proof/Laws/Memory.lean ====
section
/-! SUPPORT. Exchange memory: what a read sees after a write, and that every write keeps the canonical form. -/

namespace Sys2Proof.Machine

@[simp] theorem memory_read_nil (a : Nat) : Memory.read [] a = 0 := rfl

theorem memory_read_append (m n : Memory) (a : Nat) :
    Memory.read (m ++ n) a = if m.any (fun c => c.1 == a) then Memory.read m a else Memory.read n a := by
  induction m with
  | nil => simp
  | cons c m ih =>
    obtain ⟨k, b⟩ := c
    by_cases h : k = a <;> simp [Memory.read, h, ih]

theorem memory_read_filter (m : Memory) (p : Nat → Bool) (a : Nat) :
    Memory.read (m.filter (fun c => p c.1)) a = if p a then Memory.read m a else 0 := by
  induction m with
  | nil => simp
  | cons c m ih =>
    obtain ⟨k, b⟩ := c
    by_cases hp : p k <;> by_cases hk : k = a <;> simp_all [Memory.read]

theorem memory_any_filter (m : Memory) (p : Nat → Bool) (a : Nat) :
    (m.filter (fun c => p c.1)).any (fun c => c.1 == a) = (p a && m.any (fun c => c.1 == a)) := by
  induction m with
  | nil => simp
  | cons c m ih =>
    obtain ⟨k, b⟩ := c
    by_cases hp : p k <;> by_cases hk : k = a
    · simp_all
    · simp [hp, beq_false_of_ne hk] at ih ⊢; exact ih
    · simp_all
    · simp [hp, beq_false_of_ne hk] at ih ⊢; exact ih

theorem memory_read_of_not_any (m : Memory) (a : Nat) (h : m.any (fun c => c.1 == a) = false) : m.read a = 0 := by
  induction m with
  | nil => rfl
  | cons c m ih =>
    obtain ⟨k, b⟩ := c
    simp only [List.any_cons, Bool.or_eq_false_iff, beq_eq_false_iff_ne] at h
    simp [Memory.read, h.1, ih h.2]

/-- A cell of a run of bytes lies in the run and is not 0. -/
theorem mem_cellsOf (bs : List Byte) : ∀ (a : Nat) (c : Host.Cell), c ∈ cellsOf a bs → a ≤ c.1 ∧ c.1 < a + bs.length ∧ c.2 ≠ 0 := by
  induction bs with
  | nil => intro a c h; simp [cellsOf] at h
  | cons b bs ih =>
    intro a c h
    by_cases hb : b = 0
    · simp only [cellsOf, hb, if_true] at h
      have := ih (a + 1) c h
      simp only [List.length_cons]; exact ⟨by omega, by omega, this.2.2⟩
    · simp only [cellsOf, hb, if_false, List.mem_cons] at h
      rcases h with rfl | h
      · exact ⟨Nat.le_refl a, by simp, hb⟩
      · have := ih (a + 1) c h
        simp only [List.length_cons]; exact ⟨by omega, by omega, this.2.2⟩

theorem read_cellsOf (bs : List Byte) : ∀ (a k : Nat), Memory.read (cellsOf a bs) k = if a ≤ k then bs.getD (k - a) 0 else 0 := by
  induction bs with
  | nil => intro a k; simp [cellsOf]
  | cons b bs ih =>
    intro a k
    by_cases hb : b = 0
    · simp only [cellsOf, hb, if_true, ih]
      rcases Nat.lt_trichotomy k a with h | h | h
      · simp [show ¬ a + 1 ≤ k by omega, show ¬ a ≤ k by omega]
      · subst h; simp
      · obtain ⟨d, rfl⟩ : ∃ d, k = a + 1 + d := ⟨k - a - 1, by omega⟩
        simp [show a ≤ a + 1 + d by omega, show a + 1 + d - a = d + 1 by omega]
    · simp only [cellsOf, hb, if_false, Memory.read]
      rcases Nat.lt_trichotomy k a with h | h | h
      · simp [show ¬ a = k by omega, ih, show ¬ a + 1 ≤ k by omega, show ¬ a ≤ k by omega]
      · subst h; simp
      · obtain ⟨d, rfl⟩ : ∃ d, k = a + 1 + d := ⟨k - a - 1, by omega⟩
        simp [show ¬ a = a + 1 + d by omega, ih, show a ≤ a + 1 + d by omega, show a + 1 + d - a = d + 1 by omega]

theorem any_cellsOf_false (bs : List Byte) (a k : Nat) (h : k < a ∨ a + bs.length ≤ k) :
    (cellsOf a bs).any (fun c => c.1 == k) = false := by
  rw [List.any_eq_false]
  intro c hc
  have := mem_cellsOf bs a c hc
  simp; omega

/-- What a read sees after a write: the bytes written in their range, else what it saw before. -/
theorem memory_read_write (m : Memory) (a : Nat) (bs : List Byte) (k : Nat) :
    (m.write a bs).read k = if a ≤ k ∧ k < a + bs.length then bs.getD (k - a) 0 else m.read k := by
  unfold Memory.write
  rw [List.append_assoc, memory_read_append, memory_any_filter m (fun x => decide (x < a)),
    memory_read_filter m (fun x => decide (x < a)), memory_read_append,
    memory_read_filter m (fun x => decide (a + bs.length ≤ x)), read_cellsOf]
  by_cases h1 : k < a
  · have hc := any_cellsOf_false bs a k (Or.inl h1)
    by_cases hm : m.any (fun c => c.1 == k)
    · simp [h1, hm, show ¬ a ≤ k by omega]
    · simp only [Bool.not_eq_true] at hm
      simp [h1, hm, hc, show ¬ a ≤ k by omega, show ¬ a + bs.length ≤ k by omega, memory_read_of_not_any m k hm]
  · by_cases h2 : k < a + bs.length
    · have hz : ∀ hc : (cellsOf a bs).any (fun c => c.1 == k) = false, bs[k - a]?.getD 0 = 0 := by
        intro hc
        have h := memory_read_of_not_any _ k hc
        rw [read_cellsOf] at h
        simpa [show a ≤ k by omega] using h
      by_cases hc : (cellsOf a bs).any (fun c => c.1 == k)
      · simp [h1, h2, hc, show a ≤ k by omega]
      · simp only [Bool.not_eq_true] at hc
        have := hz hc
        simp_all [show a ≤ k by omega, show ¬ a + bs.length ≤ k by omega]
    · have hc := any_cellsOf_false bs a k (Or.inr (by omega))
      simp [h1, h2, hc, show a + bs.length ≤ k by omega]

theorem cellsOf_pairwise (bs : List Byte) : ∀ a, (cellsOf a bs).Pairwise (fun x y => x.1 < y.1) := by
  induction bs with
  | nil => intro a; simp [cellsOf]
  | cons b bs ih =>
    intro a
    by_cases hb : b = 0
    · simpa [cellsOf, hb] using ih (a + 1)
    · simp only [cellsOf, hb, if_false, List.pairwise_cons]
      exact ⟨fun c hc => by have := mem_cellsOf bs (a + 1) c hc; show a < c.1; omega, ih (a + 1)⟩

/-- A write keeps the canonical form. -/
theorem memory_wf_write (m : Memory) (a : Nat) (bs : List Byte) (h : m.wf) : (m.write a bs).wf := by
  unfold Memory.write
  refine ⟨?_, ?_⟩
  · rw [List.append_assoc, List.pairwise_append, List.pairwise_append]
    refine ⟨h.1.filter _, ⟨cellsOf_pairwise bs a, h.1.filter _, ?_⟩, ?_⟩
    · intro x hx y hy
      have hx' := mem_cellsOf bs a x hx
      simp only [List.mem_filter, decide_eq_true_eq] at hy
      omega
    · intro x hx y hy
      simp only [List.mem_filter, decide_eq_true_eq] at hx
      rw [List.mem_append] at hy
      rcases hy with hy | hy
      · have := mem_cellsOf bs a y hy
        omega
      · simp only [List.mem_filter, decide_eq_true_eq] at hy
        omega
  · intro c hc
    simp only [List.mem_append, List.mem_filter] at hc
    rcases hc with (hc | hc) | hc
    · exact h.2 c hc.1
    · exact (mem_cellsOf bs a c hc).2.2
    · exact h.2 c hc.1

theorem memory_wf_nil : Memory.wf [] := by simp [Memory.wf]

theorem length_bytesOfWords (ws : List Word) : (bytesOfWords ws).length = 2 * ws.length := by
  induction ws with
  | nil => rfl
  | cons w ws ih => simp only [bytesOfWords, List.length_cons, ih]; omega

theorem memory_wf_writeWords (m : Memory) (a : Nat) (ws : List Word) (h : m.wf) : (m.writeWords a ws).wf :=
  memory_wf_write m a _ h

/-- A read outside the words written sees what it saw before. -/
theorem memory_read_writeWords_of_outside (m : Memory) (a : Nat) (ws : List Word) (k : Nat)
    (h : k < a ∨ a + 2 * ws.length ≤ k) : (m.writeWords a ws).read k = m.read k := by
  rw [Memory.writeWords, memory_read_write, length_bytesOfWords, if_neg (by omega)]

theorem getD_bytesOfWords (ws : List Word) : ∀ i, (bytesOfWords ws).getD (2 * i) 0 = loByte (ws.getD i 0)
    ∧ (bytesOfWords ws).getD (2 * i + 1) 0 = hiByte (ws.getD i 0) := by
  induction ws with
  | nil => intro i; simp [bytesOfWords, loByte, hiByte]
  | cons w ws ih =>
    intro i
    cases i with
    | zero => simp [bytesOfWords]
    | succ i =>
      have := ih i
      simpa [bytesOfWords, show 2 * (i + 1) = 2 * i + 1 + 1 by omega] using this

theorem wordOf_hi_lo (w : Word) : wordOf (hiByte w) (loByte w) = w := by
  unfold wordOf hiByte loByte
  apply BitVec.eq_of_getLsbD_eq
  intro i hi
  simp only [BitVec.getLsbD_append, BitVec.getLsbD_setWidth, BitVec.getLsbD_ushiftRight]
  by_cases h : i < 8
  · simp [h]
  · simp [h, show i - 8 < 8 by omega, show 8 + (i - 8) = i by omega]

/-- A word read back after the words it lies in were written. -/
theorem memory_readWord_writeWords (m : Memory) (a : Nat) (ws : List Word) (i : Nat) (h : i < ws.length) :
    (m.writeWords a ws).readWord (a + 2 * i) = ws.getD i 0 := by
  have hb := getD_bytesOfWords ws i
  simp only [Memory.readWord, Memory.writeWords, memory_read_write, length_bytesOfWords]
  rw [if_pos (by omega), if_pos (by omega), show a + 2 * i + 1 - a = 2 * i + 1 by omega,
    show a + 2 * i - a = 2 * i by omega, hb.1, hb.2, wordOf_hi_lo]

/-- A word that lies outside the words written reads as before. -/
theorem memory_readWord_writeWords_of_outside (m : Memory) (a : Nat) (ws : List Word) (k : Nat)
    (h : k + 2 ≤ a ∨ a + 2 * ws.length ≤ k) : (m.writeWords a ws).readWord k = m.readWord k := by
  simp only [Memory.readWord]
  rw [memory_read_writeWords_of_outside m a ws (k + 1) (by omega), memory_read_writeWords_of_outside m a ws k (by omega)]

/-- A single word read back. -/
@[simp] theorem memory_readWord_writeWord (m : Memory) (a : Nat) (w : Word) : (m.writeWords a [w]).readWord a = w := by
  have := memory_readWord_writeWords m a [w] 0 Nat.one_pos
  simpa using this

/-- A run of words outside the words written reads as before. -/
theorem memory_readWords_writeWords_of_outside (m : Memory) (a : Nat) (ws : List Word) (n : Nat) :
    ∀ k, (k + 2 * n ≤ a ∨ a + 2 * ws.length ≤ k) → (m.writeWords a ws).readWords k n = m.readWords k n := by
  induction n with
  | zero => intro k _; rfl
  | succ n ih =>
    intro k h
    simp only [Memory.readWords]
    rw [memory_readWord_writeWords_of_outside m a ws k (by omega), ih (k + 2) (by omega)]

/-- A run of words is its words. -/
theorem memory_readWords_eq (m : Memory) (ws : List Word) :
    ∀ a, (∀ i, i < ws.length → m.readWord (a + 2 * i) = ws.getD i 0) → m.readWords a ws.length = ws := by
  induction ws with
  | nil => intro a _; rfl
  | cons w ws ih =>
    intro a h
    simp only [Memory.readWords, List.length_cons]
    have h0 := h 0 (by simp)
    have hs := ih (a + 2) (fun i hi => by
      have := h (i + 1) (by simpa using hi)
      rw [show a + 2 + 2 * i = a + 2 * (i + 1) by omega, this]; simp)
    rw [hs]
    simpa using h0

/-- A word of a run of words is the word at its place. -/
theorem memory_readWord_of_readWords (m : Memory) (ws : List Word) :
    ∀ a, m.readWords a ws.length = ws → ∀ i, i < ws.length → m.readWord (a + 2 * i) = ws.getD i 0 := by
  induction ws with
  | nil => intro a _ i hi; simp at hi
  | cons w ws ih =>
    intro a h i hi
    simp only [Memory.readWords, List.length_cons, List.cons.injEq] at h
    cases i with
    | zero => simpa using h.1
    | succ i =>
      rw [show a + 2 * (i + 1) = a + 2 + 2 * i by omega, ih (a + 2) h.2 i (by simpa using hi)]
      simp

/-- The words written read back whole. -/
theorem memory_readWords_writeWords (m : Memory) (a : Nat) (ws : List Word) :
    (m.writeWords a ws).readWords a ws.length = ws :=
  memory_readWords_eq _ ws a fun i hi => memory_readWord_writeWords m a ws i hi

end Sys2Proof.Machine
end

