-- ==== Sys2Proof/Laws/State.lean ====
section
/-! SUPPORT. The named updates of State, field by field: each changes one field and leaves the others. -/

namespace Sys2Proof.Machine

namespace State

variable (s : State)

/-! ### modEnd -/

@[simp] theorem modEnd_pending (e : EndId) (f : EndUnit → EndUnit) : (s.modEnd e f).pending = s.pending := rfl
@[simp] theorem modEnd_resetHeld (e : EndId) (f : EndUnit → EndUnit) : (s.modEnd e f).resetHeld = s.resetHeld := rfl
@[simp] theorem modEnd_part (e : EndId) (f : EndUnit → EndUnit) : (s.modEnd e f).part = s.part := rfl
@[simp] theorem modEnd_cause (e : EndId) (f : EndUnit → EndUnit) : (s.modEnd e f).cause = s.cause := rfl
@[simp] theorem modEnd_gpHeld (e : EndId) (f : EndUnit → EndUnit) : (s.modEnd e f).gpHeld = s.gpHeld := rfl
@[simp] theorem modEnd_ms (e : EndId) (f : EndUnit → EndUnit) : (s.modEnd e f).ms = s.ms := rfl
@[simp] theorem modEnd_cfg (e : EndId) (f : EndUnit → EndUnit) : (s.modEnd e f).cfg = s.cfg := rfl
@[simp] theorem modEnd_seqs (e : EndId) (f : EndUnit → EndUnit) : (s.modEnd e f).seqs = s.seqs := rfl
@[simp] theorem modEnd_lines (e : EndId) (f : EndUnit → EndUnit) : (s.modEnd e f).lines = s.lines := rfl
@[simp] theorem modEnd_consist (e : EndId) (f : EndUnit → EndUnit) : (s.modEnd e f).consist = s.consist := rfl
@[simp] theorem modEnd_door (e : EndId) (f : EndUnit → EndUnit) : (s.modEnd e f).door = s.door := rfl
@[simp] theorem modEnd_heat (e : EndId) (f : EndUnit → EndUnit) : (s.modEnd e f).heat = s.heat := rfl
@[simp] theorem modEnd_inFlight (e : EndId) (f : EndUnit → EndUnit) : (s.modEnd e f).inFlight = s.inFlight := rfl
@[simp] theorem modEnd_deliveries (e : EndId) (f : EndUnit → EndUnit) : (s.modEnd e f).deliveries = s.deliveries := rfl
@[simp] theorem modEnd_inputs (e : EndId) (f : EndUnit → EndUnit) : (s.modEnd e f).inputs = s.inputs := rfl
@[simp] theorem modEnd_outputs (e : EndId) (f : EndUnit → EndUnit) : (s.modEnd e f).outputs = s.outputs := rfl
@[simp] theorem modEnd_orders (e : EndId) (f : EndUnit → EndUnit) : (s.modEnd e f).orders = s.orders := rfl
@[simp] theorem modEnd_events (e : EndId) (f : EndUnit → EndUnit) : (s.modEnd e f).events = s.events := rfl
@[simp] theorem modEnd_revs (e : EndId) (f : EndUnit → EndUnit) : (s.modEnd e f).revs = s.revs := rfl
@[simp] theorem modEnd_mem (e : EndId) (f : EndUnit → EndUnit) : (s.modEnd e f).mem = s.mem := rfl
@[simp] theorem modEnd_hostData (e : EndId) (f : EndUnit → EndUnit) : (s.modEnd e f).hostData = s.hostData := rfl
@[simp] theorem modEnd_ends (e : EndId) (f : EndUnit → EndUnit) : (s.modEnd e f).ends = s.ends.set e (f (s.ends.get e)) := rfl

/-! ### modLine -/

@[simp] theorem modLine_pending (l : LineId) (f : LineUnit → LineUnit) : (s.modLine l f).pending = s.pending := rfl
@[simp] theorem modLine_resetHeld (l : LineId) (f : LineUnit → LineUnit) : (s.modLine l f).resetHeld = s.resetHeld := rfl
@[simp] theorem modLine_part (l : LineId) (f : LineUnit → LineUnit) : (s.modLine l f).part = s.part := rfl
@[simp] theorem modLine_cause (l : LineId) (f : LineUnit → LineUnit) : (s.modLine l f).cause = s.cause := rfl
@[simp] theorem modLine_gpHeld (l : LineId) (f : LineUnit → LineUnit) : (s.modLine l f).gpHeld = s.gpHeld := rfl
@[simp] theorem modLine_ms (l : LineId) (f : LineUnit → LineUnit) : (s.modLine l f).ms = s.ms := rfl
@[simp] theorem modLine_cfg (l : LineId) (f : LineUnit → LineUnit) : (s.modLine l f).cfg = s.cfg := rfl
@[simp] theorem modLine_seqs (l : LineId) (f : LineUnit → LineUnit) : (s.modLine l f).seqs = s.seqs := rfl
@[simp] theorem modLine_ends (l : LineId) (f : LineUnit → LineUnit) : (s.modLine l f).ends = s.ends := rfl
@[simp] theorem modLine_consist (l : LineId) (f : LineUnit → LineUnit) : (s.modLine l f).consist = s.consist := rfl
@[simp] theorem modLine_door (l : LineId) (f : LineUnit → LineUnit) : (s.modLine l f).door = s.door := rfl
@[simp] theorem modLine_heat (l : LineId) (f : LineUnit → LineUnit) : (s.modLine l f).heat = s.heat := rfl
@[simp] theorem modLine_inFlight (l : LineId) (f : LineUnit → LineUnit) : (s.modLine l f).inFlight = s.inFlight := rfl
@[simp] theorem modLine_deliveries (l : LineId) (f : LineUnit → LineUnit) : (s.modLine l f).deliveries = s.deliveries := rfl
@[simp] theorem modLine_inputs (l : LineId) (f : LineUnit → LineUnit) : (s.modLine l f).inputs = s.inputs := rfl
@[simp] theorem modLine_outputs (l : LineId) (f : LineUnit → LineUnit) : (s.modLine l f).outputs = s.outputs := rfl
@[simp] theorem modLine_orders (l : LineId) (f : LineUnit → LineUnit) : (s.modLine l f).orders = s.orders := rfl
@[simp] theorem modLine_events (l : LineId) (f : LineUnit → LineUnit) : (s.modLine l f).events = s.events := rfl
@[simp] theorem modLine_revs (l : LineId) (f : LineUnit → LineUnit) : (s.modLine l f).revs = s.revs := rfl
@[simp] theorem modLine_mem (l : LineId) (f : LineUnit → LineUnit) : (s.modLine l f).mem = s.mem := rfl
@[simp] theorem modLine_hostData (l : LineId) (f : LineUnit → LineUnit) : (s.modLine l f).hostData = s.hostData := rfl
@[simp] theorem modLine_lines (l : LineId) (f : LineUnit → LineUnit) : (s.modLine l f).lines = s.lines.set l (f (s.lines.get l)) := rfl

/-! ### modConsist -/

@[simp] theorem modConsist_pending (f : ConsistUnit → ConsistUnit) : (s.modConsist f).pending = s.pending := rfl
@[simp] theorem modConsist_resetHeld (f : ConsistUnit → ConsistUnit) : (s.modConsist f).resetHeld = s.resetHeld := rfl
@[simp] theorem modConsist_part (f : ConsistUnit → ConsistUnit) : (s.modConsist f).part = s.part := rfl
@[simp] theorem modConsist_cause (f : ConsistUnit → ConsistUnit) : (s.modConsist f).cause = s.cause := rfl
@[simp] theorem modConsist_gpHeld (f : ConsistUnit → ConsistUnit) : (s.modConsist f).gpHeld = s.gpHeld := rfl
@[simp] theorem modConsist_ms (f : ConsistUnit → ConsistUnit) : (s.modConsist f).ms = s.ms := rfl
@[simp] theorem modConsist_cfg (f : ConsistUnit → ConsistUnit) : (s.modConsist f).cfg = s.cfg := rfl
@[simp] theorem modConsist_seqs (f : ConsistUnit → ConsistUnit) : (s.modConsist f).seqs = s.seqs := rfl
@[simp] theorem modConsist_lines (f : ConsistUnit → ConsistUnit) : (s.modConsist f).lines = s.lines := rfl
@[simp] theorem modConsist_ends (f : ConsistUnit → ConsistUnit) : (s.modConsist f).ends = s.ends := rfl
@[simp] theorem modConsist_door (f : ConsistUnit → ConsistUnit) : (s.modConsist f).door = s.door := rfl
@[simp] theorem modConsist_heat (f : ConsistUnit → ConsistUnit) : (s.modConsist f).heat = s.heat := rfl
@[simp] theorem modConsist_inFlight (f : ConsistUnit → ConsistUnit) : (s.modConsist f).inFlight = s.inFlight := rfl
@[simp] theorem modConsist_deliveries (f : ConsistUnit → ConsistUnit) : (s.modConsist f).deliveries = s.deliveries := rfl
@[simp] theorem modConsist_inputs (f : ConsistUnit → ConsistUnit) : (s.modConsist f).inputs = s.inputs := rfl
@[simp] theorem modConsist_outputs (f : ConsistUnit → ConsistUnit) : (s.modConsist f).outputs = s.outputs := rfl
@[simp] theorem modConsist_orders (f : ConsistUnit → ConsistUnit) : (s.modConsist f).orders = s.orders := rfl
@[simp] theorem modConsist_events (f : ConsistUnit → ConsistUnit) : (s.modConsist f).events = s.events := rfl
@[simp] theorem modConsist_revs (f : ConsistUnit → ConsistUnit) : (s.modConsist f).revs = s.revs := rfl
@[simp] theorem modConsist_mem (f : ConsistUnit → ConsistUnit) : (s.modConsist f).mem = s.mem := rfl
@[simp] theorem modConsist_hostData (f : ConsistUnit → ConsistUnit) : (s.modConsist f).hostData = s.hostData := rfl
@[simp] theorem modConsist_consist (f : ConsistUnit → ConsistUnit) : (s.modConsist f).consist = f s.consist := rfl

/-! ### modDoor -/

@[simp] theorem modDoor_pending (f : DoorUnit → DoorUnit) : (s.modDoor f).pending = s.pending := rfl
@[simp] theorem modDoor_resetHeld (f : DoorUnit → DoorUnit) : (s.modDoor f).resetHeld = s.resetHeld := rfl
@[simp] theorem modDoor_part (f : DoorUnit → DoorUnit) : (s.modDoor f).part = s.part := rfl
@[simp] theorem modDoor_cause (f : DoorUnit → DoorUnit) : (s.modDoor f).cause = s.cause := rfl
@[simp] theorem modDoor_gpHeld (f : DoorUnit → DoorUnit) : (s.modDoor f).gpHeld = s.gpHeld := rfl
@[simp] theorem modDoor_ms (f : DoorUnit → DoorUnit) : (s.modDoor f).ms = s.ms := rfl
@[simp] theorem modDoor_cfg (f : DoorUnit → DoorUnit) : (s.modDoor f).cfg = s.cfg := rfl
@[simp] theorem modDoor_seqs (f : DoorUnit → DoorUnit) : (s.modDoor f).seqs = s.seqs := rfl
@[simp] theorem modDoor_lines (f : DoorUnit → DoorUnit) : (s.modDoor f).lines = s.lines := rfl
@[simp] theorem modDoor_ends (f : DoorUnit → DoorUnit) : (s.modDoor f).ends = s.ends := rfl
@[simp] theorem modDoor_consist (f : DoorUnit → DoorUnit) : (s.modDoor f).consist = s.consist := rfl
@[simp] theorem modDoor_heat (f : DoorUnit → DoorUnit) : (s.modDoor f).heat = s.heat := rfl
@[simp] theorem modDoor_inFlight (f : DoorUnit → DoorUnit) : (s.modDoor f).inFlight = s.inFlight := rfl
@[simp] theorem modDoor_deliveries (f : DoorUnit → DoorUnit) : (s.modDoor f).deliveries = s.deliveries := rfl
@[simp] theorem modDoor_inputs (f : DoorUnit → DoorUnit) : (s.modDoor f).inputs = s.inputs := rfl
@[simp] theorem modDoor_outputs (f : DoorUnit → DoorUnit) : (s.modDoor f).outputs = s.outputs := rfl
@[simp] theorem modDoor_orders (f : DoorUnit → DoorUnit) : (s.modDoor f).orders = s.orders := rfl
@[simp] theorem modDoor_events (f : DoorUnit → DoorUnit) : (s.modDoor f).events = s.events := rfl
@[simp] theorem modDoor_revs (f : DoorUnit → DoorUnit) : (s.modDoor f).revs = s.revs := rfl
@[simp] theorem modDoor_mem (f : DoorUnit → DoorUnit) : (s.modDoor f).mem = s.mem := rfl
@[simp] theorem modDoor_hostData (f : DoorUnit → DoorUnit) : (s.modDoor f).hostData = s.hostData := rfl
@[simp] theorem modDoor_door (f : DoorUnit → DoorUnit) : (s.modDoor f).door = f s.door := rfl

/-! ### modHeat -/

@[simp] theorem modHeat_pending (f : HeatUnit → HeatUnit) : (s.modHeat f).pending = s.pending := rfl
@[simp] theorem modHeat_resetHeld (f : HeatUnit → HeatUnit) : (s.modHeat f).resetHeld = s.resetHeld := rfl
@[simp] theorem modHeat_part (f : HeatUnit → HeatUnit) : (s.modHeat f).part = s.part := rfl
@[simp] theorem modHeat_cause (f : HeatUnit → HeatUnit) : (s.modHeat f).cause = s.cause := rfl
@[simp] theorem modHeat_gpHeld (f : HeatUnit → HeatUnit) : (s.modHeat f).gpHeld = s.gpHeld := rfl
@[simp] theorem modHeat_ms (f : HeatUnit → HeatUnit) : (s.modHeat f).ms = s.ms := rfl
@[simp] theorem modHeat_cfg (f : HeatUnit → HeatUnit) : (s.modHeat f).cfg = s.cfg := rfl
@[simp] theorem modHeat_seqs (f : HeatUnit → HeatUnit) : (s.modHeat f).seqs = s.seqs := rfl
@[simp] theorem modHeat_lines (f : HeatUnit → HeatUnit) : (s.modHeat f).lines = s.lines := rfl
@[simp] theorem modHeat_ends (f : HeatUnit → HeatUnit) : (s.modHeat f).ends = s.ends := rfl
@[simp] theorem modHeat_consist (f : HeatUnit → HeatUnit) : (s.modHeat f).consist = s.consist := rfl
@[simp] theorem modHeat_door (f : HeatUnit → HeatUnit) : (s.modHeat f).door = s.door := rfl
@[simp] theorem modHeat_inFlight (f : HeatUnit → HeatUnit) : (s.modHeat f).inFlight = s.inFlight := rfl
@[simp] theorem modHeat_deliveries (f : HeatUnit → HeatUnit) : (s.modHeat f).deliveries = s.deliveries := rfl
@[simp] theorem modHeat_inputs (f : HeatUnit → HeatUnit) : (s.modHeat f).inputs = s.inputs := rfl
@[simp] theorem modHeat_outputs (f : HeatUnit → HeatUnit) : (s.modHeat f).outputs = s.outputs := rfl
@[simp] theorem modHeat_orders (f : HeatUnit → HeatUnit) : (s.modHeat f).orders = s.orders := rfl
@[simp] theorem modHeat_events (f : HeatUnit → HeatUnit) : (s.modHeat f).events = s.events := rfl
@[simp] theorem modHeat_revs (f : HeatUnit → HeatUnit) : (s.modHeat f).revs = s.revs := rfl
@[simp] theorem modHeat_mem (f : HeatUnit → HeatUnit) : (s.modHeat f).mem = s.mem := rfl
@[simp] theorem modHeat_hostData (f : HeatUnit → HeatUnit) : (s.modHeat f).hostData = s.hostData := rfl
@[simp] theorem modHeat_heat (f : HeatUnit → HeatUnit) : (s.modHeat f).heat = f s.heat := rfl

/-! ### modOrders -/

@[simp] theorem modOrders_pending (f : OrderUnit → OrderUnit) : (s.modOrders f).pending = s.pending := rfl
@[simp] theorem modOrders_resetHeld (f : OrderUnit → OrderUnit) : (s.modOrders f).resetHeld = s.resetHeld := rfl
@[simp] theorem modOrders_part (f : OrderUnit → OrderUnit) : (s.modOrders f).part = s.part := rfl
@[simp] theorem modOrders_cause (f : OrderUnit → OrderUnit) : (s.modOrders f).cause = s.cause := rfl
@[simp] theorem modOrders_gpHeld (f : OrderUnit → OrderUnit) : (s.modOrders f).gpHeld = s.gpHeld := rfl
@[simp] theorem modOrders_ms (f : OrderUnit → OrderUnit) : (s.modOrders f).ms = s.ms := rfl
@[simp] theorem modOrders_cfg (f : OrderUnit → OrderUnit) : (s.modOrders f).cfg = s.cfg := rfl
@[simp] theorem modOrders_seqs (f : OrderUnit → OrderUnit) : (s.modOrders f).seqs = s.seqs := rfl
@[simp] theorem modOrders_lines (f : OrderUnit → OrderUnit) : (s.modOrders f).lines = s.lines := rfl
@[simp] theorem modOrders_ends (f : OrderUnit → OrderUnit) : (s.modOrders f).ends = s.ends := rfl
@[simp] theorem modOrders_consist (f : OrderUnit → OrderUnit) : (s.modOrders f).consist = s.consist := rfl
@[simp] theorem modOrders_door (f : OrderUnit → OrderUnit) : (s.modOrders f).door = s.door := rfl
@[simp] theorem modOrders_heat (f : OrderUnit → OrderUnit) : (s.modOrders f).heat = s.heat := rfl
@[simp] theorem modOrders_inFlight (f : OrderUnit → OrderUnit) : (s.modOrders f).inFlight = s.inFlight := rfl
@[simp] theorem modOrders_deliveries (f : OrderUnit → OrderUnit) : (s.modOrders f).deliveries = s.deliveries := rfl
@[simp] theorem modOrders_inputs (f : OrderUnit → OrderUnit) : (s.modOrders f).inputs = s.inputs := rfl
@[simp] theorem modOrders_outputs (f : OrderUnit → OrderUnit) : (s.modOrders f).outputs = s.outputs := rfl
@[simp] theorem modOrders_events (f : OrderUnit → OrderUnit) : (s.modOrders f).events = s.events := rfl
@[simp] theorem modOrders_revs (f : OrderUnit → OrderUnit) : (s.modOrders f).revs = s.revs := rfl
@[simp] theorem modOrders_mem (f : OrderUnit → OrderUnit) : (s.modOrders f).mem = s.mem := rfl
@[simp] theorem modOrders_hostData (f : OrderUnit → OrderUnit) : (s.modOrders f).hostData = s.hostData := rfl
@[simp] theorem modOrders_orders (f : OrderUnit → OrderUnit) : (s.modOrders f).orders = f s.orders := rfl

/-! ### modEvents -/

@[simp] theorem modEvents_pending (f : EventUnit → EventUnit) : (s.modEvents f).pending = s.pending := rfl
@[simp] theorem modEvents_resetHeld (f : EventUnit → EventUnit) : (s.modEvents f).resetHeld = s.resetHeld := rfl
@[simp] theorem modEvents_part (f : EventUnit → EventUnit) : (s.modEvents f).part = s.part := rfl
@[simp] theorem modEvents_cause (f : EventUnit → EventUnit) : (s.modEvents f).cause = s.cause := rfl
@[simp] theorem modEvents_gpHeld (f : EventUnit → EventUnit) : (s.modEvents f).gpHeld = s.gpHeld := rfl
@[simp] theorem modEvents_ms (f : EventUnit → EventUnit) : (s.modEvents f).ms = s.ms := rfl
@[simp] theorem modEvents_cfg (f : EventUnit → EventUnit) : (s.modEvents f).cfg = s.cfg := rfl
@[simp] theorem modEvents_seqs (f : EventUnit → EventUnit) : (s.modEvents f).seqs = s.seqs := rfl
@[simp] theorem modEvents_lines (f : EventUnit → EventUnit) : (s.modEvents f).lines = s.lines := rfl
@[simp] theorem modEvents_ends (f : EventUnit → EventUnit) : (s.modEvents f).ends = s.ends := rfl
@[simp] theorem modEvents_consist (f : EventUnit → EventUnit) : (s.modEvents f).consist = s.consist := rfl
@[simp] theorem modEvents_door (f : EventUnit → EventUnit) : (s.modEvents f).door = s.door := rfl
@[simp] theorem modEvents_heat (f : EventUnit → EventUnit) : (s.modEvents f).heat = s.heat := rfl
@[simp] theorem modEvents_inFlight (f : EventUnit → EventUnit) : (s.modEvents f).inFlight = s.inFlight := rfl
@[simp] theorem modEvents_deliveries (f : EventUnit → EventUnit) : (s.modEvents f).deliveries = s.deliveries := rfl
@[simp] theorem modEvents_inputs (f : EventUnit → EventUnit) : (s.modEvents f).inputs = s.inputs := rfl
@[simp] theorem modEvents_outputs (f : EventUnit → EventUnit) : (s.modEvents f).outputs = s.outputs := rfl
@[simp] theorem modEvents_orders (f : EventUnit → EventUnit) : (s.modEvents f).orders = s.orders := rfl
@[simp] theorem modEvents_revs (f : EventUnit → EventUnit) : (s.modEvents f).revs = s.revs := rfl
@[simp] theorem modEvents_mem (f : EventUnit → EventUnit) : (s.modEvents f).mem = s.mem := rfl
@[simp] theorem modEvents_hostData (f : EventUnit → EventUnit) : (s.modEvents f).hostData = s.hostData := rfl
@[simp] theorem modEvents_events (f : EventUnit → EventUnit) : (s.modEvents f).events = f s.events := rfl

/-! ### modInput -/

@[simp] theorem modInput_pending (i : Input) (f : InputRec → InputRec) : (s.modInput i f).pending = s.pending := rfl
@[simp] theorem modInput_resetHeld (i : Input) (f : InputRec → InputRec) : (s.modInput i f).resetHeld = s.resetHeld := rfl
@[simp] theorem modInput_part (i : Input) (f : InputRec → InputRec) : (s.modInput i f).part = s.part := rfl
@[simp] theorem modInput_cause (i : Input) (f : InputRec → InputRec) : (s.modInput i f).cause = s.cause := rfl
@[simp] theorem modInput_gpHeld (i : Input) (f : InputRec → InputRec) : (s.modInput i f).gpHeld = s.gpHeld := rfl
@[simp] theorem modInput_ms (i : Input) (f : InputRec → InputRec) : (s.modInput i f).ms = s.ms := rfl
@[simp] theorem modInput_cfg (i : Input) (f : InputRec → InputRec) : (s.modInput i f).cfg = s.cfg := rfl
@[simp] theorem modInput_seqs (i : Input) (f : InputRec → InputRec) : (s.modInput i f).seqs = s.seqs := rfl
@[simp] theorem modInput_lines (i : Input) (f : InputRec → InputRec) : (s.modInput i f).lines = s.lines := rfl
@[simp] theorem modInput_ends (i : Input) (f : InputRec → InputRec) : (s.modInput i f).ends = s.ends := rfl
@[simp] theorem modInput_consist (i : Input) (f : InputRec → InputRec) : (s.modInput i f).consist = s.consist := rfl
@[simp] theorem modInput_door (i : Input) (f : InputRec → InputRec) : (s.modInput i f).door = s.door := rfl
@[simp] theorem modInput_heat (i : Input) (f : InputRec → InputRec) : (s.modInput i f).heat = s.heat := rfl
@[simp] theorem modInput_inFlight (i : Input) (f : InputRec → InputRec) : (s.modInput i f).inFlight = s.inFlight := rfl
@[simp] theorem modInput_deliveries (i : Input) (f : InputRec → InputRec) : (s.modInput i f).deliveries = s.deliveries := rfl
@[simp] theorem modInput_outputs (i : Input) (f : InputRec → InputRec) : (s.modInput i f).outputs = s.outputs := rfl
@[simp] theorem modInput_orders (i : Input) (f : InputRec → InputRec) : (s.modInput i f).orders = s.orders := rfl
@[simp] theorem modInput_events (i : Input) (f : InputRec → InputRec) : (s.modInput i f).events = s.events := rfl
@[simp] theorem modInput_revs (i : Input) (f : InputRec → InputRec) : (s.modInput i f).revs = s.revs := rfl
@[simp] theorem modInput_mem (i : Input) (f : InputRec → InputRec) : (s.modInput i f).mem = s.mem := rfl
@[simp] theorem modInput_hostData (i : Input) (f : InputRec → InputRec) : (s.modInput i f).hostData = s.hostData := rfl
@[simp] theorem modInput_inputs (i : Input) (f : InputRec → InputRec) : (s.modInput i f).inputs = s.inputs.set i (f (s.inputs.get i)) := rfl

/-! ### modMem -/

@[simp] theorem modMem_pending (f : Memory → Memory) : (s.modMem f).pending = s.pending := rfl
@[simp] theorem modMem_resetHeld (f : Memory → Memory) : (s.modMem f).resetHeld = s.resetHeld := rfl
@[simp] theorem modMem_part (f : Memory → Memory) : (s.modMem f).part = s.part := rfl
@[simp] theorem modMem_cause (f : Memory → Memory) : (s.modMem f).cause = s.cause := rfl
@[simp] theorem modMem_gpHeld (f : Memory → Memory) : (s.modMem f).gpHeld = s.gpHeld := rfl
@[simp] theorem modMem_ms (f : Memory → Memory) : (s.modMem f).ms = s.ms := rfl
@[simp] theorem modMem_cfg (f : Memory → Memory) : (s.modMem f).cfg = s.cfg := rfl
@[simp] theorem modMem_seqs (f : Memory → Memory) : (s.modMem f).seqs = s.seqs := rfl
@[simp] theorem modMem_lines (f : Memory → Memory) : (s.modMem f).lines = s.lines := rfl
@[simp] theorem modMem_ends (f : Memory → Memory) : (s.modMem f).ends = s.ends := rfl
@[simp] theorem modMem_consist (f : Memory → Memory) : (s.modMem f).consist = s.consist := rfl
@[simp] theorem modMem_door (f : Memory → Memory) : (s.modMem f).door = s.door := rfl
@[simp] theorem modMem_heat (f : Memory → Memory) : (s.modMem f).heat = s.heat := rfl
@[simp] theorem modMem_inFlight (f : Memory → Memory) : (s.modMem f).inFlight = s.inFlight := rfl
@[simp] theorem modMem_deliveries (f : Memory → Memory) : (s.modMem f).deliveries = s.deliveries := rfl
@[simp] theorem modMem_inputs (f : Memory → Memory) : (s.modMem f).inputs = s.inputs := rfl
@[simp] theorem modMem_outputs (f : Memory → Memory) : (s.modMem f).outputs = s.outputs := rfl
@[simp] theorem modMem_orders (f : Memory → Memory) : (s.modMem f).orders = s.orders := rfl
@[simp] theorem modMem_events (f : Memory → Memory) : (s.modMem f).events = s.events := rfl
@[simp] theorem modMem_revs (f : Memory → Memory) : (s.modMem f).revs = s.revs := rfl
@[simp] theorem modMem_hostData (f : Memory → Memory) : (s.modMem f).hostData = s.hostData := rfl
@[simp] theorem modMem_mem (f : Memory → Memory) : (s.modMem f).mem = f s.mem := rfl

/-! ### setRev -/

@[simp] theorem setRev_pending (r : Rec) (v : Word) : (s.setRev r v).pending = s.pending := rfl
@[simp] theorem setRev_resetHeld (r : Rec) (v : Word) : (s.setRev r v).resetHeld = s.resetHeld := rfl
@[simp] theorem setRev_part (r : Rec) (v : Word) : (s.setRev r v).part = s.part := rfl
@[simp] theorem setRev_cause (r : Rec) (v : Word) : (s.setRev r v).cause = s.cause := rfl
@[simp] theorem setRev_gpHeld (r : Rec) (v : Word) : (s.setRev r v).gpHeld = s.gpHeld := rfl
@[simp] theorem setRev_ms (r : Rec) (v : Word) : (s.setRev r v).ms = s.ms := rfl
@[simp] theorem setRev_cfg (r : Rec) (v : Word) : (s.setRev r v).cfg = s.cfg := rfl
@[simp] theorem setRev_seqs (r : Rec) (v : Word) : (s.setRev r v).seqs = s.seqs := rfl
@[simp] theorem setRev_lines (r : Rec) (v : Word) : (s.setRev r v).lines = s.lines := rfl
@[simp] theorem setRev_ends (r : Rec) (v : Word) : (s.setRev r v).ends = s.ends := rfl
@[simp] theorem setRev_consist (r : Rec) (v : Word) : (s.setRev r v).consist = s.consist := rfl
@[simp] theorem setRev_door (r : Rec) (v : Word) : (s.setRev r v).door = s.door := rfl
@[simp] theorem setRev_heat (r : Rec) (v : Word) : (s.setRev r v).heat = s.heat := rfl
@[simp] theorem setRev_inFlight (r : Rec) (v : Word) : (s.setRev r v).inFlight = s.inFlight := rfl
@[simp] theorem setRev_deliveries (r : Rec) (v : Word) : (s.setRev r v).deliveries = s.deliveries := rfl
@[simp] theorem setRev_inputs (r : Rec) (v : Word) : (s.setRev r v).inputs = s.inputs := rfl
@[simp] theorem setRev_outputs (r : Rec) (v : Word) : (s.setRev r v).outputs = s.outputs := rfl
@[simp] theorem setRev_orders (r : Rec) (v : Word) : (s.setRev r v).orders = s.orders := rfl
@[simp] theorem setRev_events (r : Rec) (v : Word) : (s.setRev r v).events = s.events := rfl
@[simp] theorem setRev_mem (r : Rec) (v : Word) : (s.setRev r v).mem = s.mem := rfl
@[simp] theorem setRev_hostData (r : Rec) (v : Word) : (s.setRev r v).hostData = s.hostData := rfl
@[simp] theorem setRev_revs (r : Rec) (v : Word) : (s.setRev r v).revs = s.revs.set r.idx v := rfl

/-! ### setPending -/

@[simp] theorem setPending_pending (c : EventClass) (v : Bool) : (s.setPending c v).pending = s.pending := rfl
@[simp] theorem setPending_resetHeld (c : EventClass) (v : Bool) : (s.setPending c v).resetHeld = s.resetHeld := rfl
@[simp] theorem setPending_part (c : EventClass) (v : Bool) : (s.setPending c v).part = s.part := rfl
@[simp] theorem setPending_cause (c : EventClass) (v : Bool) : (s.setPending c v).cause = s.cause := rfl
@[simp] theorem setPending_gpHeld (c : EventClass) (v : Bool) : (s.setPending c v).gpHeld = s.gpHeld := rfl
@[simp] theorem setPending_ms (c : EventClass) (v : Bool) : (s.setPending c v).ms = s.ms := rfl
@[simp] theorem setPending_cfg (c : EventClass) (v : Bool) : (s.setPending c v).cfg = s.cfg := rfl
@[simp] theorem setPending_seqs (c : EventClass) (v : Bool) : (s.setPending c v).seqs = s.seqs := rfl
@[simp] theorem setPending_lines (c : EventClass) (v : Bool) : (s.setPending c v).lines = s.lines := rfl
@[simp] theorem setPending_ends (c : EventClass) (v : Bool) : (s.setPending c v).ends = s.ends := rfl
@[simp] theorem setPending_consist (c : EventClass) (v : Bool) : (s.setPending c v).consist = s.consist := rfl
@[simp] theorem setPending_door (c : EventClass) (v : Bool) : (s.setPending c v).door = s.door := rfl
@[simp] theorem setPending_heat (c : EventClass) (v : Bool) : (s.setPending c v).heat = s.heat := rfl
@[simp] theorem setPending_inFlight (c : EventClass) (v : Bool) : (s.setPending c v).inFlight = s.inFlight := rfl
@[simp] theorem setPending_deliveries (c : EventClass) (v : Bool) : (s.setPending c v).deliveries = s.deliveries := rfl
@[simp] theorem setPending_inputs (c : EventClass) (v : Bool) : (s.setPending c v).inputs = s.inputs := rfl
@[simp] theorem setPending_outputs (c : EventClass) (v : Bool) : (s.setPending c v).outputs = s.outputs := rfl
@[simp] theorem setPending_orders (c : EventClass) (v : Bool) : (s.setPending c v).orders = s.orders := rfl
@[simp] theorem setPending_revs (c : EventClass) (v : Bool) : (s.setPending c v).revs = s.revs := rfl
@[simp] theorem setPending_mem (c : EventClass) (v : Bool) : (s.setPending c v).mem = s.mem := rfl
@[simp] theorem setPending_hostData (c : EventClass) (v : Bool) : (s.setPending c v).hostData = s.hostData := rfl
@[simp] theorem setPending_events (c : EventClass) (v : Bool) : (s.setPending c v).events = { s.events with flags := s.events.flags.set c.idx v } := rfl

/-! ### raise -/

@[simp] theorem raise_pending (c : EventClass) : (s.raise c).pending = s.pending := rfl
@[simp] theorem raise_resetHeld (c : EventClass) : (s.raise c).resetHeld = s.resetHeld := rfl
@[simp] theorem raise_part (c : EventClass) : (s.raise c).part = s.part := rfl
@[simp] theorem raise_cause (c : EventClass) : (s.raise c).cause = s.cause := rfl
@[simp] theorem raise_gpHeld (c : EventClass) : (s.raise c).gpHeld = s.gpHeld := rfl
@[simp] theorem raise_ms (c : EventClass) : (s.raise c).ms = s.ms := rfl
@[simp] theorem raise_cfg (c : EventClass) : (s.raise c).cfg = s.cfg := rfl
@[simp] theorem raise_seqs (c : EventClass) : (s.raise c).seqs = s.seqs := rfl
@[simp] theorem raise_lines (c : EventClass) : (s.raise c).lines = s.lines := rfl
@[simp] theorem raise_ends (c : EventClass) : (s.raise c).ends = s.ends := rfl
@[simp] theorem raise_consist (c : EventClass) : (s.raise c).consist = s.consist := rfl
@[simp] theorem raise_door (c : EventClass) : (s.raise c).door = s.door := rfl
@[simp] theorem raise_heat (c : EventClass) : (s.raise c).heat = s.heat := rfl
@[simp] theorem raise_inFlight (c : EventClass) : (s.raise c).inFlight = s.inFlight := rfl
@[simp] theorem raise_deliveries (c : EventClass) : (s.raise c).deliveries = s.deliveries := rfl
@[simp] theorem raise_inputs (c : EventClass) : (s.raise c).inputs = s.inputs := rfl
@[simp] theorem raise_outputs (c : EventClass) : (s.raise c).outputs = s.outputs := rfl
@[simp] theorem raise_orders (c : EventClass) : (s.raise c).orders = s.orders := rfl
@[simp] theorem raise_revs (c : EventClass) : (s.raise c).revs = s.revs := rfl
@[simp] theorem raise_mem (c : EventClass) : (s.raise c).mem = s.mem := rfl
@[simp] theorem raise_hostData (c : EventClass) : (s.raise c).hostData = s.hostData := rfl
@[simp] theorem raise_events (c : EventClass) : (s.raise c).events = { s.events with flags := s.events.flags.set c.idx true } := rfl

/-! ### setBlockStatus -/

@[simp] theorem setBlockStatus_pending (b : Fin 16) (v : Word) : (s.setBlockStatus b v).pending = s.pending := rfl
@[simp] theorem setBlockStatus_resetHeld (b : Fin 16) (v : Word) : (s.setBlockStatus b v).resetHeld = s.resetHeld := rfl
@[simp] theorem setBlockStatus_part (b : Fin 16) (v : Word) : (s.setBlockStatus b v).part = s.part := rfl
@[simp] theorem setBlockStatus_cause (b : Fin 16) (v : Word) : (s.setBlockStatus b v).cause = s.cause := rfl
@[simp] theorem setBlockStatus_gpHeld (b : Fin 16) (v : Word) : (s.setBlockStatus b v).gpHeld = s.gpHeld := rfl
@[simp] theorem setBlockStatus_ms (b : Fin 16) (v : Word) : (s.setBlockStatus b v).ms = s.ms := rfl
@[simp] theorem setBlockStatus_cfg (b : Fin 16) (v : Word) : (s.setBlockStatus b v).cfg = s.cfg := rfl
@[simp] theorem setBlockStatus_seqs (b : Fin 16) (v : Word) : (s.setBlockStatus b v).seqs = s.seqs := rfl
@[simp] theorem setBlockStatus_lines (b : Fin 16) (v : Word) : (s.setBlockStatus b v).lines = s.lines := rfl
@[simp] theorem setBlockStatus_ends (b : Fin 16) (v : Word) : (s.setBlockStatus b v).ends = s.ends := rfl
@[simp] theorem setBlockStatus_consist (b : Fin 16) (v : Word) : (s.setBlockStatus b v).consist = s.consist := rfl
@[simp] theorem setBlockStatus_door (b : Fin 16) (v : Word) : (s.setBlockStatus b v).door = s.door := rfl
@[simp] theorem setBlockStatus_heat (b : Fin 16) (v : Word) : (s.setBlockStatus b v).heat = s.heat := rfl
@[simp] theorem setBlockStatus_inFlight (b : Fin 16) (v : Word) : (s.setBlockStatus b v).inFlight = s.inFlight := rfl
@[simp] theorem setBlockStatus_deliveries (b : Fin 16) (v : Word) : (s.setBlockStatus b v).deliveries = s.deliveries := rfl
@[simp] theorem setBlockStatus_inputs (b : Fin 16) (v : Word) : (s.setBlockStatus b v).inputs = s.inputs := rfl
@[simp] theorem setBlockStatus_outputs (b : Fin 16) (v : Word) : (s.setBlockStatus b v).outputs = s.outputs := rfl
@[simp] theorem setBlockStatus_orders (b : Fin 16) (v : Word) : (s.setBlockStatus b v).orders = s.orders := rfl
@[simp] theorem setBlockStatus_events (b : Fin 16) (v : Word) : (s.setBlockStatus b v).events = s.events := rfl
@[simp] theorem setBlockStatus_revs (b : Fin 16) (v : Word) : (s.setBlockStatus b v).revs = s.revs := rfl
@[simp] theorem setBlockStatus_hostData (b : Fin 16) (v : Word) : (s.setBlockStatus b v).hostData = s.hostData := rfl
@[simp] theorem setBlockStatus_mem (b : Fin 16) (v : Word) : (s.setBlockStatus b v).mem = s.mem.writeWords (blockBase b) [v] := rfl

/-! ### touchAgain -/

@[simp] theorem touchAgain_pending (r : Rec) : (s.touchAgain r).pending = s.pending := rfl
@[simp] theorem touchAgain_resetHeld (r : Rec) : (s.touchAgain r).resetHeld = s.resetHeld := rfl
@[simp] theorem touchAgain_part (r : Rec) : (s.touchAgain r).part = s.part := rfl
@[simp] theorem touchAgain_cause (r : Rec) : (s.touchAgain r).cause = s.cause := rfl
@[simp] theorem touchAgain_gpHeld (r : Rec) : (s.touchAgain r).gpHeld = s.gpHeld := rfl
@[simp] theorem touchAgain_ms (r : Rec) : (s.touchAgain r).ms = s.ms := rfl
@[simp] theorem touchAgain_cfg (r : Rec) : (s.touchAgain r).cfg = s.cfg := rfl
@[simp] theorem touchAgain_seqs (r : Rec) : (s.touchAgain r).seqs = s.seqs := rfl
@[simp] theorem touchAgain_lines (r : Rec) : (s.touchAgain r).lines = s.lines := rfl
@[simp] theorem touchAgain_ends (r : Rec) : (s.touchAgain r).ends = s.ends := rfl
@[simp] theorem touchAgain_consist (r : Rec) : (s.touchAgain r).consist = s.consist := rfl
@[simp] theorem touchAgain_door (r : Rec) : (s.touchAgain r).door = s.door := rfl
@[simp] theorem touchAgain_heat (r : Rec) : (s.touchAgain r).heat = s.heat := rfl
@[simp] theorem touchAgain_inFlight (r : Rec) : (s.touchAgain r).inFlight = s.inFlight := rfl
@[simp] theorem touchAgain_deliveries (r : Rec) : (s.touchAgain r).deliveries = s.deliveries := rfl
@[simp] theorem touchAgain_inputs (r : Rec) : (s.touchAgain r).inputs = s.inputs := rfl
@[simp] theorem touchAgain_outputs (r : Rec) : (s.touchAgain r).outputs = s.outputs := rfl
@[simp] theorem touchAgain_orders (r : Rec) : (s.touchAgain r).orders = s.orders := rfl
@[simp] theorem touchAgain_events (r : Rec) : (s.touchAgain r).events = s.events := rfl
@[simp] theorem touchAgain_mem (r : Rec) : (s.touchAgain r).mem = s.mem := rfl
@[simp] theorem touchAgain_hostData (r : Rec) : (s.touchAgain r).hostData = s.hostData := rfl

/-! ### writeRecord -/

@[simp] theorem writeRecord_pending (r : Rec) : (s.writeRecord r).pending = s.pending := rfl
@[simp] theorem writeRecord_resetHeld (r : Rec) : (s.writeRecord r).resetHeld = s.resetHeld := rfl
@[simp] theorem writeRecord_part (r : Rec) : (s.writeRecord r).part = s.part := rfl
@[simp] theorem writeRecord_cause (r : Rec) : (s.writeRecord r).cause = s.cause := rfl
@[simp] theorem writeRecord_gpHeld (r : Rec) : (s.writeRecord r).gpHeld = s.gpHeld := rfl
@[simp] theorem writeRecord_ms (r : Rec) : (s.writeRecord r).ms = s.ms := rfl
@[simp] theorem writeRecord_cfg (r : Rec) : (s.writeRecord r).cfg = s.cfg := rfl
@[simp] theorem writeRecord_seqs (r : Rec) : (s.writeRecord r).seqs = s.seqs := rfl
@[simp] theorem writeRecord_lines (r : Rec) : (s.writeRecord r).lines = s.lines := rfl
@[simp] theorem writeRecord_ends (r : Rec) : (s.writeRecord r).ends = s.ends := rfl
@[simp] theorem writeRecord_consist (r : Rec) : (s.writeRecord r).consist = s.consist := rfl
@[simp] theorem writeRecord_door (r : Rec) : (s.writeRecord r).door = s.door := rfl
@[simp] theorem writeRecord_heat (r : Rec) : (s.writeRecord r).heat = s.heat := rfl
@[simp] theorem writeRecord_inFlight (r : Rec) : (s.writeRecord r).inFlight = s.inFlight := rfl
@[simp] theorem writeRecord_deliveries (r : Rec) : (s.writeRecord r).deliveries = s.deliveries := rfl
@[simp] theorem writeRecord_inputs (r : Rec) : (s.writeRecord r).inputs = s.inputs := rfl
@[simp] theorem writeRecord_outputs (r : Rec) : (s.writeRecord r).outputs = s.outputs := rfl
@[simp] theorem writeRecord_orders (r : Rec) : (s.writeRecord r).orders = s.orders := rfl
@[simp] theorem writeRecord_events (r : Rec) : (s.writeRecord r).events = s.events := rfl
@[simp] theorem writeRecord_revs (r : Rec) : (s.writeRecord r).revs = s.revs := rfl
@[simp] theorem writeRecord_hostData (r : Rec) : (s.writeRecord r).hostData = s.hostData := rfl

/-! ### writeOutcome -/

@[simp] theorem writeOutcome_pending (b : Fin 16) (r : ResultCode) (ws : List Word) : (s.writeOutcome b r ws).pending = s.pending := rfl
@[simp] theorem writeOutcome_resetHeld (b : Fin 16) (r : ResultCode) (ws : List Word) : (s.writeOutcome b r ws).resetHeld = s.resetHeld := rfl
@[simp] theorem writeOutcome_part (b : Fin 16) (r : ResultCode) (ws : List Word) : (s.writeOutcome b r ws).part = s.part := rfl
@[simp] theorem writeOutcome_cause (b : Fin 16) (r : ResultCode) (ws : List Word) : (s.writeOutcome b r ws).cause = s.cause := rfl
@[simp] theorem writeOutcome_gpHeld (b : Fin 16) (r : ResultCode) (ws : List Word) : (s.writeOutcome b r ws).gpHeld = s.gpHeld := rfl
@[simp] theorem writeOutcome_ms (b : Fin 16) (r : ResultCode) (ws : List Word) : (s.writeOutcome b r ws).ms = s.ms := rfl
@[simp] theorem writeOutcome_cfg (b : Fin 16) (r : ResultCode) (ws : List Word) : (s.writeOutcome b r ws).cfg = s.cfg := rfl
@[simp] theorem writeOutcome_seqs (b : Fin 16) (r : ResultCode) (ws : List Word) : (s.writeOutcome b r ws).seqs = s.seqs := rfl
@[simp] theorem writeOutcome_lines (b : Fin 16) (r : ResultCode) (ws : List Word) : (s.writeOutcome b r ws).lines = s.lines := rfl
@[simp] theorem writeOutcome_ends (b : Fin 16) (r : ResultCode) (ws : List Word) : (s.writeOutcome b r ws).ends = s.ends := rfl
@[simp] theorem writeOutcome_consist (b : Fin 16) (r : ResultCode) (ws : List Word) : (s.writeOutcome b r ws).consist = s.consist := rfl
@[simp] theorem writeOutcome_door (b : Fin 16) (r : ResultCode) (ws : List Word) : (s.writeOutcome b r ws).door = s.door := rfl
@[simp] theorem writeOutcome_heat (b : Fin 16) (r : ResultCode) (ws : List Word) : (s.writeOutcome b r ws).heat = s.heat := rfl
@[simp] theorem writeOutcome_inFlight (b : Fin 16) (r : ResultCode) (ws : List Word) : (s.writeOutcome b r ws).inFlight = s.inFlight := rfl
@[simp] theorem writeOutcome_deliveries (b : Fin 16) (r : ResultCode) (ws : List Word) : (s.writeOutcome b r ws).deliveries = s.deliveries := rfl
@[simp] theorem writeOutcome_inputs (b : Fin 16) (r : ResultCode) (ws : List Word) : (s.writeOutcome b r ws).inputs = s.inputs := rfl
@[simp] theorem writeOutcome_outputs (b : Fin 16) (r : ResultCode) (ws : List Word) : (s.writeOutcome b r ws).outputs = s.outputs := rfl
@[simp] theorem writeOutcome_orders (b : Fin 16) (r : ResultCode) (ws : List Word) : (s.writeOutcome b r ws).orders = s.orders := rfl
@[simp] theorem writeOutcome_events (b : Fin 16) (r : ResultCode) (ws : List Word) : (s.writeOutcome b r ws).events = s.events := rfl
@[simp] theorem writeOutcome_revs (b : Fin 16) (r : ResultCode) (ws : List Word) : (s.writeOutcome b r ws).revs = s.revs := rfl
@[simp] theorem writeOutcome_hostData (b : Fin 16) (r : ResultCode) (ws : List Word) : (s.writeOutcome b r ws).hostData = s.hostData := rfl

/-! ### touch -/

@[simp] theorem touch_pending (r : Rec) : (s.touch r).pending = s.pending := by unfold touch; split <;> rfl
@[simp] theorem touch_resetHeld (r : Rec) : (s.touch r).resetHeld = s.resetHeld := by unfold touch; split <;> rfl
@[simp] theorem touch_part (r : Rec) : (s.touch r).part = s.part := by unfold touch; split <;> rfl
@[simp] theorem touch_cause (r : Rec) : (s.touch r).cause = s.cause := by unfold touch; split <;> rfl
@[simp] theorem touch_gpHeld (r : Rec) : (s.touch r).gpHeld = s.gpHeld := by unfold touch; split <;> rfl
@[simp] theorem touch_ms (r : Rec) : (s.touch r).ms = s.ms := by unfold touch; split <;> rfl
@[simp] theorem touch_cfg (r : Rec) : (s.touch r).cfg = s.cfg := by unfold touch; split <;> rfl
@[simp] theorem touch_seqs (r : Rec) : (s.touch r).seqs = s.seqs := by unfold touch; split <;> rfl
@[simp] theorem touch_lines (r : Rec) : (s.touch r).lines = s.lines := by unfold touch; split <;> rfl
@[simp] theorem touch_ends (r : Rec) : (s.touch r).ends = s.ends := by unfold touch; split <;> rfl
@[simp] theorem touch_consist (r : Rec) : (s.touch r).consist = s.consist := by unfold touch; split <;> rfl
@[simp] theorem touch_door (r : Rec) : (s.touch r).door = s.door := by unfold touch; split <;> rfl
@[simp] theorem touch_heat (r : Rec) : (s.touch r).heat = s.heat := by unfold touch; split <;> rfl
@[simp] theorem touch_inFlight (r : Rec) : (s.touch r).inFlight = s.inFlight := by unfold touch; split <;> rfl
@[simp] theorem touch_deliveries (r : Rec) : (s.touch r).deliveries = s.deliveries := by unfold touch; split <;> rfl
@[simp] theorem touch_inputs (r : Rec) : (s.touch r).inputs = s.inputs := by unfold touch; split <;> rfl
@[simp] theorem touch_outputs (r : Rec) : (s.touch r).outputs = s.outputs := by unfold touch; split <;> rfl
@[simp] theorem touch_orders (r : Rec) : (s.touch r).orders = s.orders := by unfold touch; split <;> rfl
@[simp] theorem touch_events (r : Rec) : (s.touch r).events = s.events := by unfold touch; split <;> rfl
@[simp] theorem touch_mem (r : Rec) : (s.touch r).mem = s.mem := by unfold touch; split <;> rfl
@[simp] theorem touch_hostData (r : Rec) : (s.touch r).hostData = s.hostData := by unfold touch; split <;> rfl

/-! ### applyImage -/

@[simp] theorem applyImage_pending (c x : BitVec 12) : (s.applyImage c x).pending = s.pending := by
  simp only [applyImage]; split <;> rfl
@[simp] theorem applyImage_resetHeld (c x : BitVec 12) : (s.applyImage c x).resetHeld = s.resetHeld := by
  simp only [applyImage]; split <;> rfl
@[simp] theorem applyImage_part (c x : BitVec 12) : (s.applyImage c x).part = s.part := by
  simp only [applyImage]; split <;> rfl
@[simp] theorem applyImage_cause (c x : BitVec 12) : (s.applyImage c x).cause = s.cause := by
  simp only [applyImage]; split <;> rfl
@[simp] theorem applyImage_gpHeld (c x : BitVec 12) : (s.applyImage c x).gpHeld = s.gpHeld := by
  simp only [applyImage]; split <;> rfl
@[simp] theorem applyImage_ms (c x : BitVec 12) : (s.applyImage c x).ms = s.ms := by
  simp only [applyImage]; split <;> rfl
@[simp] theorem applyImage_cfg (c x : BitVec 12) : (s.applyImage c x).cfg = s.cfg := by
  simp only [applyImage]; split <;> rfl
@[simp] theorem applyImage_seqs (c x : BitVec 12) : (s.applyImage c x).seqs = s.seqs := by
  simp only [applyImage]; split <;> rfl
@[simp] theorem applyImage_lines (c x : BitVec 12) : (s.applyImage c x).lines = s.lines := by
  simp only [applyImage]; split <;> rfl
@[simp] theorem applyImage_ends (c x : BitVec 12) : (s.applyImage c x).ends = s.ends := by
  simp only [applyImage]; split <;> rfl
@[simp] theorem applyImage_consist (c x : BitVec 12) : (s.applyImage c x).consist = s.consist := by
  simp only [applyImage]; split <;> rfl
@[simp] theorem applyImage_door (c x : BitVec 12) : (s.applyImage c x).door = s.door := by
  simp only [applyImage]; split <;> rfl
@[simp] theorem applyImage_heat (c x : BitVec 12) : (s.applyImage c x).heat = s.heat := by
  simp only [applyImage]; split <;> rfl
@[simp] theorem applyImage_inFlight (c x : BitVec 12) : (s.applyImage c x).inFlight = s.inFlight := by
  simp only [applyImage]; split <;> rfl
@[simp] theorem applyImage_deliveries (c x : BitVec 12) : (s.applyImage c x).deliveries = s.deliveries := by
  simp only [applyImage]; split <;> rfl
@[simp] theorem applyImage_inputs (c x : BitVec 12) : (s.applyImage c x).inputs = s.inputs := by
  simp only [applyImage]; split <;> rfl
@[simp] theorem applyImage_orders (c x : BitVec 12) : (s.applyImage c x).orders = s.orders := by
  simp only [applyImage]; split <;> rfl
@[simp] theorem applyImage_events (c x : BitVec 12) : (s.applyImage c x).events = s.events := by
  simp only [applyImage]; split <;> rfl
@[simp] theorem applyImage_mem (c x : BitVec 12) : (s.applyImage c x).mem = s.mem := by
  simp only [applyImage]; split <;> rfl
@[simp] theorem applyImage_hostData (c x : BitVec 12) : (s.applyImage c x).hostData = s.hostData := by
  simp only [applyImage]; split <;> rfl

/-- An image moves exactly the outputs it covers (R160). -/
@[simp] theorem applyImage_outputs (c x : BitVec 12) :
    (s.applyImage c x).outputs = (s.outputs &&& ~~~c) ||| (x &&& c) := by
  simp only [applyImage]; split
  · rename_i h; exact h.symm
  · rfl

end State

/-! ### Ends, lines and inputs by name -/

@[simp] theorem ends_get_set (x : Ends) (e : EndId) (u : EndUnit) : (x.set e u).get e = u := by cases e <;> rfl

@[simp] theorem ends_get_set_opp (x : Ends) (e : EndId) (u : EndUnit) : (x.set e u).get e.opp = x.get e.opp := by
  cases e <;> rfl

theorem ends_get_set_of_ne (x : Ends) (e k : EndId) (u : EndUnit) (h : k ≠ e) : (x.set e u).get k = x.get k := by
  cases e <;> cases k <;> first | rfl | exact absurd rfl h

@[simp] theorem lines_get_set (x : Lines) (l : LineId) (u : LineUnit) : (x.set l u).get l = u := by
  obtain ⟨e, n⟩ := l; cases e <;> cases n <;> rfl

theorem lines_get_set_of_ne (x : Lines) (l k : LineId) (u : LineUnit) (h : k ≠ l) : (x.set l u).get k = x.get k := by
  obtain ⟨e, n⟩ := l; obtain ⟨e', n'⟩ := k
  cases e <;> cases n <;> cases e' <;> cases n' <;> first | rfl | exact absurd rfl h

@[simp] theorem inputs_get_set (x : Inputs) (i : Input) (r : InputRec) : (x.set i r).get i = r := by cases i <;> rfl

theorem inputs_get_set_of_ne (x : Inputs) (i k : Input) (r : InputRec) (h : k ≠ i) : (x.set i r).get k = x.get k := by
  cases i <;> cases k <;> first | rfl | exact absurd rfl h

end Sys2Proof.Machine
end

