-- ==== Sys2Proof/Laws/Blocks.lean ====
section
/-! SUPPORT. Order blocks: what a write of a status word or of an outcome leaves in exchange memory (R172, R177, R178). -/

namespace Sys2Proof.Machine

theorem blockBase_ne {b c : Fin 16} (h : b ≠ c) : blockBase b + 0x100 ≤ blockBase c ∨ blockBase c + 0x100 ≤ blockBase b := by
  have : b.val ≠ c.val := fun e => h (Fin.ext e)
  simp only [blockBase]; omega

@[simp] theorem blockStatus_setBlockStatus (s : State) (b : Fin 16) (v : Word) : (s.setBlockStatus b v).blockStatus b = v :=
  memory_readWord_writeWord s.mem (blockBase b) v

theorem blockStatus_setBlockStatus_of_ne (s : State) {b c : Fin 16} (h : b ≠ c) (v : Word) :
    (s.setBlockStatus b v).blockStatus c = s.blockStatus c := by
  refine memory_readWord_writeWords_of_outside s.mem _ [v] _ ?_
  have := blockBase_ne h
  simp only [List.length_cons, List.length_nil]; omega

/-- A status write moves the two bytes of the status word alone. -/
theorem setBlockStatus_read (s : State) (b : Fin 16) (v : Word) (a : Nat) (h : a ≠ blockBase b) (k : a ≠ blockBase b + 1) :
    (s.setBlockStatus b v).mem.read a = s.mem.read a := by
  refine memory_read_writeWords_of_outside s.mem _ [v] _ ?_
  simp only [List.length_cons, List.length_nil]; omega

theorem length_resultWords (ws : List Word) : (resultWords ws).length = 13 := by simp [resultWords]

@[simp] theorem blockStatus_writeOutcome (s : State) (b : Fin 16) (r : ResultCode) (ws : List Word) :
    (s.writeOutcome b r ws).blockStatus b = r.status := blockStatus_setBlockStatus _ b _

theorem blockStatus_writeOutcome_of_ne (s : State) {b c : Fin 16} (h : b ≠ c) (r : ResultCode) (ws : List Word) :
    (s.writeOutcome b r ws).blockStatus c = s.blockStatus c := by
  unfold State.writeOutcome
  rw [blockStatus_setBlockStatus_of_ne _ h]
  refine memory_readWord_writeWords_of_outside s.mem _ _ _ ?_
  have := blockBase_ne h
  simp only [List.length_cons, length_resultWords]; omega

/-- The outcome as the host reads it: result code and result fields (R177, R178). -/
theorem writeOutcome_fields (s : State) (b : Fin 16) (r : ResultCode) (ws : List Word) :
    (s.writeOutcome b r ws).mem.readWords (blockBase b + 4) 14 = r.code :: resultWords ws := by
  show Memory.readWords (Memory.writeWords (Memory.writeWords s.mem _ _) _ _) _ _ = _
  rw [memory_readWords_writeWords_of_outside _ _ _ _ _ (Or.inr (by simp only [List.length_cons, List.length_nil]; omega))]
  have := memory_readWords_writeWords s.mem (blockBase b + 4) (r.code :: resultWords ws)
  rwa [List.length_cons, length_resultWords] at this

/-- An outcome moves a block's status word, result code and result fields alone. -/
theorem writeOutcome_read (s : State) (b : Fin 16) (r : ResultCode) (ws : List Word) (a : Nat)
    (h : a < blockBase b ∨ (blockBase b + 2 ≤ a ∧ a < blockBase b + 4) ∨ blockBase b + 32 ≤ a) :
    (s.writeOutcome b r ws).mem.read a = s.mem.read a := by
  unfold State.writeOutcome
  rw [setBlockStatus_read _ b _ a (by omega) (by omega)]
  refine memory_read_writeWords_of_outside s.mem _ _ _ ?_
  simp only [List.length_cons, length_resultWords]; omega

end Sys2Proof.Machine
end

