-- ==== Sys2Proof/Laws/Commands.lean ====
section
/-! SUPPORT. What each command runs: its arm of exec with its meaning opened. -/

namespace Sys2Proof.Machine

theorem exec_powerOnReset (s : State) : exec .powerOnReset s = .next s.powerOn := rfl
theorem exec_softReset (v : Word) (s : State) : exec (.softReset v) s = partStep (fun s => s.writeControl v) s := rfl
theorem exec_setEnable (v : Word) (s : State) : exec (.setEnable v) s = partStep (fun s => s.writeControl v) s := rfl
theorem exec_mask (v : Word) (s : State) : exec (.mask v) s = partStep (fun s => s.writeMask v) s := rfl
theorem exec_take (s : State) :
    exec .take s = if s.resetHeld then .next { s with hostData := 0 } else partStep State.takeEvent s := rfl
theorem exec_notice (v : Word) (s : State) : exec (.notice v) s = partStep (fun s => s.noticeOf v) s := rfl
theorem exec_registerWriteIgnored (reg : ReadOnlyReg) (v : Word) (s : State) :
    exec (.registerWriteIgnored reg v) s = partStep (fun s => s.ignoreWrite reg v) s := rfl
theorem exec_statusWordWrite (b : Fin 16) (v : Word) (s : State) :
    exec (.statusWordWrite b v) s = partStep (fun s => s.hostStatus b v) s := rfl
theorem exec_exchangeMemoryWrite (w : BitVec 14) (v : Word) (s : State) :
    exec (.exchangeMemoryWrite w v) s = partStep (fun s => s.hostWord w v) s := rfl
theorem exec_orderTake (s : State) : exec .orderTake s = partStep State.takeOrder s := rfl
theorem exec_configure (s : State) :
    exec .configure s = partStep (fun s => s.completing (· == 1) State.runConfigure) s := rfl
theorem exec_setRole (s : State) :
    exec .setRole s = partStep (fun s => s.completing (· == 2) (fun s o => s.inActive o State.runSetRole)) s := rfl
theorem exec_startSurvey (s : State) :
    exec .startSurvey s = partStep (fun s => s.completing (· == 3) (fun s o => s.inActive o State.runStartSurvey)) s := rfl
theorem exec_doorRelease (s : State) :
    exec .doorRelease s = partStep (fun s => s.completing (· == 4) (fun s o => s.inActive o State.runDoorRelease)) s := rfl
theorem exec_doorClose (s : State) :
    exec .doorClose s = partStep (fun s => s.completing (· == 5) (fun s o => s.inActive o State.runDoorClose)) s := rfl
theorem exec_heatDemand (s : State) :
    exec .heatDemand s = partStep (fun s => s.completing (· == 6) (fun s o => s.inActive o State.runHeatDemand)) s := rfl
theorem exec_heatSupply (s : State) :
    exec .heatSupply s = partStep (fun s => s.completing (· == 7) (fun s o => s.inActive o State.runHeatSupply)) s := rfl
theorem exec_sendMessage (s : State) :
    exec .sendMessage s = partStep (fun s => s.completing (· == 8) (fun s o => s.inActive o State.runSendMessage)) s := rfl
theorem exec_setOutputs (s : State) :
    exec .setOutputs s = partStep (fun s => s.completing (· == 9) State.runSetOutputs) s := rfl
theorem exec_unknownOrder (s : State) :
    exec .unknownOrder s = partStep (fun s => s.completing unknownKind (fun s o => s.complete o .unknownOrder [])) s := rfl
theorem exec_rawChange (i : Input) (level : Bool) (s : State) :
    exec (.rawChange i level) s = if s.resetHeld then .next (s.modInput i fun r => { r with raw := level }) else partStep (fun s => s.rawChange i level) s := rfl
theorem exec_qualifiedChange (i : Input) (s : State) :
    exec (.qualifiedChange i) s = partStep (fun s => s.qualify i) s := rfl
theorem exec_energyPresent (l : LineId) (s : State) :
    exec (.energyPresent l) s = partStep (fun s => s.energyOn l) s := rfl
theorem exec_energyAbsent (l : LineId) (s : State) :
    exec (.energyAbsent l) s = partStep (fun s => s.energyOff l) s := rfl
theorem exec_settlingTimer (l : LineId) (s : State) :
    exec (.settlingTimer l) s = partStep (fun s => s.qualifyLine l) s := rfl
theorem exec_gapTimeout (l : LineId) (s : State) :
    exec (.gapTimeout l) s = partStep (fun s => s.gapTimeout l) s := rfl
theorem exec_restTimer (l : LineId) (s : State) : exec (.restTimer l) s = partStep (fun s => s.endRest l) s := rfl
theorem exec_byteReceived (l : LineId) (v : Byte) (s : State) :
    exec (.byteReceived l v) s = partStep (fun s => s.byteIn l v) s := rfl
theorem exec_stopReceived (l : LineId) (s : State) :
    exec (.stopReceived l) s = partStep (fun s => s.recvStop l) s := rfl
theorem exec_goReceived (l : LineId) (s : State) : exec (.goReceived l) s = partStep (fun s => s.recvGo l) s := rfl
theorem exec_linkTimer (e : EndId) (s : State) : exec (.linkTimer e) s = partStep (fun s => s.linkLost e) s := rfl
theorem exec_hailTimer (e : EndId) (s : State) : exec (.hailTimer e) s = partStep (fun s => s.hailOut e) s := rfl
theorem exec_telegramBoundary (e : EndId) (s : State) :
    exec (.telegramBoundary e) s = partStep (fun s => s.telegramEnd e) s := rfl
theorem exec_flowCharacterSent (e : EndId) (s : State) :
    exec (.flowCharacterSent e) s = partStep (fun s => s.sendFlow e) s := rfl
theorem exec_stallTimer (e : EndId) (s : State) : exec (.stallTimer e) s = partStep (fun s => s.stallOut e) s := rfl
theorem exec_dispatch (e : EndId) (s : State) : exec (.dispatch e) s = partStep (fun s => s.dispatch e) s := rfl
theorem exec_keyExpiry (e : EndId) (s : State) : exec (.keyExpiry e) s = partStep (fun s => s.expireKey e) s := rfl
theorem exec_holdOffTimer (s : State) : exec .holdOffTimer s = partStep State.holdOffOut s := rfl
theorem exec_surveyTimeout (s : State) : exec .surveyTimeout s = partStep State.surveyOut s := rfl
theorem exec_rosterWaitTimer (s : State) : exec .rosterWaitTimer s = partStep State.rosterWaitOut s := rfl
theorem exec_doorstatTimer (s : State) : exec .doorstatTimer s = partStep State.statOut s := rfl
theorem exec_recordStale (x : Side) (s : State) :
    exec (.recordStale x) s = partStep (fun s => s.recordStale x) s := rfl
theorem exec_roundTimer (s : State) : exec .roundTimer s = partStep State.testRound s := rfl
theorem exec_bidWindowClose (s : State) : exec .bidWindowClose s = partStep State.windowOut s := rfl
theorem exec_rampStep (s : State) : exec .rampStep s = partStep State.stepRamp s := rfl
theorem exec_lossTimer (s : State) : exec .lossTimer s = partStep State.testLoss s := rfl
theorem exec_messageDeadline (b : Fin 16) (s : State) :
    exec (.messageDeadline b) s = partStep (fun s => s.passDeadline b) s := rfl
theorem exec_millisecondCount (s : State) : exec .millisecondCount s = partStep State.tick s := rfl
theorem exec_resetPinHeld (s : State) : exec .resetPinHeld s = .next s.holdReset := rfl

end Sys2Proof.Machine
end

