-- ==== Sys2Proof/Laws/Events.lean ====
section
/-! SUPPORT. The event unit: the highest pending level and the choice of TAKE in words of their rules (R190, R191). -/

namespace Sys2Proof.Machine

theorem mem_eventClasses (c : EventClass) : c ∈ eventClasses := by cases c <;> decide

theorem eventClass_code_inj {c d : EventClass} (h : c.code = d.code) : c = d := by
  cases c <;> cases d <;> first | rfl | (exact absurd h (by decide))

@[simp] theorem isPending_setPending (s : State) (c : EventClass) (v : Bool) : (s.setPending c v).isPending c = v := by
  simp [State.isPending, State.setPending, State.modEvents]

theorem isPending_setPending_of_ne (s : State) {c d : EventClass} (h : d ≠ c) (v : Bool) :
    (s.setPending c v).isPending d = s.isPending d := by
  have ne : c.idx.val ≠ d.idx.val := fun e => h (eventClass_code_inj (by unfold EventClass.code; omega))
  simp only [State.isPending, State.setPending, State.modEvents, Fin.getElem_fin]
  exact Vector.getElem_set_ne c.idx.isLt d.idx.isLt ne

@[simp] theorem isPending_raise (s : State) (c : EventClass) : (s.raise c).isPending c = true := isPending_setPending s c true

theorem isPending_raise_of_ne (s : State) {c d : EventClass} (h : d ≠ c) : (s.raise c).isPending d = s.isPending d :=
  isPending_setPending_of_ne s h true

theorem eventClasses_sorted : eventClasses.Pairwise (fun c d => c.code < d.code) := by decide

/-- The fold of `highestLevel` over a list of levels. -/
theorem foldl_max_spec (l : List Nat) : ∀ (m : Option Nat),
    (∀ n, l.foldl (fun m n => some (match m with | some k => max k n | none => n)) m = some n →
      (n ∈ l ∨ m = some n) ∧ (∀ k ∈ l, k ≤ n) ∧ ∀ k, m = some k → k ≤ n)
    ∧ (l.foldl (fun m n => some (match m with | some k => max k n | none => n)) m = none → l = [] ∧ m = none) := by
  induction l with
  | nil =>
    intro m
    refine ⟨fun n h => ?_, fun h => ⟨rfl, h⟩⟩
    rw [List.foldl_nil] at h
    exact ⟨Or.inr h, by simp, fun k hk => by rw [h] at hk; injection hk with hk; omega⟩
  | cons x l ih =>
    intro m
    have key := ih (some (match m with | some k => max k x | none => x))
    refine ⟨fun n h => ?_, fun h => ?_⟩
    · obtain ⟨a, b, e⟩ := key.1 n h
      have e' := e _ rfl
      refine ⟨?_, ?_, ?_⟩
      · rcases a with a | a
        · exact Or.inl (by simp [a])
        · injection a with a
          cases m with
          | none => simp only at a; exact Or.inl (by simp [a])
          | some k =>
            simp only at a
            by_cases hk : k ≤ x
            · rw [max_eq_right hk] at a; exact Or.inl (by simp [a])
            · rw [max_eq_left (by omega)] at a; exact Or.inr (by rw [a])
      · intro k hk
        rcases List.mem_cons.mp hk with rfl | hk
        · cases m with
          | none => exact e'
          | some j => exact le_trans (le_max_right j k) e'
        · exact b k hk
      · intro k hk
        subst hk
        exact le_trans (le_max_left k x) e'
    · have := (key.2 h).2; cases this

theorem highestLevel_none (s : State) : s.highestLevel = none ↔ ∀ c, s.isPending c = false := by
  constructor
  · intro h c
    have := ((foldl_max_spec _ none).2 h).1
    by_contra k
    have m : s.levelOf c ∈ (eventClasses.filter s.isPending).map s.levelOf :=
      List.mem_map.mpr ⟨c, List.mem_filter.mpr ⟨mem_eventClasses c, by simpa using k⟩, rfl⟩
    rw [this] at m; cases m
  · intro h
    unfold State.highestLevel
    have : eventClasses.filter s.isPending = [] := List.filter_eq_nil_iff.mpr fun c _ => by simp [h c]
    rw [this]; rfl

/-- The greatest level among the pending classes (R190). -/
theorem highestLevel_some (s : State) (n : Nat) :
    s.highestLevel = some n ↔ (∃ c, s.isPending c = true ∧ s.levelOf c = n) ∧ ∀ c, s.isPending c = true → s.levelOf c ≤ n := by
  have mem : ∀ c, s.isPending c = true → s.levelOf c ∈ (eventClasses.filter s.isPending).map s.levelOf := fun c h =>
    List.mem_map.mpr ⟨c, List.mem_filter.mpr ⟨mem_eventClasses c, h⟩, rfl⟩
  have fwd : ∀ n, s.highestLevel = some n →
      (∃ c, s.isPending c = true ∧ s.levelOf c = n) ∧ ∀ c, s.isPending c = true → s.levelOf c ≤ n := by
    intro n h
    obtain ⟨a, b, _⟩ := (foldl_max_spec _ none).1 n h
    refine ⟨?_, fun c hc => b _ (mem c hc)⟩
    rcases a with a | a
    · obtain ⟨c, hc, e⟩ := List.mem_map.mp a
      exact ⟨c, (List.mem_filter.mp hc).2, e⟩
    · cases a
  refine ⟨fwd n, ?_⟩
  rintro ⟨⟨c, hc, e⟩, b⟩
  cases h : s.highestLevel with
  | none => rw [(highestLevel_none s).mp h c] at hc; cases hc
  | some k =>
    obtain ⟨⟨d, hd, e'⟩, b'⟩ := fwd k h
    have := b d hd
    have := b' c hc
    rw [show k = n by omega]

theorem takeChoice_none (s : State) (h : ∀ c, s.isPending c = false) : s.takeChoice = none := by
  unfold State.takeChoice; rw [(highestLevel_none s).mpr h]

/-- TAKE returns the class that ranks first (R191). -/
theorem takeChoice_eq (s : State) (c : EventClass) (h : s.ranksFirst c) : s.takeChoice = some c := by
  obtain ⟨p, q⟩ := h
  have hl : s.highestLevel = some (s.levelOf c) :=
    (highestLevel_some s _).mpr ⟨⟨c, p, rfl⟩, fun d hd => by rcases q d hd with h | h <;> omega⟩
  unfold State.takeChoice
  rw [hl]
  show eventClasses.find? _ = some c
  rw [List.find?_eq_some_iff_append]
  refine ⟨by simp [p], ?_⟩
  obtain ⟨l, r, e⟩ := List.append_of_mem (mem_eventClasses c)
  refine ⟨l, r, e, fun d hd => ?_⟩
  have lt : d.code < c.code := by
    have := eventClasses_sorted
    rw [e, List.pairwise_append] at this
    exact this.2.2 d hd c (by simp)
  by_cases k : s.isPending d = true
  · rcases q d k with h | h
    · simp [k]; omega
    · omega
  · simp [k]

/-- Some class ranks first, unless none is pending. -/
theorem exists_ranksFirst (s : State) (h : ∃ c, s.isPending c = true) : ∃ c, s.ranksFirst c := by
  cases k : s.takeChoice with
  | none =>
    obtain ⟨c, hc⟩ := h
    unfold State.takeChoice at k
    cases hl : s.highestLevel with
    | none => rw [(highestLevel_none s).mp hl c] at hc; cases hc
    | some n =>
      rw [hl] at k
      obtain ⟨d, hd, e⟩ := ((highestLevel_some s n).mp hl).1
      have := List.find?_eq_none.mp k d (mem_eventClasses d)
      simp [hd, e] at this
  | some c =>
    refine ⟨c, ?_⟩
    unfold State.takeChoice at k
    cases hl : s.highestLevel with
    | none => rw [hl] at k; cases k
    | some n =>
      rw [hl] at k
      obtain ⟨hc, l, r, e, hd⟩ := List.find?_eq_some_iff_append.mp k
      simp only [Bool.and_eq_true, beq_iff_eq] at hc
      refine ⟨hc.1, fun d pd => ?_⟩
      have b := ((highestLevel_some s n).mp hl).2 d pd
      by_cases lt : s.levelOf d < s.levelOf c
      · exact Or.inl lt
      · refine Or.inr ⟨by omega, ?_⟩
        have m := mem_eventClasses d
        rw [e] at m
        rcases List.mem_append.mp m with m | m
        · have := hd d m
          simp only [Bool.not_eq_true', Bool.and_eq_false_iff, beq_eq_false_iff_ne] at this
          rcases this with t | t
          · rw [pd] at t; cases t
          · omega
        · have := eventClasses_sorted
          rw [e, List.pairwise_append] at this
          rcases List.mem_cons.mp m with rfl | m
          · exact Nat.le_refl _
          · exact Nat.le_of_lt (List.rel_of_pairwise_cons this.2.1 m)

end Sys2Proof.Machine
end

