-- ==== Sys2Proof/Laws/Pages.lean ====
section
/-! SUPPORT. The pages: each record lies in its bytes, and the rewriting at a step's end changes nothing but the page
records and their counters. -/

namespace Sys2Proof.Machine

/-! ### Lengths of the records' runs -/

theorem length_listWords (l : List Byte) (n : Nat) : (listWords l n).length = n := by simp [listWords]

theorem length_identWords (i : Ident) : (identWords i).length = 2 := rfl

theorem length_entryWords (e : Option RosterEntry) : (entryWords e).length = 8 := by
  cases e <;> simp [entryWords, length_identWords]

theorem length_slotWords (c : ConsistUnit) : c.slotWords.length = 256 := by
  simp [ConsistUnit.slotWords, List.length_flatMap, length_entryWords]

theorem length_settingsWords (c : Settings) : c.words.length = 38 := by
  simp [Settings.words, length_identWords]

theorem length_consistWords (c : ConsistUnit) : c.words.length = 21 := by
  simp [ConsistUnit.words, length_identWords]

theorem length_frontHead (s : State) : s.frontHead.length = 6 := by simp [State.frontHead, length_identWords]

theorem length_neighbourWords (n : Option Neighbour) : (neighbourWords n).length = 8 := by
  cases n <;> simp [neighbourWords, length_identWords]

theorem length_lineWords (s : State) : s.lineWords.length = 30 := by
  simp [State.lineWords, State.endWords, LineUnit.words, length_neighbourWords]

theorem length_trafficWords (u : EndUnit) : u.trafficWords.length = 8 := rfl

theorem length_groupWords (g : DoorGroup) : g.words.length = 5 := by cases g <;> rfl

theorem length_lastReleaseWords (r : Option LastRelease) : (lastReleaseWords r).length = 6 := by
  cases r <;> simp [lastReleaseWords]

theorem length_doorViewWords (s : State) : s.doorViewWords.length = 13 := by
  simp [State.doorViewWords, length_groupWords, length_lastReleaseWords]

theorem length_doorRecordWords (r : Option DoorRecord) : (doorRecordWords r).length = 15 := by
  cases r <;> simp [doorRecordWords, length_listWords]

theorem length_summaryWords (d : DoorUnit) : d.summaryWords.length = 41 := by
  simp [DoorUnit.summaryWords, length_listWords, length_doorRecordWords]

theorem length_heatViewWords (s : State) : s.heatViewWords.length = 20 := by
  simp only [State.heatViewWords, List.length_append, List.length_cons, List.length_nil]
  cases s.heat.ramp <;> cases s.heat.grant <;> rfl

theorem length_allocRowWords (r : Option AllocRow) : (allocRowWords r).length = 5 := by
  cases r <;> simp [allocRowWords]

theorem length_allocWords (a : Option Allocation) : (allocWords a).length = 172 := by
  cases a with
  | none => exact List.length_replicate
  | some a =>
    have h : ∀ l : List Nat, (l.flatMap fun i => allocRowWords (a.rows[i]?)).length = 5 * l.length := by
      intro l
      induction l with
      | nil => rfl
      | cons i l ih => rw [List.flatMap_cons, List.length_append, length_allocRowWords, ih, List.length_cons]; omega
    simp only [allocWords, List.length_append, List.length_cons, List.length_nil, h, List.length_range]

theorem length_ioViewWords (s : State) : s.ioViewWords.length = 40 := by
  simp [State.ioViewWords, allInputs, List.length_flatMap]

/-! ### One record -/

/-- A record's write moves page bytes alone. -/
theorem writeRecord_read (s : State) (r : Rec) (hr : r ∈ pageRecs) (a : Nat) (h : isPageByte a = false) :
    (s.writeRecord r).mem.read a = s.mem.read a := by
  have key : ∀ (m : Memory) (o : Nat) (ws : List Word), (a < o ∨ o + 2 * ws.length ≤ a) →
      (m.writeWords o ws).read a = m.read a := fun m o ws => memory_read_writeWords_of_outside m o ws a
  simp only [isPageByte, Bool.or_eq_false_iff, Bool.and_eq_false_iff, decide_eq_false_iff_not, Nat.not_lt, Nat.not_le] at h
  simp only [pageRecs, List.mem_cons, List.not_mem_nil, or_false] at hr
  rcases hr with rfl | rfl | rfl | rfl | rfl | rfl | rfl | rfl | rfl | rfl <;>
    simp only [State.writeRecord, State.modMem, State.recordRuns, Rec.base, List.foldl_cons, List.foldl_nil] <;>
    repeat rw [key] <;>
    first
      | (simp only [length_frontHead, length_settingsWords, length_consistWords, length_slotWords, length_lineWords,
          length_trafficWords, length_doorViewWords, length_summaryWords, length_heatViewWords, length_allocWords,
          length_ioViewWords, List.length_cons, List.length_nil]; omega)
      | skip

/-- A record's write keeps the canonical form. -/
theorem writeRecord_wf (s : State) (r : Rec) (h : s.mem.wf) : (s.writeRecord r).mem.wf := by
  have key : ∀ (l : List (Nat × List Word)) (m : Memory), m.wf → (l.foldl (fun m x => m.writeWords x.1 x.2) m).wf := by
    intro l
    induction l with
    | nil => intro m hm; exact hm
    | cons x l ih => intro m hm; exact ih _ (memory_wf_writeWords m _ _ hm)
  exact key _ _ (memory_wf_writeWords _ _ _ h)

/-! ### The end of a step -/

theorem writeRecord_eq (s : State) (r : Rec) : s.writeRecord r = { s with mem := (s.writeRecord r).mem } := rfl

theorem setRev_slot (s : State) (r : Rec) (hr : r ∈ pageRecs) (v : Word) (n : Fin 8) :
    (s.setRev r v).rev (.slot n) = s.rev (.slot n) := by
  simp only [pageRecs, List.mem_cons, List.not_mem_nil, or_false] at hr
  simp only [State.rev, State.setRev, Fin.getElem_fin]
  rw [Vector.getElem_set_ne]
  rcases hr with rfl | rfl | rfl | rfl | rfl | rfl | rfl | rfl | rfl | rfl <;> simp [Rec.idx] <;> omega

theorem upToPages_refl (s : State) : UpToPages s s := ⟨rfl, fun _ _ => rfl, fun _ => rfl⟩

theorem upToPages_trans {s t u : State} (h : UpToPages s t) (k : UpToPages t u) : UpToPages s u := by
  refine ⟨?_, fun a ha => (k.2.1 a ha).trans (h.2.1 a ha), fun n => (k.2.2 n).trans (h.2.2 n)⟩
  have e := k.1
  rw [h.1] at e
  exact e

theorem upToPages_rewrite (s : State) (r : Rec) (hr : r ∈ pageRecs) (v : Word) :
    UpToPages s ((s.setRev r v).writeRecord r) :=
  ⟨rfl, fun a ha => writeRecord_read (s.setRev r v) r hr a ha, fun n => setRev_slot s r hr v n⟩

theorem upToPages_touch (s : State) (r : Rec) (hr : r ∈ pageRecs) : UpToPages s (s.touch r) := by
  unfold State.touch
  split
  · exact upToPages_refl s
  · exact ⟨rfl, fun _ _ => rfl, fun n => setRev_slot s r hr _ n⟩

theorem upToPages_touchAgain (s : State) (r : Rec) (hr : r ∈ pageRecs) : UpToPages s (s.touchAgain r) :=
  ⟨rfl, fun _ _ => rfl, fun n => setRev_slot s r hr _ n⟩

theorem upToPages_closeRecord (s0 s : State) (r : Rec) (hr : r ∈ pageRecs) : UpToPages s (State.closeRecord s0 s r) := by
  unfold State.closeRecord
  split
  · exact upToPages_rewrite s r hr _
  · split
    · exact upToPages_rewrite s r hr _
    · exact upToPages_refl s

/-- The end of a step changes nothing but the page records (R169). -/
theorem publish_upToPages (s0 s : State) : UpToPages s (State.publish s0 s) := by
  have key : ∀ (l : List Rec), (∀ r ∈ l, r ∈ pageRecs) → ∀ s, UpToPages s (l.foldl (fun s r => State.closeRecord s0 s r) s) := by
    intro l
    induction l with
    | nil => intro _ s; exact upToPages_refl s
    | cons r l ih =>
      intro h s
      exact upToPages_trans (upToPages_closeRecord s0 s r (h r (by simp))) (ih (fun r hr => h r (by simp [hr])) _)
  exact key pageRecs (fun _ h => h) s

theorem closeRecord_wf (s0 s : State) (r : Rec) (h : s.mem.wf) : (State.closeRecord s0 s r).mem.wf := by
  unfold State.closeRecord
  split
  · exact writeRecord_wf _ r h
  · split
    · exact writeRecord_wf _ r h
    · exact h

/-- The end of a step keeps the canonical form of exchange memory. -/
theorem publish_wf (s0 s : State) (h : s.mem.wf) : (State.publish s0 s).mem.wf := by
  have key : ∀ (l : List Rec) (s : State), s.mem.wf → (l.foldl (fun s r => State.closeRecord s0 s r) s).mem.wf := by
    intro l
    induction l with
    | nil => intro s hs; exact hs
    | cons r l ih => intro s hs; exact ih _ (closeRecord_wf s0 s r hs)
  exact key pageRecs s h

/-! ### The steps of the part -/

/-- A step of the part answers its effect, up to the pages. -/
theorem partStep_next (f : State → State) (s : State) (h : s.resetHeld = false) :
    ∃ t, partStep f s = .next t ∧ UpToPages (f s) t :=
  ⟨_, by simp [partStep, h], publish_upToPages s (f s)⟩

/-- While RESET is held a step of the part has no effect. -/
theorem partStep_held (f : State → State) (s : State) (h : s.resetHeld = true) : partStep f s = .next s := by
  simp [partStep, h]

end Sys2Proof.Machine
end

