-- ==== Sys2Proof/Laws/Scope.lean ====
section
/-! SUPPORT. What each shared operation can touch, said once for each: the operations of the relay switch move the ends and
the sequence counters, those of the door unit also the door unit and its outputs, and so on. -/

namespace Sys2Proof.Machine

/-! ### The scopes -/

/-- The inbox slots' counters, the threshold and the enable are kept, and a page record's counter is as it was or odd: a
rewrite begun (R169). -/
def Kept (s t : State) : Prop :=
  (∀ n : Fin 8, t.rev (.slot n) = s.rev (.slot n)) ∧ t.events.threshold = s.events.threshold
    ∧ t.events.enable = s.events.enable
    ∧ ∀ r ∈ pageRecs, t.rev r = s.rev r ∨ (t.rev r).getLsbD 0 = true

/-- Only ends and sequence counters may differ. -/
def Sends (s t : State) : Prop := t = { s with ends := t.ends, seqs := t.seqs }

/-- Only flags and revision counters may differ. -/
def Marks (s t : State) : Prop := t = { s with events := t.events, revs := t.revs } ∧ Kept s t

/-- Only the door unit, its outputs, ends, sequence counters, flags and revision counters may differ. -/
def Doors (s t : State) : Prop :=
  t = { s with door := t.door, outputs := t.outputs, ends := t.ends, seqs := t.seqs, events := t.events, revs := t.revs }
    ∧ t.outputs &&& ~~~s.doorOwned = s.outputs &&& ~~~s.doorOwned ∧ Kept s t

/-- Only the heating unit, its outputs, ends, sequence counters, flags and revision counters may differ. -/
def Heats (s t : State) : Prop :=
  t = { s with heat := t.heat, outputs := t.outputs, ends := t.ends, seqs := t.seqs, events := t.events, revs := t.revs }
    ∧ t.outputs &&& ~~~s.heatOwned = s.outputs &&& ~~~s.heatOwned ∧ Kept s t

/-- Only consist, door and heating units, their outputs, ends, sequence counters, flags and revision counters may differ. -/
def Trains (s t : State) : Prop :=
  t = { s with consist := t.consist, door := t.door, heat := t.heat, outputs := t.outputs, ends := t.ends, seqs := t.seqs,
               events := t.events, revs := t.revs }
    ∧ t.outputs &&& ~~~(s.doorOwned ||| s.heatOwned) = s.outputs &&& ~~~(s.doorOwned ||| s.heatOwned) ∧ Kept s t

theorem kept_refl (s : State) : Kept s s := ⟨fun _ => rfl, rfl, rfl, fun _ _ => Or.inl rfl⟩

theorem kept_trans {s t u : State} (h : Kept s t) (k : Kept t u) : Kept s u :=
  ⟨fun n => (k.1 n).trans (h.1 n), k.2.1.trans h.2.1, k.2.2.1.trans h.2.2.1, fun r hr =>
    (k.2.2.2 r hr).elim (fun e => (h.2.2.2 r hr).elim (fun e' => Or.inl (e.trans e')) (fun o => Or.inr (e ▸ o))) Or.inr⟩

/-- Counters, threshold and enable decide. -/
theorem kept_of_eq {s t : State} (h : t.revs = s.revs) (a : t.events.threshold = s.events.threshold)
    (b : t.events.enable = s.events.enable) : Kept s t :=
  ⟨fun n => by unfold State.rev; rw [h], a, b, fun r _ => Or.inl (by unfold State.rev; rw [h])⟩

/-- The page records' indexes differ. -/
theorem rec_idx_inj {r k : Rec} (hr : r ∈ pageRecs) (hk : k ∈ pageRecs) (h : r ≠ k) : r.idx ≠ k.idx := by
  simp only [pageRecs, List.mem_cons, List.not_mem_nil, or_false] at hr hk
  rcases hr with rfl | rfl | rfl | rfl | rfl | rfl | rfl | rfl | rfl | rfl <;>
    rcases hk with rfl | rfl | rfl | rfl | rfl | rfl | rfl | rfl | rfl | rfl <;>
    first
      | exact absurd rfl h
      | decide

theorem rev_setRev (s : State) (r : Rec) (v : Word) : (s.setRev r v).rev r = v := by
  simp [State.rev, State.setRev]

theorem rev_setRev_of_ne (s : State) {r k : Rec} (hr : r ∈ pageRecs) (hk : k ∈ pageRecs) (h : r ≠ k) (v : Word) :
    (s.setRev r v).rev k = s.rev k := by
  simp only [State.rev, State.setRev, Fin.getElem_fin]
  rw [Vector.getElem_set_ne]
  exact fun e => rec_idx_inj hr hk h (Fin.ext e)

theorem odd_of_even_add_one (v : Word) (h : v.getLsbD 0 = false) : (v + 1).getLsbD 0 = true := by
  simp only [BitVec.getLsbD, Nat.testBit_zero, BitVec.toNat_add, decide_eq_true_eq, decide_eq_false_iff_not] at h ⊢
  have e : (1 : Word).toNat = 1 := rfl
  omega

theorem odd_add_two (v : Word) (h : v.getLsbD 0 = true) : (v + 2).getLsbD 0 = true := by
  simp only [BitVec.getLsbD, Nat.testBit_zero, BitVec.toNat_add, decide_eq_true_eq] at h ⊢
  have e : (2 : Word).toNat = 2 := rfl
  omega

theorem sends_refl (s : State) : Sends s s := rfl

theorem sends_trans {s t u : State} (h : Sends s t) (k : Sends t u) : Sends s u := by
  unfold Sends at *; rw [k, h]

theorem marks_refl (s : State) : Marks s s := ⟨rfl, kept_refl s⟩

theorem marks_trans {s t u : State} (h : Marks s t) (k : Marks t u) : Marks s u := by
  refine ⟨?_, kept_trans h.2 k.2⟩
  have a := h.1; have b := k.1; rw [b, a]

theorem sends_kept {s t : State} (h : Sends s t) : Kept s t := by
  unfold Sends at h; rw [h]; exact kept_refl _

theorem doors_refl (s : State) : Doors s s := ⟨rfl, rfl, kept_refl s⟩

theorem doors_trans {s t u : State} (h : Doors s t) (k : Doors t u) : Doors s u := by
  obtain ⟨a, a', a''⟩ := h
  obtain ⟨b, b', b''⟩ := k
  have o : t.doorOwned = s.doorOwned := by rw [a]; rfl
  refine ⟨?_, ?_, kept_trans a'' b''⟩
  · rw [b, a]
  · rw [o] at b'; exact b'.trans a'

theorem heats_refl (s : State) : Heats s s := ⟨rfl, rfl, kept_refl s⟩

theorem heats_trans {s t u : State} (h : Heats s t) (k : Heats t u) : Heats s u := by
  obtain ⟨a, a', a''⟩ := h
  obtain ⟨b, b', b''⟩ := k
  have o : t.heatOwned = s.heatOwned := by rw [a]; rfl
  refine ⟨?_, ?_, kept_trans a'' b''⟩
  · rw [b, a]
  · rw [o] at b'; exact b'.trans a'

theorem trains_refl (s : State) : Trains s s := ⟨rfl, rfl, kept_refl s⟩

theorem trains_trans {s t u : State} (h : Trains s t) (k : Trains t u) : Trains s u := by
  obtain ⟨a, a', a''⟩ := h
  obtain ⟨b, b', b''⟩ := k
  have o : t.doorOwned = s.doorOwned := by rw [a]; rfl
  have o' : t.heatOwned = s.heatOwned := by rw [a]; rfl
  refine ⟨?_, ?_, kept_trans a'' b''⟩
  · rw [b, a]
  · rw [o, o'] at b'; exact b'.trans a'

theorem doors_of_sends {s t : State} (h : Sends s t) : Doors s t := by
  have k := sends_kept h
  unfold Sends at h
  refine ⟨?_, ?_, k⟩ <;> rw [h]

theorem heats_of_sends {s t : State} (h : Sends s t) : Heats s t := by
  have k := sends_kept h
  unfold Sends at h
  refine ⟨?_, ?_, k⟩ <;> rw [h]

theorem doors_of_marks {s t : State} (h : Marks s t) : Doors s t := by
  obtain ⟨h, k⟩ := h
  refine ⟨?_, ?_, k⟩ <;> rw [h]

theorem heats_of_marks {s t : State} (h : Marks s t) : Heats s t := by
  obtain ⟨h, k⟩ := h
  refine ⟨?_, ?_, k⟩ <;> rw [h]

theorem and_not_or_of_left {x y k d : BitVec 12} (h : x &&& ~~~k = y &&& ~~~k) :
    x &&& ~~~(k ||| d) = y &&& ~~~(k ||| d) := by
  have e : ∀ z : BitVec 12, z &&& ~~~(k ||| d) = (z &&& ~~~k) &&& ~~~d := by
    intro z; ext i hi; simp only [BitVec.getElem_and, BitVec.getElem_not, BitVec.getElem_or]
    cases z[i] <;> cases k[i] <;> cases d[i] <;> rfl
  rw [e, e, h]

theorem trains_of_doors {s t : State} (h : Doors s t) : Trains s t := by
  obtain ⟨a, b, k⟩ := h
  refine ⟨?_, and_not_or_of_left b, k⟩
  rw [a]

theorem trains_of_heats {s t : State} (h : Heats s t) : Trains s t := by
  obtain ⟨a, b, k⟩ := h
  refine ⟨?_, ?_, k⟩
  · rw [a]
  · rw [BitVec.or_comm s.doorOwned]; exact and_not_or_of_left b

theorem trains_of_sends {s t : State} (h : Sends s t) : Trains s t := trains_of_doors (doors_of_sends h)

theorem trains_of_marks {s t : State} (h : Marks s t) : Trains s t := trains_of_doors (doors_of_marks h)

/-! ### Flags, counters and outputs -/

theorem marks_setPending (s : State) (c : EventClass) (v : Bool) : Marks s (s.setPending c v) :=
  ⟨rfl, kept_of_eq rfl rfl rfl⟩

theorem marks_raise (s : State) (c : EventClass) : Marks s (s.raise c) := marks_setPending s c true

/-- A rewrite begun makes its counter odd, and leaves the other records' counters. -/
theorem kept_setRev_odd (s : State) (r : Rec) (hr : r ∈ pageRecs) (v : Word) (h : v.getLsbD 0 = true) :
    Kept s (s.setRev r v) := by
  refine ⟨fun n => setRev_slot s r hr v n, rfl, rfl, fun k hk => ?_⟩
  by_cases e : r = k
  · subst e; exact Or.inr (by rw [rev_setRev]; exact h)
  · exact Or.inl (rev_setRev_of_ne s hr hk e v)

theorem marks_touch (s : State) (r : Rec) (hr : r ∈ pageRecs) : Marks s (s.touch r) := by
  unfold State.touch
  split
  · exact marks_refl s
  · rename_i h
    exact ⟨rfl, kept_setRev_odd s r hr _ (odd_of_even_add_one _ (by simpa using h))⟩

theorem marks_touchAgain (s : State) (r : Rec) (hr : r ∈ pageRecs) : Marks s (s.touchAgain r) := by
  refine ⟨rfl, kept_setRev_odd s r hr _ ?_⟩
  split
  · rename_i h; exact odd_add_two _ h
  · rename_i h; exact odd_of_even_add_one _ (by simpa using h)

theorem kept_applyImage (s : State) (c x : BitVec 12) : Kept s (s.applyImage c x) := by
  simp only [State.applyImage]
  split
  · exact kept_refl s
  · exact kept_trans (kept_of_eq rfl rfl rfl) (marks_touchAgain { s with outputs := _ } .ioView (by decide)).2

theorem applyImage_eq (s : State) (c x : BitVec 12) :
    s.applyImage c x = { s with outputs := (s.applyImage c x).outputs, revs := (s.applyImage c x).revs } := by
  simp only [State.applyImage]; split <;> rfl

theorem applyImage_outside (s : State) (k x : BitVec 12) : (s.applyImage k x).outputs &&& ~~~k = s.outputs &&& ~~~k := by
  rw [State.applyImage_outputs]
  ext i hi
  simp only [BitVec.getElem_and, BitVec.getElem_not, BitVec.getElem_or]
  cases s.outputs[i] <;> cases x[i] <;> cases k[i] <;> rfl

theorem doors_modDoor (s : State) (f : DoorUnit → DoorUnit) : Doors s (s.modDoor f) := ⟨rfl, rfl, kept_of_eq rfl rfl rfl⟩

theorem doors_applyImage (s : State) (x : BitVec 12) : Doors s (s.applyImage s.doorOwned x) :=
  ⟨by rw [applyImage_eq], applyImage_outside s _ x, kept_applyImage s _ x⟩

theorem doors_setGroup (s : State) (g : DoorGroup) : Doors s (s.setGroup g) :=
  doors_trans (doors_modDoor s _) (doors_applyImage (s.modDoor _) g.image)

theorem heats_modHeat (s : State) (f : HeatUnit → HeatUnit) : Heats s (s.modHeat f) := ⟨rfl, rfl, kept_of_eq rfl rfl rfl⟩

theorem heats_applyImage (s : State) (x : BitVec 12) : Heats s (s.applyImage s.heatOwned x) :=
  ⟨by rw [applyImage_eq], applyImage_outside s _ x, kept_applyImage s _ x⟩

theorem heats_setStages (s : State) (n : Nat) : Heats s (s.setStages n) :=
  heats_trans (heats_modHeat s _) (heats_applyImage (s.modHeat _) (stageMask n))

theorem trains_modConsist (s : State) (f : ConsistUnit → ConsistUnit) : Trains s (s.modConsist f) :=
  ⟨rfl, rfl, kept_of_eq rfl rfl rfl⟩

/-! ### The relay switch -/

theorem sends_modEnd (s : State) (e : EndId) (f : EndUnit → EndUnit) : Sends s (s.modEnd e f) := rfl

theorem sends_build (s : State) (k : Kind) (x : Scope) (d : Ident) (b r : List Byte) : Sends s (s.build k x d b r).2 := rfl

theorem sends_start (s : State) (e : EndId) : Sends s (s.start e).1 := by
  unfold State.start
  dsimp only
  split
  · exact sends_refl s
  · split
    · rfl
    · split
      · split
        · rfl
        · exact sends_refl s
      · exact sends_refl s

theorem sends_enterOrigin (s : State) (e : EndId) (t : Telegram) : Sends s (s.enterOrigin e t).1 := by
  unfold State.enterOrigin
  split
  · exact sends_trans (sends_modEnd s e _) (sends_start _ e)
  · exact sends_refl s

theorem sends_placeAt (s : State) (e : EndId) (t : Telegram) : Sends s (s.placeAt e t).1 := by
  unfold State.placeAt
  split
  · exact sends_enterOrigin s e t
  · exact sends_refl s

theorem sends_placeBoth (s : State) (t : Telegram) : Sends s (s.placeBoth t).1 :=
  sends_trans (sends_placeAt s .a t) (sends_placeAt _ .b t)

theorem sends_placeJoint (s : State) (t : Telegram) (r : State × Bool × Bool) (h : s.placeJoint t = some r) :
    Sends s r.1 := by
  unfold State.placeJoint at h
  split at h
  · cases h; exact sends_placeBoth s t
  · cases h

theorem sends_enterRelay (s : State) (e : EndId) (q : List Telegram) : Sends s (s.enterRelay e q) :=
  sends_trans (sends_modEnd s e _) (sends_start _ e)

end Sys2Proof.Machine
end

