-- ==== Sys2Proof/Laws/Units.lean ====
section
/-! SUPPORT. What the operations of the door, heating and consist units can touch (chapters 4 to 7). -/

namespace Sys2Proof.Machine

theorem doors_touch (s : State) (r : Rec) (hr : r ∈ pageRecs) : Doors s (s.touch r) := doors_of_marks (marks_touch s r hr)

theorem doors_raise (s : State) (c : EventClass) : Doors s (s.raise c) := doors_of_marks (marks_raise s c)

theorem doors_build (s : State) (k : Kind) (x : Scope) (d : Ident) (b r : List Byte) : Doors s (s.build k x d b r).2 :=
  doors_of_sends (sends_build s k x d b r)

theorem doors_placeAt (s : State) (e : EndId) (t : Telegram) : Doors s (s.placeAt e t).1 := doors_of_sends (sends_placeAt s e t)

theorem heats_touch (s : State) (r : Rec) (hr : r ∈ pageRecs) : Heats s (s.touch r) := heats_of_marks (marks_touch s r hr)

theorem heats_raise (s : State) (c : EventClass) : Heats s (s.raise c) := heats_of_marks (marks_raise s c)

theorem heats_build (s : State) (k : Kind) (x : Scope) (d : Ident) (b r : List Byte) : Heats s (s.build k x d b r).2 :=
  heats_of_sends (sends_build s k x d b r)

theorem heats_placeAt (s : State) (e : EndId) (t : Telegram) : Heats s (s.placeAt e t).1 := heats_of_sends (sends_placeAt s e t)

theorem heats_placeBoth (s : State) (t : Telegram) : Heats s (s.placeBoth t).1 := heats_of_sends (sends_placeBoth s t)

/-! ### Doors -/

theorem doors_enterClosing (s : State) (r : DropReason) : Doors s (s.enterClosing r) :=
  doors_trans (doors_modDoor s _) (doors_setGroup _ _)

theorem doors_applyRelease (s : State) (g : Word) (a b c : Nat) : Doors s (s.applyRelease g a b c) := by
  unfold State.applyRelease
  dsimp only
  split
  · exact doors_trans (doors_trans (doors_modDoor s _) (doors_touch _ _ (by decide))) (doors_setGroup _ _)
  · exact doors_trans (doors_modDoor s _) (doors_touch _ _ (by decide))

theorem doors_applyClose (s : State) : Doors s s.applyClose := by
  unfold State.applyClose
  split
  · exact doors_modDoor s _
  · exact doors_enterClosing s _
  · exact doors_enterClosing s _

theorem doors_zeroSpeedLost (s : State) : Doors s s.zeroSpeedLost := by
  unfold State.zeroSpeedLost
  split
  · exact doors_trans (doors_enterClosing s _) (doors_raise _ _)
  · exact doors_refl s
  · exact doors_refl s

theorem doors_loopClosed (s : State) : Doors s s.loopClosed := by
  unfold State.loopClosed
  split
  · exact doors_setGroup s _
  · exact doors_refl s
  · exact doors_refl s

theorem doors_dropRelease (s : State) : Doors s s.dropRelease := by
  unfold State.dropRelease
  split
  · exact doors_trans (doors_modDoor s _) (doors_setGroup _ _)
  · exact doors_refl s
  · exact doors_refl s

theorem doors_takeDoor (s : State) (t : Telegram) : Doors s (s.takeDoor t) := by
  unfold State.takeDoor
  split
  · exact doors_refl s
  · split
    · split
      · exact doors_applyRelease s _ _ _ _
      · exact doors_refl s
    · split
      · exact doors_applyClose s
      · exact doors_refl s

theorem doors_originateStat (s : State) : Doors s s.originateStat := by
  unfold State.originateStat
  dsimp only
  split
  · exact doors_trans (doors_build s _ _ _ _ _) (doors_placeAt _ _ _)
  · exact doors_build s _ _ _ _ _

theorem doors_startStat (s : State) : Doors s s.startStat := by
  unfold State.startStat
  split
  · exact doors_trans (doors_modDoor s _) (doors_originateStat _)
  · exact doors_modDoor s _

theorem doors_emptyRecords (s : State) : Doors s s.emptyRecords := doors_modDoor s _

theorem doors_evalSummary (s : State) : Doors s s.evalSummary := by
  unfold State.evalSummary
  split
  · exact doors_refl s
  · exact doors_trans (doors_trans (doors_modDoor s _) (doors_of_marks (marks_touchAgain _ _ (by decide)))) (doors_raise _ _)

theorem doors_writeStat (s : State) (f : DoorUnit → DoorUnit) : Doors s (s.writeStat f) := by
  unfold State.writeStat
  dsimp only
  split
  · exact doors_trans (doors_modDoor s f) (doors_of_marks (marks_touchAgain _ _ (by decide)))
  · exact doors_trans (doors_modDoor s f) (doors_evalSummary _)

theorem doors_takeStat (s : State) (e : EndId) (t : Telegram) : Doors s (s.takeStat e t) := by
  unfold State.takeStat
  split
  · exact doors_writeStat s _
  · split
    · exact doors_writeStat s _
    · exact doors_refl s

/-! ### Heating -/

theorem heats_shed (s : State) : Heats s s.shed := by
  unfold State.shed
  dsimp only
  refine heats_trans ?_ (heats_raise _ _)
  split
  · exact heats_trans (heats_modHeat s _) (heats_setStages _ _)
  · exact heats_modHeat s _

theorem heats_testLoss (s : State) : Heats s s.testLoss := by
  unfold State.testLoss
  split
  · exact heats_shed s
  · exact heats_refl s

theorem heats_seeT (s : State) (t : Nat) : Heats s (s.seeT t) := heats_trans (heats_modHeat s _) (heats_testLoss _)

theorem heats_supplyLost (s : State) : Heats s s.supplyLost := by
  unfold State.supplyLost
  split
  · exact heats_refl s
  · exact heats_trans (heats_trans (heats_modHeat s _) (heats_setStages _ _)) (heats_raise _ _)

theorem heats_voidGrant (s : State) : Heats s s.voidGrant := heats_modHeat s _

theorem heats_applyGrant (s : State) (g r : Word) (n : Nat) : Heats s (s.applyGrant g r n) := by
  unfold State.applyGrant
  dsimp only
  refine heats_trans ?_ (heats_touch _ _ (by decide))
  have h : ∀ u : State, Heats s u → Heats s (if min n s.cfg.count ≠ s.heat.limit then u.raise .heatChange else u) := by
    intro u hu
    split
    · exact heats_trans hu (heats_raise _ _)
    · exact hu
  apply h
  split
  · exact heats_trans (heats_modHeat s _) (heats_setStages _ _)
  · exact heats_modHeat s _

theorem heats_stepRamp (s : State) : Heats s s.stepRamp := by
  unfold State.stepRamp
  split
  · split
    · exact heats_trans (heats_trans (heats_modHeat s _) (heats_setStages _ _)) (heats_touch _ _ (by decide))
    · exact heats_refl s
  · exact heats_refl s

theorem heats_takeGrant (s : State) (t : Telegram) : Heats s (s.takeGrant t) := by
  unfold State.takeGrant
  split
  · split
    · exact heats_applyGrant s _ _ _
    · exact heats_refl s
  · exact heats_refl s

theorem heats_openRound (s : State) : Heats s s.openRound := by
  unfold State.openRound
  dsimp only
  exact heats_trans (heats_trans (heats_trans (heats_trans (heats_modHeat s _) (heats_build _ _ _ _ _ _))
    (heats_placeBoth _ _)) (heats_modHeat _ _)) (heats_seeT _ _)

theorem heats_testRound (s : State) : Heats s s.testRound := by
  unfold State.testRound
  split
  · exact heats_openRound s
  · exact heats_refl s

theorem heats_stopRounds (s : State) : Heats s s.stopRounds := heats_modHeat s _

theorem heats_emptyBids (s : State) : Heats s s.emptyBids := heats_modHeat s _

theorem heats_takeCall (s : State) (t : Telegram) : Heats s (s.takeCall t) := by
  unfold State.takeCall
  dsimp only
  split
  · exact heats_refl s
  · split
    · split
      · exact heats_trans (heats_trans (heats_seeT s _) (heats_modHeat _ _))
          (heats_trans (heats_build _ _ _ _ _ _) (heats_placeAt _ _ _))
      · exact heats_trans (heats_trans (heats_seeT s _) (heats_modHeat _ _)) (heats_build _ _ _ _ _ _)
    · exact heats_seeT s _

theorem heats_setBid (s : State) (p : Nat) (b : Bid) : Heats s (s.setBid p b) := heats_modHeat s _

theorem heats_takeBid (s : State) (t : Telegram) : Heats s (s.takeBid t) := by
  unfold State.takeBid
  dsimp only
  split
  · split
    · exact heats_setBid s _ _
    · exact heats_refl s
  · exact heats_refl s

theorem heats_closeWindow (s : State) : Heats s s.closeWindow := by
  unfold State.closeWindow
  dsimp only
  split
  · exact heats_trans (heats_trans (heats_trans (heats_trans (heats_setBid s _ _) (heats_modHeat _ _))
      (heats_touch _ _ (by decide))) (heats_trans (heats_build _ _ _ _ _ _) (heats_placeBoth _ _))) (heats_applyGrant _ _ _ _)
  · exact heats_trans (heats_trans (heats_trans (heats_setBid s _ _) (heats_modHeat _ _))
      (heats_touch _ _ (by decide))) (heats_trans (heats_build _ _ _ _ _ _) (heats_placeBoth _ _))

/-! ### Consist -/

theorem trains_setCause (s : State) (c : CauseKind) (b : Byte) (i : Ident) : Trains s (s.setCause c b i) :=
  trains_modConsist s _

theorem trains_leaveFormed (s : State) : Trains s s.leaveFormed :=
  trains_trans (trains_trans (trains_trans (trains_of_doors (doors_dropRelease s)) (trains_of_heats (heats_voidGrant _)))
    (trains_of_heats (heats_stopRounds _))) (trains_of_doors (doors_modDoor _ _))

theorem trains_setConsist (s : State) (x : ConsistState) : Trains s (s.setConsist x) := by
  unfold State.setConsist
  dsimp only
  split
  · exact trains_refl s
  · refine trains_trans ?_ (trains_of_doors (doors_evalSummary _))
    have h : Trains s (((s.modConsist fun c => { c with state := x }).touchAgain .consist).raise .consistChange) :=
      trains_trans (trains_modConsist s _) (trains_of_marks (marks_trans (marks_touchAgain _ _ (by decide)) (marks_raise _ _)))
    split
    · exact trains_trans h (trains_leaveFormed _)
    · exact h

theorem trains_showHeader (s : State) (old : ConsistUnit) : Trains s (s.showHeader old) := by
  unfold State.showHeader
  split
  · exact trains_of_marks (marks_touchAgain s _ (by decide))
  · exact trains_refl s

theorem trains_trigger (s : State) (c : CauseKind) (b : Byte) (i : Ident) : Trains s (s.trigger c b i) := by
  unfold State.trigger
  split
  · exact trains_trans (trains_trans (trains_setCause s _ _ _) (trains_modConsist _ _)) (trains_setConsist _ _)
  · exact trains_trans (trains_trans (trains_setCause s _ _ _) (trains_modConsist _ _)) (trains_showHeader _ _)
  · exact trains_trans (trains_modConsist s _) (trains_showHeader _ _)
  · exact trains_refl s
  · exact trains_refl s

theorem trains_reportChange (s : State) (c : LinkChange) : Trains s (s.reportChange c) := by
  unfold State.reportChange
  dsimp only
  have h : Trains s (if s.consist.state = .formed then s.setConsist .stale else s) := by
    split
    · exact trains_setConsist s _
    · exact trains_refl s
  split
  · exact trains_trans h (trains_of_sends (sends_trans (sends_build _ _ _ _ _ _) (sends_placeAt _ _ _)))
  · exact trains_trans h (trains_of_sends (sends_trans (sends_build _ _ _ _ _ _) (sends_placeBoth _ _)))

theorem trains_linkChange (s : State) (c : LinkChange) : Trains s (s.linkChange c) := by
  unfold State.linkChange
  split
  · exact trains_trigger s _ _ _
  · exact trains_reportChange s _

theorem trains_takeChange (s : State) (t : Telegram) : Trains s (s.takeChange t) := trains_trigger s _ _ _

theorem trains_afterInstall (s : State) : Trains s s.afterInstall :=
  trains_trans (trains_trans (trains_trans (trains_of_doors (doors_dropRelease s)) (trains_of_heats (heats_voidGrant _)))
    (trains_of_marks (marks_trans (marks_touchAgain _ _ (by decide)) (marks_raise _ _)))) (trains_of_doors (doors_evalSummary _))

theorem trains_leadInstall (s : State) (r : Roster) : Trains s (s.leadInstall r) := by
  have h : ∀ f, Trains s (((s.modConsist f).emptyRecords.emptyBids).afterInstall) := fun f =>
    trains_trans (trains_trans (trains_trans (trains_modConsist s f) (trains_of_doors (doors_emptyRecords _)))
      (trains_of_heats (heats_emptyBids _))) (trains_afterInstall _)
  unfold State.leadInstall
  extract_lets own partials again s1 s2
  have k : Trains s s2 := h _
  split
  · exact k
  · exact trains_trans k (trains_of_heats (heats_openRound s2))

theorem trains_endSurvey (s : State) : Trains s s.endSurvey := by
  unfold State.endSurvey
  dsimp only
  exact trains_trans (trains_trans (trains_modConsist s _)
    (trains_of_sends (sends_trans (sends_build _ _ _ _ _ _) (sends_placeBoth _ _)))) (trains_leadInstall _ _)

theorem trains_modSide (s : State) (x : Side) (f : RollSide → RollSide) : Trains s (s.modSide x f) := trains_modConsist s _

theorem trains_sendSurvey (s : State) (x : Side) : Trains s (s.sendSurvey x) := by
  unfold State.sendSurvey
  dsimp only
  split
  · exact trains_of_sends (sends_trans (sends_build _ _ _ _ _ _) (sends_placeAt _ _ _))
  · exact trains_modSide s _ _

theorem trains_endIfComplete (s : State) : Trains s s.endIfComplete := by
  unfold State.endIfComplete
  split
  · exact trains_endSurvey s
  · exact trains_refl s

theorem trains_beginSurvey (s : State) : Trains s s.beginSurvey := by
  unfold State.beginSurvey
  dsimp only
  exact trains_trans (trains_trans (trains_trans (trains_trans (trains_modConsist s _) (trains_setConsist _ _))
    (trains_sendSurvey _ _)) (trains_sendSurvey _ _)) (trains_endIfComplete _)

theorem trains_takeRoll (s : State) (e : EndId) (t : Telegram) : Trains s (s.takeRoll e t) := by
  unfold State.takeRoll
  dsimp only
  split
  · split
    · exact trains_trans (trains_modSide s _ _) (trains_endIfComplete _)
    · exact trains_refl s
  · exact trains_refl s

theorem trains_abandonSurvey (s : State) : Trains s s.abandonSurvey := by
  unfold State.abandonSurvey
  split
  · exact trains_modConsist s _
  · exact trains_refl s

theorem trains_leaveLead (s : State) : Trains s s.leaveLead := by
  unfold State.leaveLead
  dsimp only
  exact trains_trans (trains_trans (trains_trans (trains_trans (trains_abandonSurvey s) (trains_modConsist _ _))
    (trains_of_heats (heats_stopRounds _))) (trains_of_doors (doors_emptyRecords _))) (trains_of_heats (heats_emptyBids _))

theorem trains_follow (s : State) (e : EndId) (t : Telegram) : Trains s (s.follow e t) := by
  unfold State.follow
  dsimp only
  exact trains_trans (trains_trans (trains_modConsist s _) (trains_setConsist _ _))
    (trains_of_sends (sends_trans (sends_build _ _ _ _ _ _) (sends_placeAt _ _ _)))

theorem trains_yieldTo (s : State) (e : EndId) (t : Telegram) : Trains s (s.yieldTo e t) := by
  unfold State.yieldTo
  dsimp only
  exact trains_trans (trains_trans (trains_trans (trains_trans (trains_trans (trains_trans (trains_leaveLead s)
    (trains_modConsist _ _)) (trains_of_marks (marks_raise _ _))) (trains_setCause _ _ _ _))
    (trains_of_doors (doors_evalSummary _))) (trains_follow _ _ _)) (trains_showHeader _ _)

theorem trains_takeSurvey (s : State) (e : EndId) (t : Telegram) : Trains s (s.takeSurvey e t).1 := by
  unfold State.takeSurvey
  split
  · split
    · exact trains_yieldTo s e t
    · split
      · exact trains_refl s
      · exact trains_trans (trains_setCause s _ _ _) (trains_beginSurvey _)
  · split
    · exact trains_follow s e t
    · exact trains_refl s

theorem trains_memberInstall (s : State) (r : Roster) (x : Followed) : Trains s (s.memberInstall r x) := by
  unfold State.memberInstall
  dsimp only
  exact trains_trans (trains_trans (trains_modConsist s _) (trains_afterInstall _)) (trains_of_doors (doors_startStat _))

theorem trains_takeRoster (s : State) (t : Telegram) : Trains s (s.takeRoster t) := by
  unfold State.takeRoster
  dsimp only
  split
  · split
    · exact trains_memberInstall s _ _
    · exact trains_refl s
  · exact trains_refl s

theorem trains_endWait (s : State) : Trains s s.endWait := by
  unfold State.endWait
  dsimp only
  exact trains_trans (trains_modConsist s _) (trains_setConsist _ _)

end Sys2Proof.Machine
end

