-- ==== Sys2Proof/Laws/Lines.lean ====
section
/-! SUPPORT. Lines and link changes: the output condition, what setting a line can touch, the identities of a link change,
when the summary and the consist page header are rewritten. -/

namespace Sys2Proof.Machine

/-! ### Output condition (R1) -/

/-- A held RESET turns every line off (log 5). -/
@[simp] theorem lineOutput_held {s : State} (h : s.resetHeld = true) (l : LineId) : s.lineOutput l = .off := by
  simp [State.lineOutput, h]

/-- A line carries bytes exactly while it is sending (R1). -/
theorem lineOutput_bytes_iff (s : State) (l : LineId) :
    s.lineOutput l = .bytes ↔ s.resetHeld = false ∧ (s.lineOf l).isSending = true := by
  unfold State.lineOutput LineUnit.isSending LineUnit.usable
  cases s.resetHeld <;> cases (s.lineOf l).state <;> simp
  split <;> simp

/-- Idle drive without bytes is offered by the DARK lines of an ACTIVE part whose end is not UNCOUPLED (R1). -/
theorem lineOutput_idle_iff (s : State) (l : LineId) :
    s.lineOutput l = .idle ↔ s.resetHeld = false ∧ (s.lineOf l).state = .dark ∧ s.part = .active
      ∧ (s.endOf l.side).state ≠ .uncoupled := by
  unfold State.lineOutput
  cases s.resetHeld <;> cases (s.lineOf l).state <;> simp

/-- In HALTED a line whose state is DARK is off (R10). -/
theorem lineOutput_halted {s : State} {l : LineId} (hp : s.part = .halted) (hd : (s.lineOf l).state = .dark) :
    s.lineOutput l = .off := by
  simp [State.lineOutput, hp, hd]

/-! ### Lines -/

/-- Setting a line moves that line, the lines of its end's telegram in transmission, and the pending flags. -/
theorem setLine_frame (s : State) (l : LineId) (u : LineUnit) :
    s.setLine l u = { s with
      lines := s.lines.set l u,
      ends := (s.setLine l u).ends, events := (s.setLine l u).events } := by
  unfold State.setLine
  dsimp only
  split <;> split <;> rfl

/-- A line that keeps its state takes its contents and nothing else moves. -/
theorem setLine_same {s : State} {l : LineId} {u : LineUnit} (h : (s.lineOf l).state = u.state) :
    s.setLine l u = { s with lines := s.lines.set l u } := by
  have hs : (s.lineOf l).isSending = u.isSending := by simp only [LineUnit.isSending, LineUnit.usable, h]
  unfold State.setLine
  simp only [h, hs, if_true]
  cases u.isSending <;> rfl

/-! ### Link changes (R18, R59) -/

@[simp] theorem LinkChange.identity_enter (e : EndId) (p : Option Ident) : (LinkChange.enter e p).identity = p.getD 0 := rfl

@[simp] theorem LinkChange.identity_leave (e : EndId) (p : Option Ident) : (LinkChange.leave e p).identity = p.getD 0 := rfl

@[simp] theorem LinkChange.identity_newPeer (e : EndId) (p : Option Ident) (i : Ident) :
    (LinkChange.newPeer e p i).identity = i := rfl

/-! ### Summary and header (R57, R116) -/

/-- After an evaluation the summary held is the one computed before it. -/
theorem evalSummary_summary (s : State) : s.evalSummary.door.summary = s.summaryNow := by
  unfold State.evalSummary
  split
  · next h => exact h.symm
  · rfl

/-- An evaluation right after another changes nothing. -/
@[simp] theorem evalSummary_twice (s : State) : s.evalSummary.evalSummary = s.evalSummary := by
  have h : s.evalSummary.summaryNow = s.summaryNow := by
    unfold State.evalSummary
    split <;> rfl
  rw [State.evalSummary, if_pos (h.trans (evalSummary_summary s).symm)]

/-- A summary that stands is not written. -/
theorem evalSummary_stands {s : State} (h : s.summaryNow = s.door.summary) : s.evalSummary = s := by
  simp [State.evalSummary, h]

/-- The header's rewrite moves revision counters alone. -/
theorem showHeader_frame (s : State) (c : ConsistUnit) :
    s.showHeader c = { s with revs := (s.showHeader c).revs } := by
  unfold State.showHeader
  split
  · unfold State.touchAgain
    rfl
  · rfl

end Sys2Proof.Machine
end

