-- ==== Sys2Proof/Laws/Relay.lean ====
section
/-! SUPPORT. Placement at the ends: what plain placement makes of each end, and when it enters a telegram (R47, R48, R50). -/

namespace Sys2Proof.Machine

theorem opp_ne (e : EndId) : e.opp ≠ e := by cases e <;> decide

theorem eq_or_eq_opp (e k : EndId) : k = e ∨ k = e.opp := by cases e <;> cases k <;> simp [EndId.opp]

@[simp] theorem endOf_modEnd (s : State) (e : EndId) (f : EndUnit → EndUnit) : (s.modEnd e f).endOf e = f (s.endOf e) := by
  cases e <;> rfl

theorem endOf_modEnd_of_ne (s : State) {e k : EndId} (h : k ≠ e) (f : EndUnit → EndUnit) :
    (s.modEnd e f).endOf k = s.endOf k := by
  cases e <;> cases k <;> first | rfl | exact absurd rfl h

/-- Lines decide which of them send; the ends do not. -/
theorem sendingLines_of_sends {s t : State} (h : Sends s t) (e : EndId) : t.sendingLines e = s.sendingLines e := by
  unfold Sends at h; rw [h]; rfl

theorem cfg_of_sends {s t : State} (h : Sends s t) : t.cfg = s.cfg := by
  unfold Sends at h; rw [h]

/-- A start at one end leaves the other. -/
theorem start_other (s : State) {e k : EndId} (h : k ≠ e) : (s.start e).1.endOf k = s.endOf k := by
  unfold State.start
  dsimp only
  split
  · rfl
  · split
    · exact endOf_modEnd_of_ne _ h _
    · split
      · split
        · exact endOf_modEnd_of_ne _ h _
        · rfl
      · rfl

theorem enterOrigin_other (s : State) {e k : EndId} (h : k ≠ e) (t : Telegram) : (s.enterOrigin e t).1.endOf k = s.endOf k := by
  unfold State.enterOrigin
  split
  · rw [start_other _ h, endOf_modEnd_of_ne _ h]
  · rfl

theorem placeAt_other (s : State) {e k : EndId} (h : k ≠ e) (t : Telegram) : (s.placeAt e t).1.endOf k = s.endOf k := by
  unfold State.placeAt
  split
  · exact enterOrigin_other s h t
  · rfl

/-- A transmitter that is busy, has no sending line, or is held by a received STOP with no HAIL due starts nothing. -/
theorem start_held (s : State) (e : EndId)
    (h : (s.endOf e).sending.isSome = true ∨ s.sendingLines e = [] ∨ ((s.endOf e).recvStop = true ∧ (s.endOf e).hailDue = false)) :
    (s.start e).1 = s := by
  unfold State.start
  dsimp only
  rcases h with h | h | ⟨h, k⟩
  · rw [if_pos (by simp [h])]
  · rw [if_pos (by simp [h])]
  · split
    · rfl
    · rw [if_neg (by simp [k]), if_neg (by simp [h])]

theorem admitOrigin_nil (t : Telegram) : admitOrigin t [] = some [t] := rfl

/-- What plain placement makes of its end (R47, R48, R50). -/
theorem placeAt_placed (s : State) (e : EndId) (t : Telegram) :
    Placed (s.sendingLines e) t (s.endOf e) ((s.placeAt e t).1.endOf e) := by
  refine ⟨fun h => ?_, fun h k => ?_, fun h h1 h2 h3 h4 h5 h6 => ?_⟩
  · unfold State.placeAt; rw [if_neg h]
  · unfold State.placeAt State.enterOrigin
    rw [if_pos h]
    cases a : admitOrigin t (s.endOf e).originQ with
    | none => rfl
    | some q =>
      have : ((s.modEnd e fun u => { u with originQ := q }).start e).1 = s.modEnd e fun u => { u with originQ := q } := by
        apply start_held
        rw [endOf_modEnd]
        exact k
      show ((s.modEnd e fun u => { u with originQ := q }).start e).1.endOf e = _
      rw [this, endOf_modEnd]
      rfl
  · unfold State.placeAt State.enterOrigin
    rw [if_pos h, h6, admitOrigin_nil]
    show ((s.modEnd e fun u => { u with originQ := [t] }).start e).1.endOf e = _
    unfold State.start
    dsimp only
    have sl : (s.modEnd e fun u => { u with originQ := [t] }).sendingLines e = s.sendingLines e := rfl
    rw [endOf_modEnd, sl, if_neg (by simp [h1, h2]), if_neg (by simp [h4]), if_pos (by simp [h, h3])]
    have ar : EndUnit.arbitrate { s.endOf e with originQ := [t] } (s.modEnd e fun u => { u with originQ := [t] }).cfg
        = some (false, t, { s.endOf e with originQ := [], relayRun := 0 }) := by
      unfold EndUnit.arbitrate; simp only [h5]
    rw [ar]
    show (State.modEnd _ e _).endOf e = _
    rw [endOf_modEnd]

/-- What plain placement out of both ends makes of each. -/
theorem placeBoth_placed (s : State) (t : Telegram) (e : EndId) :
    Placed (s.sendingLines e) t (s.endOf e) ((s.placeBoth t).1.endOf e) := by
  cases e with
  | a =>
    show Placed _ _ _ (((s.placeAt .a t).1.placeAt .b t).1.endOf .a)
    rw [placeAt_other _ (by decide)]
    exact placeAt_placed s .a t
  | b =>
    have := placeAt_placed (s.placeAt .a t).1 .b t
    rw [placeAt_other s (by decide), sendingLines_of_sends (sends_placeAt s .a t)] at this
    exact this

/-- When plain placement enters the telegram (R47). -/
theorem placeAt_enters (s : State) (e : EndId) (t : Telegram) : (s.placeAt e t).2 = s.enters e t := by
  unfold State.placeAt State.enterOrigin State.enters
  split
  · rename_i h
    cases admitOrigin t (s.endOf e).originQ <;> simp [h]
  · rename_i h
    simp [h]

theorem placeBoth_enters (s : State) (t : Telegram) : (s.placeBoth t).2 = (s.enters .a t, s.enters .b t) := by
  show ((s.placeAt .a t).2, ((s.placeAt .a t).1.placeAt .b t).2) = _
  rw [placeAt_enters, placeAt_enters]
  unfold State.enters
  rw [placeAt_other s (by decide)]

end Sys2Proof.Machine
end

