-- ==== Sys2Proof/Laws/Steps.lean ====
section
/-! SUPPORT. The end of a step: which records it rewrites, what they show, and the steps that rewrite none. -/

namespace Sys2Proof.Machine

/-! ### Records side by side -/

/-- The offset behind a page record's last byte. -/
def Rec.top : Rec → Nat
  | .front => 0x5C | .consist => 0x1400 | .lines => 0x144E | .trafficA => 0x1472 | .trafficB => 0x1492
  | .doorView => 0x14BC | .doorSummary => 0x1534 | .heatView => 0x158A | .allocTable => 0x171A | .ioView => 0x17D2
  | .slot n => slotBase n + 0x100

theorem rec_apart {r k : Rec} (hr : r ∈ pageRecs) (hk : k ∈ pageRecs) (h : r ≠ k) : r.top ≤ k.base ∨ k.top ≤ r.base := by
  simp only [pageRecs, List.mem_cons, List.not_mem_nil, or_false] at hr hk
  rcases hr with rfl | rfl | rfl | rfl | rfl | rfl | rfl | rfl | rfl | rfl <;>
    rcases hk with rfl | rfl | rfl | rfl | rfl | rfl | rfl | rfl | rfl | rfl <;>
    first
      | exact absurd rfl h
      | decide

/-- A record's runs lie behind its counter and below its top, in order. -/
theorem recordRuns_within (s : State) (r : Rec) (hr : r ∈ pageRecs) :
    (∀ x ∈ s.recordRuns r, r.base + 2 ≤ x.1 ∧ x.1 + 2 * x.2.length ≤ r.top)
      ∧ (s.recordRuns r).Pairwise (fun x y => x.1 + 2 * x.2.length ≤ y.1) := by
  simp only [pageRecs, List.mem_cons, List.not_mem_nil, or_false] at hr
  rcases hr with rfl | rfl | rfl | rfl | rfl | rfl | rfl | rfl | rfl | rfl <;>
    simp [State.recordRuns, Rec.base, Rec.top, length_frontHead, length_settingsWords, length_consistWords,
      length_slotWords, length_lineWords, length_trafficWords, length_doorViewWords, length_summaryWords,
      length_heatViewWords, length_allocWords, length_ioViewWords]

theorem writeRuns_outside (l : List (Nat × List Word)) (lo hi : Nat) :
    ∀ m : Memory, (∀ x ∈ l, lo ≤ x.1 ∧ x.1 + 2 * x.2.length ≤ hi) → ∀ k n, (k + 2 * n ≤ lo ∨ hi ≤ k) →
      (l.foldl (fun m x => m.writeWords x.1 x.2) m).readWords k n = m.readWords k n := by
  induction l with
  | nil => intro m _ k n _; rfl
  | cons x l ih =>
    intro m h k n hk
    rw [List.foldl_cons, ih _ (fun y hy => h y (by simp [hy])) k n hk]
    have := h x (by simp)
    exact memory_readWords_writeWords_of_outside m x.1 x.2 n k (by omega)

theorem writeRuns_shows (l : List (Nat × List Word)) :
    ∀ m : Memory, l.Pairwise (fun x y => x.1 + 2 * x.2.length ≤ y.1) →
      ∀ x ∈ l, (l.foldl (fun m x => m.writeWords x.1 x.2) m).readWords x.1 x.2.length = x.2 := by
  induction l with
  | nil => intro m _ x hx; cases hx
  | cons y l ih =>
    intro m h x hx
    rw [List.foldl_cons]
    rw [List.pairwise_cons] at h
    rcases List.mem_cons.mp hx with rfl | hx
    · have key : ∀ (l : List (Nat × List Word)) (m : Memory), (∀ z ∈ l, x.1 + 2 * x.2.length ≤ z.1) →
          (l.foldl (fun m x => m.writeWords x.1 x.2) m).readWords x.1 x.2.length = m.readWords x.1 x.2.length := by
        intro l
        induction l with
        | nil => intro m _; rfl
        | cons z l ih =>
          intro m hz
          rw [List.foldl_cons, ih _ fun w hw => hz w (by simp [hw])]
          exact memory_readWords_writeWords_of_outside m z.1 z.2 _ _ (Or.inl (hz z (by simp)))
      rw [key l _ h.1]
      exact memory_readWords_writeWords m x.1 x.2
    · exact ih _ h.2 x hx

/-- A record's write leaves the words outside its bounds. -/
theorem writeRecord_readWords (s : State) (r : Rec) (hr : r ∈ pageRecs) (k n : Nat) (h : k + 2 * n ≤ r.base ∨ r.top ≤ k) :
    (s.writeRecord r).mem.readWords k n = s.mem.readWords k n := by
  have w := (recordRuns_within s r hr).1
  have lt : r.base + 2 ≤ r.top := by
    simp only [pageRecs, List.mem_cons, List.not_mem_nil, or_false] at hr
    rcases hr with rfl | rfl | rfl | rfl | rfl | rfl | rfl | rfl | rfl | rfl <;> decide
  show Memory.readWords (List.foldl _ _ _) _ _ = _
  rw [writeRuns_outside _ (r.base + 2) r.top _ w k n (by omega)]
  exact memory_readWords_writeWords_of_outside s.mem r.base [s.rev r] n k
    (by simp only [List.length_cons, List.length_nil]; omega)

theorem readWords_one (m : Memory) (a : Nat) : m.readWords a 1 = [m.readWord a] := rfl

/-- A written record shows its counter and its fields (R169). -/
theorem writeRecord_shows (s : State) (r : Rec) (hr : r ∈ pageRecs) : (s.writeRecord r).shows r := by
  have w := recordRuns_within s r hr
  refine ⟨?_, ?_⟩
  · have e : (s.writeRecord r).mem.readWords r.base 1 = [s.rev r] := by
      show Memory.readWords (List.foldl _ _ _) _ _ = _
      rw [writeRuns_outside _ (r.base + 2) r.top _ w.1 r.base 1 (by omega), readWords_one, memory_readWord_writeWord]
    rw [readWords_one] at e
    exact (List.cons.inj e).1
  · intro x hx
    have hx' : x ∈ s.recordRuns r := by cases r <;> exact hx
    exact writeRuns_shows (s.recordRuns r) _ w.2 x hx'

/-- A record that is shown has each word of its runs at its place. -/
theorem shows_word {s : State} {r : Rec} (h : s.shows r) {x : Nat × List Word} (hx : x ∈ s.recordRuns r) {i : Nat}
    (hi : i < x.2.length) : s.mem.readWord (x.1 + 2 * i) = x.2.getD i 0 :=
  memory_readWord_of_readWords s.mem x.2 x.1 (h.2 x hx) i hi

/-- What a record shows depends on its own bytes, its counter and its fields alone. -/
theorem shows_congr {s t : State} {r : Rec} (hr : r ∈ pageRecs) (h : s.shows r) (v : t.rev r = s.rev r)
    (f : t.recordRuns r = s.recordRuns r)
    (m : ∀ k n, r.base ≤ k → k + 2 * n ≤ r.top → t.mem.readWords k n = s.mem.readWords k n) : t.shows r := by
  have w := (recordRuns_within s r hr).1
  have lt : r.base + 2 ≤ r.top := by
    simp only [pageRecs, List.mem_cons, List.not_mem_nil, or_false] at hr
    rcases hr with rfl | rfl | rfl | rfl | rfl | rfl | rfl | rfl | rfl | rfl <;> decide
  refine ⟨?_, ?_⟩
  · have e := m r.base 1 (le_refl _) (by omega)
    rw [readWords_one, readWords_one] at e
    rw [(List.cons.inj e).1, h.1, v]
  · rw [f]
    intro x hx
    have := w x hx
    rw [m x.1 x.2.length (by omega) this.2]
    exact h.2 x hx

theorem recordRuns_setRev (s : State) (k r : Rec) (v : Word) : (s.setRev k v).recordRuns r = s.recordRuns r := by
  cases r <;> rfl

theorem recordRuns_writeRecord (s : State) (k r : Rec) : (s.writeRecord k).recordRuns r = s.recordRuns r := by
  cases r <;> rfl

/-- Another record's rewriting leaves what a record shows. -/
theorem closeRecord_other (s0 s : State) {k r : Rec} (hk : k ∈ pageRecs) (hr : r ∈ pageRecs) (h : k ≠ r) :
    (State.closeRecord s0 s k).rev r = s.rev r ∧ (State.closeRecord s0 s k).recordRuns r = s.recordRuns r
      ∧ ∀ a n, r.base ≤ a → a + 2 * n ≤ r.top → (State.closeRecord s0 s k).mem.readWords a n = s.mem.readWords a n := by
  have ap := rec_apart hk hr h
  have one : ∀ v, ((s.setRev k v).writeRecord k).rev r = s.rev r
      ∧ ((s.setRev k v).writeRecord k).recordRuns r = s.recordRuns r
      ∧ ∀ a n, r.base ≤ a → a + 2 * n ≤ r.top → ((s.setRev k v).writeRecord k).mem.readWords a n = s.mem.readWords a n := by
    intro v
    refine ⟨rev_setRev_of_ne s hk hr h v, ?_, ?_⟩
    · rw [recordRuns_writeRecord, recordRuns_setRev]
    · intro a n h1 h2
      rw [writeRecord_readWords _ k hk a n (by omega)]
      rfl
  unfold State.closeRecord
  split
  · exact one _
  · split
    · exact one _
    · exact ⟨rfl, rfl, fun _ _ _ _ => rfl⟩

/-- The counter after a step's end: even, and stepped if the record was begun or its fields differ. -/
def closedRev (s0 s : State) (r : Rec) : Word :=
  if (s.rev r).getLsbD 0 then s.rev r + 1
  else if r.byChange && s.recordRuns r != s0.recordRuns r then s.rev r + 2 else s.rev r

/-- A step's end record by record (R169): the counter, the fields, and either the record is rewritten and shows its fields,
or its counter and its bytes are as they were. -/
theorem publish_record (s0 s : State) (r : Rec) (hr : r ∈ pageRecs) :
    (State.publish s0 s).rev r = closedRev s0 s r ∧ (State.publish s0 s).recordRuns r = s.recordRuns r
      ∧ (if (s.rev r).getLsbD 0 || (r.byChange && s.recordRuns r != s0.recordRuns r) then (State.publish s0 s).shows r
         else ∀ a n, r.base ≤ a → a + 2 * n ≤ r.top → (State.publish s0 s).mem.readWords a n = s.mem.readWords a n) := by
  have other : ∀ (l : List Rec), (∀ k ∈ l, k ∈ pageRecs) → r ∉ l → ∀ s : State,
      (l.foldl (fun s k => State.closeRecord s0 s k) s).rev r = s.rev r
      ∧ (l.foldl (fun s k => State.closeRecord s0 s k) s).recordRuns r = s.recordRuns r
      ∧ ∀ a n, r.base ≤ a → a + 2 * n ≤ r.top →
          (l.foldl (fun s k => State.closeRecord s0 s k) s).mem.readWords a n = s.mem.readWords a n := by
    intro l
    induction l with
    | nil => intro _ _ s; exact ⟨rfl, rfl, fun _ _ _ _ => rfl⟩
    | cons k l ih =>
      intro hl hn s
      rw [List.foldl_cons]
      obtain ⟨a, b, e⟩ := ih (fun k hk => hl k (by simp [hk])) (fun h => hn (by simp [h])) (State.closeRecord s0 s k)
      obtain ⟨a', b', e'⟩ := closeRecord_other s0 s (hl k (by simp)) hr (fun h => hn (by simp [h]))
      exact ⟨a.trans a', b.trans b', fun x n h1 h2 => (e x n h1 h2).trans (e' x n h1 h2)⟩
  obtain ⟨l, l', e⟩ := List.append_of_mem hr
  have nd : pageRecs.Nodup := by decide
  rw [e, List.nodup_append] at nd
  obtain ⟨_, nd2, nd3⟩ := nd
  have hl : r ∉ l := fun h => nd3 r h r (by simp) rfl
  have hl' : r ∉ l' := (List.nodup_cons.mp nd2).1
  have il : ∀ k ∈ l, k ∈ pageRecs := fun k hk => by rw [e]; simp [hk]
  have il' : ∀ k ∈ l', k ∈ pageRecs := fun k hk => by rw [e]; simp [hk]
  obtain ⟨a1, b1, c1⟩ := other l il hl s
  have hp : State.publish s0 s = l'.foldl (fun s k => State.closeRecord s0 s k)
      (State.closeRecord s0 (l.foldl (fun s k => State.closeRecord s0 s k) s) r) := by
    unfold State.publish; rw [e, List.foldl_append, List.foldl_cons]
  rw [hp]
  generalize l.foldl (fun s k => State.closeRecord s0 s k) s = u at *
  obtain ⟨a2, b2, c2⟩ := other l' il' hl' (State.closeRecord s0 u r)
  have cr : State.closeRecord s0 u r =
      if (s.rev r).getLsbD 0 then (u.setRev r (s.rev r + 1)).writeRecord r
      else if r.byChange && s.recordRuns r != s0.recordRuns r then (u.setRev r (s.rev r + 2)).writeRecord r else u := by
    unfold State.closeRecord; rw [a1, b1]
  have shown : ∀ v, State.closeRecord s0 u r = (u.setRev r v).writeRecord r →
      (l'.foldl (fun s k => State.closeRecord s0 s k) (State.closeRecord s0 u r)).rev r = v
      ∧ (l'.foldl (fun s k => State.closeRecord s0 s k) (State.closeRecord s0 u r)).recordRuns r = s.recordRuns r
      ∧ (l'.foldl (fun s k => State.closeRecord s0 s k) (State.closeRecord s0 u r)).shows r := by
    intro v hv
    refine ⟨?_, ?_, ?_⟩
    · rw [a2, hv]; exact rev_setRev u r v
    · rw [b2, hv, recordRuns_writeRecord, recordRuns_setRev, b1]
    · exact shows_congr hr (hv ▸ writeRecord_shows (u.setRev r v) r hr) a2 b2 c2
  unfold closedRev
  by_cases h1 : (s.rev r).getLsbD 0 = true
  · rw [if_pos h1] at cr
    obtain ⟨x, y, z⟩ := shown _ cr
    rw [if_pos h1]
    refine ⟨x, y, ?_⟩
    rw [if_pos (by rw [h1]; rfl)]
    exact z
  · rw [if_neg h1] at cr ⊢
    have h1' : (s.rev r).getLsbD 0 = false := by simpa using h1
    by_cases h2 : (r.byChange && s.recordRuns r != s0.recordRuns r) = true
    · rw [if_pos h2] at cr ⊢
      obtain ⟨x, y, z⟩ := shown _ cr
      refine ⟨x, y, ?_⟩
      rw [if_pos (by rw [h2]; simp)]
      exact z
    · rw [if_neg h2] at cr ⊢
      refine ⟨by rw [a2, cr, a1], by rw [b2, cr, b1], ?_⟩
      rw [if_neg (by simp only [Bool.or_eq_true, not_or]; exact ⟨h1, h2⟩)]
      intro a n x y
      rw [c2 a n x y, cr, c1 a n x y]

/-! ### A step that rewrites no record -/

theorem closeRecord_eq (s0 s : State) (r : Rec) (h : (s.rev r).getLsbD 0 = false)
    (k : r.byChange = true → s.recordRuns r = s0.recordRuns r) : State.closeRecord s0 s r = s := by
  unfold State.closeRecord
  rw [if_neg (by rw [h]; exact Bool.false_ne_true)]
  by_cases b : r.byChange = true
  · simp [k b]
  · simp [b]

/-- A step that begins no rewrite and changes no field of a record rewritten by change has no page to write. -/
theorem publish_eq (s0 s : State) (h : s.evenPages)
    (k : ∀ r ∈ pageRecs, r.byChange = true → s.recordRuns r = s0.recordRuns r) : State.publish s0 s = s := by
  have key : ∀ (l : List Rec), (∀ r ∈ l, r ∈ pageRecs) → l.foldl (fun s r => State.closeRecord s0 s r) s = s := by
    intro l
    induction l with
    | nil => intro _; rfl
    | cons r l ih =>
      intro hl
      rw [List.foldl_cons, closeRecord_eq s0 s r (h r (hl r (by simp))) (k r (hl r (by simp)))]
      exact ih fun r hr => hl r (by simp [hr])
  exact key pageRecs fun _ h => h

/-- A step of the part whose effect moves no page field answers that effect itself. -/
theorem partStep_eq (f : State → State) (s : State) (h : s.resetHeld = false) (e : (f s).evenPages)
    (k : ∀ r ∈ pageRecs, r.byChange = true → (f s).recordRuns r = s.recordRuns r) : partStep f s = .next (f s) := by
  simp [partStep, h, publish_eq s (f s) e k]

/-- A command that runs a step of the part yields its effect. -/
theorem yields_partStep {c : Instr} {s : State} {f : State → State} (e : exec c s = partStep f s)
    (h : s.resetHeld = false) : Yields c s (f s) := by
  obtain ⟨t, a, b⟩ := partStep_next f s h
  exact ⟨t, e.trans a, b⟩

end Sys2Proof.Machine
end

