-- ==== Sys2Proof/Laws/Orders.lean ====
section
/-! SUPPORT. The order unit's commands: which order runs, what its completion leaves, and how both survive the rewriting of
the pages (R176, R177, R178). -/

namespace Sys2Proof.Machine

/-- An executing order of the command's kind runs. -/
theorem completing_eq (s : State) (mine : Word → Bool) (run : State → OrderCopy → State) (o : OrderCopy)
    (h : s.orders.executing = some o) (k : mine o.kind = true) : s.completing mine run = run s o := by
  unfold State.completing; rw [h]; exact if_pos k

/-- With no executing order of the command's kind nothing runs (log 20). -/
theorem completing_none (s : State) (mine : Word → Bool) (run : State → OrderCopy → State)
    (h : ∀ o, s.orders.executing = some o → mine o.kind = false) : s.completing mine run = s := by
  unfold State.completing
  split
  · rename_i o ho; rw [if_neg (by rw [h o ho]; exact Bool.false_ne_true)]
  · rfl

theorem inActive_active (s : State) (o : OrderCopy) (run : State → OrderCopy → State) (h : s.part = .active) :
    s.inActive o run = run s o := if_pos h

theorem inActive_halted (s : State) (o : OrderCopy) (run : State → OrderCopy → State) (h : s.part = .halted) :
    s.inActive o run = s.complete o .wrongState [] := if_neg (by rw [h]; decide)

/-- A completion, field by field (R177). -/
theorem complete_eq (s : State) (o : OrderCopy) (r : ResultCode) (f : List Word) :
    s.complete o r f = { s with
      orders := { s.orders with executing := none }, events := (s.raise .orderDone).events,
      mem := (s.writeOutcome o.block r f).mem } := rfl

/-! ### Through the pages -/

/-- The bytes of an order block are no page bytes. -/
theorem isPageByte_block (b : Fin 16) (a : Nat) (h : blockBase b ≤ a) (k : a < blockBase b + 0x100) : isPageByte a = false := by
  simp only [blockBase] at h k
  simp only [isPageByte, Bool.or_eq_false_iff, Bool.and_eq_false_iff, decide_eq_false_iff_not]
  omega

/-- Words of an order block read the same up to the pages. -/
theorem block_readWords {u t : State} (h : UpToPages u t) (b : Fin 16) (n : Nat) :
    ∀ k, blockBase b ≤ k → k + 2 * n ≤ blockBase b + 0x100 → t.mem.readWords k n = u.mem.readWords k n := by
  induction n with
  | zero => intro k _ _; rfl
  | succ n ih =>
    intro k h1 h2
    simp only [Memory.readWords, Memory.readWord]
    rw [ih (k + 2) (by omega) (by omega), h.2.1 _ (isPageByte_block b k h1 (by omega)),
      h.2.1 _ (isPageByte_block b (k + 1) (by omega) (by omega))]

/-- A block's status reads the same up to the pages. -/
theorem block_status {u t : State} (h : UpToPages u t) (b : Fin 16) : t.blockStatus b = u.blockStatus b := by
  have := block_readWords h b 1 (blockBase b) (le_refl _) (by omega)
  simp only [readWords_one, List.cons.injEq, and_true] at this
  exact this

/-- A shorter run of words. -/
theorem readWords_take {m : Memory} {l : List Word} : ∀ {n k j : Nat}, m.readWords k n = l → j ≤ n →
    m.readWords k j = l.take j := by
  intro n
  induction n generalizing l with
  | zero => intro k j h hj; subst h; rw [Nat.le_zero.mp hj]; rfl
  | succ n ih =>
    intro k j h hj
    subst h
    cases j with
    | zero => rfl
    | succ j => simp only [Memory.readWords, List.take_succ_cons]; rw [ih rfl (by omega)]

/-- What the host finds after a step whose effect ends in a completion (R177, R178). -/
theorem completed {u t : State} {o : OrderCopy} {r : ResultCode} {f : List Word} (h : UpToPages (u.complete o r f) t) :
    t.blockStatus o.block = r.status ∧ t.mem.readWords (blockBase o.block + 4) 14 = r.code :: resultWords f
      ∧ t.isPending .orderDone = true ∧ (∀ c, c ≠ .orderDone → t.isPending c = u.isPending c)
      ∧ t = { u with
                orders := { u.orders with executing := none }, events := t.events, revs := t.revs, mem := t.mem }
      ∧ ∀ a, isPageByte a = false → (a < blockBase o.block ∨ (blockBase o.block + 2 ≤ a ∧ a < blockBase o.block + 4)
          ∨ blockBase o.block + 32 ≤ a) → t.mem.read a = u.mem.read a := by
  have ev : t.events = (u.complete o r f).events := by rw [h.1]
  refine ⟨?_, ?_, ?_, ?_, ?_, ?_⟩
  · rw [block_status h]; exact blockStatus_writeOutcome u o.block r f
  · rw [block_readWords h o.block 14 _ (by omega) (by omega)]; exact writeOutcome_fields u o.block r f
  · unfold State.isPending; rw [ev]; exact isPending_raise _ _
  · intro c hc; unfold State.isPending; rw [ev]; exact isPending_raise_of_ne _ hc
  · have key : ∀ v : State,
        v = { u with orders := { u.orders with executing := none }, events := v.events, mem := v.mem } →
        t = { v with mem := t.mem, revs := t.revs } →
        t = { u with
                orders := { u.orders with executing := none }, events := t.events, revs := t.revs, mem := t.mem } := by
      intro v hv ht; rw [ht, hv]
    exact key _ rfl h.1
  · intro a ha hb
    rw [h.2.1 a ha]
    exact writeOutcome_read u o.block r f a hb

end Sys2Proof.Machine
end

