-- ==== Sys2Proof/Laws/Resets.lean ====
section
/-! SUPPORT. The resets: the pages written at power-on, the counters begun at a soft reset, the blocks aborted (R169, R184,
R185). -/

namespace Sys2Proof.Machine

/-- Writing page records leaves everything but page bytes. -/
theorem writeRecords_eq (l : List Rec) (hl : ∀ r ∈ l, r ∈ pageRecs) : ∀ s : State,
    l.foldl State.writeRecord s = { s with mem := (l.foldl State.writeRecord s).mem }
      ∧ (∀ r, (l.foldl State.writeRecord s).recordRuns r = s.recordRuns r)
      ∧ (∀ a, isPageByte a = false → (l.foldl State.writeRecord s).mem.read a = s.mem.read a)
      ∧ (s.mem.wf → (l.foldl State.writeRecord s).mem.wf)
      ∧ (∀ r ∈ pageRecs, r ∉ l → ∀ a n, r.base ≤ a → a + 2 * n ≤ r.top →
          (l.foldl State.writeRecord s).mem.readWords a n = s.mem.readWords a n) := by
  induction l with
  | nil => intro s; exact ⟨rfl, fun _ => rfl, fun _ _ => rfl, id, fun _ _ _ _ _ _ _ => rfl⟩
  | cons k l ih =>
    intro s
    have hk := hl k (by simp)
    obtain ⟨a, b, e, w, f⟩ := ih (fun r hr => hl r (by simp [hr])) (s.writeRecord k)
    rw [List.foldl_cons]
    refine ⟨?_, fun r => (b r).trans (recordRuns_writeRecord s k r), fun x hx => (e x hx).trans (writeRecord_read s k hk x hx),
      fun h => w (writeRecord_wf s k h), ?_⟩
    · rw [a]; rfl
    · intro r hr hn x n h1 h2
      rw [f r hr (fun h => hn (by simp [h])) x n h1 h2]
      have := rec_apart hk hr (fun h => hn (by simp [h]))
      exact writeRecord_readWords s k hk x n (by omega)

/-- Every page record shows its counter and fields after all have been written. -/
theorem writePages_shows (s : State) (r : Rec) (hr : r ∈ pageRecs) : s.writePages.shows r := by
  obtain ⟨l, l', e⟩ := List.append_of_mem hr
  have nd : pageRecs.Nodup := by decide
  rw [e, List.nodup_append] at nd
  have hn : r ∉ l' := (List.nodup_cons.mp nd.2.1).1
  have il' : ∀ k ∈ l', k ∈ pageRecs := fun k hk => by rw [e]; simp [hk]
  have hw : s.writePages = l'.foldl State.writeRecord ((l.foldl State.writeRecord s).writeRecord r) := by
    unfold State.writePages; rw [e, List.foldl_append, List.foldl_cons]
  rw [hw]
  obtain ⟨a, b, _, _, f⟩ := writeRecords_eq l' il' ((l.foldl State.writeRecord s).writeRecord r)
  exact shows_congr hr (writeRecord_shows _ r hr) (by rw [a]; rfl) (b r) (f r hr hn)

theorem rev_touch_of_ne (s : State) {k r : Rec} (hk : k ∈ pageRecs) (hr : r ∈ pageRecs) (h : k ≠ r) :
    (s.touch k).rev r = s.rev r := by
  unfold State.touch; split
  · rfl
  · exact rev_setRev_of_ne s hk hr h _

theorem rev_touch (s : State) (r : Rec) (h : (s.rev r).getLsbD 0 = false) : (s.touch r).rev r = s.rev r + 1 := by
  unfold State.touch; rw [if_neg (by rw [h]; exact Bool.false_ne_true)]; exact rev_setRev s r _

/-- Beginning a rewrite of every page record steps every even counter once, and moves nothing else. -/
theorem touchAll_spec (s : State) :
    s.touchAll = { s with revs := s.touchAll.revs } ∧ (∀ n : Fin 8, s.touchAll.rev (.slot n) = s.rev (.slot n))
      ∧ (s.evenPages → ∀ r ∈ pageRecs, s.touchAll.rev r = s.rev r + 1) := by
  have key : ∀ (l : List Rec), (∀ r ∈ l, r ∈ pageRecs) → l.Nodup → ∀ s : State,
      l.foldl State.touch s = { s with revs := (l.foldl State.touch s).revs }
      ∧ (∀ n : Fin 8, (l.foldl State.touch s).rev (.slot n) = s.rev (.slot n))
      ∧ (∀ r ∈ pageRecs, r ∉ l → (l.foldl State.touch s).rev r = s.rev r)
      ∧ (∀ r ∈ l, (s.rev r).getLsbD 0 = false → (l.foldl State.touch s).rev r = s.rev r + 1) := by
    intro l
    induction l with
    | nil => intro _ _ s; exact ⟨rfl, fun _ => rfl, fun _ _ _ => rfl, fun _ h => by cases h⟩
    | cons k l ih =>
      intro hl nd s
      have hk := hl k (by simp)
      rw [List.nodup_cons] at nd
      obtain ⟨a, b, d, e⟩ := ih (fun r hr => hl r (by simp [hr])) nd.2 (s.touch k)
      rw [List.foldl_cons]
      refine ⟨?_, fun n => (b n).trans ((marks_touch s k hk).2.1 n), ?_, ?_⟩
      · rw [a]; unfold State.touch; split <;> rfl
      · intro r hr hn
        rw [d r hr (fun h => hn (by simp [h])), rev_touch_of_ne s hk hr (fun h => hn (by simp [h]))]
      · intro r hr ev
        by_cases h : k = r
        · subst h; rw [d k hk nd.1, rev_touch s k ev]
        · have hr' : r ∈ l := by rcases List.mem_cons.mp hr with h' | h'; exact absurd h'.symm h; exact h'
          have hp := hl r hr
          rw [e r hr' (by rw [rev_touch_of_ne s hk hp h]; exact ev), rev_touch_of_ne s hk hp h]
  obtain ⟨a, b, _, d⟩ := key pageRecs (fun _ h => h) (by decide) s
  exact ⟨a, b, fun ev r hr => d r hr (ev r hr)⟩

theorem mem_allBlocks (b : Fin 16) : b ∈ allBlocks := by revert b; decide

/-- The blocks aborted: each held block carries ABORTED and result fields 0, and no other byte moves (R185). -/
theorem abortBlocks_spec (s : State) :
    s.abortBlocks = { s with mem := s.abortBlocks.mem }
      ∧ (∀ b, s.blockHeld b = true → s.abortBlocks.blockStatus b = stABORTED
          ∧ s.abortBlocks.mem.readWords (blockBase b + 4) 14 = 13 :: List.replicate 13 0)
      ∧ (∀ b, s.blockHeld b = false → s.abortBlocks.blockStatus b = s.blockStatus b)
      ∧ (∀ a, (∀ b, s.blockHeld b = true →
            a < blockBase b ∨ (blockBase b + 2 ≤ a ∧ a < blockBase b + 4) ∨ blockBase b + 32 ≤ a) →
          s.abortBlocks.mem.read a = s.mem.read a)
      ∧ (s.mem.wf → s.abortBlocks.mem.wf) := by
  have rw0 : resultWords [] = List.replicate 13 0 := by decide
  have key : ∀ (l : List (Fin 16)), l.Nodup → ∀ s : State,
      l.foldl State.abortBlock s = { s with mem := (l.foldl State.abortBlock s).mem }
      ∧ (∀ b ∈ l, s.blockHeld b = true → (l.foldl State.abortBlock s).blockStatus b = stABORTED
          ∧ (l.foldl State.abortBlock s).mem.readWords (blockBase b + 4) 14 = 13 :: List.replicate 13 0)
      ∧ (∀ b, b ∉ l ∨ s.blockHeld b = false → (l.foldl State.abortBlock s).blockStatus b = s.blockStatus b
          ∧ (l.foldl State.abortBlock s).mem.readWords (blockBase b + 4) 14 = s.mem.readWords (blockBase b + 4) 14)
      ∧ (∀ a, (∀ b ∈ l, s.blockHeld b = true →
            a < blockBase b ∨ (blockBase b + 2 ≤ a ∧ a < blockBase b + 4) ∨ blockBase b + 32 ≤ a) →
          (l.foldl State.abortBlock s).mem.read a = s.mem.read a)
      ∧ (s.mem.wf → (l.foldl State.abortBlock s).mem.wf) := by
    intro l
    induction l with
    | nil => intro _ s; exact ⟨rfl, fun _ h => (by cases h), fun _ _ => ⟨rfl, rfl⟩, fun _ _ => rfl, id⟩
    | cons k l ih =>
      intro nd s
      rw [List.nodup_cons] at nd
      obtain ⟨a, b, d, e, w⟩ := ih nd.2 (s.abortBlock k)
      have st : ∀ c, k ≠ c → (s.abortBlock k).blockStatus c = s.blockStatus c := by
        intro c hc; unfold State.abortBlock; split
        · exact blockStatus_writeOutcome_of_ne s hc _ _
        · rfl
      have rs : ∀ c, k ≠ c → (s.abortBlock k).mem.readWords (blockBase c + 4) 14 = s.mem.readWords (blockBase c + 4) 14 := by
        intro c hc; unfold State.abortBlock; split
        · have ne := blockBase_ne hc
          show Memory.readWords (Memory.writeWords (Memory.writeWords s.mem _ _) _ _) _ _ = _
          rw [memory_readWords_writeWords_of_outside _ _ _ _ _ (by simp only [List.length_cons, List.length_nil]; omega),
            memory_readWords_writeWords_of_outside _ _ _ _ _ (by simp only [List.length_cons, length_resultWords]; omega)]
        · rfl
      have held : ∀ c, k ≠ c → (s.abortBlock k).blockHeld c = s.blockHeld c := by
        intro c hc; unfold State.blockHeld; rw [st c hc]
      rw [List.foldl_cons]
      refine ⟨?_, ?_, ?_, ?_, ?_⟩
      · rw [a]; unfold State.abortBlock; split <;> rfl
      · intro c hc hh
        by_cases h : k = c
        · subst h
          obtain ⟨x, y⟩ := d k (Or.inl nd.1)
          have ab : s.abortBlock k = s.writeOutcome k .aborted [] := by unfold State.abortBlock; rw [if_pos hh]
          rw [x, y, ab]
          refine ⟨blockStatus_writeOutcome s k _ _, ?_⟩
          rw [writeOutcome_fields, rw0]; rfl
        · have hc' : c ∈ l := by rcases List.mem_cons.mp hc with h' | h'; exact absurd h'.symm h; exact h'
          exact b c hc' (by rw [held c h]; exact hh)
      · intro c hc
        by_cases h : k = c
        · subst h
          have hh : s.blockHeld k = false := by rcases hc with hc | hc; exact absurd (by simp) hc; exact hc
          have ab : s.abortBlock k = s := by unfold State.abortBlock; rw [if_neg (by rw [hh]; exact Bool.false_ne_true)]
          rw [ab] at d ⊢
          exact d k (Or.inr hh)
        · have := d c (by
            rcases hc with hc | hc
            · exact Or.inl fun h' => hc (by simp [h'])
            · exact Or.inr (by rw [held c h]; exact hc))
          exact ⟨this.1.trans (st c h), this.2.trans (rs c h)⟩
      · intro x hx
        have x1 : (s.abortBlock k).mem.read x = s.mem.read x := by
          unfold State.abortBlock; split
          · rename_i hh; exact writeOutcome_read s k _ _ x (hx k (by simp) hh)
          · rfl
        rw [e x ?_, x1]
        intro c hc hh
        have ne : k ≠ c := fun h => nd.1 (h ▸ hc)
        rw [held c ne] at hh
        exact hx c (by simp [hc]) hh
      · intro hw
        apply w
        unfold State.abortBlock; split
        · exact memory_wf_writeWords _ _ _ (memory_wf_writeWords _ _ _ hw)
        · exact hw
  obtain ⟨a, b, d, e, w⟩ := key allBlocks (by decide) s
  exact ⟨a, fun c h => b c (mem_allBlocks c) h, fun c h => (d c (Or.inr h)).1, fun x hx => e x fun c _ h => hx c h, w⟩

/-- A soft reset, field by field (R185). -/
theorem softUnits_eq (s : State) :
    s.softUnits = { s with
      part := .halted, cause := .soft, gpHeld := true, ms := 0, cfg := .reset, seqs := Vector.replicate 12 1,
      lines := ⟨.reset, .reset, .reset, .reset⟩, ends := ⟨.reset s.inputs.cplA.raw, .reset s.inputs.cplB.raw⟩,
      consist := .reset, door := .reset, heat := .reset, inFlight := [], inputs := s.inputs.requalified,
      outputs := s.outputs &&& 0xE00, orders := .reset, events := .reset,
      mem := s.abortBlocks.mem.writeWords 0x1400 [0] } := by
  have a := (abortBlocks_spec s).1
  unfold State.softUnits State.resetUnits State.modMem
  rw [a]
  rfl

theorem softReset_eq (s : State) : s.softReset = { s.softUnits with revs := s.softReset.revs } := (touchAll_spec _).1

theorem softReset_rev (s : State) (h : s.evenPages) (r : Rec) (hr : r ∈ pageRecs) : s.softReset.rev r = s.rev r + 1 := by
  have e : ∀ r, s.softUnits.rev r = s.rev r := fun r => by rw [softUnits_eq]; rfl
  show s.softUnits.touchAll.rev r = _
  rw [(touchAll_spec s.softUnits).2.2 (fun r hr => by rw [e]; exact h r hr) r hr, e]

theorem softReset_slot (s : State) (n : Fin 8) : s.softReset.rev (.slot n) = s.rev (.slot n) := by
  show s.softUnits.touchAll.rev _ = _
  rw [(touchAll_spec s.softUnits).2.1 n, softUnits_eq]; rfl

end Sys2Proof.Machine
end

