-- ==== Sys2Proof/Tests/Slice0.lean ====
section
/-! SUPPORT. Tests: the operand check on ill-formed commands, worked cases of the spec, and for each statement states that
meet its premises. -/

namespace Sys2Proof.Tests

open Sys2Proof Sys2Proof.Machine

set_option Elab.async false

/-! ### The operand check -/

theorem test_softReset_needs_bit1 : (Instr.softReset 1).wellFormed = false ∧ (Instr.softReset 2).wellFormed = true := by decide

theorem test_setEnable_refuses_bit1 : (Instr.setEnable 3).wellFormed = false ∧ (Instr.setEnable 1).wellFormed = true := by
  decide

theorem test_statusWord_is_no_plain_word :
    (Instr.exchangeMemoryWrite 0x80 1).wellFormed = false ∧ (Instr.exchangeMemoryWrite 0x800 1).wellFormed = false
      ∧ (Instr.exchangeMemoryWrite 0x81 1).wellFormed = true ∧ (Instr.exchangeMemoryWrite 0x880 1).wellFormed = true := by
  decide

theorem test_register_is_no_memory_word :
    (Instr.exchangeMemoryWrite 0x3FFA 1).wellFormed = false ∧ (Instr.exchangeMemoryWrite 0x3FF9 1).wellFormed = true := by
  decide

theorem test_flow_characters_are_no_bytes (l : LineId) :
    (Instr.byteReceived l 0xF4).wellFormed = false ∧ (Instr.byteReceived l 0xF5).wellFormed = false
      ∧ (Instr.byteReceived l 0xF3).wellFormed = true := ⟨rfl, rfl, rfl⟩

/-! ### Small states -/

/-- Settings of a lead with six stages and both door sides. -/
def cfgT : Settings :=
  { Settings.reset with
    identity := 0x1001, role := .lead, rank := 2, fitted := ⟨true, true⟩, size := 20, count := 6, fallback := 2 }

/-- A line in use. -/
def lineUp : LineUnit := { LineUnit.reset with state := .up, energy := true, score := 3 }

/-- An end in use. -/
def endUp : EndUnit := { EndUnit.reset true with state := .linked, link := some 0 }

/-- An asserted input. -/
def inputOn : InputRec := ⟨true, true, none⟩

/-- A train of two coaches: a member at position 1, the lead at position 2. -/
def rosterT : Roster :=
  ⟨7, 0x1001, 2, 1, false, false, false, [⟨0x2002, 1, false, true, 3, 20, 6⟩, ⟨0x1001, 1, true, true, 3, 20, 6⟩]⟩

/-- An ACTIVE part, both ends LINKED, zero speed, doors closed, supply present. -/
def act : State :=
  { State.reset with
    part := .active, cfg := cfgT, lines := ⟨lineUp, lineUp, lineUp, lineUp⟩, ends := ⟨endUp, endUp⟩,
    inputs := ⟨inputOn, inputOn, inputOn, inputOn, inputOn, .reset false, .reset false⟩ }

/-- The lead of the train, FORMED. -/
def leadS : State :=
  { act with
    consist := { ConsistUnit.reset with
      role := .lead, roleState := .lead, state := .formed, roster := some rosterT, position := 2, orientation := 1,
      lastGeneration := 7, terminal := true } }

/-- The member of the train, FORMED, with the lead at its End B. -/
def memberS : State :=
  { act with
    cfg := { cfgT with identity := 0x2002 },
    consist := { ConsistUnit.reset with
      state := .formed, roster := some rosterT, position := 1, orientation := 1, leadEnd := some .b, awayEnd := some .a,
      lastGeneration := 7, terminal := true } }

/-- The consist unit of a state with another consist state. -/
def inState (s : State) (x : ConsistState) : State := { s with consist := { s.consist with state := x } }

/-- A state whose order unit executes an order in block 3. -/
def exe (s : State) (k : Word) (ps : List Word) : State :=
  { s with orders := { s.orders with executing := some ⟨3, k, ps⟩ } }

/-- A telegram of another coach as its originator builds it. -/
def tele (k : Kind) (x : Scope) (dest : Ident) (body route : List Byte) : Telegram := buildTelegram k x 0x2002 dest 9 body route

/-- A state with a telegram at the head of End A's receive buffer. -/
def holding (s : State) (t : Telegram) : State :=
  { s with ends := { s.ends with a := { s.ends.a with buffer := [t] } } }

/-- The state a command leads to. -/
def after (c : Instr) (s : State) : State :=
  match exec c s with
  | .next t => t
  | .fault f => nomatch f
  | .refused _ => s

/-! ### Worked cases -/

/-- The bids of the worked cases of chapter 7. -/
def asksT : List Ask :=
  [⟨4, .comfort, 20⟩, ⟨2, .essential, 15⟩, ⟨6, .comfort, 20⟩, ⟨5, .comfort, 24⟩, ⟨3, .essential, 10⟩]

theorem test_allocation_full_supply : effective 400 90 true = 360 ∧ allocate 360 asksT = [4, 2, 6, 4, 3] := by decide

theorem test_allocation_weak_supply : effective 250 20 true = 50 ∧ allocate 50 asksT = [0, 2, 0, 0, 2] := by decide

theorem test_crc_check_values : crc 0xFFFF [0x31, 0x32, 0x33, 0x34, 0x35, 0x36, 0x37, 0x38, 0x39] = 0x29B1
    ∧ crc 0 [0x31, 0x32, 0x33, 0x34, 0x35, 0x36, 0x37, 0x38, 0x39] = 0x31C3 := by decide +kernel

theorem test_escape : escapeByte 0xF3 = [0xF3, 0x03] ∧ escapeByte 0xF0 = [0xF0] ∧ escapeByte 0xF6 = [0xF6] := by decide

/-- A MSG of one byte 0xF3. -/
def msgT : Telegram := tele .msg .coach 0x1001 [1, 0xF3] []

theorem test_wire_and_back : feed .waiting msgT.wire = (.waiting, [.closed msgT.bytes])
    ∧ checkCandidate msgT.bytes = .good msgT ∧ msgT.bytes.length = 23 := by decide +kernel

theorem test_spoiled_byte_is_found : checkCandidate (msgT.bytes.set 16 0) = .bad .bodyCheck
    ∧ checkCandidate (msgT.bytes.set 19 2) = .bad .routeCheck ∧ checkCandidate (msgT.bytes.drop 1) = .bad .framing := by
  decide +kernel

/-- Coach W of the worked sequence of chapter 7. -/
def coachW : State :=
  { memberS with consist := { memberS.consist with position := 4 } }

theorem test_first_grant_of_W : let s := coachW.applyGrant 7 1 4
    s.heat.state = .held ∧ s.heat.limit = 4 ∧ s.heat.on = 0 ∧ s.heat.ramp = some ⟨4, 500, 500⟩
      ∧ s.isPending .heatChange = true := by decide +kernel

/-- W at t = 4000, before the grant of 3. -/
def coachW4 : State :=
  { coachW with heat := { coachW.heat with
      state := .held, limit := 5, on := 4, loss := some 2000, ramp := some ⟨5, 500, 4500⟩ }, outputs := 0x078 }

theorem test_lower_grant_of_W : let s := coachW4.applyGrant 7 3 3
    s.heat.limit = 3 ∧ s.heat.on = 3 ∧ s.heat.ramp = none ∧ s.outputs = 0x038 := by decide +kernel

/-- W at t = 10000. -/
def coachW10 : State :=
  { coachW with heat := { coachW.heat with state := .held, limit := 3, on := 3, loss := some 6000 }, outputs := 0x038 }

theorem test_loss_of_W : let s := after .lossTimer coachW10
    s.heat.state = .shed ∧ s.heat.limit = 2 ∧ s.heat.on = 2 ∧ s.outputs = 0x018 ∧ s.isPending .heatShed = true := by
  decide +kernel

theorem test_power_on : after .powerOnReset act = { (State.reset.powerOn) with
    inputs := act.inputs, ends := ⟨.reset true, .reset true⟩, mem := (after .powerOnReset act).mem } := by decide +kernel

theorem test_soft_reset_rewrites_pages : let s := after (.softReset 2) { act with outputs := 0xFFF }
    s.part = .halted ∧ s.outputs = 0xE00 ∧ s.rev .front = 2 ∧ s.mem.readWord 0x0000 = 2 ∧ s.mem.readWord 0x0006 = 2 := by
  decide +kernel

theorem test_notice_and_take :
    let s := after .orderTake (after (.notice 3) (act.setBlockStatus 3 stREADY))
    s.blockStatus 3 = stTAKEN ∧ s.orders.queue = [] ∧ (s.orders.executing.map (·.block)) = some 3 := by decide +kernel

theorem test_status_word : let s := (after (.notice 9) act)
    s.isPending .noticeFault = true ∧ s.statusWord = 1 + 2 * 64 + 9 * 1024 := by decide +kernel

theorem test_set_outputs : let s := after .setOutputs (exe act 9 [0x603, 0x200, 0x800])
    s.outputs = 0xC00 ∧ s.blockStatus 3 = stDONE ∧ s.mem.readWord (blockBase 3 + 6) = 0x003 := by decide +kernel

theorem test_door_release : let s := after .doorRelease (exe leadS 4 [1, 1, 2])
    s.outputs = 0x001 ∧ s.blockStatus 3 = stDONE ∧ s.mem.readWords (blockBase 3 + 4) 3 = [0, 3, 1] := by decide +kernel

theorem test_zero_speed_lost :
    let s := after .doorRelease (exe leadS 4 [3, 1, 2])
    let u := after (.qualifiedChange .zspd)
      { s with inputs := { s.inputs with zspd := ⟨false, true, some 20⟩, dloop := .reset false } }
    s.outputs = 0x003 ∧ u.outputs = 0x004 ∧ u.door.drop = .zeroSpeed ∧ u.isPending .doorInterlock = true := by
  decide +kernel

/-- A lead at the end of its hold-off, with both ends LINKED. -/
def heldOff : State :=
  { inState leadS .settling with consist := { (inState leadS .settling).consist with holdOff := some 200 } }

/-- The same lead, alone. -/
def heldOffAlone : State := { heldOff with ends := ⟨.reset true, .reset true⟩ }

theorem test_lone_coach_forms : let s := after .holdOffTimer heldOffAlone
    s.consist.state = .formed ∧ s.consist.n = 1 ∧ s.consist.position = 1 ∧ s.consist.generation = 8 := by decide +kernel

theorem test_survey_goes_out : let s := after .holdOffTimer heldOff
    s.consist.state = .surveying ∧ s.ends.a.sending.map (·.telegram.kind) = some .survey
      ∧ s.ends.b.sending.map (·.telegram.body.getD 7 0) = some 2 := by decide +kernel

theorem test_message_delivered : let s := after (.dispatch .a) (holding leadS msgT)
    s.isPending .messageArrived = true ∧ s.mem.readWord (slotBase 0 + 2) = 1 ∧ s.mem.readWord (slotBase 0 + 0x0A) = 1
      ∧ s.mem.read (slotBase 0 + 0x12) = 0xF3 ∧ s.ends.a.sending.map (·.telegram.kind) = some .msgack
      ∧ s.ends.a.buffer = [] := by decide +kernel

theorem test_broadcast_relayed : let s := after (.dispatch .a) (holding memberS (tele .door .broadcast 0 [0, 7, 1, 1, 1, 1] []))
    s.door.group = .released ⟨true, false⟩ ⟨7, 1, 1⟩ ∧ s.ends.b.sending.map (·.telegram.hop) = some 2 := by decide +kernel

theorem test_millisecond : let s := after .millisecondCount { memberS with ms := 0xFFFF }
    s.ms = 0 ∧ s.ends.a.link = some 1 ∧ s.mem.readWord 0x1400 = 0 := by decide +kernel

theorem test_host_reads : act.hostRead 0x3FFA = 0x3201 ∧ act.hostRead 0x3FFE = 4 ∧ act.hostRead 0x3FFF = 0
    ∧ act.hostRead 0x3FFC = 0 ∧ act.hostRead 0x2000 = 0 := by decide +kernel

/-! ### Premises of the statements -/

theorem witness_StepRunsFrontCommand : ({ State.reset with pending := [.take] } : State).pending = [.take]
    ∧ State.reset.pending = [] := by decide

theorem witness_ResetPin : State.reset.holdReset.resetHeld = true ∧ (Instr.mask 0 ≠ .powerOnReset) := by decide

theorem witness_SoftReset : (3 : Word).getLsbD 1 = true ∧ (act.setBlockStatus 3 stQUEUED).resetHeld = false
    ∧ (act.setBlockStatus 3 stQUEUED).evenPages ∧ (act.setBlockStatus 3 stQUEUED).blockHeld 3 = true
    ∧ isPageByte 0x0E = false ∧ isPageByte 0x3FFF = false ∧ blockBase 3 + 2 ≤ blockBase 3 + 3 := by decide +kernel

theorem witness_ControlAndReadOnlyRegisters : (0xFFFD : Word).getLsbD 1 = false ∧ act.resetHeld = false ∧ act.evenPages
    ∧ 0x2000 ≤ (0x2000 : BitVec 14).toNat ∧ (0x3FF9 : BitVec 14).toNat < 0x3FFA := by decide +kernel

/-- An enabled part with a pending class and a threshold. -/
def alarmed (n : Nat) : State :=
  { act with events := { act.events with enable := true, threshold := n } }.raise .noticeFault

theorem witness_MaskAndInterruptLine : act.resetHeld = false ∧ act.evenPages ∧ (4 : Word).toNat ≤ 4 ∧ ¬ (5 : Word).toNat ≤ 4
    ∧ (alarmed 4).events.threshold = 4 ∧ (alarmed 0).events.threshold = 0 ∧ (alarmed 0).events.enable = true
    ∧ (alarmed 0).resetHeld = false ∧ (∀ i : Fin 12, (alarmed 0).cfg.levels[i] ≤ 3)
    ∧ (alarmed 0).interruptLine = true ∧ (alarmed 4).interruptLine = false := by decide +kernel

theorem witness_TakeAndStatus_none (c : EventClass) : act.isPending c = false ∧ act.levelOf c ≤ 4 := by cases c <;> decide

theorem witness_TakeAndStatus_first : (alarmed 4).ranksFirst .noticeFault ∧ (alarmed 4).evenPages
    ∧ (alarmed 4).orders.queue.length ≤ 16 ∧ (alarmed 4).orders.lastBad ≤ 63 := by
  refine ⟨⟨by decide, ?_⟩, by decide +kernel, by decide, by decide⟩
  intro d
  cases d <;> decide

theorem witness_NoticeAndTake : (3 : Word).toNat = (3 : Fin 16).val ∧ (act.setBlockStatus 3 stREADY).blockStatus 3 = stREADY
    ∧ (act.setBlockStatus 3 stREADY).evenPages ∧ (∀ b : Fin 16, (16 : Word).toNat ≠ b.val) ∧ act.blockStatus 15 ≠ stREADY
    ∧ act.orders.executing = none ∧ ({ act with orders := { act.orders with queue := [3] } } : State).orders.queue = [3] := by
  decide +kernel

theorem witness_HostWritesToMemory_guard : (act.setBlockStatus 3 stTAKEN).blockStatus 3 = stTAKEN ∧ act.blockStatus 3 ≠ stQUEUED
    ∧ act.blockStatus 3 ≠ stTAKEN ∧ (2 : Word) ≠ stFREE ∧ (2 : Word) ≠ stREADY ∧ act.evenPages := by decide +kernel

theorem witness_HostWritesToMemory_plain : isStatusWord 0x1FFF = false ∧ (0x1FFF : BitVec 14).toNat < 0x2000
    ∧ isStatusWord 0x2000 = false ∧ 0x2000 ≤ (0x2000 : BitVec 14).toNat := by decide

theorem witness_Completion : act.resetHeld = false ∧ act.evenPages ∧ act.orders.executing = none
    ∧ (exe act 9 []).orders.executing = some ⟨3, 9, []⟩ ∧ (9 : Word) ≠ 1 := by decide +kernel

theorem witness_OrdersByKindAndState : (exe act 0 []).resetHeld = false ∧ (exe act 0 []).orders.executing = some ⟨3, 0, []⟩
    ∧ (0 : Word).toNat = 0 ∧ 9 < (10 : Word).toNat ∧ (exe act 1 []).part = .active
    ∧ (exe State.reset 2 []).part = .halted ∧ (exe State.reset 2 []).orders.executing = some ⟨3, 2, []⟩ := by decide

/-- The parameters of a good CONFIGURE of a lead. -/
def goodConfigure : OrderCopy :=
  ⟨3, 1, [0x1001, 0, 1, 2, 1, 0, 3, 20, 6, 2, 200, 200, 20, 50, 100, 10, 10, 3, 3, 640, 256, 2, 3, 500, 100, 1000, 2, 2, 2,
    2, 1, 1, 1, 1, 1, 0, 1, 1]⟩

/-- The same with one word replaced. -/
def configureWith (i : Nat) (v : Word) : OrderCopy := { goodConfigure with params := goodConfigure.params.set i v }

theorem witness_ConfigureFields_faulty : (configureWith 0 0).ident 0 = 0 ∧ (configureWith 2 3).num 4 = 3
    ∧ (configureWith 4 0).num 8 = 0 ∧ 3 < (configureWith 6 4).num 12 ∧ (configureWith 17 0).num 34 = 0
    ∧ 5 < (configureWith 18 6).num 36 ∧ (configureWith 21 3).num 42 = 3
    ∧ (exe State.reset 1 []).part = .halted ∧ (exe State.reset 1 []).resetHeld = false := by decide

theorem witness_ConfigureFields_clamped : (configureWith 19 255).settings.high = 256 ∧ (configureWith 19 961).settings.high = 960
    ∧ (configureWith 19 271).settings.high = 256 ∧ (configureWith 19 271).clampedFields = [13, 14]
    ∧ goodConfigure.clampedFields = [] ∧ (configureWith 26 4).clampedFields = [20]
    ∧ (configureWith 5 2).clampedFields = [5] := by decide

/-- A HALTED part that executes a good CONFIGURE, with energy on line A1 and End A coupled. -/
def configuring : State :=
  { State.reset with
    orders := { OrderUnit.reset with executing := some goodConfigure }, ends := ⟨.reset true, .reset false⟩,
    lines := { State.reset.lines with a1 := { LineUnit.reset with energy := true } } }

theorem witness_ConfigureEntersActive : configuring.resetHeld = false ∧ configuring.part = .halted ∧ configuring.quiet
    ∧ configuring.orders.executing = some goodConfigure ∧ goodConfigure.kind = 1 ∧ goodConfigure.faultyField = 0 := by
  refine ⟨rfl, rfl, ⟨rfl, ?_, ?_, rfl, rfl, rfl, rfl, by decide⟩, rfl, rfl, by decide⟩
  · rintro ⟨e, n⟩
    cases e <;> cases n <;> exact ⟨rfl, rfl, rfl, rfl⟩
  · intro e
    cases e <;> exact ⟨by decide, rfl, rfl, rfl, rfl, rfl, rfl, rfl, rfl, rfl, rfl, rfl⟩

/-- An ACTIVE state that executes an order meets the premise `executes`. -/
theorem witness_executes (k : Word) (ps : List Word) : (exe leadS k ps).executes ⟨3, k, ps⟩ ∧ (exe memberS k ps).executes ⟨3, k, ps⟩ :=
  ⟨⟨rfl, rfl, rfl⟩, ⟨rfl, rfl, rfl⟩⟩

theorem witness_SetRole : (⟨3, 2, [1]⟩ : OrderCopy).num 0 = 1 ∧ (⟨3, 2, [2]⟩ : OrderCopy).num 0 = 2
    ∧ (⟨3, 2, [3]⟩ : OrderCopy).num 0 = 3 ∧ memberS.consist.roleState = .member ∧ leadS.consist.roleState = .lead
    ∧ ({ leadS.consist with roleState := .yielded } : ConsistUnit).roleState = .yielded := by decide

theorem witness_StartSurvey : memberS.consist.roleState ≠ .lead ∧ leadS.consist.roleState = .lead
    ∧ (inState leadS .surveying).consist.state = .surveying ∧ leadS.consist.state ≠ .surveying := by decide

theorem witness_DoorRelease : leadS.consist.roleState = .lead ∧ leadS.consist.state = .formed ∧ leadS.consist.n = 2
    ∧ leadS.level .zspd = true ∧ (inState leadS .settling).consist.state ≠ .formed
    ∧ (⟨3, 4, [1, 1, 2]⟩ : OrderCopy).num 4 ≤ leadS.consist.n ∧ leadS.consist.n < (⟨3, 4, [3, 1, 3]⟩ : OrderCopy).num 4
    ∧ 3 < (⟨3, 4, [4, 1, 2]⟩ : OrderCopy).num 0 ∧ (⟨3, 4, [1, 2, 1]⟩ : OrderCopy).num 4 < 2
    ∧ leadS.mappedSides 1 ≠ ⟨false, false⟩
    ∧ State.mappedSides { leadS with cfg := { cfgT with fitted := ⟨false, false⟩ } } 1 = ⟨false, false⟩
    ∧ ¬ ((⟨3, 4, [1, 1, 1]⟩ : OrderCopy).num 2 ≤ leadS.consist.position
        ∧ leadS.consist.position ≤ (⟨3, 4, [1, 1, 1]⟩ : OrderCopy).num 4)
    ∧ State.level { leadS with inputs := { leadS.inputs with zspd := .reset false } } .zspd = false := by decide +kernel

theorem witness_DoorClose : memberS.consist.roleState ≠ .lead ∧ leadS.consist.roleState = .lead
    ∧ leadS.door.group ≠ .closing ∧ ({ leadS.door with group := .closing } : DoorUnit).group = .closing := by decide

theorem witness_HeatOrders : (⟨3, 6, [7, 1]⟩ : OrderCopy).num 2 = 1 ∧ (⟨3, 6, [7, 3]⟩ : OrderCopy).num 2 = 3
    ∧ leadS.cfg.count ≤ 6 ∧ leadS.cfg.count < (⟨3, 6, [7, 1]⟩ : OrderCopy).num 0
    ∧ reached leadS.heat.round 1000 = false ∧ reached (some 1000) (1000 * 1) = true := by decide

theorem witness_SendMessage : (⟨3, 8, [0x1001, 0, 1, 5]⟩ : OrderCopy).ident 0 = leadS.cfg.identity
    ∧ (⟨3, 8, [0x2002, 0, 200, 5]⟩ : OrderCopy).ident 0 ≠ leadS.cfg.identity ∧ (⟨3, 8, [0x2002, 0, 200, 5]⟩ : OrderCopy).num 4 = 200
    ∧ (⟨3, 8, [0x2002, 0, 201]⟩ : OrderCopy).num 4 = 201 ∧ (⟨3, 8, [0, 0, 1]⟩ : OrderCopy).ident 0 = 0
    ∧ leadS.inFlight.length < 4 ∧ (List.replicate 4 (⟨3, 1, 1, 0⟩ : InFlight)).length = 4
    ∧ (admission (tele .msg .coach 5 [1, 2] []) []).isSome = true
    ∧ admission (tele .msg .coach 5 [1, 2] []) (List.replicate 8 (tele .msg .coach 5 [1, 2] [])) = none := by decide +kernel

theorem witness_SetOutputs : (exe State.reset 9 [1]).resetHeld = false
    ∧ (exe State.reset 9 [1]).orders.executing = some ⟨3, 9, [1]⟩ ∧ (exe State.reset 9 [1]).cfg.count ≤ 6 := by decide

/-- A state whose zero speed input has been raw not asserted for its filter time. -/
def zspdFalls : State := { leadS with inputs := { leadS.inputs with zspd := ⟨false, true, some 20⟩ } }

theorem witness_InputFilter : act.resetHeld = false ∧ act.cfg.filters[inputIdx .aux0] ≠ 0
    ∧ ({ cfgT with filters := cfgT.filters.set 5 0 } : Settings).filters[inputIdx .aux0] = 0
    ∧ (zspdFalls.inputs.get .zspd).timer = some 20 ∧ zspdFalls.cfg.filters[inputIdx .zspd] ≤ 20
    ∧ 19 < zspdFalls.cfg.filters[inputIdx .zspd] ∧ zspdFalls.door.group = .idle
    ∧ ({ act.inputs with aux0 := ⟨true, false, some 10⟩ } : Inputs).aux0.timer = some 10 ∧ act.cfg.filters[5] ≤ 10
    ∧ act.cfg.filters[6] ≤ 10 ∧ act.cfg.sens0 = .both ∧ act.cfg.sens1 = .both := by decide +kernel

theorem witness_Interlocks : zspdFalls.part = .active ∧ zspdFalls.inputs.zspd.timer = some 20 ∧ zspdFalls.cfg.filters[2] ≤ 20
    ∧ zspdFalls.inputs.zspd.raw = false
    ∧ ({ leadS.door with group := .released ⟨true, true⟩ ⟨7, 1, 2⟩ } : DoorUnit).group = .released ⟨true, true⟩ ⟨7, 1, 2⟩
    ∧ ({ leadS.inputs with dloop := ⟨true, false, some 50⟩ } : Inputs).dloop.timer = some 50 ∧ leadS.cfg.filters[3] ≤ 50
    ∧ ({ leadS.inputs with supply := ⟨false, true, some 100⟩ } : Inputs).supply.timer = some 100 ∧ leadS.cfg.filters[4] ≤ 100
    ∧ leadS.heat.state ≠ .supplyOff ∧ leadS.cfg.count ≤ 6 := by decide +kernel

theorem witness_CouplerInput : ({ act.inputs with cplA := ⟨false, true, some 200⟩ } : Inputs).cplA.timer = some 200
    ∧ act.cfg.filters[inputIdx .cplA] ≤ 200 ∧ (act.endOf .a).state = .linked ∧ (act.endOf .a).state ≠ .uncoupled
    ∧ (State.reset.endOf .b).state = .uncoupled ∧ act.part = .active
    ∧ ({ act.inputs with cplB := ⟨true, false, some 200⟩ } : Inputs).cplB.raw = true := by decide +kernel

/-- Line A1 with other contents. -/
def lineA1 (u : LineUnit) : State := { act with lines := { act.lines with a1 := u } }

theorem witness_LineStates : ((lineA1 .reset).lineOf ⟨.a, .one⟩).state = .dark ∧ act.part = .active
    ∧ (act.endOf .a).state ≠ .uncoupled ∧ (act.lineOf ⟨.a, .one⟩).state = .up
    ∧ ((lineA1 { lineUp with state := .settling, settling := some 100 }).lineOf ⟨.a, .one⟩).settling = some 100
    ∧ ((lineA1 { lineUp with state := .settling, settling := some 99 }).lineOf ⟨.a, .one⟩).settling = some 99
    ∧ ((lineA1 { lineUp with state := .rest, rest := some 1000 }).lineOf ⟨.a, .one⟩).rest = some 1000 := by decide

theorem witness_CandidateBytes : (0x55 : Byte) ≠ 0xF4 ∧ (0x55 : Byte) ≠ 0xF5 ∧ (asmStep (.opened [1] 1) 0x55).2 = .nothing
    ∧ (act.lineOf ⟨.a, .one⟩).state = .up
    ∧ ((lineA1 { lineUp with asm := .opened [1] 2 }).lineOf ⟨.a, .one⟩).asm = .opened [1] 2
    ∧ ((lineA1 { lineUp with asm := .escaped [1] 1 }).lineOf ⟨.a, .one⟩).asm = .escaped [1] 1
    ∧ (lineUp.score + 4 < 32 ∧ ¬ (28 + 4 < 32)) := by decide

/-- A HAIL of another coach. -/
def hailT : Telegram := tele .hail .neighbour 0 [0, 0, 0x20, 2, 1, 2, 0, 7, 0, 0, 0x10, 1] []

theorem witness_TelegramDelivery : checkCandidate msgT.bytes = .good msgT ∧ msgT.kind ≠ .hail ∧ lineUp.score ≤ 16
    ∧ ((lineA1 { lineUp with asm := .opened msgT.bytes 0 }).lineOf ⟨.a, .one⟩).state = .up
    ∧ ((lineA1 { lineUp with asm := .opened msgT.bytes 0 }).lineOf ⟨.a, .one⟩).asm = .opened msgT.bytes 0
    ∧ (act.endOf .a).state = .linked ∧ (act.endOf .a).filter.length < 16
    ∧ (act.endOf .a).fill + msgT.length ≤ 1024 ∧ (act.endOf .a).fill + msgT.length < act.cfg.high
    ∧ checkCandidate hailT.bytes = .good hailT ∧ hailT.kind = .hail ∧ rd32 hailT.body 0 ≠ 0
    ∧ (EndUnit.reset true).state = .probing ∧ (EndUnit.reset true).filter = [] := by decide +kernel

/-- End A with other contents. -/
def endA (u : EndUnit) : State := { act with ends := { act.ends with a := u } }

/-- A full receive buffer: 1024 bytes, and one of 640. -/
def filled (n : Nat) : EndUnit := { endUp with buffer := List.replicate n { msgT with body := List.replicate 43 0 } }

theorem witness_TelegramDelivery_water : (filled 16).fill = 1024 ∧ 1024 < (filled 16).fill + msgT.length
    ∧ act.cfg.high ≤ (filled 10).fill + msgT.length ∧ (filled 10).fill + msgT.length ≤ 1024
    ∧ (filled 10).sentStop = false := by decide +kernel

theorem witness_FlowCharacters : (act.lineOf ⟨.a, .one⟩).state = .up ∧ (act.endOf .a).recvStop = false
    ∧ ((endA { endUp with recvStop := true, stall := some 200 }).endOf .a).stall = some 200
    ∧ ((endA { endUp with recvStop := true }).endOf .a).hailDue = false ∧ endUp.relayQ = [] ∧ endUp.originQ = []
    ∧ ((lineA1 { lineUp with state := .settling }).lineOf ⟨.a, .one⟩).state = .settling
    ∧ ((lineA1 .reset).lineOf ⟨.a, .one⟩).state = .dark
    ∧ ((endA { endUp with flowDue := some .stop }).endOf .a).flowDue = some .stop ∧ act.sendingLines .a ≠ []
    ∧ State.reset.sendingLines .a = [] := by decide

theorem witness_EndTimers : ((endA { endUp with link := some 150 }).endOf .a).link = some 150
    ∧ ((endA { endUp with link := some 150 }).endOf .a).state = .linked
    ∧ 100 ≤ ((100 : Word) - 0).toNat ∧ ((99 : Word) - 0).toNat < 100
    ∧ ((endA { endUp with filter := [⟨1, .msg, 1, 0⟩] }).endOf .a).filter = [⟨1, .msg, 1, 0⟩] := by decide

/-- A telegram in transmission. -/
def sendingT : Sending := ⟨msgT, [.one, .two]⟩

theorem witness_HailAndBoundary : ((endA { endUp with hail := some 50 }).endOf .a).hail = some 50
    ∧ (act.endOf .a).sending = none ∧ act.sendingLines .a ≠ [] ∧ (act.endOf .a).state ≠ .uncoupled
    ∧ ((endA { endUp with sending := some sendingT }).endOf .a).sending ≠ none
    ∧ ((endA { endUp with sending := some sendingT, hailDue := true }).endOf .a).hailDue = true
    ∧ (EndUnit.arbitrate { endUp with originQ := [msgT] } cfgT).isSome = true ∧ (act.endOf .b).blocked = false := by
  decide +kernel

theorem witness_ArbiterChoice : ({ endUp with relayQ := [msgT], originQ := [msgT] } : EndUnit).relayQ = [msgT]
    ∧ msgT.cls = 3 ∧ hailT.cls < msgT.cls ∧ cfgT.mode = .weighted ∧ endUp.relayRun ≤ cfgT.weight ∧ cfgT.weight < 4
    ∧ ({ cfgT with mode := .fixed } : Settings).mode = .fixed := by decide +kernel

theorem witness_QueueAdmission : (List.replicate 8 msgT).Pairwise (fun x y => x.cls ≤ y.cls) ∧ (List.replicate 8 msgT).length = 8
    ∧ (∀ x ∈ List.replicate 8 msgT, x.cls ≤ msgT.cls) ∧ (∃ x ∈ List.replicate 8 msgT, hailT.cls < x.cls)
    ∧ (List.replicate 7 msgT).length < 8 ∧ admission hailT (List.replicate 8 hailT) = none ∧ hailT.cls ≤ 1
    ∧ admission msgT (List.replicate 8 hailT) = none ∧ 1 < msgT.cls := by decide +kernel

theorem witness_DispatchRoutes : ((holding act msgT).endOf .a).buffer = [msgT] ∧ ((holding act msgT).endOf .a).blocked = false
    ∧ msgT.scope = .coach ∧ msgT.dest = act.cfg.identity ∧ msgT.dest ≠ memberS.cfg.identity ∧ msgT.hop.toNat ≤ 31
    ∧ 31 < ({ msgT with hop := 32 } : Telegram).hop.toNat ∧ (act.endOf .a).buffer = []
    ∧ (tele .roll .towardLead 0 [] []).scope = .towardLead ∧ memberS.heldEnd = some .b ∧ memberS.heldEnd ≠ some .a
    ∧ (tele .door .broadcast 0 [] []).scope = .broadcast
    ∧ (memberS.consume .a (tele .door .broadcast 0 [0, 7, 2, 0, 0, 0] [])).2 = false
    ∧ ((inState leadS .surveying).consume .a (tele .survey .broadcast 0 [0, 0, 0x20, 2, 1, 0, 5, 1, 1, 0xF4] [])).2 = true := by
  decide +kernel

theorem witness_DispatchRoutes_blocked :
    (8 : Nat) ≤ ({ endUp with relayQ := List.replicate 8 msgT } : EndUnit).relayQ.length
      ∧ ({ endUp with buffer := [msgT], blocked := true } : EndUnit).blocked = true
      ∧ ({ endUp with buffer := [msgT], consumed := true } : EndUnit).consumed = true := by decide

theorem witness_RelayLeg : (act.endOf .b).state = .linked ∧ (admission (act.relayForm msgT) (act.endOf .b).relayQ).isSome = true
    ∧ admission (act.relayForm msgT) (List.replicate 8 msgT) = none ∧ (act.endOf .b).sending = none
    ∧ act.sendingLines .b ≠ [] ∧ (State.reset.endOf .b).state ≠ .linked := by decide +kernel

/-- A DOORSTAT under generation 7 with a list of `n` positions. -/
def statT (n : Nat) : Telegram := tele .doorstat .towardLead 0 [0, 7, 1] ([0, byteOf n] ++ List.replicate n 5)

theorem witness_DepartureAndRelayForm : ((holding act msgT).endOf .a).buffer = msgT :: []
    ∧ ({ endUp with buffer := [msgT], sentStop := true } : EndUnit).sentStop = true
    ∧ (([] : List Telegram).map Telegram.length).sum ≤ act.cfg.low ∧ (statT 8).kind = .doorstat
    ∧ 8 ≤ ((statT 8).route.drop 2).length ∧ ((statT 7).route.drop 2).length < 8 ∧ memberS.consist.state = .formed
    ∧ memberS.consist.generation = rd16 (statT 7).body 0 ∧ (rd8 (statT 8).route 1).toNat < 32
    ∧ (rd8 (tele .doorstat .towardLead 0 [0, 7, 1] [0, 32]).route 1).toNat = 32
    ∧ State.level { memberS with inputs := { memberS.inputs with dloop := .reset false } } .dloop = false := by decide +kernel

/-- A RELEASE of positions 1 to `last` under generation `g`. -/
def releaseT (g side last : Byte) : Telegram := tele .door .broadcast 0 [0, g, 1, side, 1, last] []

theorem witness_DoorTelegram : (releaseT 7 1 1).kind = .door ∧ memberS.consist.roleState ≠ .lead
    ∧ memberS.releaseOutcome 7 1 1 1 = .applied ∧ memberS.releaseOutcome 8 1 1 1 = .generation
    ∧ memberS.releaseOutcome 7 1 2 2 = .outOfRange ∧ (inState memberS .stale).releaseOutcome 7 1 1 1 = .notFormed
    ∧ State.releaseOutcome { memberS with inputs := { memberS.inputs with zspd := .reset false } } 7 1 1 1 = .noZeroSpeed
    ∧ State.releaseOutcome { memberS with cfg := { cfgT with fitted := ⟨false, true⟩ } } 7 1 1 1 = .noSide
    ∧ rd8 (releaseT 7 4 1).body 3 = 4 ∧ memberS.part = .active
    ∧ rd8 (tele .door .broadcast 0 [0, 7, 2, 0, 0, 0] []).body 2 = 2 := by decide +kernel

theorem witness_Doorstat : ({ memberS.door with stat := some 100 } : DoorUnit).stat = some 100
    ∧ memberS.consist.leadEnd = some .b ∧ memberS.consist.position ≠ memberS.consist.f + 1
    ∧ (statT 1).kind = .doorstat ∧ leadS.consist.roleState = .lead ∧ rd8 (statT 1).body 2 = 1 ∧ leadS.cfg.front = .a
    ∧ ({ memberS.door with stat := some 99 } : DoorUnit).stat = some 99 := by decide +kernel

/-- A door status record of an age, all closed or with position 1 open. -/
def recordT (closed : Bool) (age : Nat) : DoorRecord := ⟨7, closed, false, false, if closed then 0 else 1, if closed then [] else [1], 0, age⟩

/-- The lead with records of both sides. -/
def recorded (a b : DoorRecord) : State := { leadS with door := { leadS.door with recF := some a, recR := some b } }

theorem witness_TrainDoorSummary : (recorded (recordT true 299) (recordT true 0)).summaryNow = ⟨.allClosed, 0, [], false⟩
    ∧ (recorded (recordT true 300) (recordT true 0)).summaryNow = ⟨.unknown, 0, [], false⟩
    ∧ (recorded (recordT false 0) (recordT true 0)).summaryNow = ⟨.opened, 1, [1], false⟩
    ∧ leadS.summaryNow = ⟨.unknown, 0, [], false⟩ ∧ memberS.summaryNow = ⟨.unknown, 0, [], false⟩
    ∧ (recorded (recordT true 300) (recordT true 0)).door.record .f = some (recordT true 300)
    ∧ (recordT true 299).age < 300 := by decide +kernel

/-- A HEATCALL of the lead. -/
def callT : Telegram := tele .heatcall .broadcast 0 [0, 7, 0, 5, 2] []

theorem witness_HeatTelegrams : callT.kind = .heatcall ∧ memberS.consist.roleState ≠ .lead ∧ memberS.heat.state ≠ .held
    ∧ memberS.consist.state = .formed ∧ rd16 callT.body 0 = memberS.consist.generation
    ∧ memberS.heat.lastCall ≠ some ⟨callT.origin, 7, 5⟩ ∧ memberS.consist.leadEnd = some .b
    ∧ (leadS.consist.entryAt 1).map (·.identity) = some 0x2002 ∧ leadS.consist.position ≠ 1
    ∧ (tele .heatbid .towardLead 0 [1, 0, 0, 0x20, 2, 0, 7, 3, 1] []).kind = .heatbid
    ∧ memberS.level .supply = true ∧ pairFor memberS.consist.position [1, 4, 2, 3] = some 4
    ∧ pairFor 3 [1, 4, 2, 3] = none ∧ (tele .heatgrant .broadcast 0 [0, 7, 0, 1, 1, 4] []).kind = .heatgrant
    ∧ memberS.part = .active ∧ memberS.cfg.count ≤ 6 ∧ coachW4.heat.on = 4 := by decide +kernel

theorem witness_HeatingRounds : reached (some 2000) (1000 * leadS.heat.period) = true ∧ leadS.heat.state ≠ .held
    ∧ reached (some 1999) (1000 * leadS.heat.period) = false ∧ reached (some 300) 300 = true ∧ reached (some 299) 300 = false
    ∧ leadS.level .supply = true
    ∧ State.level { leadS with inputs := { leadS.inputs with supply := .reset false } } .supply = false := by decide +kernel

theorem witness_Allocation : asksT[1]? = some ⟨2, .essential, 15⟩ ∧ (allocate 50 asksT)[1]? = some 2
    ∧ demandOf .essential asksT ≤ 60 ∧ 59 < demandOf .essential asksT ∧ demandOf .comfort asksT = 320
    ∧ 360 - powerOf asksT (heatPass .essential 360 asksT) = 300 := by decide

theorem witness_RampAndLoss : coachW10.heat.state = .held ∧ reached coachW10.heat.loss (3000 * coachW10.heat.tSeen) = true
    ∧ coachW10.part = .active ∧ coachW10.cfg.count ≤ 6 ∧ coachW4.heat.ramp = some ⟨5, 500, 4500⟩
    ∧ ({ coachW4.heat with ramp := some ⟨5, 0, 4500⟩ } : HeatUnit).ramp = some ⟨5, 0, 4500⟩
    ∧ coachW10.cfg.fallback < coachW10.heat.on ∧ reached (some 5999) (3000 * coachW10.heat.tSeen) = false := by decide

theorem witness_LinkChangeResponse : leadS.consist.state = .formed ∧ leadS.consist.roleState = .lead
    ∧ (inState leadS .settling).consist.state = .settling ∧ (inState leadS .surveying).consist.state = .surveying
    ∧ memberS.heldEnd = some .b ∧ (inState memberS .unformed).heldEnd = none ∧ memberS.consist.roleState ≠ .lead := by
  decide

theorem witness_SurveyBegins : leadS.consist.roleState = .lead ∧ (inState leadS .settling).consist.state = .settling
    ∧ reached (some 200) 200 = true ∧ reached (some 199) 200 = false ∧ (leadS.endOf leadS.cfg.front).state = .linked
    ∧ (State.reset.endOf .a).state ≠ .linked ∧ (State.reset.endOf .b).state ≠ .linked := by decide

/-- A roll list entry of a coach. -/
def rollT (terminal : Bool) : RollEntry := ⟨0x2002, 1, terminal, 3, 20, 6⟩

/-- A side with one terminal coach, complete. -/
def sideT : RollSide := RollSide.empty.fill 1 (rollT true)

theorem witness_SurveyEnds : reached (some 500) cfgT.timeout = true ∧ reached (some 499) cfgT.timeout = false
    ∧ sideT.complete = some 1 ∧ sideT.run = 1 ∧ RollSide.empty.complete = none ∧ rosterT.entries[rosterT.f]?.isSome = true
    ∧ ({ rosterT with isPartial := true } : Roster).isPartial = true ∧ leadS.consist.resurvey = false := by decide +kernel

theorem witness_SurveyEnds_sound : sideT.sound ∧ RollSide.empty.sound :=
  ⟨fun t h => by
    have e : sideT.complete = some 1 := by decide +kernel
    have r : sideT.run = 1 := by decide +kernel
    rw [e] at h
    cases h
    exact r.ge, fun _ h => by cases h⟩

/-- A SURVEY of a lead of rank `rank`. -/
def surveyT (rank : Byte) : Telegram := tele .survey .broadcast 0 [0, 0, 0x20, 2, rank, 0, 5, 1, 1, 0xF4] []

theorem witness_SurveyConsumed : (surveyT 1).kind = .survey ∧ memberS.consist.state ≠ .surveying
    ∧ leadS.cfg.rank < (rd8 (surveyT 3).body 4).toNat
    ∧ ¬ (leadS.cfg.rank < (rd8 (surveyT 1).body 4).toNat ∨ leadS.cfg.rank = (rd8 (surveyT 1).body 4).toNat)
    ∧ ({ memberS.consist with state := .surveying, followed := some (followedFrom .a (surveyT 1)) } : ConsistUnit).followed.isSome
      = true := by decide +kernel

/-- A ROLL to the lead 0x1001 for candidate 8 at distance 1 of side F. -/
def rollTele : Telegram := tele .roll .towardLead 0 [0, 0, 0x10, 1, 0, 8, 1, 1, 2, 1, 3, 20, 6] []

theorem witness_RollCollected : rollTele.kind = .roll ∧ rd32 rollTele.body 0 = leadS.cfg.identity ∧ rd16 rollTele.body 4 = 8
    ∧ (rd8 rollTele.body 7).toNat = 1 ∧ rd8 rollTele.body 6 = 1 ∧ leadS.cfg.front = .a
    ∧ (inState leadS .surveying).consist.state = .surveying
    ∧ RollSide.empty.entries.toList[30]? = some none ∧ sideT.entries.toList[0]? ≠ some none := by decide +kernel

/-- The ROSTER of the train. -/
def rosterTele : Telegram := tele .roster .broadcast 0 rosterT.body []

/-- The member as it follows the survey that the roster closes. -/
def following : State :=
  { inState memberS .surveying with consist := { (inState memberS .surveying).consist with
      roster := none, followed := some ⟨0x1001, 2, 7, 1, 1, .b, 500⟩, rosterWait := some 1500 } }

theorem witness_RosterTaken : rosterTele.kind = .roster ∧ rosterFrom rosterTele.body = rosterT
    ∧ (rosterFrom rosterTele.body).wellFormed (rd8 rosterTele.body 7).toNat = true ∧ following.accepts rosterT = true
    ∧ following.confirmedEntry rosterT ⟨0x1001, 2, 7, 1, 1, .b, 500⟩ = some ⟨0x2002, 1, false, true, 3, 20, 6⟩
    ∧ following.confirmedEntry rosterT ⟨0x1001, 2, 7, 1, 2, .b, 500⟩ = none
    ∧ following.consist.state = .surveying ∧ following.consist.rosterWait = some (500 + 1000) := by decide +kernel

theorem witness_MessageReceived : msgT.kind = .msg ∧ (rd8 msgT.body 0).toNat = 1 ∧ msgT.body.length = 1 + 1
    ∧ leadS.mem.readWord (slotBase 0 + 4) = BitVec.ofNat 16 leadS.deliveries[0] ∧ msgT.scope = .coach ∧ msgT.origin ≠ 0
    ∧ leadS.slotFree 7 = true
    ∧ State.freeSlot { leadS with deliveries := Vector.replicate 8 255 } = none
    ∧ stepDelivery 255 = 1 ∧ stepDelivery 254 = 255 := by decide +kernel

/-- A unicast in flight from block 3. -/
def flightT (n : Nat) : InFlight := ⟨3, 0x2002, 4, n⟩

theorem witness_MessageOutcome : (tele .msgack .coach 0x1001 [0, 4, 1] []).kind = .msgack
    ∧ (flightT 12).dest = (tele .msgack .coach 0x1001 [0, 4, 1] []).origin
    ∧ (flightT 12).seq = rd16 (tele .msgack .coach 0x1001 [0, 4, 1] []).body 0 ∧ (flightT 12).timer < 65536
    ∧ (flightT 1000).block = 3 ∧ 1000 ≤ (flightT 1000).timer ∧ (flightT 999).timer < 1000 := by decide

theorem witness_Headlines : State.reset.evenPages ∧ State.reset.memWf ∧ State.reset.countersEven
    ∧ (step { State.reset with pending := [.mask 2] } = .next { State.reset with
        events := { EventUnit.reset with threshold := 2 } }) := by
  refine ⟨by decide +kernel, by decide +kernel, by decide +kernel, congrArg Host.Outcome.next ?_⟩
  decide +kernel

theorem witness_RoundTrips : msgT.bodyCheck = msgT.bodyCrc ∧ msgT.routeCheck = msgT.routeCrc
    ∧ headerOk msgT (byteOf msgT.kind.cls.code) = true ∧ rosterT.entries.length ≤ 32 ∧ rosterT.f < 256 := by decide +kernel

/-! ### Clauses at their boundaries -/

theorem test_line_output : act.lineOutput ⟨.a, .one⟩ = .bytes
    ∧ (lineA1 { lineUp with state := .settling }).lineOutput ⟨.a, .one⟩ = .bytes
    ∧ (lineA1 { lineUp with state := .rest }).lineOutput ⟨.a, .one⟩ = .off
    ∧ (lineA1 .reset).lineOutput ⟨.a, .one⟩ = .idle ∧ State.reset.lineOutput ⟨.a, .one⟩ = .off
    ∧ ({ lineA1 .reset with ends := ⟨.reset false, endUp⟩ } : State).lineOutput ⟨.a, .one⟩ = .off
    ∧ ({ act with resetHeld := true } : State).lineOutput ⟨.a, .one⟩ = .off := by decide

/-- Line A1 after a START inside its candidate, from a line state and a score. -/
def spoilt (x : LineState) (n : Nat) : LineState × Nat :=
  let u := (after (.byteReceived ⟨.a, .one⟩ 0xF1) (lineA1 { lineUp with state := x, score := n, asm := .opened [1] 0 })).lines.a1
  (u.state, u.score)

theorem test_bad_candidate_scores : spoilt .up 11 = (.up, 15) ∧ spoilt .up 12 = (.suspect, 16) ∧ spoilt .up 27 = (.suspect, 31)
    ∧ spoilt .suspect 28 = (.rest, 32) ∧ spoilt .settling 27 = (.settling, 31) ∧ spoilt .settling 30 = (.rest, 32)
    ∧ spoilt .suspect 3 = (.up, 7) := by decide +kernel

theorem witness_CandidateBytes_bad : (asmStep (.opened [1] 0) 0xF1).2 = .bad .framing ∧ (asmStep (.escaped [1] 0) 0xF2).2 = .bad .escape
    ∧ (asmStep (.opened (List.replicate 320 0) 0) 0).2 = .bad .framing ∧ (asmStep .waiting 0).2 = .bad .framing
    ∧ (asmStep (.opened [1] 0) 0xF2).2 = .closed [1] ∧ checkCandidate [1] = .bad .framing := by decide +kernel

/-- A telegram with another hop and its route check made right. -/
def withHop (t : Telegram) (h : Byte) : Telegram := { t with hop := h, routeCheck := { t with hop := h }.routeCrc }

theorem witness_CandidateBytes_header : checkCandidate (withHop msgT 0).bytes = .bad .framing
    ∧ checkCandidate (withHop msgT 5).bytes = .good (withHop msgT 5) ∧ checkCandidate (withHop hailT 2).bytes = .bad .framing
    ∧ checkCandidate (List.replicate 20 0) = .bad .framing := by decide +kernel

/-- Line A1 with all of `msgT` but its END. -/
def atEnd (x : LineState) (n : Nat) : State := lineA1 { lineUp with state := x, score := n, asm := .opened msgT.bytes 0 }

theorem test_good_telegram_by_line_state :
    (after (.byteReceived ⟨.a, .one⟩ 0xF2) (atEnd .settling 1)).ends.a.buffer = []
    ∧ (after (.byteReceived ⟨.a, .one⟩ 0xF2) (atEnd .settling 1)).lines.a1.score = 0
    ∧ (after (.byteReceived ⟨.a, .one⟩ 0xF2) (atEnd .suspect 8)).ends.a.buffer = [msgT]
    ∧ (after (.byteReceived ⟨.a, .one⟩ 0xF2) (atEnd .suspect 8)).lines.a1.state = .up
    ∧ (after (.byteReceived ⟨.a, .one⟩ 0xF2) (atEnd .suspect 9)).lines.a1.state = .suspect := by decide +kernel

/-- End A LINKED with the neighbour `i` and the filter `ks`. -/
def beside (i : Ident) (ks : List FilterKey) : State :=
  endA { endUp with neighbour := some ⟨i, 1, 2, 7, 0x1001, 0⟩, filter := ks }

/-- Sixteen keys, the oldest of sequence number 100. -/
def keys16 : List FilterKey := (List.range 16).map fun n => ⟨5, .msg, BitVec.ofNat 16 (100 + n), 0⟩

theorem test_delivery_to_a_linked_end :
    ((beside 0x2002 keys16).deliver .a msgT).ends.a.filter = keys16.tail ++ [msgT.key 0]
    ∧ ((beside 0x2002 [msgT.key 0]).deliver .a msgT).ends.a.buffer = []
    ∧ ((beside 0x2002 []).deliver .a hailT).seqs[1] = 1
    ∧ ((beside 0x3003 []).deliver .a hailT).seqs[1] = 2
    ∧ ((beside 0x3003 []).deliver .a hailT).ends.a.sending.map (·.telegram.body) = some [1, 3, 0, 0, 0x20, 2]
    ∧ (act.deliver .a hailT).ends.a.sending.map (·.telegram.body) = some [1, 3, 0, 0, 0x20, 2]
    ∧ (act.deliver .a (tele .hail .neighbour 0 (List.replicate 12 0) [])).ends.a.neighbour = none := by decide +kernel

/-- End A PROBING at a FORMED lead. -/
def probingLead : State := { leadS with ends := ⟨{ EndUnit.reset true with state := .probing }, endUp⟩ }

theorem test_delivery_to_a_probing_end :
    (probingLead.deliver .a hailT).consist.surveyCause = ⟨.link, 1, 0x2002⟩
    ∧ (probingLead.deliver .a msgT).consist.surveyCause = ⟨.link, 1, 0⟩
    ∧ (probingLead.deliver .a msgT).ends.a.buffer = [msgT]
    ∧ (probingLead.deliver .a msgT).ends.a.state = .linked := by decide +kernel

/-- End B holds `msgT` blocked towards End A, whose relay queue is full; End A knows its neighbour. -/
def blockedB : State :=
  { leadS with ends :=
      ⟨{ endUp with relayQ := List.replicate 8 msgT, neighbour := some ⟨0x2002, 1, 2, 7, 0x1001, 0⟩, link := some 150 },
       { endUp with buffer := [withHop { msgT with dest := 0x3003 } 1], blocked := true }⟩ }

/-- The coupler input of End A has been raw not asserted for its filter time. -/
def cplFalls (s : State) : State := { s with inputs := { s.inputs with cplA := ⟨false, true, some 200⟩ } }

theorem test_leaving_linked_hands_leave_and_frees_the_head :
    (after (.linkTimer .a) blockedB).consist.surveyCause = ⟨.link, 1, 0x2002⟩
    ∧ (after (.linkTimer .a) blockedB).ends.b.buffer = []
    ∧ (after (.qualifiedChange .cplA) (cplFalls blockedB)).consist.surveyCause = ⟨.link, 1, 0x2002⟩
    ∧ (after (.qualifiedChange .cplA) (cplFalls blockedB)).ends.a.state = .uncoupled
    ∧ (after (.qualifiedChange .cplA) (cplFalls blockedB)).ends.b.buffer = [] := by decide +kernel

/-- End A with a coupler input that has been raw asserted for its filter time. -/
def cplRises (s : State) : State :=
  { s with inputs := { s.inputs with cplA := ⟨true, false, some 200⟩ }, ends := { s.ends with a := .reset false },
           lines := { s.lines with a1 := { LineUnit.reset with energy := true }, a2 := .reset } }

theorem test_coupler_rises :
    (after (.qualifiedChange .cplA) (cplRises act)).lines.a1.state = .settling
    ∧ (after (.qualifiedChange .cplA) (cplRises act)).lines.a2.state = .dark
    ∧ (after (.qualifiedChange .cplA) (cplRises act)).ends.a.sending.map (·.telegram.kind) = some .hail
    ∧ (after (.qualifiedChange .cplA) (cplRises State.reset)).ends.a.state = .probing
    ∧ (after (.qualifiedChange .cplA) (cplRises State.reset)).lines.a1.state = .dark
    ∧ (after (.qualifiedChange .cplA) (cplRises State.reset)).ends.a.hailDue = false := by decide +kernel

theorem test_relay_departure_frees_the_head :
    (blockedB.boundary .a).ends.a.sending.isSome = true ∧ (blockedB.boundary .a).ends.b.buffer = []
    ∧ (blockedB.boundary .a).ends.a.relayQ.length = 8 := by decide +kernel

theorem test_go_starts_what_waited :
    (after (.goReceived ⟨.a, .one⟩) (endA { endUp with recvStop := true, originQ := [msgT] })).ends.a.sending.map (·.telegram)
      = some msgT
    ∧ (after (.goReceived ⟨.a, .one⟩) (endA { endUp with originQ := [msgT] })).ends.a.sending = none := by decide +kernel

/-- Coach W held for 3 s of the shorter period. -/
def coachWHeld : State := { coachW10 with heat := { coachW10.heat with loss := some 3000 } }

theorem test_shorter_period_sheds :
    (coachWHeld.consume .b (tele .heatcall .broadcast 0 [0, 7, 0, 5, 1] [])).1.heat.state = .shed
    ∧ (coachWHeld.consume .b (tele .heatcall .broadcast 0 [0, 7, 0, 5, 2] [])).1.heat.state = .held
    ∧ (coachWHeld.consume .b (tele .heatcall .broadcast 0 [0, 7, 0, 5, 1] [])).1.heat.lastCall = some ⟨0x2002, 7, 5⟩ := by
  decide +kernel

/-- A lead HELD as long, at a round of 1 s. -/
def leadHeld : State :=
  { leadS with heat := { leadS.heat with state := .held, period := 1, loss := some 3000, round := some 1000 } }

theorem test_round_of_a_shorter_period_sheds : (after .roundTimer leadHeld).heat.state = .shed
    ∧ (after .roundTimer leadHeld).heat.tSeen = 1 := by decide +kernel

theorem test_old_bid_is_not_used :
    askOf (some ⟨4, .comfort, 1, 3⟩) ⟨5, 1, false, false, 3, 20, 6⟩ = ⟨4, .comfort, 20⟩
    ∧ askOf (some ⟨4, .comfort, 1, 4⟩) ⟨5, 1, false, false, 3, 20, 6⟩ = ⟨0, .comfort, 20⟩
    ∧ askOf (some ⟨4, .comfort, 1, 65538⟩) ⟨5, 1, false, false, 3, 20, 6⟩ = ⟨0, .comfort, 20⟩
    ∧ askOf (some ⟨7, .comfort, 1, 0⟩) ⟨5, 1, false, false, 3, 20, 6⟩ = ⟨6, .comfort, 20⟩ := by decide

theorem test_sweep_visits_in_order :
    allocate 45 [⟨2, .comfort, 20⟩, ⟨2, .comfort, 30⟩, ⟨2, .comfort, 10⟩] = [1, 0, 1]
    ∧ allocate 0 [⟨2, .comfort, 20⟩, ⟨2, .comfort, 0⟩] = [0, 1] := by decide

/-- The lead alone, FORMED, with a summary ALL_CLOSED. -/
def loneLead : State :=
  { leadS with
    ends := ⟨.reset true, .reset true⟩, door := { leadS.door with summary := ⟨.allClosed, 0, [], false⟩ } }

theorem test_lone_lead_surveys_itself :
    let s := after .startSurvey (exe loneLead 3 [])
    s.consist.state = .formed ∧ s.rev .consist = 4 ∧ s.rev .doorSummary = 4 ∧ s.isPending .doorSummary = true
      ∧ s.door.summary.value = .allClosed := by decide +kernel

theorem test_hold_off_of_a_lone_lead : (after .holdOffTimer heldOffAlone).rev .consist = 4 := by decide +kernel

/-- A CHANGE of End B, kind LEAVE. -/
def changeT (i : Byte) : Telegram := tele .change .towardLead 0 [2, 2, 0, 0, 0, i] []

theorem test_change_at_the_lead :
    (leadS.consume .b (changeT 9)).1.consist.surveyCause = ⟨.change, 2, 9⟩
    ∧ (leadS.consume .b (changeT 0)).1.consist.surveyCause = ⟨.change, 2, 0x2002⟩
    ∧ (leadS.consume .b (changeT 9)).1.consist.state = .settling
    ∧ ((inState leadS .surveying).consume .b (changeT 9)).1.consist.resurvey = true
    ∧ (memberS.consume .b (changeT 9)).1 = memberS := by decide +kernel

/-- A survey with one coach on side F and two on side R. -/
def threeBeside : State :=
  { inState leadS .surveying with consist := { (inState leadS .surveying).consist with
      candidate := 8, sideF := RollSide.empty.fill 1 ⟨5, 1, true, 0, 1, 0⟩,
      sideR := (RollSide.empty.fill 1 ⟨6, 1, false, 0, 1, 0⟩).fill 2 ⟨7, 2, true, 0, 1, 0⟩ } }

theorem test_orientation : threeBeside.assemble.entries.map (fun e => (e.identity, e.orientation))
    = [(5, 2), (0x1001, 1), (6, 1), (7, 2)] := by decide +kernel

theorem test_aux_sensitivities : [(1 : Word), 2, 3, 4, 5].map (fun v => (configureWith 17 v).settings.sens0)
      = [.rising, .falling, .both, .levelHigh, .levelLow]
    ∧ [(1 : Word), 2, 3, 4, 5].map (fun v => (configureWith 18 v).settings.sens1)
      = [.rising, .falling, .both, .levelHigh, .levelLow] := by decide

theorem test_side_record_written :
    let s := recorded (recordT true 0) (recordT true 0)
    let u := s.evalSummary
    let t := tele .doorstat .towardLead 0 [0, 7, 1] [1, 0]
    (u.takeStat .a t).door.summary = u.door.summary ∧ (u.takeStat .a t).rev .doorSummary = u.rev .doorSummary + 2
      ∧ u.door.summary.value = .allClosed
      ∧ (u.takeStat .a (statT 1)).door.summary.value = .opened := by decide +kernel

/-! ### A state in which every invariant has something to say -/

/-- The member with the doors of side L released, two of four stages on and a ramp running, block 3 QUEUED, block 5 in
execution and block 6 in flight. -/
def busy : State :=
  let s : State :=
    { memberS with
      door := { memberS.door with group := .released ⟨true, false⟩ ⟨7, 1, 1⟩ },
      heat := { memberS.heat with state := .held, limit := 4, on := 2, loss := some 100, ramp := some ⟨4, 300, 700⟩ },
      outputs := 0x019, inFlight := [⟨6, 0x1001, 4, 20⟩],
      orders := { memberS.orders with queue := [3], executing := some ⟨5, 9, []⟩ },
      ends := { memberS.ends with a := { endUp with buffer := [msgT], relayQ := [msgT], filter := [msgT.key 0] } } }
  ((s.setBlockStatus 3 stQUEUED).setBlockStatus 5 stTAKEN).setBlockStatus 6 stTAKEN

theorem busy_haltedQuiet : busy.haltedQuiet := fun h => by cases h

theorem witness_BoundsKept : busy.memWf ∧ busy.countersEven ∧ busy.fits := by
  refine ⟨by decide +kernel, by decide +kernel, ?_, ?_, by decide, by decide, by decide, by decide, by decide, by decide⟩
  · intro e
    cases e <;> exact ⟨by decide, by decide, by decide, by decide, by decide⟩
  · rintro ⟨e, n⟩
    cases e <;> cases n <;> exact ⟨by decide, by decide⟩

theorem witness_QuietAndDoorsKept : busy.haltedQuiet ∧ busy.doorsSafe ∧ busy.door.group = .released ⟨true, false⟩ ⟨7, 1, 1⟩
    ∧ State.reset.part = .halted := by
  refine ⟨busy_haltedQuiet, ⟨busy_haltedQuiet, by decide, by decide, ?_⟩, rfl, rfl⟩
  intro x r h
  cases h
  exact ⟨rfl, rfl, rfl, by decide, by decide⟩

theorem witness_HeatStaysSafe : busy.heatSafe ∧ 0 < busy.heat.on := by
  refine ⟨⟨busy_haltedQuiet, by decide, by decide, by decide, by decide, ?_, by decide, by decide, by decide, by decide,
    by decide⟩, by decide⟩
  intro r h
  cases h
  exact ⟨rfl, by decide, by decide⟩

theorem witness_OrdersStayInAgreement : busy.ordersAgree ∧ busy.orders.queue ≠ [] ∧ busy.inFlight ≠ [] :=
  ⟨⟨by decide, by decide +kernel, by decide +kernel, by decide +kernel⟩, by decide, by decide⟩

theorem witness_RosterStaysSound : busy.rosterHolds ∧ busy.consist.state = .formed := by
  refine ⟨⟨busy_haltedQuiet, witness_SurveyEnds_sound.2, witness_SurveyEnds_sound.2, ?_, by decide⟩, rfl⟩
  intro r h
  cases h
  decide

/-! ### Page records at their offsets -/

/-- The member with all its pages written, and a last allocation of one bid and one absent one. -/
def shown : State :=
  State.writePages { busy with
    heat := { busy.heat with alloc := some ⟨7, 2, 400, 100, true, 400, 80, 320, 0, 320, 320, 80,
      [⟨4, some .essential, 20, some 1, 4⟩, ⟨0, none, 20, none, 0⟩]⟩ },
    door := { busy.door with recF := some (recordT false 12) } }

theorem witness_PageFields : ∀ r ∈ pageRecs, shown.shows r := writePages_shows _

theorem test_page_words : [0x0002, 0x0014, 0x001E, 0x1104, 0x111C, 0x1122, 0x1200, 0x1210, 0x1220].map shown.mem.readWord
      = [1, 1, 20, 3, 2, 1, 1, 1, 0]
    ∧ [0x1412, 0x1422, 0x1424, 0x1462, 0x14A2, 0x14A4, 0x14F8, 0x1502, 0x1514].map shown.mem.readWord
      = [2, 2, 2, 23, 1, 1, 7, 1, 12]
    ∧ [0x1562, 0x1568, 0x15DA, 0x15E0, 0x15EA, 0x17A2, 0x17A4, 0x17AE, 0x17B0, 0x17C6, 0x17C8].map shown.mem.readWord
      = [1, 4, 4, 1, 0xFFFF, 1, 1, 1, 2, 0, 3] := by decide +kernel

/-- After a soft reset the page shows no roster (R96; lead identity, rank and f: log 37). -/
theorem test_page_without_roster :
    let s := after (.softReset 2) memberS
    s.mem.readWords 0x1112 8 = [0, 0, 0, 0, 0, 0, 0, 0] ∧ s.mem.readWord 0x1200 = 0 := by decide +kernel

/-! ### Tables -/

theorem test_lead_end_held : leadS.heldEnd = none ∧ memberS.heldEnd = some .b ∧ following.heldEnd = some .b
    ∧ (inState memberS .stale).heldEnd = some .b ∧ (inState memberS .unformed).heldEnd = none := by decide

theorem test_lead_followed : leadS.followedLead = 0x1001 ∧ memberS.followedLead = 0x1001 ∧ following.followedLead = 0x1001
    ∧ ({ following with consist := { following.consist with state := .stale } } : State).followedLead = 0 := by decide

theorem test_side_length : sideT.length = 1 ∧ RollSide.empty.length = 0
    ∧ ((RollSide.empty.fill 1 (rollT false)).fill 3 (rollT true)).length = 1
    ∧ (⟨Vector.replicate 31 (some (rollT false)), none⟩ : RollSide).length = 31 := by decide +kernel

theorem test_origin_position : leadS.consist.positionOf 0x1001 = 2 ∧ leadS.consist.positionOf 0x3003 = 0
    ∧ ConsistUnit.reset.positionOf 0x1001 = 0 := by decide

/-- A lead with a release in effect, a grant, a bid, a side record and a round running. -/
def fullLead : State :=
  { leadS with
    door := { leadS.door with group := .released ⟨true, true⟩ ⟨7, 1, 2⟩, recF := some (recordT true 0) },
    heat := { leadS.heat with
      grant := some ⟨7, 1, 3, false⟩, round := some 10, bids := leadS.heat.bids.set 0 (some ⟨4, .comfort, 1, 0⟩) },
    outputs := 0x003 }

theorem test_leaving_lead : let s := after .setRole (exe fullLead 2 [2])
    s.consist.state = .stale ∧ s.door.group = .idle ∧ s.door.drop = .consist ∧ s.outputs = 0 ∧ s.door.recF = none
      ∧ s.heat.bids[0] = none ∧ s.heat.round = none ∧ s.heat.grant = some ⟨7, 1, 3, true⟩ := by decide +kernel

end Sys2Proof.Tests
end

