-- ==== Sys2Proof/Proofs/DoorStatus.lean ====
section
/-! PROOFS. Passenger doors (chapter 6): the coach sides of a train side (R103) and the train door summary at the lead
(R113 to R116). -/

namespace Sys2Proof.Machine

/-! ### Coach sides (R103) -/

/-- Orientation and swap flag act together: sides are taken straight where exactly one of A-FRONT and swapped holds,
and exchanged otherwise; fitting is applied last, to the coach's own sides. -/
theorem mapSides_eq (train : Nat) (w : Byte) (swap : Bool) (fitted : Sides) :
    mapSides train w swap fitted =
      if (decide (w = 1) != swap) = true
      then ⟨(train == 1 || train == 3) && fitted.l, (train == 2 || train == 3) && fitted.r⟩
      else ⟨(train == 2 || train == 3) && fitted.l, (train == 1 || train == 3) && fitted.r⟩ := by
  unfold mapSides
  dsimp only
  by_cases hw : w = 1
  · rw [if_pos hw, decide_eq_true hw]
    cases swap <;> rfl
  · rw [if_neg hw, decide_eq_false hw]
    cases swap <;> rfl

/-! ### The records of the linked sides (R113 to R115) -/

/-- The lead can vouch for a side whose record is present, fresh (R114) and without mismatch. -/
def vouched (r : Option DoorRecord) : Prop := ∃ d, r = some d ∧ d.age < 300 ∧ d.mismatch = false

theorem mem_linkedRecords (s : State) (r : Option DoorRecord) :
    r ∈ s.linkedRecords ↔
      (r = s.door.recF ∧ (s.endOf s.cfg.front).state = .linked)
        ∨ (r = s.door.recR ∧ (s.endOf s.cfg.front.opp).state = .linked) := by
  unfold State.linkedRecords
  rw [List.mem_append]
  refine or_congr ?_ ?_
  · split <;> simp [*]
  · split <;> simp [*]

/-- The records that are present, side F before side R. -/
theorem filterMap_linkedRecords (s : State) :
    s.linkedRecords.filterMap id =
      (if (s.endOf s.cfg.front).state = .linked then s.door.recF.toList else [])
        ++ (if (s.endOf s.cfg.front.opp).state = .linked then s.door.recR.toList else []) := by
  have present (r : Option DoorRecord) : [r].filterMap id = r.toList := by cases r <;> rfl
  unfold State.linkedRecords
  rw [List.filterMap_append]
  congr 1
  · split
    · exact present _
    · rfl
  · split
    · exact present _
    · rfl

theorem vouched_iff (r : Option DoorRecord) : (r.map DoorRecord.good).getD false = true ↔ vouched r := by
  cases r with
  | none => simp [vouched]
  | some d => simp [vouched, DoorRecord.good]

theorem all_linkedRecords_iff (s : State) :
    s.linkedRecords.all (fun r => (r.map DoorRecord.good).getD false) = true ↔ ∀ r ∈ s.linkedRecords, vouched r := by
  simp only [List.all_eq_true, vouched_iff]

/-! ### The train door summary (R115) -/

/-- The first case of R115. -/
theorem summaryNow_unknown {s : State}
    (h : ¬ (s.consist.roleState = .lead ∧ s.consist.state = .formed) ∨ ¬ ∀ r ∈ s.linkedRecords, vouched r) :
    s.summaryNow = .unknown := by
  rw [← all_linkedRecords_iff] at h
  unfold State.summaryNow
  dsimp only
  rcases h with notLead | notGood
  · rw [if_pos (by tauto)]
  · rw [if_pos (show (!_) = true by simpa using notGood), ite_self]

/-- Where the lead can vouch for every linked side, the summary is the second or the third case of R115. -/
theorem summaryNow_vouched {s : State} (hl : s.consist.roleState = .lead ∧ s.consist.state = .formed)
    (hg : ∀ r ∈ s.linkedRecords, vouched r) :
    s.summaryNow =
      let rs := s.linkedRecords.filterMap id
      let list := (if s.closed then [] else [byteOf (s.consist.f + 1)]) ++ rs.flatMap (·.list)
      if s.closed && rs.all (·.allClosed) then ⟨.allClosed, 0, [], false⟩
      else ⟨.opened, (if s.closed then 0 else 1) + (rs.map (·.count.toNat)).sum, list.take 8,
        decide (8 < list.length) || rs.any (·.overflow)⟩ := by
  unfold State.summaryNow
  simp only [hl.1, hl.2, (all_linkedRecords_iff s).mpr hg, ne_eq, not_true_eq_false, or_self, if_false, Bool.not_true,
    Bool.false_eq_true]

/-- The second case of R115 is chosen where the lead's loop and every linked record say closed. -/
theorem allClosed_iff (s : State) :
    (s.closed && (s.linkedRecords.filterMap id).all (·.allClosed)) = true
      ↔ s.closed = true ∧ ∀ d, some d ∈ s.linkedRecords → d.allClosed = true := by
  have mem (d : DoorRecord) : d ∈ s.linkedRecords.filterMap id ↔ some d ∈ s.linkedRecords := by simp
  simp only [Bool.and_eq_true, List.all_eq_true, mem]

/-! ### The evaluation (R116) -/

/-- An evaluation writes the summary, the pending flags and the revision counters. -/
theorem evalSummary_frame (s : State) :
    s.evalSummary = { s with
      door := { s.door with summary := s.summaryNow }, events := s.evalSummary.events, revs := s.evalSummary.revs } := by
  by_cases h : s.summaryNow = s.door.summary
  · rw [evalSummary_stands h, h]
  · rw [State.evalSummary, if_neg h]
    rfl

theorem evalSummary_raises {s : State} (h : s.summaryNow ≠ s.door.summary) :
    s.evalSummary.isPending .doorSummary = true := by
  rw [State.evalSummary, if_neg h, isPending_raise]

end Sys2Proof.Machine

namespace Sys2Proof.Proofs

open Sys2Proof Sys2Proof.Machine

/-- Settles O21. -/
theorem doorSides : Obligations.DoorSides := by
  intro train w swap fitted x straight
  have hx : x = if straight = true then _ else _ := mapSides_eq train w swap fitted
  rw [hx]
  cases straight with
  | true =>
    simp only [if_true, Bool.and_eq_true, Bool.or_eq_true, beq_iff_eq, Bool.true_eq_false, and_true, and_false]
    tauto
  | false =>
    simp only [Bool.false_eq_true, if_false, Bool.and_eq_true, Bool.or_eq_true, beq_iff_eq, and_true, and_false]
    tauto

/-- Settles O40: the three cases of R115, over the records that `mem_linkedRecords` finds linked. -/
theorem trainDoorSummary : Obligations.TrainDoorSummary := by
  intro s linked good lead own
  have linked_iff (r : Option DoorRecord) : r ∈ s.linkedRecords ↔ linked r := mem_linkedRecords s r
  have good_iff : (∀ r ∈ s.linkedRecords, vouched r) ↔ good := forall_congr' fun r => by rw [linked_iff]; rfl
  refine ⟨evalSummary_summary s, evalSummary_frame s, evalSummary_stands, evalSummary_raises,
    fun h => summaryNow_unknown (by rwa [good_iff]), fun hl hg => ?_⟩
  have value := summaryNow_vouched hl (good_iff.mpr hg)
  have closed_iff := allClosed_iff s
  simp only [linked_iff] at closed_iff
  refine ⟨fun hc ha => ?_, fun ho => ?_⟩
  · rw [value]
    exact if_pos (closed_iff.mpr ⟨hc, ha⟩)
  · have notClosed : ¬ (s.closed && (s.linkedRecords.filterMap id).all (·.allClosed)) = true := by
      rw [closed_iff]
      rintro ⟨hc, ha⟩
      rcases ho with ho | ⟨d, hd, ho⟩
      · exact Bool.false_ne_true (ho.symm.trans hc)
      · exact Bool.false_ne_true (ho.symm.trans (ha d hd))
    have own_length : own.length = if s.closed then 0 else 1 := apply_ite List.length _ _ _
    intro rs l
    rw [value, own_length]
    dsimp only
    rw [if_neg notClosed, filterMap_linkedRecords]
    rfl

end Sys2Proof.Proofs
end

