-- ==== Sys2Proof/Proofs/EventsAndInterruptLine.lean ====
section
/-! PROOFS. Events and the interrupt line (chapter 11): the threshold and the interrupt line (R188, R189), and what the
host reads from TAKE and STATUS (R190, R191). -/

namespace Sys2Proof.Machine

/-! ### Commands of the event unit -/

/-- No page record shows the event unit or the word TAKE returned, and no counter moves with them. -/
theorem recordRuns_events (s : State) (u : EventUnit) (w : Word) (r : Rec) :
    ({ s with events := u, hostData := w } : State).recordRuns r = s.recordRuns r := by
  cases r <;> rfl

/-- A command that moves the event unit and the word TAKE returned, and nothing else, rewrites no page: its step answers
its effect itself. -/
theorem partStep_events {f : State → State} {s : State} {u : EventUnit} {w : Word} (held : s.resetHeld = false)
    (even : s.evenPages) (hf : f s = { s with events := u, hostData := w }) : partStep f s = .next (f s) := by
  refine partStep_eq f s held ?_ fun r _ _ => ?_
  · rw [hf]
    exact even
  · rw [hf]
    exact recordRuns_events s u w r

/-- TAKE with RESET released and no rewrite open answers `takeEvent` (R191). -/
theorem exec_take_eq {s : State} (held : s.resetHeld = false) (even : s.evenPages) :
    exec .take s = .next s.takeEvent := by
  have own : s.takeEvent = { s with events := s.takeEvent.events, hostData := s.takeEvent.hostData } := by
    unfold State.takeEvent
    split <;> rfl
  rw [exec_take, if_neg (Bool.eq_false_iff.mp held)]
  exact partStep_events held even own

theorem exec_mask_eq {s : State} (v : Word) (held : s.resetHeld = false) (even : s.evenPages) :
    exec (.mask v) s = .next (s.writeMask v) :=
  (exec_mask v s).trans (partStep_events (w := s.hostData) held even rfl)

/-! ### The event unit after both resets (R193) -/

theorem powerOn_events (s : State) : s.powerOn.events = .reset := by
  unfold State.powerOn State.writePages
  rw [(writeRecords_eq pageRecs (fun _ h => h) _).1]
  rfl

theorem writeControl_softReset {v : Word} (s : State) (hv : v.getLsbD 1 = true) : s.writeControl v = s.softReset := by
  rw [State.writeControl, if_pos hv]

theorem softReset_events (s : State) : s.softReset.events = .reset := by
  rw [softReset_eq, softUnits_eq]

/-- The pages at the end of the step leave the event unit as the soft reset sets it. -/
theorem exec_softReset_events {v : Word} {s t : State} (hv : v.getLsbD 1 = true) (held : s.resetHeld = false)
    (h : exec (.softReset v) s = .next t) : t.events = .reset := by
  obtain ⟨u, hu, pages, -, -⟩ := yields_partStep (exec_softReset v s) held
  obtain rfl : u = t := by
    rw [h] at hu
    injection hu with e
    exact e.symm
  rw [pages, writeControl_softReset s hv]
  exact softReset_events s

theorem exec_powerOnReset_events {s t : State} (h : exec .powerOnReset s = .next t) : t.events = .reset := by
  rw [exec_powerOnReset] at h
  injection h with e
  rw [← e]
  exact powerOn_events s

/-! ### The interrupt line (R189) -/

theorem interruptLine_iff (s : State) :
    s.interruptLine = true ↔
      s.resetHeld = false ∧ s.events.enable = true
        ∧ ((∃ c, s.isPending c = true ∧ s.events.threshold ≤ s.levelOf c)
            ∨ s.isPending .leadConflict = true ∨ s.isPending .doorInterlock = true) := by
  simp [State.interruptLine, mem_eventClasses, and_assoc, or_assoc]

/-- With the enable 0 the line is low, whatever is pending (R189). -/
theorem interruptLine_of_disabled {s : State} (h : s.events.enable = false) : s.interruptLine = false := by
  simp [State.interruptLine, h]

/-- Only the two fixed classes have level 4 (R187). -/
theorem levelOf_lt_four {s : State} (h : ∀ i : Fin 12, s.cfg.levels[i] ≤ 3) {c : EventClass} (hl : c ≠ .leadConflict)
    (hd : c ≠ .doorInterlock) : s.levelOf c < 4 := by
  have below (i : Fin 12) : s.cfg.levels[i] < 4 := Nat.lt_succ_of_le (h i)
  cases c with
  | leadConflict => exact absurd rfl hl
  | doorInterlock => exact absurd rfl hd
  | consistChange => exact below 0
  | doorSummary => exact below 1
  | heatShed => exact below 2
  | noticeFault => exact below 3
  | orderDone => exact below 4
  | messageArrived => exact below 5
  | lineChange => exact below 6
  | rxOverflow => exact below 7
  | flowStall => exact below 8
  | heatChange => exact below 9
  | aux0 => exact below 10
  | aux1 => exact below 11

/-- With the threshold at 4 only the two fixed classes assert the line (R188). -/
theorem interruptLine_threshold_four {s : State} (held : s.resetHeld = false) (on : s.events.enable = true)
    (levels : ∀ i : Fin 12, s.cfg.levels[i] ≤ 3) (four : s.events.threshold = 4) :
    s.interruptLine = true ↔ s.isPending .leadConflict = true ∨ s.isPending .doorInterlock = true := by
  rw [interruptLine_iff, four]
  refine ⟨fun ⟨_, _, h⟩ => h.elim (fun ⟨c, pending, high⟩ => ?_) id, fun h => ⟨held, on, .inr h⟩⟩
  by_cases hl : c = .leadConflict
  · exact .inl (hl ▸ pending)
  by_cases hd : c = .doorInterlock
  · exact .inr (hd ▸ pending)
  exact absurd high (Nat.not_le.mpr (levelOf_lt_four levels hl hd))

/-- With the threshold at 0 every pending class asserts the line (R188). -/
theorem interruptLine_threshold_zero {s : State} (held : s.resetHeld = false) (on : s.events.enable = true)
    (zero : s.events.threshold = 0) : s.interruptLine = true ↔ ∃ c, s.isPending c = true := by
  rw [interruptLine_iff, zero]
  constructor
  · rintro ⟨_, _, ⟨c, pending, _⟩ | pending | pending⟩
    exacts [⟨c, pending⟩, ⟨_, pending⟩, ⟨_, pending⟩]
  · rintro ⟨c, pending⟩
    exact ⟨held, on, .inl ⟨c, pending, Nat.zero_le _⟩⟩

/-! ### TAKE (R191) -/

theorem takeEvent_none {s : State} (h : ∀ c, s.isPending c = false) : s.takeEvent = { s with hostData := 0 } := by
  rw [State.takeEvent, takeChoice_none s h]

theorem takeEvent_some {s : State} {c : EventClass} (h : s.ranksFirst c) :
    s.takeEvent = { s.setPending c (s.staysPending c) with hostData := BitVec.ofNat 16 c.code } := by
  rw [State.takeEvent, takeChoice_eq s c h]

theorem activeAt_iff (x : Sensitivity) (level : Bool) :
    x.activeAt level = true ↔ x = .levelHigh ∧ level = true ∨ x = .levelLow ∧ level = false := by
  cases x <;> simp [Sensitivity.activeAt]

/-- An AUX class under a level sensitivity stays pending while its level is active; no other class does (R159). -/
theorem staysPending_iff (s : State) (c : EventClass) :
    s.staysPending c = true ↔
      (c = .aux0 ∧ (s.cfg.sens0 = .levelHigh ∧ s.level .aux0 = true ∨ s.cfg.sens0 = .levelLow ∧ s.level .aux0 = false))
        ∨ (c = .aux1
          ∧ (s.cfg.sens1 = .levelHigh ∧ s.level .aux1 = true ∨ s.cfg.sens1 = .levelLow ∧ s.level .aux1 = false)) := by
  rw [← activeAt_iff, ← activeAt_iff]
  cases c <;> simp [State.staysPending]

/-! ### STATUS (R182, R190) -/

/-- The number the STATUS word holds, before it is cut to 16 bits. -/
def State.statusNumber (s : State) : Nat :=
  (if s.part = .active then 1 else 0) + s.orders.queue.length * 2 + s.highestLevel.getD 7 * 64
    + (if s.interruptLine then 512 else 0) + s.orders.lastBad * 1024

/-- The level field of STATUS fits its three bits. -/
theorem highestLevel_getD_le {s : State} (h : ∀ c, s.levelOf c ≤ 4) : s.highestLevel.getD 7 ≤ 7 := by
  cases hl : s.highestLevel with
  | none => exact Nat.le_refl 7
  | some n =>
    obtain ⟨c, -, rfl⟩ := ((highestLevel_some s n).mp hl).1
    exact (h c).trans (by decide)

/-- With fields in their ranges nothing is cut off: the greatest number is 1 + 32 + 448 + 512 + 64512. -/
theorem statusWord_toNat {s : State} (queue : s.orders.queue.length ≤ 16) (bad : s.orders.lastBad ≤ 63)
    (level : s.highestLevel.getD 7 ≤ 7) : s.statusWord.toNat = s.statusNumber := by
  have below : s.statusNumber < 2 ^ 16 := by
    unfold State.statusNumber
    split <;> split <;> omega
  exact (BitVec.toNat_ofNat _ _).trans (Nat.mod_eq_of_lt below)

theorem highestLevel_ranksFirst {s : State} {c : EventClass} (h : s.ranksFirst c) :
    s.highestLevel = some (s.levelOf c) := by
  obtain ⟨pending, first⟩ := h
  refine (highestLevel_some s _).mpr ⟨⟨c, pending, rfl⟩, fun d hd => ?_⟩
  rcases first d hd with lower | ⟨same, -⟩
  · exact lower.le
  · exact same.le

theorem hostRead_status {s : State} (held : s.resetHeld = false) : s.hostRead 0x3FFB = s.statusWord := by
  rw [State.hostRead, if_neg (Bool.eq_false_iff.mp held)]
  rfl

theorem hostRead_mask {s : State} (held : s.resetHeld = false) :
    s.hostRead 0x3FFE = BitVec.ofNat 16 s.events.threshold := by
  rw [State.hostRead, if_neg (Bool.eq_false_iff.mp held)]
  rfl

/-- The fields of STATUS do not overlap and fill the word, so each reads back (R182, R196). -/
theorem statusWord_fields {s : State} (queue : s.orders.queue.length ≤ 16) (bad : s.orders.lastBad ≤ 63)
    (levels : ∀ c, s.levelOf c ≤ 4) :
    (s.statusWord.getLsbD 0 = true ↔ s.part = .active) ∧ s.statusWord.toNat / 2 % 32 = s.orders.queue.length
      ∧ s.statusWord.toNat / 64 % 8 = s.highestLevel.getD 7 ∧ s.statusWord.getLsbD 9 = s.interruptLine
      ∧ s.statusWord.toNat / 1024 = s.orders.lastBad := by
  have level := highestLevel_getD_le levels
  have number : s.statusWord.toNat = s.statusNumber := statusWord_toNat queue bad level
  have bit (i : Nat) : s.statusWord.getLsbD i = decide (s.statusNumber / 2 ^ i % 2 = 1) := by
    rw [← number]
    exact Nat.testBit_eq_decide_div_mod_eq
  rw [bit, bit, number, State.statusNumber]
  refine ⟨?_, by split <;> split <;> omega, by split <;> split <;> omega, ?_, by split <;> split <;> omega⟩
  · by_cases active : s.part = .active
    · simp only [active, if_true, decide_eq_true_eq, iff_true]
      split <;> omega
    · simp only [active, if_false, decide_eq_true_eq, iff_false]
      split <;> omega
  · cases line : s.interruptLine with
    | true =>
      rw [decide_eq_true_eq, if_pos rfl]
      split <;> omega
    | false =>
      rw [decide_eq_false_iff_not, if_neg Bool.false_ne_true]
      split <;> omega

end Sys2Proof.Machine

namespace Sys2Proof.Proofs

open Sys2Proof Sys2Proof.Machine

/-- Settles O8: MASK moves no page, so its step is `writeMask` itself, and both resets leave the event unit's reset
state, where the enable is 0. -/
theorem maskAndInterruptLine : Obligations.MaskAndInterruptLine := by
  refine ⟨⟨fun v s held even => ?_, fun s t h => ?_, fun v s t hv held h => ?_, fun s held on levels => ?_⟩,
    interruptLine_iff, fun s t h => ?_, fun v s t hv held h => ?_⟩
  · have threshold : min 4 v.toNat = if v.toNat ≤ 4 then v.toNat else 4 := by
      split <;> omega
    rw [← threshold]
    exact ⟨_, exec_mask_eq v held even, rfl, rfl, fun _ => rfl, hostRead_mask held⟩
  · rw [exec_powerOnReset_events h]
    rfl
  · rw [exec_softReset_events hv held h]
    rfl
  · exact ⟨interruptLine_threshold_four held on levels, interruptLine_threshold_zero held on⟩
  · exact interruptLine_of_disabled (congrArg EventUnit.enable (exec_powerOnReset_events h))
  · exact interruptLine_of_disabled (congrArg EventUnit.enable (exec_softReset_events hv held h))

/-- Settles O9: the class that ranks first is the choice of TAKE and carries the highest level, and STATUS reads back
field by field. -/
theorem takeAndStatus : Obligations.TakeAndStatus := by
  refine ⟨⟨fun s held => ?_, fun v s even => ?_, fun s held even => ⟨fun clear => ?_, fun c first => ?_⟩⟩,
    fun s held queue bad levels => ?_⟩
  · rw [exec_take, if_pos held]
  · rw [exec_registerWriteIgnored]
    cases held : s.resetHeld with
    | true => exact partStep_held _ s held
    | false => exact partStep_events (u := s.events) (w := s.hostData) held even rfl
  · rw [exec_take_eq held even, takeEvent_none clear]
  · refine ⟨_, (exec_take_eq held even).trans (congrArg _ (takeEvent_some first)), rfl, fun d ne => ?_, ?_⟩
    · exact isPending_setPending_of_ne s ne _
    · rw [← staysPending_iff]
      exact Bool.eq_iff_iff.mp (isPending_setPending s c _)
  · obtain ⟨active, length, level, line, notice⟩ := statusWord_fields queue bad levels
    intro v
    have hv : v = s.statusWord := hostRead_status held
    rw [hv]
    refine ⟨active, length, fun clear => ?_, fun c first => ?_, line, notice⟩
    · rw [level, (highestLevel_none s).mpr clear]
      rfl
    · rw [level, highestLevel_ranksFirst first]
      rfl

end Sys2Proof.Proofs
end

