-- ==== Sys2Proof/Proofs/StepRelation.lean ====
section
/-! PROOFS. What an effect of the part keeps, said once for each operation: a relation between the state before and after
that is reflexive and transitive, so that an operation keeps what its parts keep. The invariants of the headlines (O54 to
O59) are read off it. -/

namespace Sys2Proof.Machine

/-! ### The parts of the invariants -/

/-- The addresses among which the page records lie: the front page, the consist page, the status page behind the millisecond
count (R168). -/
def inPages (a : Nat) : Prop := a < 0x100 ∨ (0x1100 ≤ a ∧ a < 0x1400) ∨ (0x1402 ≤ a ∧ a < 0x1800)

/-- The door outputs show the door group (R97, R162). -/
def State.doorsShown (s : State) : Prop :=
  s.resetHeld = false → s.part = .active → s.outputs &&& doorMask = s.door.group.image

/-- A release stands only where it may (R102, R104, R107, R108). -/
def State.releaseOk (s : State) : Prop := ∀ x r, s.door.group = .released x r → s.releaseStands r

/-- The ramp within the limit, the limit within what the heating state allows, the stages on within the limit. -/
def HeatUnit.within (h : HeatUnit) (count fallback : Nat) : Prop :=
  h.on ≤ h.limit ∧ h.limit ≤ count
    ∧ (∀ r, h.ramp = some r → h.state = .held ∧ h.on < r.target ∧ r.target ≤ h.limit)
    ∧ (h.state = .noGrant ∨ h.state = .supplyOff → h.limit = 0)
    ∧ (h.state = .shed → h.limit ≤ fallback)

/-- The heating unit keeps its limits and the stage outputs show the stages on. -/
def State.heatOk (s : State) : Prop :=
  s.cfg.fallback ≤ s.cfg.count ∧ s.cfg.count ≤ 6 ∧ s.heat.within s.cfg.count s.cfg.fallback
    ∧ (s.resetHeld = false → s.part = .active → s.outputs &&& stageMask s.cfg.count = stageMask s.heat.on)

/-- Without supply the heating unit is in SUPPLY_OFF (R137). -/
def State.supplyOk (s : State) : Prop := s.part = .active → s.level .supply = false → s.heat.state = .supplyOff

/-- Rosters and roll lists are sound and a FORMED coach stands in its roster under its identity. -/
def ConsistUnit.sound (c : ConsistUnit) (identity : Ident) : Prop :=
  c.sideF.sound ∧ c.sideR.sound ∧ (∀ r, c.roster = some r → 1 ≤ r.entries.length ∧ r.entries.length ≤ 32)
    ∧ (c.state = .formed → (c.entryAt c.position).map (·.identity) = some identity)

theorem doorsSafe_iff (s : State) :
    s.doorsSafe ↔ s.haltedQuiet ∧ (s.resetHeld = true → s.outputs = 0) ∧ s.doorsShown ∧ s.releaseOk := Iff.rfl

theorem heatSafe_iff (s : State) :
    s.heatSafe ↔ s.haltedQuiet ∧ (s.resetHeld = true → s.outputs = 0) ∧ s.heatOk ∧ s.supplyOk := by
  unfold State.heatSafe State.heatOk State.supplyOk HeatUnit.within
  tauto

theorem rosterHolds_iff (s : State) : s.rosterHolds ↔ s.haltedQuiet ∧ s.consist.sound s.cfg.identity := Iff.rfl

/-! ### The relations -/

/-- What every effect keeps, CONFIGURE's entry to ACTIVE included: the commands that wait, the RESET pin, the inbox slots'
counters as far as they are even, the page records' bytes and counters but for rewrites begun, the canonical form of
memory, the capacities, and the agreement of orders and blocks. -/
structure Runs (s t : State) : Prop where
  pending : t.pending = s.pending
  held : t.resetHeld = s.resetHeld
  slots : ∀ n : Fin 8, (t.rev (.slot n)).getLsbD 0 = (s.rev (.slot n)).getLsbD 0
  pages : ∀ r ∈ pageRecs, t.rev r = s.rev r ∨ (t.rev r).getLsbD 0 = true
  bytes : ∀ a, inPages a → t.mem.read a = s.mem.read a
  wf : s.memWf → t.memWf
  fits : s.fits → t.fits
  agree : s.ordersAgree → t.ordersAgree

/-- What every effect keeps that does not change the part state. -/
structure Safe (s t : State) : Prop extends Runs s t where
  part : t.part = s.part
  shown : s.doorsShown → t.doorsShown
  release : s.releaseOk → t.releaseOk
  heat : s.heatOk → t.heatOk
  supply : s.supplyOk → t.supplyOk
  roster : s.consist.sound s.cfg.identity → t.consist.sound t.cfg.identity

/-- What every effect keeps that does not come from the order unit: the order unit stands. -/
structure Moves (s t : State) : Prop extends Safe s t where
  orders : t.orders = s.orders

/-- An operation that may leave a release standing that no longer may, or heating on without supply: the rest of the response
mends it. -/
structure Turns (s t : State) : Prop extends Runs s t where
  part : t.part = s.part
  shown : s.doorsShown → t.doorsShown
  heat : s.heatOk → t.heatOk
  roster : s.consist.sound s.cfg.identity → t.consist.sound t.cfg.identity
  orders : t.orders = s.orders

/-- An operation that moves consist, doors or heating but for a release that may no longer stand. -/
structure Shakes (s t : State) : Prop extends Turns s t where
  supply : s.supplyOk → t.supplyOk

theorem runs_refl (s : State) : Runs s s :=
  ⟨rfl, rfl, fun _ => rfl, fun _ _ => Or.inl rfl, fun _ _ => rfl, id, id, id⟩

theorem runs_trans {s t u : State} (h : Runs s t) (k : Runs t u) : Runs s u where
  pending := k.pending.trans h.pending
  held := k.held.trans h.held
  slots n := (k.slots n).trans (h.slots n)
  pages r hr := (k.pages r hr).elim (fun e => (h.pages r hr).imp e.trans (e ▸ ·)) Or.inr
  bytes a ha := (k.bytes a ha).trans (h.bytes a ha)
  wf := k.wf ∘ h.wf
  fits := k.fits ∘ h.fits
  agree := k.agree ∘ h.agree

theorem safe_refl (s : State) : Safe s s := ⟨runs_refl s, rfl, id, id, id, id, id⟩

theorem safe_trans {s t u : State} (h : Safe s t) (k : Safe t u) : Safe s u where
  toRuns := runs_trans h.toRuns k.toRuns
  part := k.part.trans h.part
  shown := k.shown ∘ h.shown
  release := k.release ∘ h.release
  heat := k.heat ∘ h.heat
  supply := k.supply ∘ h.supply
  roster := k.roster ∘ h.roster

theorem moves_refl (s : State) : Moves s s := ⟨safe_refl s, rfl⟩

theorem moves_trans {s t u : State} (h : Moves s t) (k : Moves t u) : Moves s u :=
  ⟨safe_trans h.toSafe k.toSafe, k.orders.trans h.orders⟩

theorem turns_of_moves {s t : State} (h : Moves s t) : Turns s t :=
  ⟨h.toRuns, h.part, h.shown, h.heat, h.roster, h.orders⟩

theorem turns_trans {s t u : State} (h : Turns s t) (k : Turns t u) : Turns s u where
  toRuns := runs_trans h.toRuns k.toRuns
  part := k.part.trans h.part
  shown := k.shown ∘ h.shown
  heat := k.heat ∘ h.heat
  roster := k.roster ∘ h.roster
  orders := k.orders.trans h.orders

/-- Release and supply are all that such an operation may leave unsound. -/
theorem moves_of_turns {s t : State} (h : Turns s t) (r : s.releaseOk → t.releaseOk) (k : s.supplyOk → t.supplyOk) :
    Moves s t :=
  ⟨⟨h.toRuns, h.part, h.shown, r, h.heat, k, h.roster⟩, h.orders⟩

theorem shakes_of_moves {s t : State} (h : Moves s t) : Shakes s t := ⟨turns_of_moves h, h.supply⟩

theorem shakes_trans {s t u : State} (h : Shakes s t) (k : Shakes t u) : Shakes s u :=
  ⟨turns_trans h.toTurns k.toTurns, k.supply ∘ h.supply⟩

/-- The release is all that such an operation may leave unsound. -/
theorem moves_of_shakes {s t : State} (h : Shakes s t) (r : s.releaseOk → t.releaseOk) : Moves s t :=
  moves_of_turns h.toTurns r h.supply

/-! ### From the frames of the units -/

theorem fits_of_trains {s t : State} (h : Trains s t) (e : s.fits → ∀ e, (t.ends.get e).fits) : s.fits → t.fits := by
  intro f
  obtain ⟨frame, -, kept⟩ := h
  have lines : t.lines = s.lines := (congrArg State.lines frame :)
  have cfg : t.cfg = s.cfg := (congrArg State.cfg frame :)
  have flight : t.inFlight = s.inFlight := (congrArg State.inFlight frame :)
  have orders : t.orders = s.orders := (congrArg State.orders frame :)
  have deliveries : t.deliveries = s.deliveries := (congrArg State.deliveries frame :)
  refine ⟨e f, ?_⟩
  rw [lines, cfg, flight, orders, deliveries, kept.2.1]
  exact f.2

/-- The frame of a unit's operation decides what it keeps, but for the capacities of the ends and the units' own
invariants. -/
theorem shakes_of_trains {s t : State} (h : Trains s t) (e : s.fits → ∀ e, (t.ends.get e).fits)
    (shown : s.doorsShown → t.doorsShown) (heat : s.heatOk → t.heatOk) (supply : s.supplyOk → t.supplyOk)
    (roster : s.consist.sound s.cfg.identity → t.consist.sound t.cfg.identity) : Shakes s t := by
  have fits := fits_of_trains h e
  obtain ⟨frame, -, kept⟩ := h
  have mem : t.mem = s.mem := (congrArg State.mem frame :)
  have orders : t.orders = s.orders := (congrArg State.orders frame :)
  have flight : t.inFlight = s.inFlight := (congrArg State.inFlight frame :)
  refine ⟨⟨⟨(congrArg State.pending frame :), (congrArg State.resetHeld frame :), fun n => congrArg (·.getLsbD 0) (kept.1 n),
    kept.2.2.2, fun a _ => by rw [mem], fun w => ?_, fits, fun a => ?_⟩, (congrArg State.part frame :), shown, heat, roster,
    orders⟩, supply⟩
  · unfold State.memWf
    rw [mem]
    exact w
  · unfold State.ordersAgree State.blockStatus
    rw [orders, flight, mem]
    exact a

end Sys2Proof.Machine
end

