-- ==== Sys2Proof/Proofs/StepRelay.lean ====
section
/-! PROOFS. What the relay switch, the event unit and the page counters keep (chapters 3, 10 and 11). -/

namespace Sys2Proof.Machine

/-! ### Capacities of the queues (R45, R46, R48) -/

theorem length_insertByClass (t : Telegram) (q : List Telegram) : (insertByClass t q).length = q.length + 1 := by
  have h := congrArg List.length (List.takeWhile_append_dropWhile (p := fun u : Telegram => decide (u.cls ≤ t.cls)) (l := q))
  simp only [List.length_append] at h
  simp only [insertByClass, List.length_append, List.length_cons]
  omega

theorem length_admission {t : Telegram} {q q' : List Telegram} (h : admission t q = some q') (k : q.length ≤ 8) :
    q'.length ≤ 8 := by
  unfold admission at h
  split at h
  · cases h
    rw [length_insertByClass]
    omega
  · split at h
    · split at h
      · cases h
        rw [length_insertByClass, List.length_dropLast]
        omega
      · cases h
    · cases h

theorem length_admitOrigin {t : Telegram} {q q' : List Telegram} (h : admitOrigin t q = some q') (k : q.length ≤ 8) :
    q'.length ≤ 8 := by
  unfold admitOrigin at h
  split at h
  · next a =>
    cases h
    exact length_admission a k
  · split at h
    · next c =>
      cases h
      obtain ⟨u, hu, hp⟩ := List.any_eq_true.mp c.2
      have := List.length_eraseP_of_mem (p := fun u : Telegram => u.cls == t.cls) hu hp
      have := List.length_pos_of_mem hu
      rw [length_insertByClass]
      omega
    · cases h

/-! ### Ends -/

/-- The frame of a sending operation decides what it keeps, but for the capacities of the ends. -/
theorem moves_of_sends {s t : State} (h : Sends s t) (e : s.fits → ∀ e, (t.ends.get e).fits) : Moves s t := by
  have trains := trains_of_sends h
  have same : ∀ P : State → Prop, P { s with ends := t.ends, seqs := t.seqs } → P t := fun P k => by
    rw [show t = _ from h]
    exact k
  refine moves_of_shakes (shakes_of_trains trains e ?_ ?_ ?_ ?_) ?_
  · exact fun k => same State.doorsShown k
  · exact fun k => same State.heatOk k
  · exact fun k => same State.supplyOk k
  · exact fun k => same (fun u => u.consist.sound u.cfg.identity) k
  · exact fun k => same State.releaseOk k

theorem fits_ends {s : State} (h : s.fits) (e : EndId) : (s.endOf e).fits := h.1 e

theorem fits_weight {s : State} (h : s.fits) : s.cfg.weight ≤ 7 := h.2.2.1

theorem moves_modEnd (s : State) (e : EndId) (f : EndUnit → EndUnit)
    (h : s.fits → (s.endOf e).fits → (f (s.endOf e)).fits) : Moves s (s.modEnd e f) := by
  refine moves_of_sends (sends_modEnd s e f) fun fits k => ?_
  rw [State.modEnd_ends]
  rcases eq_or_eq_opp e k with rfl | rfl
  · rw [ends_get_set]
    exact h fits (fits_ends fits _)
  · rw [ends_get_set_opp]
    exact fits.1 _

theorem moves_build (s : State) (k : Kind) (x : Scope) (d : Ident) (b r : List Byte) : Moves s (s.build k x d b r).2 :=
  moves_of_sends (sends_build s k x d b r) fun fits => fits.1

/-- What the arbiter takes leaves the queues shorter and the relay run within the weight (R51, R52). -/
theorem fits_arbitrate {u v : EndUnit} {cfg : Settings} {b : Bool} {t : Telegram}
    (h : u.arbitrate cfg = some (b, t, v)) (w : cfg.weight ≤ 7) (k : u.fits) : v.fits := by
  obtain ⟨relay, origin, fill, filter, run⟩ := k
  have tail : ∀ {x : Telegram} {q xs : List Telegram}, q = x :: xs → q.length ≤ 8 → xs.length ≤ 8 := fun e k => by
    rw [e, List.length_cons] at k
    omega
  have takeRelay : ∀ {x xs n}, u.relayQ = x :: xs → n ≤ 8 → EndUnit.fits { u with relayQ := xs, relayRun := n } :=
    fun e k => ⟨tail e relay, origin, fill, filter, k⟩
  have takeOrigin : ∀ {x xs}, u.originQ = x :: xs → EndUnit.fits { u with originQ := xs, relayRun := 0 } :=
    fun e => ⟨relay, tail e origin, fill, filter, Nat.zero_le _⟩
  unfold EndUnit.arbitrate at h
  split at h
  · cases h
  · next e _ => cases h; exact takeRelay e (Nat.zero_le _)
  · next e => cases h; exact takeOrigin e
  · next e e' =>
    split at h
    · cases h; exact takeRelay e (Nat.zero_le _)
    · split at h
      · cases h; exact takeOrigin e'
      · split at h
        · cases h; exact takeRelay e (Nat.zero_le _)
        · split at h
          · cases h; exact takeRelay e (by omega)
          · cases h; exact takeOrigin e'

theorem moves_start (s : State) (e : EndId) : Moves s (s.start e).1 := by
  unfold State.start
  dsimp only
  split
  · exact moves_refl s
  · split
    · refine moves_trans (moves_build s .hail .neighbour 0 (s.hailBody e) []) ?_
      dsimp only
      refine moves_modEnd _ e _ fun _ k => ?_
      exact k
    · split
      · split
        · next t v h =>
          dsimp only
          refine moves_modEnd s e _ fun fits k => ?_
          exact fits_arbitrate (v := v) h (fits_weight fits) k
        · exact moves_refl s
      · exact moves_refl s

theorem moves_enterOrigin (s : State) (e : EndId) (t : Telegram) : Moves s (s.enterOrigin e t).1 := by
  unfold State.enterOrigin
  split
  · next h =>
    exact moves_trans (moves_modEnd s e _ fun _ ⟨relay, origin, rest⟩ => ⟨relay, length_admitOrigin h origin, rest⟩)
      (moves_start _ e)
  · exact moves_refl s

theorem moves_placeAt (s : State) (e : EndId) (t : Telegram) : Moves s (s.placeAt e t).1 := by
  unfold State.placeAt
  split
  · exact moves_enterOrigin s e t
  · exact moves_refl s

theorem moves_placeBoth (s : State) (t : Telegram) : Moves s (s.placeBoth t).1 :=
  moves_trans (moves_placeAt s .a t) (moves_placeAt _ .b t)

theorem moves_placeJoint {s : State} {t : Telegram} {r : State × Bool × Bool} (h : s.placeJoint t = some r) :
    Moves s r.1 := by
  unfold State.placeJoint at h
  split at h
  · cases h
    exact moves_placeBoth s t
  · cases h

theorem moves_enterRelay (s : State) (e : EndId) (q : List Telegram) (h : (s.endOf e).relayQ.length ≤ 8 → q.length ≤ 8) :
    Moves s (s.enterRelay e q) :=
  moves_trans (moves_modEnd s e _ fun _ k => ⟨h k.1, k.2⟩) (moves_start _ e)

/-- A telegram built and placed at the end a unit names, if it names one. -/
theorem moves_buildAt (s : State) (k : Kind) (x : Scope) (d : Ident) (b r : List Byte) (e : EndId) :
    Moves s ((s.build k x d b r).2.placeAt e (s.build k x d b r).1).1 :=
  moves_trans (moves_build s k x d b r) (moves_placeAt _ e _)

theorem moves_buildBoth (s : State) (k : Kind) (x : Scope) (d : Ident) (b r : List Byte) :
    Moves s ((s.build k x d b r).2.placeBoth (s.build k x d b r).1).1 :=
  moves_trans (moves_build s k x d b r) (moves_placeBoth _ _)

/-! ### Flags and counters -/

theorem moves_of_marks {s t : State} (h : Marks s t) : Moves s t := by
  have trains := trains_of_marks h
  have same : ∀ P : State → Prop, P { s with events := t.events, revs := t.revs } → P t := fun P k => by
    rw [show t = _ from h.1]
    exact k
  refine moves_of_shakes (shakes_of_trains trains (fun fits => ?_) ?_ ?_ ?_ ?_) ?_
  · exact same (fun u => ∀ e, (u.ends.get e).fits) fits.1
  · exact fun k => same State.doorsShown k
  · exact fun k => same State.heatOk k
  · exact fun k => same State.supplyOk k
  · exact fun k => same (fun u => u.consist.sound u.cfg.identity) k
  · exact fun k => same State.releaseOk k

theorem moves_raise (s : State) (c : EventClass) : Moves s (s.raise c) := moves_of_marks (marks_raise s c)

theorem moves_touch (s : State) (r : Rec) (hr : r ∈ pageRecs) : Moves s (s.touch r) := moves_of_marks (marks_touch s r hr)

theorem moves_touchAgain (s : State) (r : Rec) (hr : r ∈ pageRecs) : Moves s (s.touchAgain r) :=
  moves_of_marks (marks_touchAgain s r hr)

end Sys2Proof.Machine
end

