-- ==== Sys2Proof/Proofs/StepDoorsAndHeat.lean ====
section
/-! PROOFS. What the operations of the door and heating units keep (chapters 6, 7 and 9). -/

namespace Sys2Proof.Machine

/-! ### Outputs of the two units (R97, R135, R161) -/

/-- HT1 to HTn stand from bit 3 on. -/
theorem getLsbD_stageMask (n i : Nat) : (stageMask n).getLsbD i = (decide (i < 12) && (decide (3 ≤ i) && decide (i - 3 < n))) := by
  rw [stageMask, BitVec.getLsbD_ofNat, show (2 ^ n - 1) * 8 = (2 ^ n - 1) * 2 ^ 3 from rfl, Nat.testBit_mul_two_pow,
    Nat.testBit_two_pow_sub_one]

theorem getLsbD_doorMask (i : Nat) : doorMask.getLsbD i = decide (i < 3) := by
  rw [show doorMask = BitVec.ofNat 12 (2 ^ 3 - 1) from rfl, BitVec.getLsbD_ofNat, Nat.testBit_two_pow_sub_one,
    ← Bool.decide_and, decide_eq_decide]
  omega

theorem stageMask_and_doorMask (n : Nat) : stageMask n &&& doorMask = 0#12 := by
  refine BitVec.eq_of_getLsbD_eq fun i hi => ?_
  rw [BitVec.getLsbD_and, getLsbD_stageMask, getLsbD_doorMask]
  simp
  omega

theorem stageMask_and_of_le {c n : Nat} (h : c ≤ n) : stageMask c &&& stageMask n = stageMask c := by
  refine BitVec.eq_of_getLsbD_eq fun i hi => ?_
  rw [BitVec.getLsbD_and, getLsbD_stageMask, getLsbD_stageMask, Bool.eq_iff_iff]
  simp
  omega

theorem image_and_doorMask (g : DoorGroup) : g.image &&& doorMask = g.image := by
  cases g with
  | idle => decide
  | closing => decide
  | released x r =>
    have sides : ∀ l r : Bool, ((if l then (0x001 : BitVec 12) else 0) ||| (if r then 0x002 else 0)) &&& doorMask
        = (if l then 0x001 else 0) ||| (if r then 0x002 else 0) := by decide
    exact sides x.l x.r

/-- Outputs that agree outside an image's cover agree on what the cover leaves out. -/
theorem and_eq_of_outside {x y k m : BitVec 12} (h : x &&& ~~~k = y &&& ~~~k) (d : m &&& k = 0#12) : x &&& m = y &&& m := by
  refine BitVec.eq_of_getLsbD_eq fun i hi => ?_
  have h := congrArg (fun z : BitVec 12 => z.getLsbD i) h
  have d := congrArg (fun z : BitVec 12 => z.getLsbD i) d
  simp only [BitVec.getLsbD_and, BitVec.getLsbD_not, hi, decide_true, Bool.true_and, BitVec.getLsbD_zero] at h d ⊢
  revert h d
  cases x.getLsbD i <;> cases y.getLsbD i <;> cases k.getLsbD i <;> cases m.getLsbD i <;> decide

/-- Within its cover an image is what the outputs show. -/
theorem image_and_cover (x l k m : BitVec 12) (h : m &&& k = m) : ((x &&& ~~~k) ||| (l &&& k)) &&& m = l &&& m := by
  refine BitVec.eq_of_getLsbD_eq fun i hi => ?_
  have h := congrArg (fun z : BitVec 12 => z.getLsbD i) h
  simp only [BitVec.getLsbD_and, BitVec.getLsbD_or, BitVec.getLsbD_not, hi, decide_true, Bool.true_and] at h ⊢
  revert h
  cases x.getLsbD i <;> cases l.getLsbD i <;> cases k.getLsbD i <;> cases m.getLsbD i <;> decide

theorem doorOwned_of_active {s : State} (h : s.part = .active) : s.doorOwned = doorMask := if_pos h

theorem heatOwned_of_active {s : State} (h : s.part = .active) : s.heatOwned = stageMask s.cfg.count := if_pos h

/-! ### Doors -/

theorem releaseStands_congr {s t : State} (c : t.consist = s.consist) (i : t.inputs = s.inputs) (r : Release) :
    t.releaseStands r ↔ s.releaseStands r := by
  unfold State.releaseStands State.level
  rw [c, i]

/-- The frame of a door operation decides what it keeps, but for its ends and its own group. -/
theorem moves_of_doors {s t : State} (h : Doors s t) (e : s.fits → ∀ e, (t.ends.get e).fits)
    (shown : s.doorsShown → t.doorsShown) (release : s.releaseOk → t.releaseOk) : Moves s t := by
  have trains := trains_of_doors h
  obtain ⟨frame, outside, -⟩ := h
  have same : ∀ P : State → Prop,
      P { s with door := t.door, outputs := t.outputs, ends := t.ends, seqs := t.seqs, events := t.events,
                 revs := t.revs } → P t := fun P k => by
    rw [frame]
    exact k
  refine moves_of_shakes (shakes_of_trains trains e shown ?_ ?_ ?_) release
  · rintro ⟨fallback, count, within, stages⟩
    refine same State.heatOk ⟨fallback, count, within, fun held active => ?_⟩
    rw [doorOwned_of_active (s := s) active] at outside
    exact (and_eq_of_outside outside (stageMask_and_doorMask _)).trans (stages held active)
  · exact fun k => same State.supplyOk k
  · exact fun k => same (fun u => u.consist.sound u.cfg.identity) k

/-- The door unit's fields but its group move no door output and no release. -/
theorem moves_modDoor (s : State) (f : DoorUnit → DoorUnit) (h : (f s.door).group = s.door.group) :
    Moves s (s.modDoor f) := by
  refine moves_of_doors (doors_modDoor s f) (fun fits => fits.1) (fun k held active => ?_) fun k x r hr => k x r ?_
  · rw [State.modDoor_door, h]
    exact k held active
  · rw [State.modDoor_door, h] at hr
    exact hr

theorem setGroup_door (s : State) (g : DoorGroup) : (s.setGroup g).door = { s.door with group := g } := by
  rw [State.setGroup, State.applyImage_door]
  rfl

theorem setGroup_consist (s : State) (g : DoorGroup) : (s.setGroup g).consist = s.consist := by
  rw [State.setGroup, State.applyImage_consist]
  rfl

theorem setGroup_inputs (s : State) (g : DoorGroup) : (s.setGroup g).inputs = s.inputs := by
  rw [State.setGroup, State.applyImage_inputs]
  rfl

/-- A group handed over whole is what the door outputs show. -/
theorem setGroup_shown (s : State) (g : DoorGroup) : (s.setGroup g).doorsShown := by
  intro _ active
  rw [State.setGroup, State.applyImage_part] at active
  rw [setGroup_door, State.setGroup, State.applyImage_outputs, doorOwned_of_active (s := s) active,
    image_and_cover _ _ _ _ (BitVec.and_self), image_and_doorMask]

theorem setGroup_releaseOk {s : State} {g : DoorGroup} (h : ∀ x r, g = .released x r → s.releaseStands r) :
    (s.setGroup g).releaseOk := by
  intro x r hr
  rw [setGroup_door] at hr
  exact (releaseStands_congr (setGroup_consist s g) (setGroup_inputs s g) r).mpr (h x r hr)

theorem setGroup_ends (s : State) (g : DoorGroup) : (s.setGroup g).ends = s.ends := by
  rw [State.setGroup, State.applyImage_ends]
  rfl

theorem moves_setGroup (s : State) (g : DoorGroup) (h : ∀ x r, g = .released x r → s.releaseStands r) :
    Moves s (s.setGroup g) := by
  refine moves_of_doors (doors_setGroup s g) (fun fits => ?_) (fun _ => setGroup_shown s g) fun _ => setGroup_releaseOk h
  rw [setGroup_ends]
  exact fits.1

/-- The outcome APPLIED says that all tests of R102 pass. -/
theorem releaseStands_of_applied {s : State} {gen : Word} {train first last : Nat}
    (h : s.releaseOutcome gen train first last = .applied) : s.releaseStands ⟨gen, first, last⟩ := by
  unfold State.releaseOutcome at h
  split at h
  · cases h
  · next formed =>
    split at h
    · cases h
    · next generation =>
      split at h
      · cases h
      · next range =>
        split at h
        · cases h
        · next zero =>
          have range := not_not.mp range
          exact ⟨not_not.mp formed, by simpa using zero, not_not.mp generation, range.1, range.2⟩

theorem moves_applyRelease (s : State) (gen : Word) (train first last : Nat) :
    Moves s (s.applyRelease gen train first last) := by
  unfold State.applyRelease
  dsimp only
  split
  · next applied =>
    refine moves_trans (moves_trans (moves_modDoor s _ ?_) (moves_touch _ .doorView (by decide))) (moves_setGroup _ _ ?_)
    · rfl
    · intro x r hr
      cases hr
      refine (releaseStands_congr ?_ ?_ _).mpr (releaseStands_of_applied applied)
      · rw [State.touch_consist, State.modDoor_consist]
      · rw [State.touch_inputs, State.modDoor_inputs]
  · refine moves_trans (moves_modDoor s _ ?_) (moves_touch _ .doorView (by decide))
    rfl

theorem moves_setGroup_closed (s : State) (b : Bool) : Moves s (s.setGroup (if b then .idle else .closing)) :=
  moves_setGroup s _ fun x r h => by cases b <;> cases h

theorem moves_enterClosing (s : State) (r : DropReason) : Moves s (s.enterClosing r) :=
  moves_trans (moves_modDoor s _ rfl) (moves_setGroup_closed _ s.closed)

theorem moves_applyClose (s : State) : Moves s s.applyClose := by
  unfold State.applyClose
  split
  · exact moves_modDoor s _ rfl
  · exact moves_enterClosing s _
  · exact moves_enterClosing s _

theorem moves_zeroSpeedLost (s : State) : Moves s s.zeroSpeedLost := by
  unfold State.zeroSpeedLost
  split
  · exact moves_trans (moves_enterClosing s _) (moves_raise _ _)
  · exact moves_refl s
  · exact moves_refl s

theorem moves_setIdle (s : State) : Moves s (s.setGroup .idle) := moves_setGroup s _ fun x r h => by cases h

theorem moves_loopClosed (s : State) : Moves s s.loopClosed := by
  unfold State.loopClosed
  split
  · exact moves_setIdle s
  · exact moves_refl s
  · exact moves_refl s

theorem moves_dropRelease (s : State) : Moves s s.dropRelease := by
  unfold State.dropRelease
  split
  · exact moves_trans (moves_modDoor s _ rfl) (moves_setIdle _)
  · exact moves_refl s
  · exact moves_refl s

/-- No release stands once it is dropped (R108). -/
theorem dropRelease_group (s : State) (x : Sides) (r : Release) : s.dropRelease.door.group ≠ .released x r := by
  unfold State.dropRelease
  split
  · rw [setGroup_door]
    exact DoorGroup.noConfusion
  · next h =>
    rw [h]
    exact DoorGroup.noConfusion
  · next h =>
    rw [h]
    exact DoorGroup.noConfusion

theorem moves_takeDoor (s : State) (t : Telegram) : Moves s (s.takeDoor t) := by
  unfold State.takeDoor
  split
  · exact moves_refl s
  · split
    · split
      · exact moves_applyRelease s _ _ _ _
      · exact moves_refl s
    · split
      · exact moves_applyClose s
      · exact moves_refl s

theorem moves_originateStat (s : State) : Moves s s.originateStat := by
  unfold State.originateStat
  dsimp only
  split
  · exact moves_buildAt s _ _ _ _ _ _
  · exact moves_build s _ _ _ _ _

theorem moves_startStat (s : State) : Moves s s.startStat := by
  unfold State.startStat
  split
  · exact moves_trans (moves_modDoor s _ rfl) (moves_originateStat _)
  · exact moves_modDoor s _ rfl

theorem moves_evalSummary (s : State) : Moves s s.evalSummary := by
  unfold State.evalSummary
  split
  · exact moves_refl s
  · exact moves_trans (moves_trans (moves_modDoor s _ rfl) (moves_touchAgain _ .doorSummary (by decide))) (moves_raise _ _)

theorem moves_writeStat (s : State) (f : DoorUnit → DoorUnit) (h : (f s.door).group = s.door.group) :
    Moves s (s.writeStat f) := by
  unfold State.writeStat
  dsimp only
  split
  · exact moves_trans (moves_modDoor s f h) (moves_touchAgain _ .doorSummary (by decide))
  · exact moves_trans (moves_modDoor s f h) (moves_evalSummary _)

theorem moves_takeStat (s : State) (e : EndId) (t : Telegram) : Moves s (s.takeStat e t) := by
  unfold State.takeStat
  split
  · exact moves_writeStat s _ rfl
  · split
    · exact moves_writeStat s _ rfl
    · exact moves_refl s

/-! ### Heating -/

/-- The frame of a heating operation decides what it keeps, but for its ends and its own limits. -/
theorem moves_of_heats {s t : State} (h : Heats s t) (e : s.fits → ∀ e, (t.ends.get e).fits)
    (heat : s.heatOk → t.heatOk) (supply : s.supplyOk → t.supplyOk) : Moves s t := by
  have trains := trains_of_heats h
  obtain ⟨frame, outside, -⟩ := h
  have same : ∀ P : State → Prop,
      P { s with heat := t.heat, outputs := t.outputs, ends := t.ends, seqs := t.seqs, events := t.events,
                 revs := t.revs } → P t := fun P k => by
    rw [frame]
    exact k
  refine moves_of_shakes (shakes_of_trains trains e ?_ heat supply ?_) ?_
  · refine fun shown => same State.doorsShown fun held active => ?_
    rw [heatOwned_of_active (s := s) active] at outside
    exact (and_eq_of_outside outside (by rw [BitVec.and_comm, stageMask_and_doorMask])).trans (shown held active)
  · exact fun k => same (fun u => u.consist.sound u.cfg.identity) k
  · exact fun k => same State.releaseOk k

/-- The heating unit's other fields. -/
theorem moves_modHeat (s : State) (f : HeatUnit → HeatUnit) (state : (f s.heat).state = s.heat.state)
    (limit : (f s.heat).limit = s.heat.limit) (on : (f s.heat).on = s.heat.on) (ramp : (f s.heat).ramp = s.heat.ramp) :
    Moves s (s.modHeat f) := by
  refine moves_of_heats (heats_modHeat s f) (fun fits => fits.1) (fun ok => ?_) fun ok => ?_
  · unfold State.heatOk HeatUnit.within at ok ⊢
    rw [State.modHeat_heat, state, limit, on, ramp]
    exact ok
  · unfold State.supplyOk at ok ⊢
    rw [State.modHeat_heat, state]
    exact ok

theorem setStages_heat (s : State) (c : Nat) : (s.setStages c).heat = { s.heat with on := c } := by
  rw [State.setStages, State.applyImage_heat]
  rfl

theorem setStages_ends (s : State) (c : Nat) : (s.setStages c).ends = s.ends := by
  rw [State.setStages, State.applyImage_ends]
  rfl

theorem setStages_cfg (s : State) (c : Nat) : (s.setStages c).cfg = s.cfg := by
  rw [State.setStages, State.applyImage_cfg]
  rfl

/-- Stages handed over whole are what the stage outputs show (R135). -/
theorem setStages_heatOk {s : State} {c : Nat} (fallback : s.cfg.fallback ≤ s.cfg.count) (count : s.cfg.count ≤ 6)
    (within : HeatUnit.within { s.heat with on := c } s.cfg.count s.cfg.fallback) : (s.setStages c).heatOk := by
  unfold State.heatOk
  rw [setStages_cfg, setStages_heat]
  refine ⟨fallback, count, within, fun _ active => ?_⟩
  have le : c ≤ s.cfg.count := le_trans within.1 within.2.1
  rw [State.setStages, State.applyImage_part] at active
  rw [State.setStages, State.applyImage_outputs, heatOwned_of_active (s := s) active, image_and_cover _ _ _ _ (BitVec.and_self),
    stageMask_and_of_le le]

theorem raise_heatOk {s : State} (h : s.heatOk) (c : EventClass) : (s.raise c).heatOk := h

/-- A coach in HELD enters SHED: the fallback is the limit where more is on, and what is on above it goes off (R136). -/
theorem moves_shed (s : State) (held : s.heat.state = .held) : Moves s s.shed := by
  refine moves_of_heats (heats_shed s) (fun fits => ?_) (fun ⟨fallback, count, within, stages⟩ => ?_) fun ok => ?_
  · unfold State.shed
    dsimp only
    split
    · rw [State.raise_ends, setStages_ends]
      exact fits.1
    · exact fits.1
  · obtain ⟨on, limit, -⟩ := within
    unfold State.shed
    dsimp only
    refine raise_heatOk ?_ _
    split
    · next h =>
      refine setStages_heatOk fallback count ⟨le_refl _, ?_, ?_, ?_, ?_⟩
      · exact le_trans (Nat.min_le_left _ _) fallback
      · exact fun r hr => nomatch hr
      · rintro (h | h) <;> exact nomatch h
      · exact fun _ => Nat.min_le_left _ _
    · next h =>
      have stay : min s.cfg.fallback s.heat.on = s.heat.on := by
        simp only [State.modHeat_heat] at h
        omega
      refine ⟨fallback, count, ⟨?_, ?_, ?_, ?_, ?_⟩, stages⟩
      · exact le_of_eq stay.symm
      · exact le_trans (Nat.min_le_left _ _) fallback
      · exact fun r hr => nomatch hr
      · rintro (h | h) <;> exact nomatch h
      · exact fun _ => Nat.min_le_left _ _
  · have frame := (heats_shed s).1
    intro active off
    have part : s.shed.part = s.part := by rw [frame]
    have inputs : s.shed.inputs = s.inputs := by rw [frame]
    rw [State.level, inputs] at off
    rw [part] at active
    rw [ok active off] at held
    cases held

theorem moves_testLoss (s : State) : Moves s s.testLoss := by
  unfold State.testLoss
  split
  · next h => exact moves_shed s h.1
  · exact moves_refl s

theorem moves_seeT (s : State) (t : Nat) : Moves s (s.seeT t) :=
  moves_trans (moves_modHeat s _ rfl rfl rfl rfl) (moves_testLoss _)

/-- Without supply the limit is 0 and nothing is on (R137), whatever was there before. -/
theorem supplyLost_supplyOk (s : State) : s.supplyLost.supplyOk := by
  intro _ _
  unfold State.supplyLost
  split
  · next h => exact h
  · rw [State.raise_heat, setStages_heat]
    rfl

theorem moves_supplyLost (s : State) : Moves s s.supplyLost := by
  refine moves_of_heats (heats_supplyLost s) (fun fits => ?_) (fun ok => ?_) fun _ => supplyLost_supplyOk s
  · unfold State.supplyLost
    split
    · exact fits.1
    · rw [State.raise_ends, setStages_ends]
      exact fits.1
  · unfold State.supplyLost
    split
    · exact ok
    · obtain ⟨fallback, count, -, -⟩ := ok
      refine raise_heatOk ?_ _
      refine setStages_heatOk fallback count ⟨Nat.zero_le _, Nat.zero_le _, ?_, ?_, ?_⟩
      · exact fun r hr => nomatch hr
      · exact fun _ => rfl
      · exact fun h => nomatch h

theorem moves_voidGrant (s : State) : Moves s s.voidGrant := by
  refine moves_of_heats (heats_voidGrant s) (fun fits => fits.1) (fun ⟨fallback, count, within, stages⟩ => ?_) fun ok => ?_
  · unfold State.voidGrant
    refine ⟨fallback, count, ?_, ?_⟩
    · obtain ⟨on, limit, ramp, zero, shed⟩ := within
      rw [State.modHeat_heat]
      dsimp only
      split
      · next held =>
        refine ⟨le_refl _, le_trans on limit, fun r hr => (nomatch hr), fun h => ?_, fun h => ?_⟩
        · rw [held] at h
          rcases h with h | h <;> cases h
        · rw [held] at h
          cases h
      · exact ⟨on, limit, ramp, zero, shed⟩
    · rw [State.modHeat_heat]
      dsimp only
      split
      · exact stages
      · exact stages
  · unfold State.voidGrant State.supplyOk at *
    rw [State.modHeat_heat]
    dsimp only
    split
    · exact ok
    · exact ok

/-- The ramp of a grant of `g` starts below its target `g` (R133, R134). -/
theorem rampFor_spec {s : State} {g : Nat} {r : Ramp} (h : s.rampFor g = some r) : s.heat.on < g ∧ r.target = g := by
  unfold State.rampFor at h
  split at h
  · cases h
  · split at h
    · cases h
      exact ⟨by omega, rfl⟩
    · cases h
      exact ⟨by omega, rfl⟩

theorem applyGrant_ends (s : State) (gen round : Word) (n : Nat) : (s.applyGrant gen round n).ends = s.ends := by
  unfold State.applyGrant
  dsimp only
  rw [State.touch_ends]
  split
  · rw [State.raise_ends]
    split
    · exact setStages_ends _ _
    · rfl
  · split
    · exact setStages_ends _ _
    · rfl

theorem touch_heatOk {s : State} (h : s.heatOk) (r : Rec) : (s.touch r).heatOk := by
  unfold State.touch
  split
  · exact h
  · exact h

/-- A grant applies only with supply (R131, R132). -/
theorem moves_applyGrant (s : State) (gen round : Word) (n : Nat) (supply : s.level .supply = true) :
    Moves s (s.applyGrant gen round n) := by
  refine moves_of_heats (heats_applyGrant s gen round n) (fun fits => ?_) (fun ⟨fallback, count, within, stages⟩ => ?_)
    fun _ _ off => ?_
  · rw [applyGrant_ends]
    exact fits.1
  · unfold State.applyGrant
    dsimp only
    refine touch_heatOk ?_ _
    have ok : ∀ u : State, u.heatOk → (if min n s.cfg.count ≠ s.heat.limit then u.raise .heatChange else u).heatOk := by
      intro u hu
      split
      · exact raise_heatOk hu _
      · exact hu
    refine ok _ ?_
    have cap : min n s.cfg.count ≤ s.cfg.count := Nat.min_le_right _ _
    split
    · next less =>
      refine setStages_heatOk fallback count ⟨le_refl _, cap, fun r hr => ?_, ?_, ?_⟩
      · have := (rampFor_spec hr).1
        simp only [State.modHeat_heat] at less
        omega
      · rintro (h | h) <;> exact nomatch h
      · exact fun h => nomatch h
    · next less =>
      simp only [State.modHeat_heat] at less
      refine ⟨fallback, count, ⟨Nat.le_of_not_lt less, cap, fun r hr => ?_, ?_, ?_⟩, stages⟩
      · have ⟨below, target⟩ := rampFor_spec hr
        exact ⟨rfl, by rw [target]; exact below, le_of_eq target⟩
      · rintro (h | h) <;> exact nomatch h
      · exact fun h => nomatch h
  · have inputs : (s.applyGrant gen round n).inputs = s.inputs := by rw [(heats_applyGrant s gen round n).1]
    rw [State.level, inputs] at off
    rw [State.level, off] at supply
    cases supply

theorem stepRamp_ends (s : State) : s.stepRamp.ends = s.ends := by
  unfold State.stepRamp
  split
  · split
    · rw [State.touch_ends, setStages_ends]
      rfl
    · rfl
  · rfl

theorem moves_stepRamp (s : State) : Moves s s.stepRamp := by
  refine moves_of_heats (heats_stepRamp s) (fun fits => ?_) (fun ok => ?_) fun ok active off => ?_
  · rw [stepRamp_ends]
    exact fits.1
  · unfold State.stepRamp
    dsimp only
    split
    · next r hr =>
      obtain ⟨fallback, count, ⟨on, limit, ramp, zero, shed⟩, stages⟩ := ok
      have ⟨held, below, target⟩ := ramp r hr
      split
      · refine touch_heatOk ?_ _
        refine setStages_heatOk fallback count ⟨?_, limit, fun k hk => ?_, zero, shed⟩
        · exact le_trans below target
        · rw [State.modHeat_heat] at hk
          dsimp only at hk
          split at hk
          · next less =>
            cases hk
            exact ⟨held, less, target⟩
          · cases hk
      · exact ⟨fallback, count, ⟨on, limit, ramp, zero, shed⟩, stages⟩
    · exact ok
  · have frame := (heats_stepRamp s).1
    have part : s.stepRamp.part = s.part := by rw [frame]
    have inputs : s.stepRamp.inputs = s.inputs := by rw [frame]
    have state : s.stepRamp.heat.state = s.heat.state := by
      unfold State.stepRamp
      split
      · split
        · rw [State.touch_heat, setStages_heat]
          rfl
        · rfl
      · rfl
    rw [State.level, inputs] at off
    rw [part] at active
    rw [state]
    exact ok active off

theorem moves_takeGrant (s : State) (t : Telegram) : Moves s (s.takeGrant t) := by
  unfold State.takeGrant
  split
  · next h =>
    split
    · exact moves_applyGrant s _ _ _ h.2.2.2
    · exact moves_refl s
  · exact moves_refl s

theorem moves_openRound (s : State) : Moves s s.openRound :=
  moves_trans (moves_trans (moves_trans (moves_modHeat s _ rfl rfl rfl rfl) (moves_buildBoth _ _ _ _ _ _))
    (moves_modHeat _ _ rfl rfl rfl rfl)) (moves_seeT _ _)

theorem moves_testRound (s : State) : Moves s s.testRound := by
  unfold State.testRound
  split
  · exact moves_openRound s
  · exact moves_refl s

theorem moves_stopRounds (s : State) : Moves s s.stopRounds := moves_modHeat s _ rfl rfl rfl rfl

theorem moves_emptyBids (s : State) : Moves s s.emptyBids := moves_modHeat s _ rfl rfl rfl rfl

theorem moves_takeCall (s : State) (t : Telegram) : Moves s (s.takeCall t) := by
  unfold State.takeCall
  dsimp only
  split
  · exact moves_refl s
  · split
    · have call := moves_trans (moves_seeT s (clamp 1 10 (rd8 t.body 4).toNat))
        (moves_modHeat _ (fun h => { h with lastCall := some ⟨t.origin, rd16 t.body 0, rd16 t.body 2⟩ }) rfl rfl rfl rfl)
      split
      · exact moves_trans call (moves_buildAt _ _ _ _ _ _ _)
      · exact moves_trans call (moves_build _ _ _ _ _ _)
    · exact moves_seeT s _

theorem moves_setBid (s : State) (p : Nat) (b : Bid) : Moves s (s.setBid p b) := moves_modHeat s _ rfl rfl rfl rfl

theorem moves_takeBid (s : State) (t : Telegram) : Moves s (s.takeBid t) := by
  unfold State.takeBid
  dsimp only
  split
  · split
    · exact moves_setBid s _ _
    · exact moves_refl s
  · exact moves_refl s

theorem moves_closeWindow (s : State) : Moves s s.closeWindow := by
  unfold State.closeWindow
  extract_lets own a u stages
  have h : Moves s u := moves_trans (moves_trans (moves_setBid s _ _) (moves_modHeat _ _ rfl rfl rfl rfl))
    (moves_touch _ .allocTable (by decide))
  have k := moves_trans h (moves_buildBoth u .heatgrant .broadcast 0
    (be16 a.generation ++ be16 a.round ++ grantPairs 1 stages) [])
  dsimp only
  split
  · next supply => exact moves_trans k (moves_applyGrant _ _ _ _ supply)
  · exact k

end Sys2Proof.Machine
end

