-- ==== Sys2Proof/Proofs/StepConsist.lean ====
section
/-! PROOFS. What the operations of the consist unit keep (chapters 4 and 5). A change of the consist unit shakes a release;
the release is dropped in the same response (R108). -/

namespace Sys2Proof.Machine

/-! ### The consist unit's fields -/

theorem shakes_modConsist (s : State) (f : ConsistUnit → ConsistUnit)
    (h : s.consist.sound s.cfg.identity → (f s.consist).sound s.cfg.identity) : Shakes s (s.modConsist f) :=
  shakes_of_trains (trains_modConsist s f) (fun fits => fits.1) id id id h

/-- A change that leaves consist state, roster, position and roll lists sound leaves a release standing. -/
theorem moves_modConsist (s : State) (f : ConsistUnit → ConsistUnit) (state : (f s.consist).state = s.consist.state)
    (roster : (f s.consist).roster = s.consist.roster) (position : (f s.consist).position = s.consist.position)
    (sideF : s.consist.sideF.sound → (f s.consist).sideF.sound)
    (sideR : s.consist.sideR.sound → (f s.consist).sideR.sound) : Moves s (s.modConsist f) := by
  refine moves_of_shakes (shakes_modConsist s f fun ⟨f', r', rest⟩ => ⟨sideF f', sideR r', ?_⟩) fun ok x r hr => ?_
  · unfold ConsistUnit.entryAt at *
    rw [state, roster, position]
    exact rest
  · have stands := ok x r hr
    unfold State.releaseStands ConsistUnit.generation at *
    rw [State.modConsist_consist, state, roster, position]
    exact stands

theorem RollSide.empty_sound : RollSide.empty.sound := fun _ h => nomatch h

theorem moves_setCause (s : State) (c : CauseKind) (b : Byte) (i : Ident) : Moves s (s.setCause c b i) :=
  moves_modConsist s _ rfl rfl rfl id id

/-! ### Consist state (R56, R57, R108) -/

theorem moves_leaveFormed (s : State) : Moves s s.leaveFormed :=
  moves_trans (moves_trans (moves_trans (moves_dropRelease s) (moves_voidGrant _)) (moves_stopRounds _))
    (moves_modDoor _ _ rfl)

theorem releaseOk_of_door {s t : State} (h : t.door.group = s.door.group) (k : ∀ x r, s.door.group ≠ .released x r) :
    t.releaseOk := fun x r hr => absurd (h ▸ hr) (k x r)

theorem leaveFormed_releaseOk (s : State) : s.leaveFormed.releaseOk :=
  releaseOk_of_door (s := s.dropRelease) rfl (dropRelease_group s)

/-- A coach that changes to a state other than FORMED drops a release in the same response. -/
theorem moves_setConsist (s : State) {x : ConsistState} (hx : x ≠ .formed) : Moves s (s.setConsist x) := by
  unfold State.setConsist
  split
  · exact moves_refl s
  · extract_lets old u
    have change : Shakes s (s.modConsist fun c => { c with state := x }) :=
      shakes_modConsist s _ fun ⟨f, r, n, _⟩ => ⟨f, r, n, fun h => absurd h hx⟩
    have shakes : Shakes s u := shakes_trans change (shakes_of_moves
      (moves_trans (moves_touchAgain _ .consist (by decide)) (moves_raise _ .consistChange)))
    refine moves_trans ?_ (moves_evalSummary _)
    split
    · exact moves_of_shakes (shakes_trans shakes (shakes_of_moves (moves_leaveFormed _))) fun _ => leaveFormed_releaseOk u
    · next notFormed =>
      refine moves_of_shakes shakes fun ok y r hr => ?_
      exact absurd (ok y r hr).1 notFormed

theorem moves_showHeader (s : State) (old : ConsistUnit) : Moves s (s.showHeader old) := by
  unfold State.showHeader
  split
  · exact moves_touchAgain s .consist (by decide)
  · exact moves_refl s

/-! ### Triggers and link changes (R59 to R62) -/

theorem moves_trigger (s : State) (c : CauseKind) (b : Byte) (i : Ident) : Moves s (s.trigger c b i) := by
  have cause := moves_setCause s c b i
  unfold State.trigger
  split
  · exact moves_trans (moves_trans cause (moves_modConsist _ _ rfl rfl rfl id id)) (moves_setConsist _ (by decide))
  · exact moves_trans (moves_trans cause (moves_modConsist _ _ rfl rfl rfl id id)) (moves_showHeader _ _)
  · exact moves_trans (moves_modConsist s _ rfl rfl rfl id id) (moves_showHeader _ _)
  · exact moves_refl s
  · exact moves_refl s

theorem moves_reportChange (s : State) (c : LinkChange) : Moves s (s.reportChange c) := by
  unfold State.reportChange
  extract_lets u
  have stale : Moves s u := by
    unfold u
    split
    · exact moves_setConsist s (by decide)
    · exact moves_refl s
  dsimp only
  split
  · exact moves_trans stale (moves_buildAt _ _ _ _ _ _ _)
  · exact moves_trans stale (moves_buildBoth _ _ _ _ _ _)

theorem moves_linkChange (s : State) (c : LinkChange) : Moves s (s.linkChange c) := by
  unfold State.linkChange
  split
  · exact moves_trigger s _ _ _
  · exact moves_reportChange s _

theorem moves_takeChange (s : State) (t : Telegram) : Moves s (s.takeChange t) := moves_trigger s _ _ _

/-! ### Assembly (R81 to R86) -/

theorem length_filterMap_takeWhile_isSome {α : Type} (l : List (Option α)) (n : Nat)
    (h : n ≤ (l.takeWhile Option.isSome).length) : ((l.take n).filterMap id).length = n := by
  induction l generalizing n with
  | nil =>
    simp only [List.takeWhile_nil, List.length_nil, Nat.le_zero_eq] at h
    subst h
    rfl
  | cons x l ih =>
    cases n with
    | zero => rfl
    | succ n =>
      cases x with
      | none => simp at h
      | some a =>
        simp only [List.takeWhile_cons, Option.isSome_some, if_true, List.length_cons, Nat.succ_le_succ_iff] at h
        show (a :: (l.take n).filterMap id).length = n + 1
        rw [List.length_cons, ih n h]

theorem RollSide.length_kept {x : RollSide} {n : Nat} (h : n ≤ x.run) : (x.kept n).length = n :=
  length_filterMap_takeWhile_isSome _ n h

theorem RollSide.run_le (x : RollSide) : x.run ≤ 31 := by
  have := (List.takeWhile_sublist (l := x.entries.toList) (p := Option.isSome)).length_le
  simpa [RollSide.run] using this

theorem RollSide.length_le_run {x : RollSide} (h : x.sound) : x.length ≤ x.run := by
  unfold RollSide.length
  cases hc : x.complete with
  | none => exact le_refl _
  | some t => exact h t hc

/-- The entries of the roster the lead assembles: side F, the lead at place f, side R, 32 at most. -/
theorem assemble_entries {s : State} (hF : s.consist.sideF.sound) (hR : s.consist.sideR.sound) :
    1 ≤ s.assemble.entries.length ∧ s.assemble.entries.length ≤ 32
      ∧ (s.assemble.entries[s.assemble.f]?).map (·.identity) = some s.cfg.identity := by
  have f_run := RollSide.length_le_run hF
  have r_run := RollSide.length_le_run hR
  have f_max := s.consist.sideF.run_le
  have r_max := s.consist.sideR.run_le
  have f_kept := RollSide.length_kept f_run
  unfold State.assemble
  extract_lets c f r0 long r entries
  have f_le : f ≤ 31 := f_run.trans f_max
  have r_le : r ≤ r0 ∧ f + 1 + r ≤ 32 := by
    unfold r
    cases hl : long with
    | true =>
      have : 32 < f + r0 + 1 := by simpa [long] using hl
      simp only [if_true]
      omega
    | false =>
      have : ¬ 32 < f + r0 + 1 := by simpa [long] using hl
      simp only [Bool.false_eq_true, if_false]
      omega
  have r_kept := RollSide.length_kept (x := s.consist.sideR) (n := r) (r_le.1.trans r_run)
  have front : ((c.sideF.kept f).reverse.map (RollEntry.toEntry true)).length = f := by simpa using f_kept
  have back : ((c.sideR.kept r).map (RollEntry.toEntry false)).length = r := by simpa using r_kept
  have len : entries.length = f + 1 + r := by
    simp only [entries, List.length_append, front, back, List.length_cons, List.length_nil]
  refine ⟨by dsimp only; omega, by dsimp only; omega, ?_⟩
  show (entries[f]?).map _ = _
  unfold entries
  rw [List.getElem?_append_left (by simp only [List.length_append, front, List.length_cons]; omega),
    List.getElem?_append_right (by rw [front]), front, Nat.sub_self]
  rfl

/-! ### Installation (R87, R88, R92, R93) -/

theorem moves_emptyRecords (s : State) : Moves s s.emptyRecords := moves_modDoor s _ rfl

theorem moves_afterInstall (s : State) : Moves s s.afterInstall :=
  moves_trans (moves_trans (moves_trans (moves_trans (moves_dropRelease s) (moves_voidGrant _))
    (moves_touchAgain _ .consist (by decide))) (moves_raise _ .consistChange)) (moves_evalSummary _)

theorem evalSummary_group (s : State) : s.evalSummary.door.group = s.door.group := by
  rw [evalSummary_frame]

theorem afterInstall_releaseOk (s : State) : s.afterInstall.releaseOk :=
  releaseOk_of_door (s := s.dropRelease) (evalSummary_group _) (dropRelease_group s)

/-- An installation drops the release whatever roster it installs. -/
theorem moves_install {s t : State} (h : Shakes s t) : Moves s t.afterInstall :=
  moves_of_shakes (shakes_trans h (shakes_of_moves (moves_afterInstall t))) fun _ => afterInstall_releaseOk t

theorem moves_leadInstall (s : State) (r : Roster)
    (h : s.consist.sound s.cfg.identity → (1 ≤ r.entries.length ∧ r.entries.length ≤ 32)
      ∧ (r.entries[r.f]?).map (·.identity) = some s.cfg.identity) : Moves s (s.leadInstall r) := by
  unfold State.leadInstall
  extract_lets own partials again u v
  have roster : Shakes s u := by
    refine shakes_modConsist s _ fun ok => ⟨ok.1, ok.2.1, fun k hk => ?_, fun _ => ?_⟩
    · cases hk
      exact (h ok).1
    · exact (h ok).2
  have install : Moves s v :=
    moves_install (shakes_trans roster (shakes_of_moves (moves_trans (moves_emptyRecords u) (moves_emptyBids _))))
  split
  · exact install
  · exact moves_trans install (moves_openRound v)

theorem moves_endSurvey (s : State) : Moves s s.endSurvey := by
  unfold State.endSurvey
  extract_lets u r
  have timer : Moves s u := moves_modConsist s _ rfl rfl rfl id id
  have sent : Trains u ((u.build .roster .broadcast 0 r.body []).2.placeBoth (u.build .roster .broadcast 0 r.body []).1).1 :=
    trains_of_sends (sends_trans (sends_build _ _ _ _ _ _) (sends_placeBoth _ _))
  refine moves_trans (moves_trans timer (moves_buildBoth u .roster .broadcast 0 r.body [])) (moves_leadInstall _ r ?_)
  have frame := sends_trans (sends_build u .roster .broadcast 0 r.body [])
    (sends_placeBoth _ (u.build .roster .broadcast 0 r.body []).1)
  rw [frame]
  intro ok
  have entries := assemble_entries (s := u) ok.1 ok.2.1
  exact ⟨⟨entries.1, entries.2.1⟩, entries.2.2⟩

/-! ### Running a survey (R64 to R66, R72 to R75) -/

theorem moves_modSide (s : State) (x : Side) (f : RollSide → RollSide) (h : ∀ y : RollSide, y.sound → (f y).sound) :
    Moves s (s.modSide x f) := by
  unfold State.modSide
  cases x with
  | f => exact moves_modConsist s _ rfl rfl rfl (h _) id
  | r => exact moves_modConsist s _ rfl rfl rfl id (h _)

theorem moves_sendSurvey (s : State) (x : Side) : Moves s (s.sendSurvey x) := by
  unfold State.sendSurvey
  extract_lets e body
  split
  · exact moves_buildAt s _ _ _ _ _ _
  · refine moves_modSide s x _ fun y _ t ht => ?_
    cases ht
    exact Nat.zero_le _

theorem moves_endIfComplete (s : State) : Moves s s.endIfComplete := by
  unfold State.endIfComplete
  split
  · exact moves_endSurvey s
  · exact moves_refl s

theorem moves_beginSurvey (s : State) : Moves s s.beginSurvey := by
  unfold State.beginSurvey
  extract_lets g u
  have context : Moves s u :=
    moves_modConsist s _ rfl rfl rfl (fun _ => RollSide.empty_sound) (fun _ => RollSide.empty_sound)
  exact moves_trans (moves_trans (moves_trans (moves_trans context (moves_setConsist _ (by decide)))
    (moves_sendSurvey _ _)) (moves_sendSurvey _ _)) (moves_endIfComplete _)

/-- A side completes within its gapless entries (R73). -/
theorem RollSide.completion_le_run {x : RollSide} {t : Nat} (h : x.completion = some t) : t ≤ x.run := by
  unfold RollSide.completion at h
  obtain ⟨i, hi, rfl⟩ := Option.map_eq_some_iff.mp h
  exact (List.findIdx?_eq_some_iff_getElem.mp hi).1

/-- An entry added never shortens the gapless run. -/
theorem length_takeWhile_set_le {α : Type} (l : List (Option α)) (i : Nat) (a : α) :
    (l.takeWhile Option.isSome).length ≤ ((l.set i (some a)).takeWhile Option.isSome).length := by
  induction l generalizing i with
  | nil => simp
  | cons x l ih =>
    cases x with
    | none => simp
    | some b =>
      cases i with
      | zero => simp
      | succ i => simpa using ih i

theorem RollSide.fill_sound {x : RollSide} (h : x.sound) (d : Nat) (e : RollEntry) : (x.fill d e).sound := by
  unfold RollSide.fill
  split
  · extract_lets y
    have grown : x.run ≤ y.run := by
      unfold RollSide.run y
      rw [Vector.toList_setIfInBounds]
      exact length_takeWhile_set_le _ _ _
    split
    · exact fun t ht => (h t ht).trans grown
    · intro t ht
      exact RollSide.completion_le_run (x := y) ht
  · exact h

theorem moves_takeRoll (s : State) (e : EndId) (t : Telegram) : Moves s (s.takeRoll e t) := by
  unfold State.takeRoll
  extract_lets d
  split
  · split
    · exact moves_trans (moves_modSide s _ _ fun y hy => RollSide.fill_sound hy _ _) (moves_endIfComplete _)
    · exact moves_refl s
  · exact moves_refl s

theorem moves_abandonSurvey (s : State) : Moves s s.abandonSurvey := by
  unfold State.abandonSurvey
  split
  · exact moves_modConsist s _ rfl rfl rfl (fun _ => RollSide.empty_sound) (fun _ => RollSide.empty_sound)
  · exact moves_refl s

theorem moves_leaveLead (s : State) : Moves s s.leaveLead :=
  moves_trans (moves_trans (moves_trans (moves_trans (moves_abandonSurvey s) (moves_modConsist _ _ rfl rfl rfl id id))
    (moves_stopRounds _)) (moves_emptyRecords _)) (moves_emptyBids _)

/-! ### Following a survey (R68 to R71, R76 to R78) -/

theorem moves_follow (s : State) (e : EndId) (t : Telegram) : Moves s (s.follow e t) := by
  unfold State.follow
  extract_lets x u
  have surveying : Moves s u := moves_trans (moves_modConsist s _ rfl rfl rfl id id) (moves_setConsist _ (by decide))
  exact moves_trans surveying (moves_buildAt _ _ _ _ _ _ _)

theorem moves_yieldTo (s : State) (e : EndId) (t : Telegram) : Moves s (s.yieldTo e t) := by
  unfold State.yieldTo
  extract_lets u v
  have yielded : Moves s u :=
    moves_trans (moves_trans (moves_leaveLead s) (moves_modConsist _ _ rfl rfl rfl id id)) (moves_raise _ .leadConflict)
  have caused : Moves s v := moves_trans (moves_trans yielded (moves_setCause _ _ _ _)) (moves_evalSummary _)
  exact moves_trans (moves_trans caused (moves_follow _ _ _)) (moves_showHeader _ _)

theorem moves_takeSurvey (s : State) (e : EndId) (t : Telegram) : Moves s (s.takeSurvey e t).1 := by
  unfold State.takeSurvey
  split
  · split
    · exact moves_yieldTo s e t
    · split
      · exact moves_refl s
      · exact moves_trans (moves_setCause s _ _ _) (moves_beginSurvey _)
  · split
    · exact moves_follow s e t
    · exact moves_refl s

theorem moves_endWait (s : State) : Moves s s.endWait := by
  unfold State.endWait
  extract_lets x
  refine moves_trans (moves_modConsist s _ rfl rfl rfl id id) (moves_setConsist _ ?_)
  unfold x
  split <;> exact ConsistState.noConfusion

/-! ### A roster accepted (R89 to R92) -/

/-- A well-formed ROSTER has 1 to 32 entries (R89). -/
theorem wellFormed_length {r : Roster} {n : Nat} (h : r.wellFormed n = true) :
    1 ≤ r.entries.length ∧ r.entries.length ≤ 32 := by
  simp only [Roster.wellFormed, Bool.and_eq_true, beq_iff_eq, decide_eq_true_eq] at h
  omega

/-- The confirmed entry is the one at the computed position, of the coach's own identity (R91). -/
theorem confirmedEntry_spec {s : State} {r : Roster} {x : Followed} {e : RosterEntry}
    (h : s.confirmedEntry r x = some e) :
    positionIn r.f x ≠ 0 ∧ r.entries[positionIn r.f x - 1]? = some e ∧ e.identity = s.cfg.identity := by
  unfold State.confirmedEntry at h
  extract_lets p at h
  split at h
  · cases h
  · next pos =>
    obtain ⟨at_p, own⟩ := Option.filter_eq_some_iff.mp h
    exact ⟨pos, at_p, by simpa using own⟩

theorem moves_memberInstall (s : State) (r : Roster) (x : Followed)
    (h : 1 ≤ r.entries.length ∧ r.entries.length ≤ 32) : Moves s (s.memberInstall r x) := by
  unfold State.memberInstall
  extract_lets _ base c
  have roster : Shakes s (s.modConsist fun _ => c) := by
    refine shakes_modConsist s _ fun ok => ?_
    unfold c
    cases hc : s.confirmedEntry r x with
    | some e =>
      obtain ⟨pos, at_p, own⟩ := confirmedEntry_spec hc
      refine ⟨ok.1, ok.2.1, fun k hk => ?_, fun _ => ?_⟩
      · cases hk
        exact h
      · unfold ConsistUnit.entryAt
        rw [if_neg pos]
        show (r.entries[_]?).map _ = _
        rw [at_p, Option.map_some, own]
    | none =>
      refine ⟨ok.1, ok.2.1, fun k hk => ?_, fun formed => (nomatch formed)⟩
      cases hk
      exact h
  exact moves_trans (moves_install roster) (moves_startStat _)

theorem moves_takeRoster (s : State) (t : Telegram) : Moves s (s.takeRoster t) := by
  unfold State.takeRoster
  extract_lets r
  split
  · split
    · next h => exact moves_memberInstall s _ _ (wellFormed_length (Bool.and_eq_true_iff.mp h).1)
    · exact moves_refl s
  · exact moves_refl s

/-! ### Roles (R79) -/

theorem moves_becomeLead (s : State) : Moves s s.becomeLead :=
  moves_trans (moves_trans (moves_trans (moves_modConsist s _ rfl rfl rfl id id) (moves_setCause _ _ _ _))
    (moves_setConsist _ (by decide))) (moves_evalSummary _)

theorem moves_becomeMember (s : State) : Moves s s.becomeMember := by
  refine moves_trans (moves_trans (moves_trans (moves_leaveLead s) (moves_modConsist _ _ rfl rfl rfl id id))
    (moves_setConsist _ ?_)) (moves_evalSummary _)
  split <;> exact ConsistState.noConfusion

theorem moves_applyRole (s : State) (r : Role) : Moves s (s.applyRole r) := by
  unfold State.applyRole
  split
  · exact moves_becomeLead s
  · exact moves_becomeLead s
  · exact moves_becomeMember s
  · exact moves_trans (moves_trans (moves_modConsist s _ rfl rfl rfl id id) (moves_showHeader _ _)) (moves_evalSummary _)
  · exact moves_refl s
  · exact moves_refl s

end Sys2Proof.Machine
end

