-- ==== Sys2Proof/Proofs/StepMessages.lean ====
section
/-! PROOFS. What order blocks, messages and the dispatcher keep (chapters 3, 8 and 10). -/

namespace Sys2Proof.Machine

/-! ### Holders of blocks (R144, R172, R175, R176) -/

/-- The blocks that are TAKEN: the one executing and those in flight. -/
def State.holders (s : State) : List (Fin 16) := (s.orders.executing.map (·.block)).toList ++ s.inFlight.map (·.block)

theorem mem_holders (s : State) (b : Fin 16) :
    b ∈ s.holders ↔ s.orders.executing.map (·.block) = some b ∨ b ∈ s.inFlight.map (·.block) := by
  rw [State.holders, List.mem_append, Option.mem_toList]

theorem ordersAgree_iff (s : State) :
    s.ordersAgree ↔ (s.orders.queue ++ s.holders).Nodup ∧ (∀ b, s.blockStatus b = stQUEUED ↔ b ∈ s.orders.queue)
      ∧ (∀ b, s.blockStatus b = stTAKEN ↔ b ∈ s.holders) ∧ ∀ b, (s.blockStatus b).toNat ≤ 6 := by
  simp only [State.ordersAgree, mem_holders]
  rw [State.holders, List.append_assoc]

/-- Orders and blocks that stand still agree. -/
theorem ordersAgree_congr {s t : State} (queue : t.orders.queue = s.orders.queue) (holders : t.holders.Perm s.holders)
    (status : ∀ b, t.blockStatus b = s.blockStatus b) (h : s.ordersAgree) : t.ordersAgree := by
  rw [ordersAgree_iff] at h ⊢
  obtain ⟨nodup, queued, taken, known⟩ := h
  rw [queue]
  refine ⟨((holders.append_left _).nodup_iff).mpr nodup, fun b => ?_, fun b => ?_, fun b => ?_⟩
  · rw [status]
    exact queued b
  · rw [status, holders.mem_iff]
    exact taken b
  · rw [status]
    exact known b

/-- A block that leaves its holder with a status of its own. -/
theorem ordersAgree_retire {s t : State} {b : Fin 16} {v : Word} (queue : t.orders.queue = s.orders.queue)
    (holders : s.holders.Perm (b :: t.holders)) (new : t.blockStatus b = v)
    (others : ∀ c, b ≠ c → t.blockStatus c = s.blockStatus c) (notQueued : v ≠ stQUEUED) (notTaken : v ≠ stTAKEN)
    (known : v.toNat ≤ 6) (h : s.ordersAgree) : t.ordersAgree := by
  rw [ordersAgree_iff] at h ⊢
  obtain ⟨nodup, queued, taken, all⟩ := h
  have nodup : (s.orders.queue ++ b :: t.holders).Nodup := ((holders.append_left _).nodup_iff).mp nodup
  rw [List.nodup_middle, List.nodup_cons, List.mem_append, not_or] at nodup
  obtain ⟨⟨out_queue, out_holders⟩, nodup⟩ := nodup
  rw [queue]
  refine ⟨nodup, fun c => ?_, fun c => ?_, fun c => ?_⟩
  · by_cases hc : b = c
    · subst hc
      rw [new]
      exact iff_of_false notQueued out_queue
    · rw [others c hc]
      exact queued c
  · by_cases hc : b = c
    · subst hc
      rw [new]
      exact iff_of_false notTaken out_holders
    · rw [others c hc, taken c, holders.mem_iff, List.mem_cons]
      exact or_iff_right fun e => hc e.symm
  · by_cases hc : b = c
    · subst hc
      rw [new]
      exact known
    · rw [others c hc]
      exact all c

/-- The statuses a completion writes (R178). -/
theorem status_completed (r : ResultCode) :
    r.status ≠ stQUEUED ∧ r.status ≠ stTAKEN ∧ r.status.toNat ≤ 6 := by
  cases r <;> decide

/-! ### Memory of the blocks and slots -/

theorem not_inPages_block {b : Fin 16} {a : Nat} (h : inPages a) : a < blockBase b ∨ blockBase b + 0x100 ≤ a := by
  unfold inPages at h
  unfold blockBase
  omega

theorem not_inPages_slot {n : Fin 8} {a : Nat} (h : inPages a) : a < slotBase n := by
  unfold inPages at h
  unfold slotBase
  omega

theorem writeOutcome_bytes (s : State) (b : Fin 16) (r : ResultCode) (ws : List Word) (a : Nat) (h : inPages a) :
    (s.writeOutcome b r ws).mem.read a = s.mem.read a := by
  have := not_inPages_block (b := b) h
  exact writeOutcome_read s b r ws a (by omega)

theorem writeOutcome_wf (s : State) (b : Fin 16) (r : ResultCode) (ws : List Word) (h : s.memWf) :
    (s.writeOutcome b r ws).memWf :=
  memory_wf_writeWords _ _ _ (memory_wf_writeWords _ _ _ h)

/-! ### Messages (chapter 8) -/

/-- An in-flight entry that leaves gives its block back. -/
theorem holders_erase {s : State} {x : InFlight} (hx : x ∈ s.inFlight) :
    s.holders.Perm (x.block :: ({ s with inFlight := s.inFlight.erase x } : State).holders) := by
  have flight : (s.inFlight.map (·.block)).Perm (x.block :: (s.inFlight.erase x).map (·.block)) :=
    (List.perm_cons_erase hx).map _
  exact (flight.append_left _).trans List.perm_middle

theorem moves_finishFlight {s : State} {x : InFlight} (hx : x ∈ s.inFlight) (r : ResultCode) (ws : List Word) :
    Moves s (s.finishFlight x r ws) := by
  obtain ⟨notQueued, notTaken, known⟩ := status_completed r
  refine ⟨⟨⟨rfl, rfl, fun _ => rfl, fun _ _ => Or.inl rfl, fun a ha => ?_, fun w => ?_, fun fits => ?_, fun agree => ?_⟩,
    rfl, id, id, id, id, id⟩, rfl⟩
  · exact writeOutcome_bytes { s with inFlight := s.inFlight.erase x } x.block r ws a ha
  · exact writeOutcome_wf { s with inFlight := s.inFlight.erase x } x.block r ws w
  · obtain ⟨ends, lines, weight, flight, rest⟩ := fits
    exact ⟨ends, lines, weight, (List.length_erase_le).trans flight, rest⟩
  · refine ordersAgree_retire (s := s) (b := x.block) (v := r.status) rfl (holders_erase hx) ?_ (fun c hc => ?_) notQueued notTaken
      known agree
    · exact blockStatus_writeOutcome { s with inFlight := s.inFlight.erase x } x.block r ws
    · exact blockStatus_writeOutcome_of_ne { s with inFlight := s.inFlight.erase x } hc r ws

theorem moves_takeAck (s : State) (e : EndId) (t : Telegram) : Moves s (s.takeAck e t) := by
  unfold State.takeAck
  split
  · next h =>
    have hx := List.mem_of_find?_eq_some h
    dsimp only
    split
    · exact moves_finishFlight hx _ _
    · split
      · exact moves_finishFlight hx _ _
      · exact moves_refl s
  · exact moves_refl s

theorem moves_passDeadline (s : State) (b : Fin 16) : Moves s (s.passDeadline b) := by
  unfold State.passDeadline
  split
  · next h => exact moves_finishFlight (List.mem_of_find?_eq_some h) _ _
  · exact moves_refl s

/-- A delivery number stays within a byte (R146). -/
theorem stepDelivery_le {n : Nat} (h : n ≤ 255) : stepDelivery n ≤ 255 := by
  unfold stepDelivery
  split <;> omega

theorem slot_idx_ne {r : Rec} (hr : r ∈ pageRecs) (n : Fin 8) : (Rec.slot n).idx ≠ r.idx := by
  intro e
  have := congrArg Fin.val e
  simp only [pageRecs, List.mem_cons, List.not_mem_nil, or_false] at hr
  rcases hr with rfl | rfl | rfl | rfl | rfl | rfl | rfl | rfl | rfl | rfl <;> simp [Rec.idx] at this <;> omega

theorem rev_setRev_slot {s : State} {r : Rec} (hr : r ∈ pageRecs) (n : Fin 8) (v : Word) :
    (s.setRev (.slot n) v).rev r = s.rev r := by
  simp only [State.rev, State.setRev, Fin.getElem_fin]
  exact Vector.getElem_set_ne _ _ fun e => slot_idx_ne hr n (Fin.ext e)

theorem even_add_two (v : Word) : (v + 2).getLsbD 0 = v.getLsbD 0 := by
  simp only [BitVec.getLsbD, Nat.testBit_zero, BitVec.toNat_add, decide_eq_decide]
  have e : (2 : Word).toNat = 2 := rfl
  omega

/-- A slot's counter steps by 2: its parity stands (R169). -/
theorem setRev_slot_parity (s : State) (n m : Fin 8) :
    ((s.setRev (.slot n) (s.rev (.slot n) + 2)).rev (.slot m)).getLsbD 0 = (s.rev (.slot m)).getLsbD 0 := by
  by_cases h : n = m
  · subst h
    rw [rev_setRev, even_add_two]
  · have ne : (Rec.slot n).idx ≠ (Rec.slot m).idx := fun e => by
      have := congrArg Fin.val e
      simp only [Rec.idx] at this
      exact h (Fin.ext (by omega))
    simp only [State.rev, State.setRev, Fin.getElem_fin]
    rw [Vector.getElem_set_ne _ _ fun e => ne (Fin.ext e)]

/-- A delivery writes its slot alone. -/
theorem deliverInto_read (s : State) (n : Fin 8) (t : Telegram) (a : Nat)
    (h : a < slotBase n ∨ slotBase n + 0x100 ≤ a) : (s.deliverInto n t).mem.read a = s.mem.read a := by
  unfold State.deliverInto
  show Memory.read (Memory.write (Memory.writeWords (Memory.writeWords s.mem _ _) _ _) _ _) a = _
  rw [memory_read_write, if_neg, memory_read_writeWords_of_outside, memory_read_writeWords_of_outside]
  · simp only [List.length_cons, List.length_nil]
    omega
  · simp only [List.length_append, length_identWords, List.length_cons, List.length_nil]
    omega
  · simp only [messageBytes, List.length_map, List.length_range]
    omega

theorem readWord_congr {m m' : Memory} {a : Nat} (h : m.read a = m'.read a) (k : m.read (a + 1) = m'.read (a + 1)) :
    m.readWord a = m'.readWord a := by
  unfold Memory.readWord
  rw [h, k]

theorem moves_deliverInto (s : State) (n : Fin 8) (t : Telegram) : Moves s (s.deliverInto n t) := by
  have bytes := deliverInto_read s n t
  refine ⟨⟨⟨rfl, rfl, fun m => ?_, fun r hr => Or.inl ?_, fun a ha => ?_, fun w => ?_, fun fits => ?_, ?_⟩,
    rfl, id, id, id, id, id⟩, rfl⟩
  · exact setRev_slot_parity { s with deliveries := _ } n m
  · exact rev_setRev_slot (s := { s with deliveries := _ }) hr n _
  · exact bytes a (Or.inl (not_inPages_slot ha))
  · exact memory_wf_write _ _ _ (memory_wf_writeWords _ _ _ (memory_wf_writeWords _ _ _ w))
  · obtain ⟨ends, lines, weight, flight, threshold, bad, levels, deliveries⟩ := fits
    refine ⟨ends, lines, weight, flight, threshold, bad, levels, fun m => ?_⟩
    show (s.deliveries.set n (stepDelivery s.deliveries[n]))[m] ≤ 255
    by_cases h : n = m
    · subst h
      rw [Fin.getElem_fin, Vector.getElem_set_self]
      exact stepDelivery_le (deliveries n)
    · rw [Fin.getElem_fin, Vector.getElem_set_ne _ _ fun e => h (Fin.ext e)]
      exact deliveries m
  · refine ordersAgree_congr rfl (List.Perm.refl _) fun b => readWord_congr (bytes _ ?_) (bytes _ ?_)
    · unfold blockBase slotBase
      omega
    · unfold blockBase slotBase
      omega

theorem moves_acknowledge (s : State) (e : EndId) (t : Telegram) (r : Byte) : Moves s (s.acknowledge e t r) := by
  unfold State.acknowledge
  split
  · exact moves_refl s
  · exact moves_buildAt s _ _ _ _ _ _

theorem moves_takeMsg (s : State) (e : EndId) (t : Telegram) : Moves s (s.takeMsg e t) := by
  unfold State.takeMsg
  split
  · split
    · split
      · exact moves_trans (moves_deliverInto s _ _) (moves_acknowledge _ _ _ _)
      · exact moves_deliverInto s _ _
    · split
      · exact moves_acknowledge s _ _ _
      · exact moves_refl s
  · exact moves_refl s

/-! ### Receive buffers and the dispatcher (R34 to R44) -/

theorem fill_append (u : EndUnit) (t : Telegram) :
    EndUnit.fill { u with buffer := u.buffer ++ [t] } = u.fill + t.length := by
  simp [EndUnit.fill]

theorem moves_offer (s : State) (e : EndId) (t : Telegram) : Moves s (s.offer e t) := by
  unfold State.offer
  extract_lets u
  split
  · next room =>
    refine moves_modEnd s e _ fun _ ⟨relay, origin, _, rest⟩ => ?_
    have fill := fill_append (s.endOf e) t
    dsimp only
    split
    · exact ⟨relay, origin, fill.le.trans room, rest⟩
    · exact ⟨relay, origin, fill.le.trans room, rest⟩
  · exact moves_raise s _

theorem fill_tail_le (u : EndUnit) : ((u.buffer.tail).map Telegram.length).sum ≤ u.fill := by
  unfold EndUnit.fill
  cases u.buffer with
  | nil => exact le_refl _
  | cons t ts => simp

theorem moves_dropHead (s : State) (e : EndId) : Moves s (s.dropHead e) := by
  refine moves_modEnd s e _ fun _ ⟨relay, origin, fill, rest⟩ => ?_
  unfold EndUnit.dropHead
  dsimp only
  split
  · exact ⟨relay, origin, (fill_tail_le _).trans fill, rest⟩
  · exact ⟨relay, origin, (fill_tail_le _).trans fill, rest⟩

theorem moves_blockHead (s : State) (e : EndId) (b : Bool) : Moves s (s.blockHead e b) :=
  moves_modEnd s e _ fun _ k => k

theorem moves_consume (s : State) (e : EndId) (t : Telegram) : Moves s (s.consume e t).1 := by
  unfold State.consume
  cases t.kind with
  | change =>
    dsimp only
    split
    · exact moves_takeChange s t
    · exact moves_refl s
  | survey => exact moves_takeSurvey s e t
  | roll => exact moves_takeRoll s e t
  | roster => exact moves_takeRoster s t
  | door => exact moves_takeDoor s t
  | doorstat =>
    dsimp only
    split
    · exact moves_takeStat s e t
    · exact moves_refl s
  | heatcall => exact moves_takeCall s t
  | heatbid => exact moves_takeBid s t
  | heatgrant => exact moves_takeGrant s t
  | msg => exact moves_takeMsg s e t
  | msgack => exact moves_takeAck s e t
  | hail => exact moves_refl s

theorem moves_relayHead (s : State) (e : EndId) (t : Telegram) (b : Bool) : Moves s (s.relayHead e t b) := by
  unfold State.relayHead
  split
  · split
    · next q hq =>
      refine moves_trans (moves_dropHead s e) (moves_enterRelay _ _ q fun room => length_admission hq ?_)
      rwa [State.dropHead, endOf_modEnd_of_ne s (opp_ne e)] at room
    · exact moves_blockHead s e b
  · exact moves_dropHead s e

theorem moves_routeBroadcast (s : State) (e : EndId) (t : Telegram) : Moves s (s.routeBroadcast e t) := by
  unfold State.routeBroadcast
  split
  · exact moves_relayHead s e t true
  · dsimp only
    split
    · exact moves_trans (moves_consume s e t) (moves_dropHead _ _)
    · exact moves_trans (moves_consume s e t) (moves_relayHead _ _ _ _)

theorem moves_routeTowardLead (s : State) (e : EndId) (t : Telegram) : Moves s (s.routeTowardLead e t) := by
  unfold State.routeTowardLead
  split
  · exact moves_trans (moves_consume s e t) (moves_dropHead _ _)
  · split
    · split
      · exact moves_dropHead s e
      · exact moves_relayHead s e t false
    · exact moves_relayHead s e t false

theorem moves_routeCoach (s : State) (e : EndId) (t : Telegram) : Moves s (s.routeCoach e t) := by
  unfold State.routeCoach
  split
  · exact moves_trans (moves_consume s e t) (moves_dropHead _ _)
  · exact moves_relayHead s e t false

theorem moves_dispatchHead (s : State) (e : EndId) : Moves s (s.dispatchHead e) := by
  unfold State.dispatchHead
  split
  · exact moves_refl s
  · split
    · exact moves_dropHead s e
    · split
      · exact moves_routeBroadcast s e _
      · exact moves_routeTowardLead s e _
      · exact moves_routeCoach s e _
      · exact moves_dropHead s e

theorem moves_dispatch (s : State) (e : EndId) : Moves s (s.dispatch e) := by
  unfold State.dispatch
  split
  · exact moves_refl s
  · exact moves_dispatchHead s e

theorem moves_retake (s : State) (e : EndId) : Moves s (s.retake e) := by
  unfold State.retake
  split
  · exact moves_dispatchHead s e
  · exact moves_refl s

theorem moves_boundary (s : State) (e : EndId) : Moves s (s.boundary e) := by
  unfold State.boundary
  dsimp only
  split
  · exact moves_trans (moves_start s e) (moves_retake _ _)
  · exact moves_start s e

end Sys2Proof.Machine
end

