-- ==== Sys2Proof/Proofs/StepLines.lean ====
section
/-! PROOFS. What line units, end controllers, inputs and the millisecond keep (chapters 1, 2 and 9). -/

namespace Sys2Proof.Machine

/-! ### Lines (R1 to R9) -/

theorem moves_modLine (s : State) (l : LineId) (f : LineUnit → LineUnit)
    (h : (s.lineOf l).fits → (f (s.lineOf l)).fits) : Moves s (s.modLine l f) := by
  refine ⟨⟨⟨rfl, rfl, fun _ => rfl, fun _ _ => Or.inl rfl, fun _ _ => rfl, id, fun fits => ?_, id⟩, rfl, id, id, id, id, id⟩,
    rfl⟩
  obtain ⟨ends, lines, rest⟩ := fits
  refine ⟨ends, fun k => ?_, rest⟩
  rw [State.modLine_lines]
  by_cases hk : k = l
  · subst hk
    rw [lines_get_set]
    exact h (lines k)
  · rw [lines_get_set_of_ne _ _ _ _ hk]
    exact lines k

theorem moves_setLine (s : State) (l : LineId) (u : LineUnit) (h : (s.lineOf l).fits → u.fits) : Moves s (s.setLine l u) := by
  have line := moves_modLine s l (fun _ => u) h
  unfold State.setLine
  extract_lets old v w
  have flag : Moves s w := by
    unfold w
    split
    · exact line
    · exact moves_trans line (moves_raise _ _)
  split
  · exact moves_trans flag (moves_modEnd w l.side _ fun _ k => k)
  · exact flag

theorem moves_lineDark (s : State) (l : LineId) : Moves s (s.lineDark l) := by
  unfold State.lineDark
  extract_lets u
  split
  · exact moves_refl s
  · exact moves_setLine s l _ fun ⟨score, _⟩ => ⟨score, Nat.zero_le _⟩

theorem moves_testDark (s : State) (l : LineId) : Moves s (s.testDark l) := by
  unfold State.testDark
  split
  · exact moves_setLine s l _ fun _ => ⟨Nat.zero_le _, Nat.zero_le _⟩
  · exact moves_refl s

theorem moves_testDarkLines (s : State) (e : EndId) : Moves s (s.testDarkLines e) :=
  moves_trans (moves_testDark s _) (moves_testDark _ _)

theorem moves_rescore (s : State) (l : LineId) (n : Nat) (h : (s.lineOf l).score ≤ 32 → n ≤ 32) : Moves s (s.rescore l n) := by
  unfold State.rescore
  extract_lets u x
  split
  · exact moves_setLine s l _ fun ⟨score, _⟩ => ⟨h score, Nat.zero_le _⟩
  · exact moves_setLine s l _ fun ⟨score, bytes⟩ => ⟨h score, bytes⟩

theorem moves_scoreBad (s : State) (l : LineId) : Moves s (s.scoreBad l) :=
  moves_rescore s l _ fun _ => Nat.min_le_left _ _

theorem moves_scoreGood (s : State) (l : LineId) : Moves s (s.scoreGood l) :=
  moves_rescore s l _ fun h => (Nat.sub_le _ _).trans h

theorem moves_energyOn (s : State) (l : LineId) : Moves s (s.energyOn l) :=
  moves_trans (moves_trans (moves_modLine s l _ id) (moves_testDark _ _)) (moves_boundary _ _)

theorem moves_energyOff (s : State) (l : LineId) : Moves s (s.energyOff l) := by
  unfold State.energyOff
  extract_lets u
  have off : Moves s u := moves_modLine s l _ id
  split
  · exact moves_trans off (moves_lineDark _ _)
  · exact off

theorem moves_qualifyLine (s : State) (l : LineId) : Moves s (s.qualifyLine l) := by
  unfold State.qualifyLine
  extract_lets u
  split
  · exact moves_setLine s l _ id
  · exact moves_refl s

theorem moves_endRest (s : State) (l : LineId) : Moves s (s.endRest l) := by
  unfold State.endRest
  extract_lets u
  split
  · exact moves_trans (moves_trans (moves_lineDark s l) (moves_testDark _ _)) (moves_boundary _ _)
  · exact moves_refl s

theorem moves_gapTimeout (s : State) (l : LineId) : Moves s (s.gapTimeout l) := by
  unfold State.gapTimeout
  extract_lets u
  split
  · refine moves_trans (moves_setLine s l _ ?_) (moves_scoreBad _ _)
    exact fun ⟨score, _⟩ => ⟨score, Nat.zero_le _⟩
  · exact moves_refl s

/-! ### Delivery (R12, R17, R31 to R33) -/

theorem moves_takeHail (s : State) (e : EndId) (entered : Bool) (t : Telegram) : Moves s (s.takeHail e entered t) := by
  unfold State.takeHail
  extract_lets n old u
  have record : Moves s u := moves_trans (moves_modEnd s e _ fun _ k => k) (moves_touch _ .lines (by decide))
  split
  · split
    · exact moves_linkChange s _
    · exact moves_refl s
  · split
    · exact moves_trans record (moves_linkChange _ _)
    · split
      · exact record
      · split
        · exact moves_trans record (moves_linkChange _ _)
        · exact record

theorem length_enterKey {ks : List FilterKey} (k : FilterKey) (h : ks.length ≤ 16) : (enterKey ks k).length ≤ 16 := by
  unfold enterKey
  split
  · rw [List.length_append, List.length_singleton]
    omega
  · rw [List.length_append, List.length_singleton, List.length_tail]
    omega

theorem fits_refreshed {u : EndUnit} (h : u.fits) : u.refreshed.fits := by
  unfold EndUnit.refreshed
  split
  · exact h
  · exact h
  · exact h

theorem moves_linkIf (s : State) (b : Bool) (c : LinkChange) : Moves s (if b then s.linkChange c else s) := by
  split
  · exact moves_linkChange s c
  · exact moves_refl s

theorem moves_deliver (s : State) (e : EndId) (t : Telegram) : Moves s (s.deliver e t) := by
  unfold State.deliver
  extract_lets entered u v w
  have fresh : Moves s u := moves_modEnd s e _ fun _ k => fits_refreshed k
  have summed : Moves s v := by
    unfold v
    split
    · exact moves_trans fresh (moves_trans (moves_raise _ _) (moves_evalSummary _))
    · exact fresh
  have keyed : Moves s w := moves_trans summed (moves_modEnd v e _ fun _ ⟨relay, origin, fill, filter, run⟩ =>
    ⟨relay, origin, fill, length_enterKey _ filter, run⟩)
  split
  · exact moves_trans summed (moves_linkIf v _ _)
  · split
    · exact moves_trans keyed (moves_takeHail _ _ _ _)
    · exact moves_trans keyed (moves_trans (moves_linkIf w _ _) (moves_offer _ _ _))

theorem moves_closeCandidate (s : State) (l : LineId) (c : List Byte) : Moves s (s.closeCandidate l c) := by
  unfold State.closeCandidate
  split
  · exact moves_scoreBad s l
  · dsimp only
    split
    · exact moves_trans (moves_scoreGood s l) (moves_deliver _ _ _)
    · exact moves_scoreGood s l

theorem moves_expireKey (s : State) (e : EndId) : Moves s (s.expireKey e) := by
  unfold State.expireKey
  split
  · next k ks hk =>
    split
    · refine moves_modEnd s e _ fun _ ⟨relay, origin, fill, filter, run⟩ => ⟨relay, origin, fill, ?_, run⟩
      rw [hk, List.length_cons] at filter
      exact (Nat.le_succ _).trans filter
    · exact moves_refl s
  · exact moves_refl s

/-! ### Received bytes and flow characters (R26 to R28, R36 to R39) -/

theorem collected_restartGap (x : Assembler) : x.restartGap.collected = x.collected := by cases x <;> rfl

theorem moves_flowOn (s : State) (l : LineId) (f : State → State) (h : ∀ u, Moves u (f u)) : Moves s (s.flowOn l f) := by
  unfold State.flowOn
  extract_lets u v
  have gap : Moves s v := moves_modLine s l _ fun ⟨score, bytes⟩ => ⟨score, (collected_restartGap _).le.trans bytes⟩
  split
  · split
    · exact moves_trans gap (h v)
    · exact gap
  · exact moves_refl s

theorem moves_stopped (s : State) (e : EndId) : Moves s (s.stopped e) := by
  unfold State.stopped
  split
  · exact moves_refl s
  · exact moves_modEnd s e _ fun _ k => k

theorem moves_released (s : State) (e : EndId) : Moves s (s.released e) := by
  unfold State.released
  split
  · exact moves_trans (moves_modEnd s e _ fun _ k => k) (moves_boundary _ _)
  · exact moves_refl s

theorem moves_recvStop (s : State) (l : LineId) : Moves s (s.recvStop l) := moves_flowOn s l _ fun u => moves_stopped u _

theorem moves_recvGo (s : State) (l : LineId) : Moves s (s.recvGo l) := moves_flowOn s l _ fun u => moves_released u _

theorem collected_collect (bs : List Byte) (v : Byte) : (collect bs v).1.collected ≤ 320 := by
  unfold collect
  split
  · next room =>
    show (bs ++ [v]).length ≤ 320
    rw [List.length_append, List.length_singleton]
    exact room
  · exact Nat.zero_le _

/-- The assembler never collects more than 320 bytes (R28). -/
theorem collected_asmStep {x : Assembler} (v : Byte) (h : x.collected ≤ 320) : (asmStep x v).1.collected ≤ 320 := by
  unfold asmStep
  split
  · split <;> exact Nat.zero_le _
  · split
    · exact Nat.zero_le _
    · split <;> exact Nat.zero_le _
  · split
    · exact h
    · split
      · exact Nat.zero_le _
      · split
        · exact Nat.zero_le _
        · exact collected_collect _ _
  · split
    · exact collected_collect _ _
    · split
      · exact Nat.zero_le _
      · split <;> exact Nat.zero_le _

theorem moves_byteIn (s : State) (l : LineId) (v : Byte) : Moves s (s.byteIn l v) := by
  unfold State.byteIn
  split
  · exact moves_recvStop s l
  · split
    · exact moves_recvGo s l
    · extract_lets u w
      have asm : Moves s w := moves_setLine s l _ fun ⟨score, bytes⟩ => ⟨score, collected_asmStep v bytes⟩
      split
      · split
        · exact asm
        · exact moves_trans asm (moves_scoreBad _ _)
        · exact moves_trans asm (moves_closeCandidate _ _ _)
      · exact moves_refl s

theorem moves_stallOut (s : State) (e : EndId) : Moves s (s.stallOut e) := by
  unfold State.stallOut
  split
  · exact moves_trans (moves_modEnd s e _ fun _ k => k) (moves_raise _ _)
  · exact moves_refl s

theorem moves_sendFlow (s : State) (e : EndId) : Moves s (s.sendFlow e) := by
  unfold State.sendFlow
  split
  · split
    · exact moves_refl s
    · exact moves_modEnd s e _ fun _ k => k
  · exact moves_refl s

theorem moves_hailOut (s : State) (e : EndId) : Moves s (s.hailOut e) := by
  unfold State.hailOut
  split
  · exact moves_trans (moves_modEnd s e _ fun _ k => k) (moves_boundary _ _)
  · exact moves_refl s

theorem moves_telegramEnd (s : State) (e : EndId) : Moves s (s.telegramEnd e) := by
  unfold State.telegramEnd
  split
  · exact moves_trans (moves_modEnd s e _ fun _ k => k) (moves_boundary _ _)
  · exact moves_refl s

/-! ### End states (R11, R13) -/

theorem moves_afterLeave (s : State) (e : EndId) (p : Option Ident) : Moves s (s.afterLeave e p) :=
  moves_trans (moves_trans (moves_trans (moves_evalSummary s) (moves_linkChange _ _)) (moves_retake _ _))
    (moves_boundary _ _)

theorem fits_unlinked {u : EndUnit} (h : u.fits) : u.unlinked.fits :=
  ⟨Nat.zero_le _, Nat.zero_le _, h.2.2.1, Nat.zero_le _, h.2.2.2.2⟩

theorem fits_uncoupled {u : EndUnit} (h : u.fits) : u.uncoupled.fits := h

theorem moves_linkLost (s : State) (e : EndId) : Moves s (s.linkLost e) := by
  unfold State.linkLost
  extract_lets u
  split
  · exact moves_trans (moves_trans (moves_modEnd s e _ fun _ k => fits_unlinked k) (moves_raise _ _)) (moves_afterLeave _ _ _)
  · exact moves_refl s

theorem moves_darkLines (s : State) (e : EndId) : Moves s (s.darkLines e) :=
  moves_trans (moves_lineDark s _) (moves_lineDark _ _)

theorem moves_uncouple (s : State) (e : EndId) : Moves s (s.uncouple e) := by
  unfold State.uncouple
  extract_lets u
  split
  · exact moves_refl s
  · exact moves_trans (moves_trans (moves_modEnd s e EndUnit.uncoupled fun _ k => fits_uncoupled k) (moves_raise _ _))
      (moves_darkLines _ _)
  · exact moves_trans (moves_trans (moves_trans
      (moves_modEnd s e (fun u => u.unlinked.uncoupled) fun _ k => fits_uncoupled (fits_unlinked k)) (moves_raise _ _))
      (moves_darkLines _ _)) (moves_afterLeave _ _ _)

theorem moves_startProbing (s : State) (e : EndId) : Moves s (s.startProbing e) := by
  unfold State.startProbing
  split
  · exact moves_trans (moves_trans (moves_modEnd s e _ fun _ k => k) (moves_testDarkLines _ _)) (moves_boundary _ _)
  · exact moves_refl s

theorem moves_couple (s : State) (e : EndId) : Moves s (s.couple e) := by
  unfold State.couple
  split
  · exact moves_trans (moves_trans (moves_modEnd s e _ fun _ k => k) (moves_raise _ _)) (moves_startProbing _ _)
  · exact moves_refl s

/-! ### Inputs (R153 to R156) -/

theorem turns_modInput (s : State) (i : Input) (f : InputRec → InputRec) : Turns s (s.modInput i f) :=
  ⟨⟨rfl, rfl, fun _ => rfl, fun _ _ => Or.inl rfl, fun _ _ => rfl, id, id, id⟩, rfl, id, id, id, rfl⟩

theorem level_modInput_of_ne (s : State) {i k : Input} (h : k ≠ i) (f : InputRec → InputRec) :
    (s.modInput i f).level k = s.level k := by
  unfold State.level
  rw [State.modInput_inputs, inputs_get_set_of_ne _ _ _ _ h]

theorem level_modInput (s : State) (i : Input) (f : InputRec → InputRec) :
    (s.modInput i f).level i = (f (s.inputs.get i)).qualified := by
  unfold State.level
  rw [State.modInput_inputs, inputs_get_set]

/-- A release stands on the level of ZSPD alone among the inputs, and on consist state, generation and position. -/
theorem releaseOk_of_zspd {s t : State} (group : t.door.group = s.door.group) (state : t.consist.state = s.consist.state)
    (generation : t.consist.generation = s.consist.generation) (position : t.consist.position = s.consist.position)
    (level : s.level .zspd = true → t.level .zspd = true) (h : s.releaseOk) : t.releaseOk := by
  intro x r hr
  rw [group] at hr
  obtain ⟨formed, zero, rest⟩ := h x r hr
  unfold State.releaseStands
  rw [state, generation, position]
  exact ⟨formed, level zero, rest⟩

theorem supplyOk_of_level {s t : State} (part : t.part = s.part) (heat : t.heat = s.heat)
    (level : t.level .supply = false → s.level .supply = false) (h : s.supplyOk) : t.supplyOk := fun active off => by
  rw [heat]
  exact h (part ▸ active) (level off)

theorem moves_modInput (s : State) (i : Input) (f : InputRec → InputRec)
    (zspd : i = .zspd → s.level .zspd = true → (f (s.inputs.get i)).qualified = true)
    (supply : i = .supply → (f (s.inputs.get i)).qualified = false → s.level .supply = false) :
    Moves s (s.modInput i f) := by
  refine moves_of_turns (turns_modInput s i f) (releaseOk_of_zspd rfl rfl rfl rfl fun h => ?_)
    (supplyOk_of_level rfl rfl fun h => ?_)
  · by_cases hi : i = .zspd
    · subst hi
      rw [level_modInput]
      exact zspd rfl h
    · rw [level_modInput_of_ne s (Ne.symm hi)]
      exact h
  · by_cases hi : i = .supply
    · subst hi
      rw [level_modInput] at h
      exact supply rfl h
    · rwa [level_modInput_of_ne s (Ne.symm hi)] at h

/-- Zero speed lost closes what was released (R107). -/
theorem zeroSpeedLost_group (s : State) (x : Sides) (r : Release) : s.zeroSpeedLost.door.group ≠ .released x r := by
  unfold State.zeroSpeedLost
  split
  · rw [State.raise_door, State.enterClosing, setGroup_door]
    dsimp only
    split <;> exact DoorGroup.noConfusion
  · next h =>
    rw [h]
    exact DoorGroup.noConfusion
  · next h =>
    rw [h]
    exact DoorGroup.noConfusion

theorem moves_auxChange (s : State) (x : Sensitivity) (c : EventClass) (b : Bool) : Moves s (s.auxChange x c b) := by
  unfold State.auxChange
  split
  · exact moves_raise s c
  · exact moves_refl s

/-- The act of an input's reader mends what its change shook: ZSPD lost drops the release, SUPPLY lost turns the heating off. -/
theorem moves_modInput_act (s : State) (i : Input) (b : Bool) :
    Moves s (((s.modInput i fun r => { r with qualified := b, timer := none }).touchAgain .ioView).act i b) := by
  generalize hu : s.modInput i (fun r => { r with qualified := b, timer := none }) = u
  have turns : Turns s u := hu ▸ turns_modInput s i _
  have touch : Moves u (u.touchAgain .ioView) := moves_touchAgain u .ioView (by decide)
  have plain : (i = .zspd → b = true) → (i = .supply → b = true) → Moves s (u.touchAgain .ioView) := fun hz hs => by
    refine moves_trans (hu ▸ moves_modInput s i _ (fun h _ => hz h) fun h off => ?_) touch
    rw [show b = true from hs h] at off
    cases off
  unfold State.act
  cases i with
  | cplA =>
    refine moves_trans (plain nofun nofun) ?_
    dsimp only
    split
    · exact moves_couple _ _
    · exact moves_uncouple _ _
  | cplB =>
    refine moves_trans (plain nofun nofun) ?_
    dsimp only
    split
    · exact moves_couple _ _
    · exact moves_uncouple _ _
  | zspd =>
    cases b with
    | true => exact plain (fun _ => rfl) nofun
    | false =>
      have level : u.level .supply = s.level .supply := hu ▸ level_modInput_of_ne s (by decide) _
      have supply : s.supplyOk → u.supplyOk := supplyOk_of_level (hu ▸ rfl) (hu ▸ rfl) fun h => level ▸ h
      exact moves_of_turns (turns_trans turns (turns_of_moves (moves_trans touch (moves_zeroSpeedLost _))))
        (fun _ x r hr => absurd hr (zeroSpeedLost_group _ x r))
        fun ok => (moves_trans touch (moves_zeroSpeedLost _)).supply (supply ok)
  | dloop =>
    refine moves_trans (moves_trans (plain nofun nofun) ?_) (moves_evalSummary _)
    split
    · exact moves_loopClosed _
    · exact moves_refl _
  | supply =>
    cases b with
    | true => exact plain nofun (fun _ => rfl)
    | false =>
      have level : u.level .zspd = s.level .zspd := hu ▸ level_modInput_of_ne s (by decide) _
      have release : s.releaseOk → u.releaseOk := releaseOk_of_zspd (hu ▸ rfl) (hu ▸ rfl) (hu ▸ rfl) (hu ▸ rfl) fun h => level ▸ h
      have turns := turns_trans turns (turns_of_moves touch)
      dsimp only
      split
      · exact moves_of_turns (turns_trans turns (turns_of_moves (moves_supplyLost _)))
          (fun ok => (moves_supplyLost _).release (touch.release (release ok))) fun _ => supplyLost_supplyOk _
      · next halted =>
        refine moves_of_turns turns (fun ok => touch.release (release ok)) fun _ active => absurd ?_ halted
        rw [show (u.touchAgain .ioView).part = .active from active]
        rfl
  | aux0 => exact moves_trans (plain nofun nofun) (moves_auxChange _ _ _ _)
  | aux1 => exact moves_trans (plain nofun nofun) (moves_auxChange _ _ _ _)

theorem moves_qualify (s : State) (i : Input) : Moves s (s.qualify i) := by
  unfold State.qualify
  extract_lets r
  split
  · have h := moves_modInput_act s i r.raw
    have same : (s.modInput i fun r => { r with qualified := r.raw, timer := none })
        = s.modInput i fun q => { q with qualified := r.raw, timer := none } := rfl
    rw [same]
    exact h
  · exact moves_refl s

theorem moves_rawChange (s : State) (i : Input) (b : Bool) : Moves s (s.rawChange i b) := by
  unfold State.rawChange
  extract_lets r t u
  have raw : Moves s u := moves_modInput s i _ (fun h z => h ▸ z) (fun h z => h ▸ z)
  split
  · exact moves_trans raw (moves_qualify _ _)
  · exact raw

/-! ### Timers of the consist, door and heating units -/

theorem moves_holdOffOut (s : State) : Moves s s.holdOffOut := by
  unfold State.holdOffOut
  split
  · exact moves_beginSurvey s
  · exact moves_refl s

theorem moves_surveyOut (s : State) : Moves s s.surveyOut := by
  unfold State.surveyOut
  split
  · exact moves_endSurvey s
  · exact moves_refl s

theorem moves_rosterWaitOut (s : State) : Moves s s.rosterWaitOut := by
  unfold State.rosterWaitOut
  split
  · split
    · exact moves_endWait s
    · exact moves_refl s
  · exact moves_refl s

theorem moves_statOut (s : State) : Moves s s.statOut := by
  unfold State.statOut
  split
  · exact moves_trans (moves_modDoor s _ rfl) (moves_originateStat _)
  · exact moves_refl s

theorem moves_recordStale (s : State) (x : Side) : Moves s (s.recordStale x) := by
  unfold State.recordStale
  split
  · split
    · exact moves_evalSummary s
    · exact moves_refl s
  · exact moves_refl s

theorem moves_windowOut (s : State) : Moves s s.windowOut := by
  unfold State.windowOut
  split
  · exact moves_closeWindow s
  · exact moves_refl s

/-! ### The millisecond (R17) -/

theorem collected_tick (x : Assembler) : x.tick.collected = x.collected := by cases x <;> rfl

theorem level_tick (s : State) (i : Input) : s.tick.level i = s.level i := by cases i <;> rfl

theorem ends_tick (s : State) (e : EndId) : s.tick.ends.get e = (s.ends.get e).tick := by cases e <;> rfl

theorem lines_tick (s : State) (l : LineId) : s.tick.lines.get l = (s.lines.get l).tick := by
  obtain ⟨e, n⟩ := l
  cases e <;> cases n <;> rfl

theorem tick_read (s : State) (a : Nat) (h : a < 0x1400 ∨ 0x1402 ≤ a) : s.tick.mem.read a = s.mem.read a :=
  memory_read_writeWords_of_outside s.mem 0x1400 [s.ms + 1] a h

theorem within_tick {h : HeatUnit} {count fallback : Nat} (k : h.within count fallback) : h.tick.within count fallback := by
  obtain ⟨on, limit, ramp, rest⟩ := k
  refine ⟨on, limit, fun r hr => ?_, rest⟩
  obtain ⟨r', hr', rfl⟩ := Option.map_eq_some_iff.mp hr
  exact ramp r' hr'

theorem moves_tick (s : State) : Moves s s.tick := by
  refine ⟨⟨⟨rfl, rfl, fun _ => rfl, fun _ _ => Or.inl rfl, fun a ha => tick_read s a ?_, memory_wf_writeWords _ _ _,
    fun fits => ?_, ordersAgree_congr rfl ?_ fun b => ?_⟩, rfl, id, releaseOk_of_zspd rfl rfl rfl rfl id, fun ok => ?_, ?_, id⟩, rfl⟩
  · unfold inPages at ha
    omega
  · obtain ⟨ends, lines, weight, flight, rest⟩ := fits
    refine ⟨fun e => ?_, fun l => ?_, weight, ?_, rest⟩
    · rw [ends_tick]
      exact ends e
    · rw [lines_tick]
      exact ⟨(lines l).1, (collected_tick _).le.trans (lines l).2⟩
    · exact (List.length_map _).le.trans flight
  · have blocks : s.tick.inFlight.map (·.block) = s.inFlight.map (·.block) := List.map_map
    exact List.Perm.of_eq (congrArg (_ ++ ·) blocks)
  · refine readWord_congr (tick_read s _ ?_) (tick_read s _ ?_)
    · unfold blockBase
      omega
    · unfold blockBase
      omega
  · obtain ⟨fallback, count, within, stages⟩ := ok
    exact ⟨fallback, count, within_tick within, stages⟩
  · intro ok active off
    exact ok active (level_tick s .supply ▸ off)

end Sys2Proof.Machine
end

