-- ==== Sys2Proof/Proofs/StepOrders.lean ====
section
/-! PROOFS. What the order unit, CONFIGURE and the host port keep (chapter 10), and the effect of each command. -/

namespace Sys2Proof.Machine

/-! ### Completions (R177) -/

/-- The executing order's block leaves its holder when the order completes. -/
theorem holders_complete {s : State} {o : OrderCopy} (h : s.orders.executing = some o) :
    s.holders = o.block :: s.inFlight.map (·.block) := by
  unfold State.holders
  rw [h]
  rfl

theorem safe_complete {s : State} {o : OrderCopy} (h : s.orders.executing = some o) (r : ResultCode) (ws : List Word) :
    Safe s (s.complete o r ws) := by
  obtain ⟨notQueued, notTaken, known⟩ := status_completed r
  rw [complete_eq]
  refine ⟨⟨rfl, rfl, fun _ => rfl, fun _ _ => Or.inl rfl, fun a ha => ?_, fun w => ?_, fun fits => fits, fun agree => ?_⟩,
    rfl, id, id, id, id, id⟩
  · exact writeOutcome_bytes s o.block r ws a ha
  · exact writeOutcome_wf s o.block r ws w
  · refine ordersAgree_retire (s := s) (b := o.block) (v := r.status) rfl (List.Perm.of_eq (holders_complete h)) ?_
      (fun c hc => ?_) notQueued notTaken known agree
    · exact blockStatus_writeOutcome s o.block r ws
    · exact blockStatus_writeOutcome_of_ne s hc r ws

/-- An effect followed by the completion of the order that brought it about. -/
theorem safe_moves_complete {s t : State} {o : OrderCopy} (h : s.orders.executing = some o) (m : Moves s t)
    (r : ResultCode) (ws : List Word) : Safe s (t.complete o r ws) :=
  safe_trans m.toSafe (safe_complete (m.orders ▸ h) r ws)

theorem moves_applyImage_host (s : State) (x : BitVec 12) : Moves s (s.applyImage s.hostOwned x) := by
  have frame := applyImage_eq s s.hostOwned x
  have kept := kept_applyImage s s.hostOwned x
  have outside := applyImage_outside s s.hostOwned x
  have same : ∀ P : State → Prop,
      P { s with outputs := (s.applyImage s.hostOwned x).outputs, revs := (s.applyImage s.hostOwned x).revs } →
      P (s.applyImage s.hostOwned x) := fun P k => by
    rw [frame]
    exact k
  have bit : ∀ i, s.part = .active → s.hostOwned.getLsbD i = true → 9 ≤ i ∨ (3 + s.cfg.count ≤ i) := by
    intro i active own
    unfold State.hostOwned at own
    rw [if_pos active, BitVec.getLsbD_or, BitVec.getLsbD_and, BitVec.getLsbD_not, getLsbD_stageMask, getLsbD_stageMask,
      show gpMask = BitVec.ofNat 12 ((2 ^ 3 - 1) * 2 ^ 9) from rfl, BitVec.getLsbD_ofNat, Nat.testBit_mul_two_pow] at own
    simp only [Bool.or_eq_true, Bool.and_eq_true, decide_eq_true_eq, Bool.not_eq_true', Bool.and_eq_false_iff,
      decide_eq_false_iff_not] at own
    omega
  have apart : ∀ m : BitVec 12, s.part = .active → (∀ i, m.getLsbD i = true → i < 9 ∧ i < 3 + s.cfg.count) →
      m &&& s.hostOwned = 0#12 := by
    intro m active below
    refine BitVec.eq_of_getLsbD_eq fun i hi => ?_
    rw [BitVec.getLsbD_and, BitVec.getLsbD_zero, Bool.and_eq_false_iff]
    by_contra both
    rw [not_or, Bool.not_eq_false, Bool.not_eq_false] at both
    have := below i both.1
    have := bit i active both.2
    omega
  refine ⟨⟨⟨(congrArg State.pending frame :), (congrArg State.resetHeld frame :), fun n => congrArg (·.getLsbD 0) (kept.1 n),
    kept.2.2.2, fun a _ => ?_, ?_, ?_, ?_⟩, (congrArg State.part frame :), fun shown => ?_, ?_, fun ok => ?_, ?_, ?_⟩,
    (congrArg State.orders frame :)⟩
  · rw [State.applyImage_mem]
  · exact fun k => same State.memWf k
  · exact fun k => same State.fits k
  · exact fun k => same State.ordersAgree k
  · refine same State.doorsShown fun held active => ?_
    refine (and_eq_of_outside outside (apart doorMask active fun i hi => ?_)).trans (shown held active)
    rw [getLsbD_doorMask, decide_eq_true_eq] at hi
    omega
  · exact fun k => same State.releaseOk k
  · obtain ⟨fallback, count, within, stages⟩ := ok
    refine same State.heatOk ⟨fallback, count, within, fun held active => ?_⟩
    refine (and_eq_of_outside outside (apart (stageMask s.cfg.count) active fun i hi => ?_)).trans (stages held active)
    rw [getLsbD_stageMask] at hi
    simp only [Bool.and_eq_true, decide_eq_true_eq] at hi
    omega
  · exact fun k => same State.supplyOk k
  · exact fun k => same (fun u => u.consist.sound u.cfg.identity) k

/-! ### The orders -/

theorem safe_completing (s : State) (mine : Word → Bool) (run : State → OrderCopy → State)
    (h : ∀ o, s.orders.executing = some o → Safe s (run s o)) : Safe s (s.completing mine run) := by
  unfold State.completing
  split
  · next o ho =>
    split
    · exact h o ho
    · exact safe_refl s
  · exact safe_refl s

theorem safe_inActive {s : State} {o : OrderCopy} (h : s.orders.executing = some o) {run : State → OrderCopy → State}
    (k : Safe s (run s o)) : Safe s (s.inActive o run) := by
  unfold State.inActive
  split
  · exact k
  · exact safe_complete h _ _

theorem safe_runSetRole {s : State} {o : OrderCopy} (h : s.orders.executing = some o) : Safe s (s.runSetRole o) := by
  unfold State.runSetRole
  split
  · exact safe_moves_complete h (moves_applyRole s _) _ _
  · exact safe_complete h _ _

theorem safe_runStartSurvey {s : State} {o : OrderCopy} (h : s.orders.executing = some o) :
    Safe s (s.runStartSurvey o) := by
  unfold State.runStartSurvey
  split
  · exact safe_complete h _ _
  · split
    · exact safe_complete h _ _
    · exact safe_moves_complete h (moves_trans (moves_trans (moves_modConsist s _ rfl rfl rfl id id)
        (moves_setCause _ _ _ _)) (moves_beginSurvey _)) _ _

theorem safe_runDoorRelease {s : State} {o : OrderCopy} (h : s.orders.executing = some o) :
    Safe s (s.runDoorRelease o) := by
  unfold State.runDoorRelease
  split
  · exact safe_complete h _ _
  · exact safe_moves_complete h (moves_trans (moves_buildBoth s _ _ _ _ _) (moves_applyRelease _ _ _ _ _)) _ _

theorem safe_runDoorClose {s : State} {o : OrderCopy} (h : s.orders.executing = some o) : Safe s (s.runDoorClose o) := by
  unfold State.runDoorClose
  split
  · exact safe_complete h _ _
  · exact safe_moves_complete h (moves_trans (moves_buildBoth s _ _ _ _ _) (moves_applyClose _)) _ _

theorem safe_runHeatDemand {s : State} {o : OrderCopy} (h : s.orders.executing = some o) :
    Safe s (s.runHeatDemand o) := by
  unfold State.runHeatDemand
  split
  · exact safe_moves_complete h (moves_modHeat s _ rfl rfl rfl rfl) _ _
  · exact safe_complete h _ _

theorem safe_runHeatSupply {s : State} {o : OrderCopy} (h : s.orders.executing = some o) :
    Safe s (s.runHeatSupply o) :=
  safe_moves_complete h (moves_trans (moves_modHeat s _ rfl rfl rfl rfl) (moves_testRound _)) _ _

theorem safe_runSetOutputs {s : State} {o : OrderCopy} (h : s.orders.executing = some o) :
    Safe s (s.runSetOutputs o) :=
  safe_moves_complete h (moves_applyImage_host s _) _ _

/-- A unicast goes over from the order unit to the in-flight list: its block stays TAKEN (R143). -/
theorem safe_toFlight {s : State} {o : OrderCopy} (h : s.orders.executing = some o) (room : s.inFlight.length < 4)
    (dest : Ident) (seq : Word) :
    Safe s ({ s with inFlight := s.inFlight ++ [(⟨o.block, dest, seq, 0⟩ : InFlight)] } : State).freeUnit := by
  refine ⟨⟨rfl, rfl, fun _ => rfl, fun _ _ => Or.inl rfl, fun _ _ => rfl, id, fun fits => ?_,
    ordersAgree_congr rfl ?_ fun _ => rfl⟩, rfl, id, id, id, id, id⟩
  · obtain ⟨ends, lines, weight, -, rest⟩ := fits
    refine ⟨ends, lines, weight, ?_, rest⟩
    show (s.inFlight ++ [_]).length ≤ 4
    rw [List.length_append, List.length_singleton]
    exact room
  · rw [holders_complete h]
    show ((s.inFlight ++ [_]).map _).Perm _
    rw [List.map_append]
    exact List.perm_append_comm

theorem safe_runSendMessage {s : State} {o : OrderCopy} (h : s.orders.executing = some o) :
    Safe s (s.runSendMessage o) := by
  unfold State.runSendMessage
  split
  · exact safe_complete h _ _
  · next accepted =>
    extract_lets dest
    have built := moves_build s .msg (if dest = 0 then .broadcast else .coach) dest o.msgBody []
    dsimp only
    split
    · exact safe_moves_complete h built _ _
    · next joint =>
      have placed := moves_trans built (moves_placeJoint joint)
      split
      · exact safe_moves_complete h placed _ _
      · next unicast =>
        refine safe_trans placed.toSafe (safe_toFlight (placed.orders ▸ h) ?_ _ _)
        have flight : s.inFlight.length < 4 := by
          unfold State.sendRefusal at accepted
          split at accepted
          · cases accepted
          · split at accepted
            · cases accepted
            · split at accepted
              · cases accepted
              · next few => exact Nat.lt_of_not_le fun four => few ⟨unicast, four⟩
        have same := sends_trans (sends_build s .msg (if dest = 0 then .broadcast else .coach) dest o.msgBody [])
          (sends_placeJoint _ _ _ joint)
        rw [same]
        exact flight

/-! ### NOTICE, the take and the status words (R172 to R176) -/

/-- The status codes the host may write, and those the part writes as a block moves through the order unit. -/
theorem safe_noticeOf (s : State) (v : Word) : Safe s (s.noticeOf v) := by
  have bad : ∀ n, n ≤ 63 → Safe s ((s.modOrders fun o => { o with lastBad := n }).raise .noticeFault) := by
    intro n hn
    refine safe_trans ?_ (moves_raise _ _).toSafe
    refine ⟨⟨rfl, rfl, fun _ => rfl, fun _ _ => Or.inl rfl, fun _ _ => rfl, id, fun fits => ?_, id⟩, rfl, id, id, id, id, id⟩
    obtain ⟨ends, lines, weight, flight, threshold, -, rest⟩ := fits
    exact ⟨ends, lines, weight, flight, threshold, hn, rest⟩
  unfold State.noticeOf
  split
  · next small =>
    extract_lets b
    split
    · next ready =>
      refine ⟨⟨rfl, rfl, fun _ => rfl, fun _ _ => Or.inl rfl, fun a ha => ?_, memory_wf_writeWords _ _ _, fun fits => fits,
        fun agree => ?_⟩, rfl, id, id, id, id, id⟩
      · have := not_inPages_block (b := b) ha
        exact setBlockStatus_read s b _ a (by omega) (by omega)
      · have new : ((s.setBlockStatus b stQUEUED).modOrders fun o => { o with queue := o.queue ++ [b] }).blockStatus b
            = stQUEUED := blockStatus_setBlockStatus s b stQUEUED
        have others : ∀ c, b ≠ c → ((s.setBlockStatus b stQUEUED).modOrders fun o =>
            { o with queue := o.queue ++ [b] }).blockStatus c = s.blockStatus c :=
          fun c hc => blockStatus_setBlockStatus_of_ne s hc stQUEUED
        rw [ordersAgree_iff] at agree ⊢
        obtain ⟨nodup, queued, taken, known⟩ := agree
        have out_queue : b ∉ s.orders.queue := by
          rw [← queued b, ready]
          decide
        have out_holders : b ∉ s.holders := by
          rw [← taken b, ready]
          decide
        refine ⟨?_, fun c => ?_, fun c => ?_, fun c => ?_⟩
        · show ((s.orders.queue ++ [b]) ++ s.holders).Nodup
          rw [List.append_assoc, List.singleton_append, List.nodup_middle, List.nodup_cons, List.mem_append]
          exact ⟨not_or.mpr ⟨out_queue, out_holders⟩, nodup⟩
        · show _ ↔ c ∈ s.orders.queue ++ [b]
          rw [List.mem_append, List.mem_singleton]
          by_cases hc : b = c
          · subst hc
            rw [new]
            exact iff_of_true rfl (Or.inr rfl)
          · rw [others c hc, queued c]
            exact (or_iff_left fun e => hc e.symm).symm
        · show _ ↔ c ∈ s.holders
          by_cases hc : b = c
          · subst hc
            rw [new]
            exact iff_of_false (by decide) out_holders
          · rw [others c hc]
            exact taken c
        · by_cases hc : b = c
          · subst hc
            rw [new]
            decide
          · rw [others c hc]
            exact known c
    · exact bad _ (by omega)
  · exact bad _ ((Nat.min_le_left _ _).trans (by decide))

theorem safe_takeOrder (s : State) : Safe s s.takeOrder := by
  unfold State.takeOrder
  split
  · next b q free queue =>
    refine ⟨⟨rfl, rfl, fun _ => rfl, fun _ _ => Or.inl rfl, fun a ha => ?_, memory_wf_writeWords _ _ _, fun fits => fits,
      fun agree => ?_⟩, rfl, id, id, id, id, id⟩
    · have := not_inPages_block (b := b) ha
      exact setBlockStatus_read s b _ a (by omega) (by omega)
    · generalize ht : ((s.setBlockStatus b stTAKEN).modOrders fun o =>
        { o with queue := q, executing := some (s.copyBlock b) }) = t
      have new : t.blockStatus b = stTAKEN := ht ▸ blockStatus_setBlockStatus s b stTAKEN
      have others : ∀ c, b ≠ c → t.blockStatus c = s.blockStatus c :=
        fun c hc => ht ▸ blockStatus_setBlockStatus_of_ne s hc stTAKEN
      have holders : t.holders = b :: s.holders := by
        unfold State.holders
        rw [free, ← ht]
        rfl
      have rest : t.orders.queue = q := ht ▸ rfl
      rw [ordersAgree_iff] at agree ⊢
      obtain ⟨nodup, queued, taken, known⟩ := agree
      rw [queue, List.cons_append, List.nodup_cons, List.mem_append, not_or] at nodup
      obtain ⟨⟨out_queue, out_holders⟩, nodup⟩ := nodup
      rw [rest, holders]
      refine ⟨?_, fun c => ?_, fun c => ?_, fun c => ?_⟩
      · rw [List.nodup_middle, List.nodup_cons, List.mem_append]
        exact ⟨not_or.mpr ⟨out_queue, out_holders⟩, nodup⟩
      · by_cases hc : b = c
        · subst hc
          rw [new]
          exact iff_of_false (by decide) out_queue
        · rw [others c hc, queued c, queue, List.mem_cons]
          exact or_iff_right fun e => hc e.symm
      · by_cases hc : b = c
        · subst hc
          rw [new]
          exact iff_of_true rfl List.mem_cons_self
        · rw [others c hc, taken c, List.mem_cons]
          exact (or_iff_right fun e => hc e.symm).symm
      · by_cases hc : b = c
        · subst hc
          rw [new]
          decide
        · rw [others c hc]
          exact known c
  · exact safe_refl s

/-- The host's write passes the guard only at a block that no unit holds (R173). -/
theorem safe_hostStatus (s : State) (b : Fin 16) (v : Word) : Safe s (s.hostStatus b v) := by
  unfold State.hostStatus
  split
  · exact safe_refl s
  · next free =>
    split
    · next allowed =>
      refine ⟨⟨rfl, rfl, fun _ => rfl, fun _ _ => Or.inl rfl, fun a ha => ?_, memory_wf_writeWords _ _ _, fun fits => fits,
        fun agree => ?_⟩, rfl, id, id, id, id, id⟩
      · have := not_inPages_block (b := b) ha
        exact setBlockStatus_read s b _ a (by omega) (by omega)
      · simp only [State.blockHeld, Bool.or_eq_true, beq_iff_eq, not_or] at free
        have code : v ≠ stQUEUED ∧ v ≠ stTAKEN ∧ v.toNat ≤ 6 := by
          rcases allowed with rfl | rfl <;> decide
        have others : ∀ c, b ≠ c → (s.setBlockStatus b v).blockStatus c = s.blockStatus c :=
          fun c hc => blockStatus_setBlockStatus_of_ne s hc v
        rw [ordersAgree_iff] at agree ⊢
        obtain ⟨nodup, queued, taken, known⟩ := agree
        refine ⟨nodup, fun c => ?_, fun c => ?_, fun c => ?_⟩
        · show _ ↔ c ∈ s.orders.queue
          by_cases hc : b = c
          · subst hc
            rw [blockStatus_setBlockStatus, ← queued b]
            exact iff_of_false code.1 free.1
          · rw [others c hc]
            exact queued c
        · show _ ↔ c ∈ s.holders
          by_cases hc : b = c
          · subst hc
            rw [blockStatus_setBlockStatus, ← taken b]
            exact iff_of_false code.2.1 free.2
          · rw [others c hc]
            exact taken c
        · by_cases hc : b = c
          · subst hc
            rw [blockStatus_setBlockStatus]
            exact code.2.2
          · rw [others c hc]
            exact known c
    · exact safe_refl s

/-! ### Registers (R183, R188, R191) -/

/-- A change of the event unit that keeps the threshold's range. -/
theorem moves_events (s : State) (u : EventUnit) (w : Word) (h : s.events.threshold ≤ 4 → u.threshold ≤ 4) :
    Moves s { s with events := u, hostData := w } := by
  refine ⟨⟨⟨rfl, rfl, fun _ => rfl, fun _ _ => Or.inl rfl, fun _ _ => rfl, id, fun fits => ?_, id⟩, rfl, id, id, id, id, id⟩,
    rfl⟩
  obtain ⟨ends, lines, weight, flight, threshold, rest⟩ := fits
  exact ⟨ends, lines, weight, flight, h threshold, rest⟩

theorem moves_writeMask (s : State) (v : Word) : Moves s (s.writeMask v) :=
  moves_events s _ s.hostData fun _ => Nat.min_le_left _ _

theorem moves_setEnable (s : State) (b : Bool) : Moves s (s.modEvents fun u => { u with enable := b }) :=
  moves_events s _ s.hostData id

theorem moves_takeEvent (s : State) : Moves s s.takeEvent := by
  unfold State.takeEvent
  split
  · exact moves_events s _ _ id
  · exact moves_events s s.events _ id

end Sys2Proof.Machine
end

