-- ==== Sys2Proof/Proofs/StepEffects.lean ====
section
/-! PROOFS. The effect of each command: what all of them keep, CONFIGURE's entry to ACTIVE (R181) and the soft reset (R185)
among them. -/

namespace Sys2Proof.Machine

/-! ### Entry to ACTIVE (R181) -/

theorem moves_consistActive (s : State) : Moves s s.consistActive := by
  unfold State.consistActive
  split
  · exact moves_trans (moves_trans (moves_modConsist s _ rfl rfl rfl id id) (moves_setCause _ _ _ _))
      (moves_setConsist _ (by decide))
  · exact moves_modConsist s _ rfl rfl rfl id id

theorem moves_heatActive (s : State) : Moves s s.heatActive := by
  unfold State.heatActive
  split
  · exact moves_refl s
  · exact moves_supplyLost s

/-- The heating unit's entry brings supply and state in agreement (R137). -/
theorem heatActive_supplyOk (s : State) : s.heatActive.supplyOk := by
  unfold State.heatActive
  split
  · next on =>
    intro _ off
    rw [on] at off
    cases off
  · exact supplyLost_supplyOk s

theorem moves_testAux (s : State) : Moves s s.testAux := by
  unfold State.testAux
  extract_lets u
  have first : Moves s u := by
    unfold u
    split
    · exact moves_raise s _
    · exact moves_refl s
  split
  · exact moves_trans first (moves_raise _ _)
  · exact first

theorem moves_endActive (s : State) (e : EndId) : Moves s (s.endActive e) := by
  unfold State.endActive
  split
  · exact moves_refl s
  · exact moves_startProbing s e

theorem moves_foldl {α : Type} (f : State → α → State) (h : ∀ s x, Moves s (f s x)) (l : List α) (s : State) :
    Moves s (l.foldl f s) := by
  induction l generalizing s with
  | nil => exact moves_refl s
  | cons x l ih => exact moves_trans (h s x) (ih _)

theorem moves_qualifyAll (s : State) : Moves s s.qualifyAll := moves_foldl State.qualify moves_qualify allInputs s

/-- The part with the settings of a CONFIGURE taken, before its units act on them. -/
def State.configured (s : State) (c : Settings) : State :=
  ({ s with cfg := c, part := .active, gpHeld := false } : State).touchAgain .ioView

theorem activate_eq (s : State) (c : Settings) :
    s.activate c = (((((s.configured c).consistActive.heatActive.testAux).endActive .a).endActive .b).qualifyAll) := rfl

theorem moves_entry (s : State) (c : Settings) : Moves (s.configured c) (s.activate c) :=
  moves_trans (moves_trans (moves_trans (moves_trans (moves_trans (moves_consistActive _) (moves_heatActive _))
    (moves_testAux _)) (moves_endActive _ _)) (moves_endActive _ _)) (moves_qualifyAll _)

theorem activate_supplyOk (s : State) (c : Settings) : (s.activate c).supplyOk :=
  (moves_trans (moves_trans (moves_trans (moves_testAux _) (moves_endActive _ _)) (moves_endActive _ _))
    (moves_qualifyAll _)).supply (heatActive_supplyOk (s.configured c).consistActive)

/-- The settings taken are within their ranges (R180). -/
theorem settings_ranges (o : OrderCopy) :
    o.settings.weight ≤ 7 ∧ (∀ i : Fin 12, o.settings.levels[i] ≤ 3) ∧ o.settings.fallback ≤ o.settings.count
      ∧ o.settings.count ≤ 6 := by
  refine ⟨Nat.min_le_left _ _, fun i => ?_, Nat.min_le_left _ _, Nat.min_le_left _ _⟩
  obtain ⟨i, hi⟩ := i
  interval_cases i <;> exact Nat.min_le_left _ _

theorem runs_configured (s : State) {c : Settings} (weight : c.weight ≤ 7) (levels : ∀ i : Fin 12, c.levels[i] ≤ 3) :
    Runs s (s.configured c) := by
  refine runs_trans ?_ (moves_touchAgain _ .ioView (by decide)).toRuns
  refine ⟨rfl, rfl, fun _ => rfl, fun _ _ => Or.inl rfl, fun _ _ => rfl, id, fun fits => ?_, id⟩
  obtain ⟨ends, lines, -, flight, threshold, bad, -, deliveries⟩ := fits
  exact ⟨ends, lines, weight, flight, threshold, bad, levels, deliveries⟩

theorem runs_runConfigure {s : State} {o : OrderCopy} (h : s.orders.executing = some o) : Runs s (s.runConfigure o) := by
  unfold State.runConfigure
  split
  · exact (safe_complete h _ _).toRuns
  · split
    · exact (safe_complete h _ _).toRuns
    · obtain ⟨weight, levels, -, -⟩ := settings_ranges o
      have entry := moves_entry s o.settings
      refine runs_trans (runs_trans (runs_configured s weight levels) entry.toRuns) (safe_complete ?_ _ _).toRuns
      rw [entry.orders]
      exact h

/-- In ACTIVE a CONFIGURE is refused (R180). -/
theorem safe_runConfigure {s : State} {o : OrderCopy} (h : s.orders.executing = some o) (active : s.part = .active) :
    Safe s (s.runConfigure o) := by
  unfold State.runConfigure
  rw [if_pos active]
  exact safe_complete h _ _

/-! ### Soft reset (R185) -/

theorem moves_touchAll (s : State) : Moves s s.touchAll := by
  unfold State.touchAll
  have key : ∀ l : List Rec, (∀ r ∈ l, r ∈ pageRecs) → ∀ s, Moves s (l.foldl State.touch s) := by
    intro l
    induction l with
    | nil => exact fun _ s => moves_refl s
    | cons r l ih =>
      exact fun h s => moves_trans (moves_touch s r (h r List.mem_cons_self)) (ih (fun k hk => h k (List.mem_cons_of_mem _ hk)) _)
  exact key pageRecs (fun _ h => h) s

theorem fits_resetEnd (b : Bool) : (EndUnit.reset b).fits := by
  refine ⟨Nat.zero_le _, Nat.zero_le _, Nat.zero_le _, Nat.zero_le _, Nat.zero_le _⟩

theorem fits_resetLine : LineUnit.reset.fits := ⟨Nat.zero_le _, Nat.zero_le _⟩

theorem weight_reset : Settings.reset.weight ≤ 7 := by decide

theorem levels_reset : ∀ i : Fin 12, Settings.reset.levels[i] ≤ 3 := by decide

/-- The reset values lie within the capacities. -/
theorem fits_of_reset {s : State} (cfg : s.cfg = .reset) (lines : s.lines = ⟨.reset, .reset, .reset, .reset⟩)
    {a b : Bool} (ends : s.ends = ⟨.reset a, .reset b⟩) (flight : s.inFlight = []) (orders : s.orders = .reset)
    (events : s.events = .reset) (deliveries : ∀ n : Fin 8, s.deliveries[n] ≤ 255) : s.fits := by
  unfold State.fits
  rw [cfg, lines, ends, flight, orders, events]
  refine ⟨fun e => ?_, fun l => ?_, weight_reset, Nat.zero_le _, le_refl _, le_refl _, levels_reset, deliveries⟩
  · cases e
    · exact fits_resetEnd a
    · exact fits_resetEnd b
  · obtain ⟨e, n⟩ := l
    cases e <;> cases n <;> exact fits_resetLine

theorem runs_softUnits (s : State) : Runs s s.softUnits := by
  obtain ⟨-, held, free, bytes, wf⟩ := abortBlocks_spec s
  have outside : ∀ a, a < 0x1400 ∨ 0x1402 ≤ a → s.softUnits.mem.read a = s.abortBlocks.mem.read a := fun a ha => by
    rw [softUnits_eq]
    exact memory_read_writeWords_of_outside _ _ _ _ ha
  have status : ∀ b, s.softUnits.blockStatus b = s.abortBlocks.blockStatus b := fun b =>
    readWord_congr (outside _ (by unfold blockBase; omega)) (outside _ (by unfold blockBase; omega))
  refine ⟨?_, ?_, fun n => ?_, fun r _ => Or.inl ?_, fun a ha => ?_, fun w => ?_, fun fits => ?_, fun agree => ?_⟩
  · rw [softUnits_eq]
  · rw [softUnits_eq]
  · rw [softUnits_eq]
    rfl
  · rw [softUnits_eq]
    rfl
  · rw [outside a (by unfold inPages at ha; omega), bytes a fun b _ => ?_]
    have := not_inPages_block (b := b) ha
    omega
  · rw [softUnits_eq]
    exact memory_wf_writeWords _ _ _ (wf w)
  · obtain ⟨-, -, -, -, -, -, -, deliveries⟩ := fits
    rw [softUnits_eq]
    exact fits_of_reset rfl rfl rfl rfl rfl rfl deliveries
  · rw [ordersAgree_iff] at agree ⊢
    obtain ⟨-, -, -, known⟩ := agree
    have queue : s.softUnits.orders.queue = [] := by
      rw [softUnits_eq]
      rfl
    have holders : s.softUnits.holders = [] := by
      rw [softUnits_eq]
      rfl
    have code : ∀ b, s.softUnits.blockStatus b ≠ stQUEUED ∧ s.softUnits.blockStatus b ≠ stTAKEN
        ∧ (s.softUnits.blockStatus b).toNat ≤ 6 := by
      intro b
      rw [status b]
      cases hb : s.blockHeld b with
      | true =>
        rw [(held b hb).1]
        decide
      | false =>
        rw [free b hb]
        simp only [State.blockHeld, Bool.or_eq_false_iff, beq_eq_false_iff_ne] at hb
        exact ⟨hb.1, hb.2, known b⟩
    rw [queue, holders]
    exact ⟨List.nodup_nil, fun b => iff_of_false (code b).1 List.not_mem_nil,
      fun b => iff_of_false (code b).2.1 List.not_mem_nil, fun b => (code b).2.2⟩

theorem runs_softReset (s : State) : Runs s s.softReset := runs_trans (runs_softUnits s) (moves_touchAll _).toRuns

/-! ### The effect of each command -/

/-- The effect of a command while RESET is not held, before the pages are rewritten. The commands of the RESET pin stand
apart. -/
def effect : Instr → State → State
  | .powerOnReset => State.powerOn
  | .softReset v => fun s => s.writeControl v
  | .setEnable v => fun s => s.writeControl v
  | .mask v => fun s => s.writeMask v
  | .take => State.takeEvent
  | .notice v => fun s => s.noticeOf v
  | .registerWriteIgnored reg v => fun s => s.ignoreWrite reg v
  | .statusWordWrite b v => fun s => s.hostStatus b v
  | .exchangeMemoryWrite w v => fun s => s.hostWord w v
  | .orderTake => State.takeOrder
  | .configure => fun s => s.completing (· == 1) State.runConfigure
  | .setRole => fun s => s.completing (· == 2) (fun s o => s.inActive o State.runSetRole)
  | .startSurvey => fun s => s.completing (· == 3) (fun s o => s.inActive o State.runStartSurvey)
  | .doorRelease => fun s => s.completing (· == 4) (fun s o => s.inActive o State.runDoorRelease)
  | .doorClose => fun s => s.completing (· == 5) (fun s o => s.inActive o State.runDoorClose)
  | .heatDemand => fun s => s.completing (· == 6) (fun s o => s.inActive o State.runHeatDemand)
  | .heatSupply => fun s => s.completing (· == 7) (fun s o => s.inActive o State.runHeatSupply)
  | .sendMessage => fun s => s.completing (· == 8) (fun s o => s.inActive o State.runSendMessage)
  | .setOutputs => fun s => s.completing (· == 9) State.runSetOutputs
  | .unknownOrder => fun s => s.completing unknownKind (fun s o => s.complete o .unknownOrder [])
  | .rawChange i b => fun s => s.rawChange i b
  | .qualifiedChange i => fun s => s.qualify i
  | .energyPresent l => fun s => s.energyOn l
  | .energyAbsent l => fun s => s.energyOff l
  | .settlingTimer l => fun s => s.qualifyLine l
  | .gapTimeout l => fun s => s.gapTimeout l
  | .restTimer l => fun s => s.endRest l
  | .byteReceived l v => fun s => s.byteIn l v
  | .stopReceived l => fun s => s.recvStop l
  | .goReceived l => fun s => s.recvGo l
  | .linkTimer e => fun s => s.linkLost e
  | .hailTimer e => fun s => s.hailOut e
  | .telegramBoundary e => fun s => s.telegramEnd e
  | .flowCharacterSent e => fun s => s.sendFlow e
  | .stallTimer e => fun s => s.stallOut e
  | .dispatch e => fun s => s.dispatch e
  | .keyExpiry e => fun s => s.expireKey e
  | .holdOffTimer => State.holdOffOut
  | .surveyTimeout => State.surveyOut
  | .rosterWaitTimer => State.rosterWaitOut
  | .doorstatTimer => State.statOut
  | .recordStale x => fun s => s.recordStale x
  | .roundTimer => State.testRound
  | .bidWindowClose => State.windowOut
  | .rampStep => State.stepRamp
  | .lossTimer => State.testLoss
  | .messageDeadline b => fun s => s.passDeadline b
  | .millisecondCount => State.tick
  | .resetPinHeld => State.holdReset

/-- The commands of the RESET pin. -/
def isPin (c : Instr) : Prop := c = .powerOnReset ∨ c = .resetPinHeld

/-- A command that is not the pin's is a step of the part; a read of TAKE and a pin's change are that while RESET is not
held. -/
theorem exec_run {c : Instr} {s : State} (pin : ¬ isPin c)
    (h : s.resetHeld = false ∨ (c ≠ .take ∧ ∀ i b, c ≠ .rawChange i b)) : exec c s = partStep (effect c) s := by
  cases c
  case powerOnReset => exact absurd (Or.inl rfl) pin
  case resetPinHeld => exact absurd (Or.inr rfl) pin
  case take =>
    rw [exec_take, if_neg (Bool.eq_false_iff.mp (h.resolve_right fun k => k.1 rfl))]
    rfl
  case rawChange i b =>
    rw [exec_rawChange, if_neg (Bool.eq_false_iff.mp (h.resolve_right fun k => k.2 i b rfl))]
    rfl
  all_goals rfl

/-- A command that is not the pin's runs its effect and rewrites the pages, while RESET is not held. -/
theorem exec_effect {c : Instr} {s : State} (pin : ¬ isPin c) (held : s.resetHeld = false) :
    exec c s = .next (State.publish s (effect c s)) := by
  rw [exec_run pin (Or.inl held), partStep, if_neg (Bool.eq_false_iff.mp held)]

/-- While RESET is held a command that is not the pin's moves the host's word or a raw level alone (log 5). -/
theorem exec_held {c : Instr} {s : State} (pin : ¬ isPin c) (held : s.resetHeld = true) :
    exec c s = .next s ∨ exec c s = .next { s with hostData := 0 }
      ∨ ∃ i b, exec c s = .next (s.modInput i fun r => { r with raw := b }) := by
  by_cases take : c = .take
  · rw [take, exec_take, if_pos held]
    exact Or.inr (Or.inl rfl)
  · by_cases raw : ∃ i b, c = .rawChange i b
    · obtain ⟨i, b, rfl⟩ := raw
      rw [exec_rawChange, if_pos held]
      exact Or.inr (Or.inr ⟨i, b, rfl⟩)
    · rw [exec_run pin (Or.inr ⟨take, fun i b e => raw ⟨i, b, e⟩⟩), partStep_held _ s held]
      exact Or.inl rfl

/-- A host write to memory changes no status word but under its guard, and nothing but memory (R170, R173). -/
theorem hostWord_cases (s : State) (w : BitVec 14) (v : Word) :
    Safe s (s.hostWord w v) ∨
      (s.hostWord w v = s.modMem (·.writeWords (2 * w.toNat) [v]) ∧ ∀ b, blockBase b ≠ 2 * w.toNat) := by
  unfold State.hostWord
  split
  · exact Or.inl (safe_hostStatus s _ v)
  · next none =>
    split
    · refine Or.inr ⟨rfl, fun b hb => ?_⟩
      have := List.find?_eq_none.mp none b (mem_allBlocks b)
      simp only [beq_iff_eq] at this
      exact this hb
    · exact Or.inl (safe_refl s)

/-- The commands that change the part state: soft reset, and CONFIGURE in HALTED. -/
def changesPart (c : Instr) (s : State) : Prop :=
  (∃ v : Word, (c = .softReset v ∨ c = .setEnable v) ∧ v.getLsbD 1 = true) ∨ (c = .configure ∧ s.part = .halted)

/-- What every effect keeps but a host write to plain memory and a change of the part state. -/
theorem safe_effect {c : Instr} {s : State} (pin : ¬ isPin c) (write : ∀ w v, c ≠ .exchangeMemoryWrite w v)
    (part : ¬ changesPart c s) : Safe s (effect c s) := by
  have control : ∀ v : Word, c = .softReset v ∨ c = .setEnable v → Safe s (s.writeControl v) := fun v hv => by
    unfold State.writeControl
    rw [if_neg fun bit => part (Or.inl ⟨v, hv, bit⟩)]
    exact (moves_setEnable s _).toSafe
  have active : c = .configure → s.part = .active := fun hc => by
    cases hp : s.part with
    | active => rfl
    | halted => exact absurd (Or.inr ⟨hc, hp⟩) part
  cases c
  case powerOnReset => exact absurd (Or.inl rfl) pin
  case resetPinHeld => exact absurd (Or.inr rfl) pin
  case exchangeMemoryWrite w v => exact absurd rfl (write w v)
  case softReset v => exact control v (Or.inl rfl)
  case setEnable v => exact control v (Or.inr rfl)
  case configure => dsimp only [effect]; exact safe_completing s _ _ fun o ho => safe_runConfigure ho (active rfl)
  case mask v => exact (moves_writeMask s v).toSafe
  case take => exact (moves_takeEvent s).toSafe
  case notice v => exact safe_noticeOf s v
  case registerWriteIgnored reg v => exact safe_refl s
  case statusWordWrite b v => exact safe_hostStatus s b v
  case orderTake => exact safe_takeOrder s
  case setRole => dsimp only [effect]; exact safe_completing s _ _ fun o ho => safe_inActive ho (safe_runSetRole ho)
  case startSurvey => dsimp only [effect]; exact safe_completing s _ _ fun o ho => safe_inActive ho (safe_runStartSurvey ho)
  case doorRelease => dsimp only [effect]; exact safe_completing s _ _ fun o ho => safe_inActive ho (safe_runDoorRelease ho)
  case doorClose => dsimp only [effect]; exact safe_completing s _ _ fun o ho => safe_inActive ho (safe_runDoorClose ho)
  case heatDemand => dsimp only [effect]; exact safe_completing s _ _ fun o ho => safe_inActive ho (safe_runHeatDemand ho)
  case heatSupply => dsimp only [effect]; exact safe_completing s _ _ fun o ho => safe_inActive ho (safe_runHeatSupply ho)
  case sendMessage => dsimp only [effect]; exact safe_completing s _ _ fun o ho => safe_inActive ho (safe_runSendMessage ho)
  case setOutputs => dsimp only [effect]; exact safe_completing s _ _ fun o ho => safe_runSetOutputs ho
  case unknownOrder => dsimp only [effect]; exact safe_completing s _ _ fun o ho => safe_complete ho _ _
  case rawChange i b => exact (moves_rawChange s i b).toSafe
  case qualifiedChange i => exact (moves_qualify s i).toSafe
  case energyPresent l => exact (moves_energyOn s l).toSafe
  case energyAbsent l => exact (moves_energyOff s l).toSafe
  case settlingTimer l => exact (moves_qualifyLine s l).toSafe
  case gapTimeout l => exact (moves_gapTimeout s l).toSafe
  case restTimer l => exact (moves_endRest s l).toSafe
  case byteReceived l v => exact (moves_byteIn s l v).toSafe
  case stopReceived l => exact (moves_recvStop s l).toSafe
  case goReceived l => exact (moves_recvGo s l).toSafe
  case linkTimer e => exact (moves_linkLost s e).toSafe
  case hailTimer e => exact (moves_hailOut s e).toSafe
  case telegramBoundary e => exact (moves_telegramEnd s e).toSafe
  case flowCharacterSent e => exact (moves_sendFlow s e).toSafe
  case stallTimer e => exact (moves_stallOut s e).toSafe
  case dispatch e => exact (moves_dispatch s e).toSafe
  case keyExpiry e => exact (moves_expireKey s e).toSafe
  case holdOffTimer => exact (moves_holdOffOut s).toSafe
  case surveyTimeout => exact (moves_surveyOut s).toSafe
  case rosterWaitTimer => exact (moves_rosterWaitOut s).toSafe
  case doorstatTimer => exact (moves_statOut s).toSafe
  case recordStale x => exact (moves_recordStale s x).toSafe
  case roundTimer => exact (moves_testRound s).toSafe
  case bidWindowClose => exact (moves_windowOut s).toSafe
  case rampStep => exact (moves_stepRamp s).toSafe
  case lossTimer => exact (moves_testLoss s).toSafe
  case messageDeadline b => exact (moves_passDeadline s b).toSafe
  case millisecondCount => exact (moves_tick s).toSafe

end Sys2Proof.Machine
end

