-- ==== Sys2Proof/Proofs/HaltedPart.lean ====
section
/-! PROOFS. The silence of a HALTED part (R179): no command but CONFIGURE brings it to act. -/

namespace Sys2Proof.Machine

/-! ### What silence depends on -/

theorem quiet_congr {s t : State} (cfg : t.cfg = s.cfg) (lines : t.lines = s.lines) (ends : t.ends = s.ends)
    (consist : t.consist = s.consist) (door : t.door = s.door) (heat : t.heat = s.heat) (flight : t.inFlight = s.inFlight)
    (outputs : t.outputs = s.outputs) (q : s.quiet) : t.quiet := by
  unfold State.quiet at *
  rw [cfg, lines, ends, consist, door, heat, flight, outputs]
  exact q

theorem quiet_same {s t : State} (same : t = s) (q : s.quiet) : t.quiet := by
  rw [same]
  exact q

/-- The reset values are silent. -/
theorem quiet_of_reset {s : State} (cfg : s.cfg = .reset) (lines : s.lines = ⟨.reset, .reset, .reset, .reset⟩)
    {a b : Bool} (ends : s.ends = ⟨.reset a, .reset b⟩) (consist : s.consist = .reset) (door : s.door = .reset)
    (heat : s.heat = .reset) (flight : s.inFlight = []) (outputs : s.outputs &&& 0x1FF = 0) : s.quiet := by
  have quietEnd : ∀ c, (EndUnit.reset c).quiet := fun c => by
    cases c <;> exact ⟨EndState.noConfusion, rfl, rfl, rfl, rfl, rfl, rfl, rfl, rfl, rfl, rfl, rfl⟩
  refine ⟨cfg, fun l => ?_, fun e => ?_, consist, door, heat, flight, outputs⟩
  · rw [lines]
    obtain ⟨e, n⟩ := l
    cases e <;> cases n <;> exact ⟨rfl, rfl, rfl, rfl⟩
  · rw [ends]
    cases e
    · exact quietEnd a
    · exact quietEnd b

theorem softUnits_quiet (s : State) : s.softUnits.quiet := by
  rw [softUnits_eq]
  refine quiet_of_reset rfl rfl rfl rfl rfl rfl rfl ?_
  dsimp only
  rw [BitVec.and_assoc, show (0xE00 : BitVec 12) &&& 0x1FF = 0#12 from rfl, BitVec.and_zero]
  rfl

theorem touchAll_frame (s : State) : s.touchAll = { s with revs := s.touchAll.revs } := (touchAll_spec s).1

theorem softReset_quiet (s : State) : s.softReset.quiet :=
  softUnits_quiet s |> fun q => by
    unfold State.softReset
    rw [touchAll_frame]
    exact q

theorem powerOn_quiet (s : State) : s.powerOn.quiet := by
  unfold State.powerOn State.writePages
  rw [(writeRecords_eq pageRecs (fun _ h => h) _).1]
  refine quiet_of_reset rfl rfl rfl rfl rfl rfl rfl ?_
  show (0 : BitVec 12) &&& 0x1FF = 0
  rfl

/-! ### Lines and ends at rest -/

theorem quiet_line {s : State} (q : s.quiet) (l : LineId) : (s.lineOf l).quiet := q.2.1 l

theorem quiet_end {s : State} (q : s.quiet) (e : EndId) : (s.endOf e).quiet := q.2.2.1 e

theorem quiet_isSending {s : State} (q : s.quiet) (l : LineId) : (s.lineOf l).isSending = false := by
  simp [LineUnit.isSending, LineUnit.usable, (quiet_line q l).1]

theorem quiet_sendingLines {s : State} (q : s.quiet) (e : EndId) : s.sendingLines e = [] := by
  simp [State.sendingLines, quiet_isSending q]

theorem quiet_boundary {s : State} (q : s.quiet) (e : EndId) : s.boundary e = s := by
  have start : s.start e = (s, false) := by
    unfold State.start
    dsimp only
    rw [quiet_sendingLines q, if_pos (by simp)]
  unfold State.boundary
  rw [start]
  rfl

theorem testDark_halted {s : State} (h : s.part = .halted) (l : LineId) : s.testDark l = s := by
  unfold State.testDark State.maySettle
  rw [h, if_neg (by simp)]

theorem quiet_lineDark {s : State} (q : s.quiet) (l : LineId) : s.lineDark l = s := by
  unfold State.lineDark
  dsimp only
  rw [if_pos (quiet_line q l).1]

theorem quiet_darkLines {s : State} (q : s.quiet) (e : EndId) : s.darkLines e = s := by
  unfold State.darkLines
  rw [quiet_lineDark q, quiet_lineDark q]

theorem quiet_modEnd {s : State} (q : s.quiet) (e : EndId) {f : EndUnit → EndUnit} (h : (f (s.endOf e)).quiet) :
    (s.modEnd e f).quiet := by
  obtain ⟨cfg, lines, ends, rest⟩ := q
  refine ⟨cfg, lines, fun k => ?_, rest⟩
  rw [State.modEnd_ends]
  rcases eq_or_eq_opp e k with rfl | rfl
  · rw [ends_get_set]
    exact h
  · rw [ends_get_set_opp]
    exact ends _

theorem quiet_modLine {s : State} (q : s.quiet) (l : LineId) {f : LineUnit → LineUnit} (h : (f (s.lineOf l)).quiet) :
    (s.modLine l f).quiet := by
  obtain ⟨cfg, lines, rest⟩ := q
  refine ⟨cfg, fun k => ?_, rest⟩
  rw [State.modLine_lines]
  by_cases hk : k = l
  · subst hk
    rw [lines_get_set]
    exact h
  · rw [lines_get_set_of_ne _ _ _ _ hk]
    exact lines k

theorem quiet_raise {s : State} (q : s.quiet) (c : EventClass) : (s.raise c).quiet := q

theorem quiet_modInput {s : State} (q : s.quiet) (i : Input) (f : InputRec → InputRec) : (s.modInput i f).quiet := q

theorem quiet_energyOn {s : State} (q : s.quiet) (h : s.part = .halted) (l : LineId) : (s.energyOn l).quiet := by
  have on : (s.modLine l fun u => { u with energy := true }).quiet := quiet_modLine q l (quiet_line q l)
  unfold State.energyOn
  rw [testDark_halted (show (s.modLine l _).part = .halted from h), quiet_boundary on]
  exact on

theorem quiet_energyOff {s : State} (q : s.quiet) (l : LineId) : (s.energyOff l).quiet := by
  have off : (s.modLine l fun u => { u with energy := false }).quiet := quiet_modLine q l (quiet_line q l)
  unfold State.energyOff
  dsimp only
  rw [if_neg (by rw [quiet_isSending off]; exact Bool.false_ne_true)]
  exact off

theorem quiet_qualifyLine {s : State} (q : s.quiet) (l : LineId) : s.qualifyLine l = s := by
  unfold State.qualifyLine
  dsimp only
  rw [if_neg fun h => by rw [(quiet_line q l).1] at h; exact nomatch h.1]

theorem quiet_endRest {s : State} (q : s.quiet) (l : LineId) : s.endRest l = s := by
  unfold State.endRest
  dsimp only
  rw [if_neg fun h => by rw [(quiet_line q l).1] at h; exact nomatch h.1]

theorem quiet_gapTimeout {s : State} (q : s.quiet) (l : LineId) : s.gapTimeout l = s := by
  unfold State.gapTimeout
  dsimp only
  rw [quiet_isSending q, Bool.false_and, if_neg Bool.false_ne_true]

theorem quiet_flowOn {s : State} (q : s.quiet) (l : LineId) (f : State → State) : s.flowOn l f = s := by
  unfold State.flowOn
  dsimp only
  rw [quiet_isSending q, if_neg Bool.false_ne_true]

theorem quiet_byteIn {s : State} (q : s.quiet) (l : LineId) (v : Byte) : s.byteIn l v = s := by
  unfold State.byteIn
  split
  · exact quiet_flowOn q l _
  · split
    · exact quiet_flowOn q l _
    · dsimp only
      rw [quiet_isSending q, if_neg Bool.false_ne_true]

theorem quiet_linkLost {s : State} (q : s.quiet) (e : EndId) : s.linkLost e = s := by
  unfold State.linkLost
  dsimp only
  rw [if_neg fun h => (quiet_end q e).1 h.1]

theorem not_reached_none (n : Nat) : reached none n = false := rfl

theorem quiet_hailOut {s : State} (q : s.quiet) (e : EndId) : s.hailOut e = s := by
  obtain ⟨-, -, -, -, -, -, -, hail, -⟩ := quiet_end q e
  unfold State.hailOut
  rw [hail, not_reached_none, if_neg Bool.false_ne_true]

theorem quiet_telegramEnd {s : State} (q : s.quiet) (e : EndId) : s.telegramEnd e = s := by
  obtain ⟨-, -, -, -, -, sending, -⟩ := quiet_end q e
  unfold State.telegramEnd
  rw [sending]
  rfl

theorem quiet_sendFlow {s : State} (q : s.quiet) (e : EndId) : s.sendFlow e = s := by
  obtain ⟨-, -, -, -, -, -, -, -, -, -, -, due⟩ := quiet_end q e
  unfold State.sendFlow
  rw [due]

theorem quiet_stallOut {s : State} (q : s.quiet) (e : EndId) : s.stallOut e = s := by
  obtain ⟨-, -, -, -, -, -, -, -, -, -, stall, -⟩ := quiet_end q e
  unfold State.stallOut
  rw [stall, not_reached_none, if_neg Bool.false_ne_true]

theorem quiet_dispatch {s : State} (q : s.quiet) (e : EndId) : s.dispatch e = s := by
  obtain ⟨-, buffer, blocked, -⟩ := quiet_end q e
  unfold State.dispatch State.dispatchHead
  rw [blocked, buffer]
  simp

theorem quiet_expireKey {s : State} (q : s.quiet) (e : EndId) : (s.expireKey e).quiet := by
  unfold State.expireKey
  split
  · split
    · exact quiet_modEnd q e (quiet_end q e)
    · exact q
  · exact q

/-! ### Inputs -/

theorem quiet_couple {s : State} (q : s.quiet) (h : s.part = .halted) (e : EndId) : (s.couple e).quiet := by
  unfold State.couple
  split
  · unfold State.startProbing
    rw [if_neg (by rw [State.raise_part, State.modEnd_part, h]; exact PartState.noConfusion)]
    obtain ⟨-, rest⟩ := quiet_end q e
    obtain ⟨buffer, blocked, relay, origin, sending, due, hail, -, rest⟩ := rest
    exact quiet_raise (quiet_modEnd q e
      ⟨EndState.noConfusion, buffer, blocked, relay, origin, sending, due, hail, rfl, rest⟩) _
  · exact q

theorem quiet_uncouple {s : State} (q : s.quiet) (e : EndId) : (s.uncouple e).quiet := by
  unfold State.uncouple
  dsimp only
  split
  · exact q
  · obtain ⟨-, buffer, blocked, relay, origin, -, -, -, -, rest⟩ := quiet_end q e
    have apart : ((s.modEnd e EndUnit.uncoupled).raise .lineChange).quiet := quiet_raise (quiet_modEnd q e
      ⟨EndState.noConfusion, buffer, blocked, relay, origin, rfl, rfl, rfl, rfl, rest⟩) _
    rw [quiet_darkLines apart]
    exact apart
  · next linked => exact absurd linked (quiet_end q e).1

/-- With consist and doors at their reset values the summary stands (R116). -/
theorem quiet_evalSummary {s : State} (q : s.quiet) : s.evalSummary = s := by
  obtain ⟨-, -, -, consist, door, -⟩ := q
  refine evalSummary_stands ?_
  rw [summaryNow_unknown (Or.inl fun h => by rw [consist] at h; exact nomatch h.1), door]
  rfl

theorem quiet_act {s : State} (q : s.quiet) (h : s.part = .halted) (i : Input) (b : Bool) : (s.act i b).quiet := by
  obtain ⟨-, -, -, -, door, -⟩ := id q
  have group : s.door.group = .idle := by
    rw [door]
    rfl
  unfold State.act
  cases i with
  | cplA =>
    dsimp only
    split
    · exact quiet_couple q h _
    · exact quiet_uncouple q _
  | cplB =>
    dsimp only
    split
    · exact quiet_couple q h _
    · exact quiet_uncouple q _
  | zspd =>
    dsimp only
    split
    · exact q
    · unfold State.zeroSpeedLost
      rw [group]
      exact q
  | dloop =>
    have same : (if b = true then s.loopClosed else s) = s := by
      split
      · unfold State.loopClosed
        rw [group]
      · rfl
    dsimp only
    rw [same, quiet_evalSummary q]
    exact q
  | supply =>
    dsimp only
    rw [if_neg (by rw [h]; simp)]
    exact q
  | aux0 =>
    dsimp only [State.auxChange]
    split
    · exact quiet_raise q _
    · exact q
  | aux1 =>
    dsimp only [State.auxChange]
    split
    · exact quiet_raise q _
    · exact q

theorem quiet_touchAgain {s : State} (q : s.quiet) (r : Rec) : (s.touchAgain r).quiet :=
  quiet_congr rfl rfl rfl rfl rfl rfl rfl rfl q

theorem quiet_qualify {s : State} (q : s.quiet) (h : s.part = .halted) (i : Input) : (s.qualify i).quiet := by
  unfold State.qualify
  dsimp only
  split
  · have moved : (s.modInput i fun r => { r with qualified := r.raw, timer := none }).quiet := quiet_modInput q _ _
    exact quiet_act (quiet_touchAgain moved .ioView) h _ _
  · exact q

theorem quiet_rawChange {s : State} (q : s.quiet) (h : s.part = .halted) (i : Input) (b : Bool) :
    (s.rawChange i b).quiet := by
  unfold State.rawChange
  extract_lets r n u
  have quiet : u.quiet := quiet_modInput q _ _
  split
  · exact quiet_qualify quiet h _
  · exact quiet

/-! ### Timers -/

theorem quiet_holdOffOut {s : State} (q : s.quiet) : s.holdOffOut = s := by
  obtain ⟨-, -, -, consist, -⟩ := q
  unfold State.holdOffOut
  rw [if_neg fun h => by rw [consist] at h; exact nomatch h.1]

theorem quiet_surveyOut {s : State} (q : s.quiet) : s.surveyOut = s := by
  obtain ⟨-, -, -, consist, -⟩ := q
  unfold State.surveyOut
  rw [if_neg fun h => by rw [consist] at h; exact nomatch h.1]

theorem quiet_rosterWaitOut {s : State} (q : s.quiet) : s.rosterWaitOut = s := by
  obtain ⟨-, -, -, consist, -⟩ := q
  unfold State.rosterWaitOut
  rw [consist]
  rfl

theorem quiet_statOut {s : State} (q : s.quiet) : s.statOut = s := by
  obtain ⟨-, -, -, -, door, -⟩ := q
  unfold State.statOut
  rw [door]
  rfl

theorem quiet_recordStale {s : State} (q : s.quiet) (x : Side) : s.recordStale x = s := by
  obtain ⟨-, -, -, -, door, -⟩ := q
  unfold State.recordStale
  rw [door]
  cases x <;> rfl

theorem quiet_testRound {s : State} (q : s.quiet) : s.testRound = s := by
  obtain ⟨-, -, -, -, -, heat, -⟩ := q
  unfold State.testRound
  rw [show s.heat.round = none by rw [heat]; rfl]
  rfl

theorem quiet_windowOut {s : State} (q : s.quiet) : s.windowOut = s := by
  obtain ⟨-, -, -, -, -, heat, -⟩ := q
  unfold State.windowOut
  rw [heat]
  rfl

theorem quiet_stepRamp {s : State} (q : s.quiet) : s.stepRamp = s := by
  obtain ⟨-, -, -, -, -, heat, -⟩ := q
  unfold State.stepRamp
  rw [show s.heat.ramp = none by rw [heat]; rfl]

theorem quiet_testLoss {s : State} (q : s.quiet) : s.testLoss = s := by
  obtain ⟨-, -, -, -, -, heat, -⟩ := q
  unfold State.testLoss
  rw [if_neg fun h => by rw [heat] at h; exact nomatch h.1]

theorem quiet_passDeadline {s : State} (q : s.quiet) (b : Fin 16) : s.passDeadline b = s := by
  obtain ⟨-, -, -, -, -, -, flight, -⟩ := q
  unfold State.passDeadline State.overdue
  rw [flight]
  rfl

theorem quiet_tick {s : State} (q : s.quiet) : s.tick.quiet := by
  obtain ⟨cfg, lines, ends, consist, door, heat, flight, outputs⟩ := q
  refine ⟨cfg, fun l => ?_, fun e => ?_, ?_, ?_, ?_, ?_, outputs⟩
  · rw [lines_tick]
    obtain ⟨state, asm, settling, rest⟩ := lines l
    refine ⟨state, ?_, ?_, ?_⟩
    · show (s.lines.get l).asm.tick = .waiting
      rw [asm]
      rfl
    · show bump 100 (s.lines.get l).settling = none
      rw [settling]
      rfl
    · show bump 1000 (s.lines.get l).rest = none
      rw [rest]
      rfl
  · rw [ends_tick]
    obtain ⟨state, buffer, blocked, relay, origin, sending, due, hail, link, stop, stall, flow⟩ := ends e
    refine ⟨state, buffer, blocked, relay, origin, sending, due, ?_, ?_, stop, ?_, flow⟩
    · show bump 50 (s.ends.get e).hail = none
      rw [hail]
      rfl
    · show bump 150 (s.ends.get e).link = none
      rw [link]
      rfl
    · show bump 200 (s.ends.get e).stall = none
      rw [stall]
      rfl
  · show s.consist.tick = _
    rw [consist]
    rfl
  · show s.door.tick = _
    rw [door]
    rfl
  · show s.heat.tick = _
    rw [heat]
    rfl
  · show s.inFlight.map _ = _
    rw [flight]
    rfl

/-! ### Orders and registers -/

theorem quiet_complete {s : State} (q : s.quiet) (o : OrderCopy) (r : ResultCode) (ws : List Word) :
    (s.complete o r ws).quiet := by
  rw [complete_eq]
  exact q

theorem quiet_inActive {s : State} (q : s.quiet) (h : s.part = .halted) (mine : Word → Bool)
    (run : State → OrderCopy → State) : (s.completing mine (fun s o => s.inActive o run)).quiet := by
  unfold State.completing
  split
  · split
    · dsimp only
      rw [inActive_halted _ _ _ h]
      exact quiet_complete q _ _ _
    · exact q
  · exact q

theorem quiet_runSetOutputs {s : State} (q : s.quiet) (h : s.part = .halted) (o : OrderCopy) :
    (s.runSetOutputs o).quiet := by
  unfold State.runSetOutputs
  dsimp only
  refine quiet_complete ?_ _ _ _
  generalize maskedOutputs _ _ _ _ = x
  have outside := applyImage_outside s s.hostOwned x
  have owned : s.hostOwned = gpMask := if_neg (by rw [h]; exact PartState.noConfusion)
  obtain ⟨cfg, lines, ends, consist, door, heat, flight, outputs⟩ := q
  rw [applyImage_eq]
  refine ⟨cfg, lines, ends, consist, door, heat, flight, ?_⟩
  rw [owned] at outside ⊢
  exact (and_eq_of_outside outside rfl).trans outputs

theorem quiet_runConfigure {s : State} (q : s.quiet) (o : OrderCopy) (h : (s.runConfigure o).part = .halted) :
    (s.runConfigure o).quiet := by
  unfold State.runConfigure at *
  split
  · exact quiet_complete q _ _ _
  · next halted =>
    rw [if_neg halted] at h
    split
    · exact quiet_complete q _ _ _
    · next good =>
      rw [if_neg good, complete_eq] at h
      have active : (s.activate o.settings).part = .active := (moves_entry s o.settings).part
      exact absurd (active.symm.trans h) PartState.noConfusion

theorem quiet_noticeOf {s : State} (q : s.quiet) (v : Word) : (s.noticeOf v).quiet := by
  unfold State.noticeOf
  split
  · dsimp only
    split
    · exact id q
    · exact id q
  · exact id q

theorem quiet_takeOrder {s : State} (q : s.quiet) : s.takeOrder.quiet := by
  unfold State.takeOrder
  split
  · exact id q
  · exact q

theorem quiet_hostStatus {s : State} (q : s.quiet) (b : Fin 16) (v : Word) : (s.hostStatus b v).quiet := by
  unfold State.hostStatus
  split
  · exact q
  · split
    · exact q
    · exact q

theorem quiet_hostWord {s : State} (q : s.quiet) (w : BitVec 14) (v : Word) : (s.hostWord w v).quiet := by
  unfold State.hostWord
  split
  · exact quiet_hostStatus q _ v
  · split
    · exact q
    · exact q

theorem quiet_writeControl {s : State} (q : s.quiet) (v : Word) : (s.writeControl v).quiet := by
  unfold State.writeControl
  split
  · exact softReset_quiet s
  · exact q

theorem quiet_takeEvent {s : State} (q : s.quiet) : s.takeEvent.quiet := by
  unfold State.takeEvent
  split
  · exact q
  · exact q

/-! ### Every command -/

/-- A HALTED silent part stays silent as long as it stays HALTED. -/
theorem quiet_effect {c : Instr} {s : State} (q : s.quiet) (h : s.part = .halted)
    (k : (effect c s).part = .halted) : (effect c s).quiet := by
  cases c
  case powerOnReset => exact powerOn_quiet s
  case softReset v => exact quiet_writeControl q v
  case setEnable v => exact quiet_writeControl q v
  case mask v => exact id q
  case take => exact quiet_takeEvent q
  case notice v => exact quiet_noticeOf q v
  case registerWriteIgnored reg v => exact q
  case statusWordWrite b v => exact quiet_hostStatus q b v
  case exchangeMemoryWrite w v => exact quiet_hostWord q w v
  case orderTake => exact quiet_takeOrder q
  case configure =>
    dsimp only [effect, State.completing] at k ⊢
    split
    · next o ho =>
      rw [ho] at k
      dsimp only at k
      split
      · next mine =>
        rw [if_pos mine] at k
        exact quiet_runConfigure q o k
      · exact q
    · exact q
  case setRole => exact quiet_inActive q h _ _
  case startSurvey => exact quiet_inActive q h _ _
  case doorRelease => exact quiet_inActive q h _ _
  case doorClose => exact quiet_inActive q h _ _
  case heatDemand => exact quiet_inActive q h _ _
  case heatSupply => exact quiet_inActive q h _ _
  case sendMessage => exact quiet_inActive q h _ _
  case setOutputs =>
    dsimp only [effect, State.completing]
    split
    · split
      · exact quiet_runSetOutputs q h _
      · exact q
    · exact q
  case unknownOrder =>
    dsimp only [effect, State.completing]
    split
    · split
      · exact quiet_complete q _ _ _
      · exact q
    · exact q
  case rawChange i b => exact quiet_rawChange q h i b
  case qualifiedChange i => exact quiet_qualify q h i
  case energyPresent l => exact quiet_energyOn q h l
  case energyAbsent l => exact quiet_energyOff q l
  case settlingTimer l => exact quiet_same (quiet_qualifyLine q l) q
  case gapTimeout l => exact quiet_same (quiet_gapTimeout q l) q
  case restTimer l => exact quiet_same (quiet_endRest q l) q
  case byteReceived l v => exact quiet_same (quiet_byteIn q l v) q
  case stopReceived l => exact quiet_same (s := s) (quiet_flowOn q l fun s => s.stopped l.side) q
  case goReceived l => exact quiet_same (s := s) (quiet_flowOn q l fun s => s.released l.side) q
  case linkTimer e => exact quiet_same (quiet_linkLost q e) q
  case hailTimer e => exact quiet_same (quiet_hailOut q e) q
  case telegramBoundary e => exact quiet_same (quiet_telegramEnd q e) q
  case flowCharacterSent e => exact quiet_same (quiet_sendFlow q e) q
  case stallTimer e => exact quiet_same (quiet_stallOut q e) q
  case dispatch e => exact quiet_same (quiet_dispatch q e) q
  case keyExpiry e => exact quiet_expireKey q e
  case holdOffTimer => exact quiet_same (quiet_holdOffOut q) q
  case surveyTimeout => exact quiet_same (quiet_surveyOut q) q
  case rosterWaitTimer => exact quiet_same (quiet_rosterWaitOut q) q
  case doorstatTimer => exact quiet_same (quiet_statOut q) q
  case recordStale x => exact quiet_same (quiet_recordStale q x) q
  case roundTimer => exact quiet_same (quiet_testRound q) q
  case bidWindowClose => exact quiet_same (quiet_windowOut q) q
  case rampStep => exact quiet_same (quiet_stepRamp q) q
  case lossTimer => exact quiet_same (quiet_testLoss q) q
  case messageDeadline b => exact quiet_same (quiet_passDeadline q b) q
  case millisecondCount => exact quiet_tick q
  case resetPinHeld =>
    obtain ⟨cfg, lines, ends, consist, door, heat, flight, -⟩ := q
    exact ⟨cfg, lines, ends, consist, door, heat, flight, (rfl : (0 : BitVec 12) &&& 0x1FF = 0)⟩

end Sys2Proof.Machine
end

