-- ==== Sys2Proof/Proofs/StepInvariants.lean ====
section
/-! PROOFS. The invariants that every step keeps: what a step can be, said once, and each headline read off it. -/

namespace Sys2Proof.Machine

/-! ### What a step can be -/

/-- While RESET is held the host's word and the raw levels alone may move (log 5). -/
def PortOnly (s t : State) : Prop :=
  t = { s with hostData := t.hostData, inputs := t.inputs } ∧ ∀ i, t.level i = s.level i

theorem portOnly_raw (s : State) (i : Input) (b : Bool) : PortOnly s (s.modInput i fun r => { r with raw := b }) := by
  refine ⟨rfl, fun j => ?_⟩
  by_cases h : j = i
  · subst h
    exact level_modInput s j _
  · exact level_modInput_of_ne s h _

/-- A command releases the pin, asserts it, finds it held, or runs its effect and rewrites the pages. -/
theorem exec_cases (c : Instr) (s : State) :
    exec c s = .next s.powerOn ∨ exec c s = .next s.holdReset ∨ (∃ t, exec c s = .next t ∧ PortOnly s t)
      ∨ (¬ isPin c ∧ s.resetHeld = false ∧ exec c s = .next (State.publish s (effect c s))) := by
  by_cases pin : isPin c
  · obtain rfl | rfl := pin
    · exact Or.inl rfl
    · exact Or.inr (Or.inl rfl)
  · cases held : s.resetHeld with
    | false => exact Or.inr (Or.inr (Or.inr ⟨pin, rfl, exec_effect pin held⟩))
    | true =>
      refine Or.inr (Or.inr (Or.inl ?_))
      obtain h | h | ⟨i, b, h⟩ := exec_held pin held
      · exact ⟨_, h, rfl, fun _ => rfl⟩
      · exact ⟨_, h, rfl, fun _ => rfl⟩
      · exact ⟨_, h, portOnly_raw s i b⟩

/-- What holds of an idle step and of every command's run holds of every step. -/
theorem step_ind {P : State → State → Prop} (idle : ∀ s, P s s)
    (run : ∀ (c : Instr) (q : List Instr) (s t : State), s.pending = c :: q → exec c { s with pending := q } = .next t → P s t)
    {s t : State} (h : step s = .next t) : P s t := by
  unfold step at h
  split at h
  · obtain rfl := Host.Outcome.next.inj h
    exact idle s
  · next c q hq => exact run c q s t hq h

/-- A predicate that the waiting commands do not touch is kept by every step if the pin, the port while RESET is held and
every run of an effect keep it. -/
theorem step_keeps {I : State → Prop} (pending : ∀ s q, I s → I { s with pending := q }) (on : ∀ s, I s → I s.powerOn)
    (hold : ∀ s, I s → I s.holdReset) (port : ∀ s t, PortOnly s t → I s → I t)
    (run : ∀ c s, ¬ isPin c → s.resetHeld = false → I s → I (State.publish s (effect c s))) :
    ∀ s t : State, I s → step s = .next t → I t := by
  intro s t hs h
  refine step_ind (P := fun s t => I s → I t) (fun _ => id) (fun c q s t _ h hs => ?_) h hs
  have base := pending s q hs
  obtain e | e | ⟨u, e, only⟩ | ⟨pin, held, e⟩ := exec_cases c { s with pending := q }
  · obtain rfl := Host.Outcome.next.inj (h.symm.trans e)
    exact on _ base
  · obtain rfl := Host.Outcome.next.inj (h.symm.trans e)
    exact hold _ base
  · obtain rfl := Host.Outcome.next.inj (h.symm.trans e)
    exact port _ _ only base
  · obtain rfl := Host.Outcome.next.inj (h.symm.trans e)
    exact run c _ pin held base

/-! ### What an effect can be -/

theorem effect_configure (s : State) (halted : s.part = .halted) :
    Safe s (effect .configure s) ∨ ∃ o ws, s.orders.executing = some o
      ∧ effect .configure s = (s.activate o.settings).complete o .done ws := by
  dsimp only [effect]
  unfold State.completing
  split
  · next o ho =>
    split
    · unfold State.runConfigure
      rw [if_neg (by rw [halted]; exact PartState.noConfusion)]
      split
      · exact Or.inl (safe_complete ho _ _)
      · exact Or.inr ⟨o, _, ho, rfl⟩
    · exact Or.inl (safe_refl s)
  · exact Or.inl (safe_refl s)

/-- An effect keeps the units' invariants, or is a host write to plain memory, a soft reset, or the entry to ACTIVE. -/
theorem effect_cases {c : Instr} (s : State) (pin : ¬ isPin c) :
    Safe s (effect c s)
      ∨ (∃ w v, c = .exchangeMemoryWrite w v ∧ effect c s = s.modMem (·.writeWords (2 * w.toNat) [v])
          ∧ ∀ b, blockBase b ≠ 2 * w.toNat)
      ∨ effect c s = s.softReset
      ∨ (s.part = .halted ∧ ∃ o ws, s.orders.executing = some o
          ∧ effect c s = (s.activate o.settings).complete o .done ws) := by
  by_cases write : ∃ w v, c = .exchangeMemoryWrite w v
  · obtain ⟨w, v, rfl⟩ := write
    exact (hostWord_cases s w v).imp_right fun h => Or.inl ⟨w, v, rfl, h⟩
  · by_cases part : changesPart c s
    · obtain ⟨v, hc, bit⟩ | ⟨rfl, halted⟩ := part
      · refine Or.inr (Or.inr (Or.inl ?_))
        obtain rfl | rfl := hc
        · exact if_pos bit
        · exact if_pos bit
      · exact (effect_configure s halted).imp_right fun h => Or.inr (Or.inr ⟨halted, h⟩)
    · exact Or.inl (safe_effect pin (fun w v e => write ⟨w, v, e⟩) part)

theorem runs_activated {s : State} {o : OrderCopy} (h : s.orders.executing = some o) (ws : List Word) :
    Runs s ((s.activate o.settings).complete o .done ws) := by
  obtain ⟨weight, levels, -, -⟩ := settings_ranges o
  have entry := moves_entry s o.settings
  refine runs_trans (runs_trans (runs_configured s weight levels) entry.toRuns) (safe_complete ?_ _ _).toRuns
  rw [entry.orders]
  exact h

/-- An effect that is no host write to plain memory keeps what the records, the capacities and the order unit ask. -/
theorem runs_effect {c : Instr} (s : State) (pin : ¬ isPin c) :
    Runs s (effect c s) ∨ ∃ w v, c = .exchangeMemoryWrite w v ∧ effect c s = s.modMem (·.writeWords (2 * w.toNat) [v])
      ∧ ∀ b, blockBase b ≠ 2 * w.toNat := by
  obtain safe | write | reset | ⟨-, o, ws, ho, e⟩ := effect_cases s pin
  · exact Or.inl safe.toRuns
  · exact Or.inr write
  · rw [reset]
    exact Or.inl (runs_softReset s)
  · rw [e]
    exact Or.inl (runs_activated ho ws)

/-! ### The pages at a step's end -/

theorem closedRev_even (s0 s : State) (r : Rec) : (closedRev s0 s r).getLsbD 0 = false := by
  unfold closedRev
  have odd : ∀ v : Word, v.getLsbD 0 = true → (v + 1).getLsbD 0 = false := fun v h => by
    simp only [BitVec.getLsbD_add (Nat.zero_lt_succ 15), h, BitVec.carry_zero]
    rfl
  split
  · next h => exact odd _ h
  · next h =>
    have even : (s.rev r).getLsbD 0 = false := by simpa using h
    split
    · rw [even_add_two]
      exact even
    · exact even

theorem publish_evenPages (s0 s : State) : (State.publish s0 s).evenPages := fun r hr => by
  rw [(publish_record s0 s r hr).1]
  exact closedRev_even s0 s r

/-- A record's bytes lie in the pages. -/
theorem inPages_of_record {r : Rec} (hr : r ∈ pageRecs) {a : Nat} (lo : r.base ≤ a) (hi : a < r.top) : inPages a := by
  unfold inPages
  simp only [pageRecs, List.mem_cons, List.not_mem_nil, or_false] at hr
  rcases hr with rfl | rfl | rfl | rfl | rfl | rfl | rfl | rfl | rfl | rfl <;> simp only [Rec.base, Rec.top] at lo hi <;>
    omega

theorem recordByte_within {s : State} {r : Rec} (hr : r ∈ pageRecs) {a : Nat} (h : s.recordByte r a) :
    r.base ≤ a ∧ a < r.top := by
  have within := (recordRuns_within s r hr).1
  have room : r.base + 2 ≤ r.top := by
    simp only [pageRecs, List.mem_cons, List.not_mem_nil, or_false] at hr
    rcases hr with rfl | rfl | rfl | rfl | rfl | rfl | rfl | rfl | rfl | rfl <;> decide
  obtain ⟨lo, hi⟩ | ⟨x, hx, lo, hi⟩ := h
  · exact ⟨lo, by omega⟩
  · have := within x hx
    exact ⟨by omega, by omega⟩

/-- Two words that agree agree in both bytes. -/
theorem wordOf_inj {x y x' y' : Byte} (h : wordOf x y = wordOf x' y') : x = x' ∧ y = y' := by
  have high := congrArg (BitVec.extractLsb' 8 8) h
  have low := congrArg (BitVec.setWidth 8) h
  unfold wordOf at high low
  rw [BitVec.extractLsb'_append_eq_left, BitVec.extractLsb'_append_eq_left] at high
  rw [BitVec.setWidth_append_eq_right, BitVec.setWidth_append_eq_right] at low
  exact ⟨high, low⟩

/-- Bytes within a record's bounds stand where its words stand. -/
theorem read_of_readWords {m m' : Memory} {r : Rec} (hr : r ∈ pageRecs)
    (h : ∀ a n, r.base ≤ a → a + 2 * n ≤ r.top → m'.readWords a n = m.readWords a n) {a : Nat} (lo : r.base ≤ a)
    (hi : a < r.top) : m'.read a = m.read a := by
  have aligned : r.base % 2 = 0 ∧ r.top % 2 = 0 := by
    simp only [pageRecs, List.mem_cons, List.not_mem_nil, or_false] at hr
    rcases hr with rfl | rfl | rfl | rfl | rfl | rfl | rfl | rfl | rfl | rfl <;> decide
  have word : m'.readWord (a - a % 2) = m.readWord (a - a % 2) := by
    have := h (a - a % 2) 1 (by omega) (by omega)
    rw [readWords_one, readWords_one] at this
    exact (List.cons.inj this).1
  obtain ⟨high, low⟩ := wordOf_inj word
  obtain parity | parity := Nat.mod_two_eq_zero_or_one a
  · rw [parity] at low
    exact low
  · rw [parity, Nat.sub_add_cancel (by omega)] at high
    exact high

/-- A rewritten record is shown; another stands, counter and bytes, as the effect left it. -/
theorem publish_shows_or (s0 u : State) {r : Rec} (hr : r ∈ pageRecs) :
    ((State.publish s0 u).shows r
        ∨ ((u.rev r).getLsbD 0 = false ∧ (State.publish s0 u).rev r = u.rev r
          ∧ ∀ a, r.base ≤ a → a < r.top → (State.publish s0 u).mem.read a = u.mem.read a))
      ∧ (r.byChange = true → u.recordRuns r ≠ s0.recordRuns r → (State.publish s0 u).shows r) := by
  obtain ⟨rev, -, out⟩ := publish_record s0 u r hr
  split at out
  · exact ⟨Or.inl out, fun _ _ => out⟩
  · next still =>
    simp only [Bool.or_eq_true, not_or, Bool.not_eq_true] at still
    obtain ⟨even, same⟩ := still
    refine ⟨Or.inr ⟨even, ?_, fun a lo hi => read_of_readWords hr out lo hi⟩, fun change differ => ?_⟩
    · rw [rev, closedRev, if_neg (by rw [even]; exact Bool.false_ne_true),
        if_neg (by rw [same]; exact Bool.false_ne_true)]
    · rw [change, Bool.true_and, bne_eq_false_iff_eq] at same
      exact absurd same differ

end Sys2Proof.Machine
end

