-- ==== Sys2Proof/Proofs/HeadlineInvariants.lean ====
section
/-! PROOFS. The headlines on pages, bounds, silence, doors, heating, orders and rosters (O54 to O59), and that every command
answers (O2). -/

namespace Sys2Proof.Machine

/-! ### What the two resets and the port leave -/

theorem powerOn_eq (s : State) :
    s.powerOn = { s.resetUnits with
        resetHeld := false, cause := .powerOn, gpHeld := false, deliveries := Vector.replicate 8 0, outputs := 0,
        revs := Vector.replicate 18 0, mem := s.powerOn.mem }
      ∧ (∀ a, isPageByte a = false → s.powerOn.mem.read a = 0) ∧ s.powerOn.memWf := by
  unfold State.powerOn State.writePages
  obtain ⟨frame, -, outside, wf, -⟩ := writeRecords_eq pageRecs (fun _ h => h) { s.resetUnits with
    resetHeld := false, cause := .powerOn, gpHeld := false, deliveries := Vector.replicate 8 0, outputs := 0,
    revs := Vector.replicate 18 0, mem := [] }
  exact ⟨frame, fun a ha => outside a ha, wf (show Memory.wf [] by decide)⟩

theorem powerOn_shows (s : State) {r : Rec} (hr : r ∈ pageRecs) : s.powerOn.shows r := writePages_shows _ r hr

theorem powerOn_pending (s : State) : s.powerOn.pending = s.pending := by
  rw [(powerOn_eq s).1]
  rfl

theorem powerOn_part (s : State) : s.powerOn.part = .halted := by
  rw [(powerOn_eq s).1]
  rfl

theorem powerOn_held (s : State) : s.powerOn.resetHeld = false := by
  rw [(powerOn_eq s).1]

theorem powerOn_rev (s : State) (r : Rec) : s.powerOn.rev r = 0 := by
  rw [(powerOn_eq s).1]
  exact Vector.getElem_replicate r.idx.isLt

theorem powerOn_status (s : State) (b : Fin 16) : s.powerOn.blockStatus b = 0 := by
  obtain ⟨-, zero, -⟩ := powerOn_eq s
  unfold State.blockStatus Memory.readWord
  rw [zero _ (isPageByte_block b _ (le_refl _) (by omega)), zero _ (isPageByte_block b _ (by omega) (by omega))]
  rfl

theorem effect_pending {c : Instr} (s : State) (pin : ¬ isPin c) : (effect c s).pending = s.pending := by
  obtain runs | ⟨w, v, -, e, -⟩ := runs_effect s pin
  · exact runs.pending
  · rw [e]
    rfl

/-- A host write to plain memory moves no status word. -/
theorem plainWrite_status (s : State) (w : BitVec 14) (v : Word) (b : Fin 16) (h : blockBase b ≠ 2 * w.toNat) :
    (s.modMem (·.writeWords (2 * w.toNat) [v])).blockStatus b = s.blockStatus b := by
  refine memory_readWord_writeWords_of_outside s.mem _ [v] _ ?_
  unfold blockBase at h ⊢
  simp only [List.length_cons, List.length_nil]
  omega

/-! ### Capacities and agreement -/

theorem runs_upToPages {s t : State} (h : UpToPages s t) : (s.fits → t.fits) ∧ (s.ordersAgree → t.ordersAgree) := by
  refine ⟨fun fits => ?_, fun agree => ?_⟩
  · rw [h.1]
    exact fits
  · obtain ⟨frame, -⟩ := id h
    have orders : t.orders = s.orders := (congrArg State.orders frame :)
    have flight : t.inFlight = s.inFlight := (congrArg State.inFlight frame :)
    unfold State.ordersAgree at *
    simp only [orders, flight, block_status h]
    exact agree

theorem powerOn_fits (s : State) : s.powerOn.fits := by
  rw [(powerOn_eq s).1]
  exact fits_of_reset rfl rfl rfl rfl rfl rfl fun n => by
    rw [Fin.getElem_fin, Vector.getElem_replicate]
    exact Nat.zero_le _

theorem powerOn_ordersAgree (s : State) : s.powerOn.ordersAgree := by
  have orders : s.powerOn.orders = .reset := by
    rw [(powerOn_eq s).1]
    rfl
  have flight : s.powerOn.inFlight = [] := by
    rw [(powerOn_eq s).1]
    rfl
  unfold State.ordersAgree
  simp only [powerOn_status, orders, flight]
  exact ⟨List.nodup_nil, fun b => iff_of_false (by decide) List.not_mem_nil,
    fun b => iff_of_false (by decide) (by rintro (k | k) <;> cases k), fun b => Nat.zero_le _⟩

theorem fits_step : ∀ s t : State, s.fits → step s = .next t → t.fits := by
  refine step_keeps (fun s q h => h) (fun s _ => powerOn_fits s) (fun s h => h) (fun s t only h => ?_) (fun c s pin held h => ?_)
  · rw [only.1]
    exact h
  · refine (runs_upToPages (publish_upToPages s _)).1 ?_
    obtain runs | ⟨w, v, -, e, -⟩ := runs_effect s pin
    · exact runs.fits h
    · rw [e]
      exact h

theorem ordersAgree_step : ∀ s t : State, s.ordersAgree → step s = .next t → t.ordersAgree := by
  refine step_keeps (fun s q h => h) (fun s _ => powerOn_ordersAgree s) (fun s h => h) (fun s t only h => ?_) (fun c s pin held h => ?_)
  · rw [only.1]
    exact h
  · refine (runs_upToPages (publish_upToPages s _)).2 ?_
    obtain runs | ⟨w, v, -, e, plain⟩ := runs_effect s pin
    · exact runs.agree h
    · rw [e]
      unfold State.ordersAgree at *
      simp only [fun b => plainWrite_status s w v b (plain b)]
      exact h

/-! ### Memory and counters -/

/-- Every revision counter is a page record's or an inbox slot's. -/
theorem countersEven_iff (s : State) :
    s.countersEven ↔ s.evenPages ∧ ∀ n : Fin 8, (s.rev (.slot n)).getLsbD 0 = false := by
  refine ⟨fun h => ⟨fun r _ => h r.idx, fun n => h (Rec.slot n).idx⟩, fun ⟨pages, slots⟩ i => ?_⟩
  have cover : ∀ i : Fin 18, (∃ r ∈ pageRecs, r.idx = i) ∨ ∃ n : Fin 8, (Rec.slot n).idx = i := by decide
  obtain ⟨r, hr, rfl⟩ | ⟨n, rfl⟩ := cover i
  · exact pages r hr
  · exact slots n

theorem powerOn_countersEven (s : State) : s.powerOn.countersEven := by
  rw [countersEven_iff]
  refine ⟨fun r _ => ?_, fun n => ?_⟩
  · rw [powerOn_rev]
    rfl
  · rw [powerOn_rev]
    rfl

theorem memory_step : ∀ s t : State, s.memWf ∧ s.countersEven → step s = .next t → t.memWf ∧ t.countersEven := by
  refine step_keeps (fun s q h => h) (fun s _ => ⟨(powerOn_eq s).2.2, powerOn_countersEven s⟩) (fun s h => h) (fun s t only h => ?_)
    (fun c s pin held h => ?_)
  · rw [only.1]
    exact h
  · obtain ⟨wf, even⟩ := h
    rw [countersEven_iff] at even ⊢
    obtain ⟨-, -, slots⟩ := publish_upToPages s (effect c s)
    refine ⟨publish_wf _ _ ?_, publish_evenPages _ _, fun n => ?_⟩
    · obtain runs | ⟨w, v, -, e, -⟩ := runs_effect s pin
      · exact runs.wf wf
      · rw [e]
        exact memory_wf_writeWords _ _ _ wf
    · rw [slots n]
      obtain runs | ⟨w, v, -, e, -⟩ := runs_effect s pin
      · exact (runs.slots n).trans (even.2 n)
      · rw [e]
        exact even.2 n

/-! ### The pages after a step -/

/-- A record that a step's end does not rewrite stands but for a host write, counter and bytes (R169). -/
def Stands (s t : State) (c : Option Instr) (r : Rec) : Prop :=
  t.rev r = s.rev r ∧ ∀ a, t.recordByte r a →
    (∀ w v, c = some (.exchangeMemoryWrite w v) → a ≠ 2 * w.toNat ∧ a ≠ 2 * w.toNat + 1) → t.mem.read a = s.mem.read a

theorem publish_stands {c : Instr} (s : State) (pin : ¬ isPin c) {r : Rec} (hr : r ∈ pageRecs) :
    (State.publish s (effect c s)).shows r ∨ Stands s (State.publish s (effect c s)) (some c) r := by
  refine (publish_shows_or s (effect c s) hr).1.imp_right fun ⟨even, rev, bytes⟩ => ?_
  obtain runs | ⟨w, v, rfl, e, -⟩ := runs_effect s pin
  · have same := (runs.pages r hr).resolve_right (by rw [even]; exact Bool.false_ne_true)
    refine ⟨rev.trans same, fun a ha _ => ?_⟩
    obtain ⟨lo, hi⟩ := recordByte_within hr ha
    exact (bytes a lo hi).trans (runs.bytes a (inPages_of_record hr lo hi))
  · rw [e] at rev bytes ⊢
    refine ⟨rev, fun a ha free => ?_⟩
    obtain ⟨lo, hi⟩ := recordByte_within hr ha
    obtain ⟨low, high⟩ := free w v rfl
    refine (bytes a lo hi).trans (memory_read_writeWords_of_outside _ _ _ _ ?_)
    simp only [List.length_cons, List.length_nil]
    omega

theorem stands_refl (s : State) (c : Option Instr) (r : Rec) : Stands s s c r := ⟨rfl, fun _ _ _ => rfl⟩

/-- While RESET is held no field of a record rewritten by change moves. -/
theorem portOnly_recordRuns {s t : State} (h : PortOnly s t) {r : Rec} (change : r.byChange = true) :
    t.recordRuns r = s.recordRuns r := by
  obtain ⟨frame, levels⟩ := h
  have view : t.doorViewWords = s.doorViewWords := by
    have door : t.door = s.door := (congrArg State.door frame :)
    unfold State.doorViewWords
    rw [door, levels]
  cases r
  case doorView => exact congrArg (fun w => [(0x14A2, w)]) view
  case doorSummary => exact Bool.noConfusion change
  case allocTable => exact Bool.noConfusion change
  case ioView => exact Bool.noConfusion change
  case slot n => exact Bool.noConfusion change
  all_goals rw [frame]; rfl

/-! ### Silence -/

theorem quiet_upToPages {s t : State} (h : UpToPages s t) (q : s.quiet) : t.quiet := by
  rw [h.1]
  exact q

theorem haltedQuiet_effect {c : Instr} {s : State} (pin : ¬ isPin c) (h : s.haltedQuiet) : (effect c s).haltedQuiet := by
  intro halted
  obtain safe | ⟨w, v, -, e, -⟩ | reset | ⟨-, o, ws, -, e⟩ := effect_cases s pin
  · have before : s.part = .halted := safe.part.symm.trans halted
    exact quiet_effect (h before) before halted
  · rw [e] at halted ⊢
    exact h halted
  · rw [reset]
    exact softReset_quiet s
  · rw [e, complete_eq] at halted
    exact absurd ((moves_entry s o.settings).part.symm.trans halted) PartState.noConfusion

theorem haltedQuiet_port {s t : State} (h : PortOnly s t) (q : s.haltedQuiet) : t.haltedQuiet := by
  rw [h.1]
  exact q

theorem haltedQuiet_hold {s : State} (h : s.haltedQuiet) : s.holdReset.haltedQuiet := fun halted => by
  obtain ⟨cfg, lines, ends, consist, door, heat, flight, -⟩ := h halted
  exact ⟨cfg, lines, ends, consist, door, heat, flight, (rfl : (0 : BitVec 12) &&& 0x1FF = 0)⟩

theorem haltedQuiet_upToPages {s t : State} (h : UpToPages s t) (q : s.haltedQuiet) : t.haltedQuiet := by
  rw [h.1]
  exact q

theorem haltedQuiet_step : ∀ s t : State, s.haltedQuiet → step s = .next t → t.haltedQuiet :=
  step_keeps (fun _ _ h => h) (fun s _ _ => powerOn_quiet s) (fun _ => haltedQuiet_hold) (fun _ _ => haltedQuiet_port)
    (fun _ s pin _ h => haltedQuiet_upToPages (publish_upToPages s _) (haltedQuiet_effect pin h))

/-! ### What a unit's invariant asks of the steps -/

/-- An invariant of an ACTIVE part, joined with the silence of a HALTED one. It holds of a silent part (`silent`), and
survives the entry to ACTIVE (`entry`). -/
structure UnitInvariant (I : State → Prop) : Prop where
  silent : ∀ s : State, s.resetHeld = false → s.part = .halted → s.quiet → I s
  hold : ∀ s : State, I s → I s.holdReset
  port : ∀ s t, PortOnly s t → I s → I t
  pages : ∀ s t, UpToPages s t → I s → I t
  pending : ∀ (s : State) q, I s → I { s with pending := q }
  plain : ∀ (s : State) m, I s → I { s with mem := m }
  safe : ∀ s t, Safe s t → s.resetHeld = false → I s → I t
  entry : ∀ (s : State) (o : OrderCopy), s.resetHeld = false → s.part = .halted → s.quiet → I (s.activate o.settings)

theorem unitInvariant_effect {I : State → Prop} (inv : UnitInvariant I) {c : Instr} {s : State} (pin : ¬ isPin c)
    (held : s.resetHeld = false) (quiet : s.haltedQuiet) (h : I s) : I (effect c s) := by
  obtain safe | ⟨w, v, -, e, -⟩ | reset | ⟨halted, o, ws, ho, e⟩ := effect_cases s pin
  · exact inv.safe s _ safe held h
  · rw [e]
    exact inv.plain s _ h
  · rw [reset]
    refine inv.silent _ ((runs_softReset s).held.trans held) ?_ (softReset_quiet s)
    rw [softReset_eq, softUnits_eq]
  · have entry := moves_entry s o.settings
    rw [e]
    refine inv.safe _ _ (safe_complete ?_ _ _) (entry.held.trans held) (inv.entry s o held halted (quiet halted))
    rw [entry.orders]
    exact ho

theorem unitInvariant_step {I : State → Prop} (inv : UnitInvariant I) :
    ∀ s t : State, s.haltedQuiet ∧ I s → step s = .next t → t.haltedQuiet ∧ I t :=
  step_keeps (fun s q h => ⟨h.1, inv.pending s q h.2⟩)
    (fun s _ => ⟨fun _ => powerOn_quiet s, inv.silent _ (powerOn_held s) (powerOn_part s) (powerOn_quiet s)⟩)
    (fun s h => ⟨haltedQuiet_hold h.1, inv.hold s h.2⟩)
    (fun s t only h => ⟨haltedQuiet_port only h.1, inv.port s t only h.2⟩)
    (fun _ s pin held h => ⟨haltedQuiet_upToPages (publish_upToPages s _) (haltedQuiet_effect pin h.1),
      inv.pages _ _ (publish_upToPages s _) (unitInvariant_effect inv pin held h.1 h.2)⟩)

/-- Outputs off while RESET is held, doors shown, releases standing (R165, R97, R102). -/
def State.doorsKept (s : State) : Prop := (s.resetHeld = true → s.outputs = 0) ∧ s.doorsShown ∧ s.releaseOk

/-- Outputs off while RESET is held, heating within its limits, off without supply (R165, R132 to R137). -/
def State.heatKept (s : State) : Prop := (s.resetHeld = true → s.outputs = 0) ∧ s.heatOk ∧ s.supplyOk

/-- The outputs of a silent part but GP0 to GP2 are 0, so any mask of doors or stages reads 0. -/
theorem quiet_masked {s : State} (q : s.quiet) {m : BitVec 12} (h : 0x1FF &&& m = m) : s.outputs &&& m = 0 := by
  obtain ⟨-, -, -, -, -, -, -, outputs⟩ := q
  calc s.outputs &&& m = s.outputs &&& (0x1FF &&& m) := by rw [h]
    _ = (s.outputs &&& 0x1FF) &&& m := (BitVec.and_assoc ..).symm
    _ = 0 := by rw [outputs]; exact BitVec.zero_and

theorem stageMask_within {n : Nat} (h : n ≤ 6) : 0x1FF &&& stageMask n = stageMask n := by
  interval_cases n <;> decide

theorem reset_within (count fallback : Nat) : HeatUnit.reset.within count fallback :=
  ⟨le_refl _, Nat.zero_le _, fun r h => (Option.some_ne_none r h.symm).elim, fun _ => rfl, fun h => HeatState.noConfusion h⟩

theorem releaseOk_of_idle {s : State} (h : s.door.group = .idle) : s.releaseOk := fun _ _ hr =>
  DoorGroup.noConfusion (h.symm.trans hr)

theorem unitInvariant_doors : UnitInvariant State.doorsKept where
  silent s held halted quiet := by
    obtain ⟨-, -, -, -, door, -⟩ := quiet
    refine ⟨fun k => absurd k (by rw [held]; decide), fun _ active => ?_, releaseOk_of_idle (by rw [door]; rfl)⟩
    exact absurd (halted.symm.trans active) PartState.noConfusion
  hold s h := ⟨fun _ => rfl, fun k => Bool.noConfusion k, h.2.2⟩
  port s t only h := by
    obtain ⟨frame, levels⟩ := only
    obtain ⟨off, shown, release⟩ := h
    have door : t.door = s.door := (congrArg State.door frame :)
    have consist : t.consist = s.consist := (congrArg State.consist frame :)
    refine ⟨?_, ?_, fun x r hr => ?_⟩
    · rw [frame]
      exact off
    · rw [frame]
      exact shown
    · rw [door] at hr
      unfold State.releaseStands
      rw [consist, levels]
      exact release x r hr
  pages s t h k := by
    rw [h.1]
    exact k
  pending s q h := h
  plain s m h := h
  safe s t h held k := ⟨fun on => absurd (h.held.symm.trans on) (by rw [held]; decide), h.shown k.2.1, h.release k.2.2⟩
  entry s o held halted quiet := by
    have entry := moves_entry s o.settings
    obtain ⟨-, -, -, -, door, -⟩ := id quiet
    refine ⟨fun on => absurd (entry.held.symm.trans on) ?_, entry.shown fun _ _ => ?_,
      entry.release (releaseOk_of_idle ?_)⟩
    · show ¬ s.resetHeld = true
      rw [held]
      decide
    · show s.outputs &&& doorMask = s.door.group.image
      rw [door]
      exact quiet_masked quiet (by decide)
    · show s.door.group = .idle
      rw [door]
      rfl

theorem unitInvariant_heat : UnitInvariant State.heatKept where
  silent s held halted quiet := by
    have active : ¬ s.part = .active := by
      rw [halted]
      exact PartState.noConfusion
    obtain ⟨cfg, -, -, -, -, heat, -⟩ := quiet
    refine ⟨fun k => absurd k (by rw [held]; decide), ⟨?_, ?_, ?_, fun _ k => absurd k active⟩, fun k => absurd k active⟩
    · rw [cfg]
      decide
    · rw [cfg]
      decide
    · rw [heat]
      exact reset_within _ _
  hold s h := by
    obtain ⟨-, ⟨fallback, count, within, -⟩, supply⟩ := h
    exact ⟨fun _ => rfl, ⟨fallback, count, within, fun k => Bool.noConfusion k⟩, supply⟩
  port s t only h := by
    obtain ⟨frame, levels⟩ := only
    obtain ⟨off, heat, supply⟩ := h
    have unit : t.heat = s.heat := (congrArg State.heat frame :)
    have part : t.part = s.part := (congrArg State.part frame :)
    refine ⟨?_, ?_, ?_⟩
    · rw [frame]
      exact off
    · rw [frame]
      exact heat
    · unfold State.supplyOk
      rw [part, levels, unit]
      exact supply
  pages s t h k := by
    rw [h.1]
    exact k
  pending s q h := h
  plain s m h := h
  safe s t h held k := ⟨fun on => absurd (h.held.symm.trans on) (by rw [held]; decide), h.heat k.2.1, h.supply k.2.2⟩
  entry s o held halted quiet := by
    have entry := moves_entry s o.settings
    obtain ⟨-, -, fallback, count⟩ := settings_ranges o
    obtain ⟨-, -, -, -, -, heat, -⟩ := id quiet
    refine ⟨fun on => absurd (entry.held.symm.trans on) ?_, entry.heat ⟨fallback, count, ?_, fun _ _ => ?_⟩,
      activate_supplyOk s _⟩
    · show ¬ s.resetHeld = true
      rw [held]
      decide
    · show s.heat.within _ _
      rw [heat]
      exact reset_within _ _
    · show s.outputs &&& stageMask o.settings.count = stageMask s.heat.on
      rw [heat]
      exact quiet_masked quiet (stageMask_within count)

theorem sound_reset (identity : Ident) : ConsistUnit.reset.sound identity := by
  have empty : RollSide.empty.sound := fun n h => (Option.some_ne_none n h.symm).elim
  exact ⟨empty, empty, fun r h => (Option.some_ne_none r h.symm).elim, fun h => ConsistState.noConfusion h⟩

theorem unitInvariant_roster : UnitInvariant (fun s => s.consist.sound s.cfg.identity) where
  silent s _ _ quiet := by
    obtain ⟨-, -, -, consist, -⟩ := quiet
    rw [consist]
    exact sound_reset _
  hold s h := h
  port s t only h := by
    rw [only.1]
    exact h
  pages s t h k := by
    rw [h.1]
    exact k
  pending s q h := h
  plain s m h := h
  safe s t h _ k := h.roster k
  entry s o _ _ quiet := by
    obtain ⟨-, -, -, consist, -⟩ := quiet
    refine (moves_entry s o.settings).roster ?_
    show s.consist.sound _
    rw [consist]
    exact sound_reset _

end Sys2Proof.Machine

namespace Sys2Proof.Proofs

open Sys2Proof Sys2Proof.Machine

/-- Settles O2: whatever a command's run is, it answers, and no effect touches the queue. -/
theorem everyCommandAnswers : Obligations.EveryCommandAnswers := by
  intro c s
  obtain e | e | ⟨t, e, frame, -⟩ | ⟨pin, -, e⟩ := exec_cases c s
  · exact ⟨_, e, powerOn_pending s⟩
  · exact ⟨_, e, rfl⟩
  · exact ⟨t, e, (congrArg State.pending frame :)⟩
  · have frame := (publish_upToPages s (effect c s)).1
    exact ⟨_, e, (congrArg State.pending frame :).trans (effect_pending s pin)⟩

/-- Settles O54: the step's end rewrites a record whole or leaves it as the effect left it, and an effect moves no byte of
a page record without beginning its rewrite. -/
theorem pagesAfterAStep : Obligations.PagesAfterAStep := by
  intro s t even h
  unfold step at h
  split at h
  · obtain rfl := Host.Outcome.next.inj h
    exact ⟨even, fun r _ => ⟨Or.inr (stands_refl s _ r), fun _ differ => absurd rfl differ⟩⟩
  · next c q hq =>
    rw [hq]
    obtain e | e | ⟨u, e, only⟩ | ⟨pin, -, e⟩ := exec_cases c { s with pending := q }
    · obtain rfl := Host.Outcome.next.inj (h.symm.trans e)
      refine ⟨fun r _ => ?_, fun r hr => ⟨Or.inl (powerOn_shows _ hr), fun _ _ => powerOn_shows _ hr⟩⟩
      rw [powerOn_rev]
      rfl
    · obtain rfl := Host.Outcome.next.inj (h.symm.trans e)
      refine ⟨even, fun r _ => ⟨Or.inr ⟨rfl, fun _ _ _ => rfl⟩, fun change differ => absurd ?_ differ⟩⟩
      cases r
      case ioView => exact Bool.noConfusion change
      all_goals rfl
    · obtain rfl := Host.Outcome.next.inj (h.symm.trans e)
      obtain ⟨frame, -⟩ := id only
      have mem : t.mem = s.mem := (congrArg State.mem frame :)
      have revs : t.revs = s.revs := (congrArg State.revs frame :)
      have rev : ∀ r, t.rev r = s.rev r := fun r => by
        unfold State.rev
        rw [revs]
      refine ⟨fun r hr => by rw [rev]; exact even r hr,
        fun r _ => ⟨Or.inr ⟨rev r, fun _ _ _ => by rw [mem]⟩, fun change differ => absurd ?_ differ⟩⟩
      refine (portOnly_recordRuns only change).trans ?_
      cases r <;> rfl
    · obtain rfl := Host.Outcome.next.inj (h.symm.trans e)
      refine ⟨publish_evenPages _ _, fun r hr => ⟨publish_stands _ pin hr, fun change differ => ?_⟩⟩
      refine (publish_shows_or _ _ hr).2 change fun same => differ ?_
      refine (publish_record _ _ r hr).2.1.trans (same.trans ?_)
      cases r <;> rfl

/-- Settles O55: memory's form and the counters by the step's end, the capacities by what each operation keeps. -/
theorem boundsKept : Obligations.BoundsKept :=
  ⟨fun s t wf even h => memory_step s t ⟨wf, even⟩ h, fits_step⟩

/-- Settles O56: only CONFIGURE leaves HALTED; an ACTIVE part's operations hand the doors over whole and drop a release with
its ground. -/
theorem quietAndDoorsKept : Obligations.QuietAndDoorsKept := by
  refine ⟨haltedQuiet_step, fun s t h step => ?_⟩
  obtain ⟨quiet, kept⟩ := unitInvariant_step unitInvariant_doors s t ((doorsSafe_iff s).mp h) step
  exact (doorsSafe_iff t).mpr ⟨quiet, kept⟩

/-- Settles O57: every heating operation keeps stages, ramp and limit in their order and hands the image over whole. -/
theorem heatStaysSafe : Obligations.HeatStaysSafe := fun s t h step =>
  (heatSafe_iff t).mpr (unitInvariant_step unitInvariant_heat s t ((heatSafe_iff s).mp h) step)

/-- Settles O58: each change of a status word goes with its block's move between queue, order unit and flight. -/
theorem ordersStayInAgreement : Obligations.OrdersStayInAgreement := ordersAgree_step

/-- Settles O59: a roster is installed whole, and FORMED only where the coach has found its own entry. -/
theorem rosterStaysSound : Obligations.RosterStaysSound := fun s t h step =>
  (rosterHolds_iff t).mpr (unitInvariant_step unitInvariant_roster s t ((rosterHolds_iff s).mp h) step)

end Sys2Proof.Proofs
end

