-- ==== Sys2Proof/Proofs/ResetsAndHostPort.lean ====
section
/-! PROOFS. The resets and the host port (chapters 10 and 11): the RESET pin, both resets (R184, R185), the registers
(R182), NOTICE and the take (R174, R176), and host writes to exchange memory (R170, R173). -/

namespace Sys2Proof.Machine

/-! ### Commands that show on no page -/

/-- A command that moves no more than order unit, event unit, exchange memory and the host's word answers its effect
itself. -/
theorem exec_unshown {c : Instr} {f : State → State} {s u : State} (run : exec c s = partStep f s) (held : s.resetHeld = false)
    (even : s.evenPages) (hf : f s = u)
    (frame : u = { s with orders := u.orders, events := u.events, mem := u.mem, hostData := u.hostData }) :
    exec c s = .next u := by
  rw [run, ← hf]
  refine partStep_eq f s held ?_ fun r _ _ => ?_
  · rw [hf, frame]
    exact even
  · rw [hf, frame]
    cases r <;> rfl

/-- While RESET is held the port answers 0 (R167). -/
theorem hostRead_held {s : State} (h : s.resetHeld = true) (w : BitVec 14) : s.hostRead w = 0 := if_pos h

theorem interruptLine_held {s : State} (h : s.resetHeld = true) : s.interruptLine = false := by
  rw [State.interruptLine, h]
  rfl

/-- A silent part's lines are off (R1, R10). -/
theorem lineOutput_quiet {s : State} (halted : s.part = .halted) (q : s.quiet) (l : LineId) : s.lineOutput l = .off :=
  lineOutput_halted halted (quiet_line q l).1

/-! ### The reset state -/

/-- Power-on reset of the reset state leaves it: its memory is what the pages' writing makes of empty memory. -/
theorem powerOn_reset : State.reset.powerOn = State.reset := by decide +kernel

theorem reset_quiet : State.reset.quiet := powerOn_reset ▸ powerOn_quiet State.reset

theorem reset_line (l : LineId) :
    State.reset.lineOf l = { state := .dark, energy := false, score := 0, settling := none, rest := none, asm := .waiting } := by
  obtain ⟨e, n⟩ := l
  cases e <;> cases n <;> rfl

theorem reset_unpending (c : EventClass) : State.reset.isPending c = false := by
  cases c <;> rfl

theorem reset_end (e : EndId) : State.reset.endOf e = .reset false := by
  cases e <;> rfl

/-! ### Soft reset -/

theorem softReset_frame (s : State) : s.softReset = { s with
    part := .halted, cause := .soft, gpHeld := true, ms := 0, cfg := .reset, seqs := Vector.replicate 12 1,
    lines := ⟨.reset, .reset, .reset, .reset⟩, ends := ⟨.reset s.inputs.cplA.raw, .reset s.inputs.cplB.raw⟩,
    consist := .reset, door := .reset, heat := .reset, inFlight := [], inputs := s.inputs.requalified,
    outputs := s.outputs &&& 0xE00, orders := .reset, events := .reset, revs := s.softReset.revs,
    mem := s.softReset.mem } := by
  rw [softReset_eq, softUnits_eq]

theorem softReset_mem (s : State) : s.softReset.mem = s.abortBlocks.mem.writeWords 0x1400 [0] := by
  rw [softReset_eq, softUnits_eq]

/-- A held block after a soft reset (R185). -/
theorem softReset_block {s : State} {b : Fin 16} (h : s.blockHeld b = true) :
    s.softReset.blockStatus b = stABORTED
      ∧ s.softReset.mem.readWords (blockBase b + 4) 14 = 13 :: List.replicate 13 0 := by
  obtain ⟨-, aborted, -⟩ := abortBlocks_spec s
  have low : blockBase b + 0x100 ≤ 0x1400 := by
    unfold blockBase
    omega
  unfold State.blockStatus
  rw [softReset_mem, memory_readWord_writeWords_of_outside _ _ _ _ (by omega),
    memory_readWords_writeWords_of_outside _ _ _ _ _ (by omega)]
  exact aborted b h

/-- An odd counter is stepped to even at the step's end. -/
theorem closedRev_odd (s0 : State) {s u : State} {r : Rec} (even : (s.rev r).getLsbD 0 = false)
    (begun : u.rev r = s.rev r + 1) : (u.rev r).getLsbD 0 = true ∧ closedRev s0 u r = s.rev r + 2 := by
  have odd : (u.rev r).getLsbD 0 = true := by
    rw [begun, BitVec.getLsbD_add (Nat.zero_lt_succ 15), even, BitVec.carry_zero]
    rfl
  refine ⟨odd, ?_⟩
  rw [closedRev, if_pos odd, begun, BitVec.add_assoc]
  rfl

/-! ### Host writes to memory -/

/-- A status word's number, in words of its block. -/
theorem statusBlock_none {w : BitVec 14} (h : isStatusWord w = false) : statusBlock w = none := by
  refine List.find?_eq_none.mpr fun b _ hb => ?_
  have base := beq_iff_eq.mp hb
  simp only [isStatusWord, Bool.and_eq_false_iff, decide_eq_false_iff_not, beq_eq_false_iff_ne] at h
  unfold blockBase at base
  omega

theorem hostWord_plain {s : State} {w : BitVec 14} (v : Word) (h : isStatusWord w = false) :
    s.hostWord w v = if w.toNat < 0x2000 then s.modMem (·.writeWords (2 * w.toNat) [v]) else s := by
  rw [State.hostWord, statusBlock_none h]

theorem hostRead_control {s : State} (held : s.resetHeld = false) : s.hostRead 0x3FFF = flagWord s.events.enable := by
  rw [State.hostRead, if_neg (Bool.eq_false_iff.mp held)]
  rfl

theorem hostRead_memory {s : State} {w : BitVec 14} (held : s.resetHeld = false) (h : w.toNat < 0x2000) :
    s.hostRead w = s.mem.readWord (2 * w.toNat) := by
  rw [State.hostRead, if_neg (Bool.eq_false_iff.mp held), if_pos h]

/-- The part of the window between memory and registers reads 0 (R196). -/
theorem hostRead_unused {s : State} {w : BitVec 14} (low : 0x2000 ≤ w.toNat) (high : w.toNat < 0x3FFA) :
    s.hostRead w = 0 := by
  unfold State.hostRead
  split
  · rfl
  · iterate 6 rw [if_neg (by omega)]

theorem blockHeld_iff (s : State) (b : Fin 16) :
    s.blockHeld b = true ↔ s.blockStatus b = stQUEUED ∨ s.blockStatus b = stTAKEN := by
  rw [State.blockHeld, Bool.or_eq_true, beq_iff_eq, beq_iff_eq]

end Sys2Proof.Machine

namespace Sys2Proof.Proofs

open Sys2Proof Sys2Proof.Machine

/-- Settles O1: by the two cases of the queue. -/
theorem stepRunsFrontCommand : Obligations.StepRunsFrontCommand := by
  refine ⟨fun c q s h => ?_, fun s h => ?_⟩
  · rw [step, h]
  · rw [step, h]

/-- Settles O3: while RESET is held a step of the part has no effect, and TAKE and the pins have an answer of their own. -/
theorem resetPin : Obligations.ResetPin := by
  refine ⟨fun s held => ⟨?_, fun i v => ?_, fun c on hold take raw => ?_⟩, fun s => ?_⟩
  · rw [exec_take, if_pos held]
  · rw [exec_rawChange, if_pos held]
    rfl
  · rw [exec_run (fun pin => pin.elim on hold) (Or.inr ⟨take, raw⟩)]
    exact partStep_held _ s held
  · exact ⟨_, exec_resetPinHeld s, rfl, interruptLine_held rfl, hostRead_held rfl, fun l => lineOutput_held rfl l⟩

/-- Settles O4: the pages are written over empty memory with the counters at 0. -/
theorem powerOnReset : Obligations.PowerOnReset := by
  intro s
  obtain ⟨frame, outside, -⟩ := powerOn_eq s
  exact ⟨_, exec_powerOnReset s, frame, lineOutput_quiet (powerOn_part s) (powerOn_quiet s), outside,
    fun r hr => powerOn_shows s hr⟩

/-- Settles O5: the reset state is what power-on reset leaves of it, so it has all that power-on reset brings about. -/
theorem resetState : Obligations.ResetState := by
  have halted : State.reset.part = .halted := rfl
  have line : ∀ l, State.reset.lineOutput l = .off := lineOutput_quiet rfl reset_quiet
  have free : ∀ b, State.reset.blockStatus b = stFREE := powerOn_reset ▸ powerOn_status State.reset
  have even : State.reset.countersEven := powerOn_reset ▸ powerOn_countersEven State.reset
  have quiet : State.reset.haltedQuiet := fun _ => reset_quiet
  have memory : State.reset.memWf := powerOn_reset ▸ (powerOn_eq State.reset).2.2
  refine ⟨⟨congrArg Host.Outcome.next powerOn_reset, rfl, rfl, rfl, rfl, rfl, rfl, by decide, by decide, by decide,
    fun l => ⟨reset_line l, line l⟩, fun e => ?_, rfl, rfl, rfl, rfl, rfl, rfl, rfl, rfl, rfl, rfl, rfl, rfl, rfl, rfl, rfl,
    rfl, rfl, rfl, rfl, rfl, rfl, rfl, rfl, rfl, rfl, rfl, rfl, rfl, rfl, rfl, rfl, rfl, rfl, reset_unpending, rfl, rfl, rfl,
    free⟩, memory, even, ((countersEven_iff _).mp even).1, ?_, quiet, ?_, ?_, ?_, ?_, ?_⟩
  · rw [reset_end]
    exact ⟨rfl, rfl, rfl, rfl, rfl, rfl, rfl, rfl, rfl, rfl⟩
  · exact powerOn_reset ▸ powerOn_fits State.reset
  · exact (doorsSafe_iff _).mpr ⟨quiet, unitInvariant_doors.silent _ rfl rfl reset_quiet⟩
  · exact (heatSafe_iff _).mpr ⟨quiet, unitInvariant_heat.silent _ rfl rfl reset_quiet⟩
  · exact powerOn_reset ▸ powerOn_ordersAgree State.reset
  · exact (rosterHolds_iff _).mpr ⟨quiet, unitInvariant_roster.silent _ rfl rfl reset_quiet⟩
  · exact fun r hr => powerOn_reset ▸ powerOn_shows State.reset hr

/-- Settles O6: the units' reset values, the aborted blocks, and one rewrite begun of every page record. -/
theorem softReset : Obligations.SoftReset := by
  intro v s hv held even
  obtain ⟨-, -, -, outside, -⟩ := abortBlocks_spec s
  have pages := publish_upToPages s s.softReset
  have quiet := quiet_upToPages pages (softReset_quiet s)
  obtain ⟨frame, bytes, slots⟩ := id pages
  have halted : (State.publish s s.softReset).part = .halted := by
    rw [frame, softReset_frame]
  refine ⟨State.publish s s.softReset, ?_, ?_, lineOutput_quiet halted quiet, fun r hr => ?_, fun n => ?_, fun b hb => ?_, ?_,
    fun a plain low high away => ?_⟩
  · rw [exec_softReset, partStep, if_neg (Bool.eq_false_iff.mp held), writeControl_softReset s hv]
  · rw [frame, softReset_frame]
  · obtain ⟨odd, twice⟩ := closedRev_odd s (even r hr) (softReset_rev s even r hr)
    obtain ⟨rev, -, shown⟩ := publish_record s s.softReset r hr
    rw [odd, Bool.true_or, if_pos rfl] at shown
    exact ⟨rev.trans twice, shown⟩
  · rw [slots n, softReset_slot]
  · obtain ⟨status, fields⟩ := softReset_block hb
    rw [block_status pages, block_readWords pages b 14 _ (by omega) (by omega)]
    exact ⟨status, fields⟩
  · have word : s.softReset.mem.readWord 0x1400 = 0 := by
      rw [softReset_mem]
      exact memory_readWord_writeWord _ _ _
    rw [← word]
    exact readWord_congr (bytes _ rfl) (bytes _ rfl)
  · rw [bytes a plain, softReset_mem, memory_read_writeWords_of_outside _ _ _ _ ?_]
    · exact outside a away
    · simp only [List.length_cons, List.length_nil]
      omega

/-- Settles O7: CONTROL without its soft-reset position moves the enable alone, and the other registers are read only. -/
theorem controlAndReadOnlyRegisters : Obligations.ControlAndReadOnlyRegisters := by
  refine ⟨fun v s hv held even => ?_, fun reg v s even => ⟨?_, fun held => ⟨?_, ?_⟩, fun w low high => hostRead_unused low high⟩⟩
  · have control : s.writeControl v = { s with events := { s.events with enable := v.getLsbD 0 } } := by
      rw [State.writeControl, if_neg (Bool.eq_false_iff.mp hv)]
      rfl
    refine ⟨_, exec_unshown (exec_setEnable v s) held even control rfl, rfl, ?_⟩
    refine (hostRead_control ?_).trans rfl
    exact held
  · cases held : s.resetHeld with
    | true => exact (exec_registerWriteIgnored reg v s).trans (partStep_held _ s held)
    | false => exact exec_unshown (exec_registerWriteIgnored reg v s) held even rfl rfl
  · rw [State.hostRead, if_neg (Bool.eq_false_iff.mp held)]
    rfl
  · rw [State.hostRead, if_neg (Bool.eq_false_iff.mp held)]
    rfl

/-- Settles O10: NOTICE and the take write one status word and the order unit, which no page shows. -/
theorem noticeAndTake : Obligations.NoticeAndTake := by
  refine ⟨fun v s held even => ⟨fun b hv ready => ?_, fun unready => ?_⟩, fun s held even => ⟨fun b q free head => ?_, fun h => ?_⟩⟩
  · have small : v.toNat < 16 := by
      rw [hv]
      exact b.isLt
    have block : (⟨v.toNat, small⟩ : Fin 16) = b := Fin.ext hv
    have notice : s.noticeOf v = (s.setBlockStatus b stQUEUED).modOrders fun o => { o with queue := o.queue ++ [b] } := by
      rw [State.noticeOf, dif_pos small, block]
      exact if_pos ready
    exact ⟨_, exec_unshown (exec_notice v s) held even notice rfl, rfl, blockStatus_setBlockStatus s b _,
      setBlockStatus_read s b _⟩
  · refine exec_unshown (exec_notice v s) held even ?_ rfl
    dsimp only
    unfold State.noticeOf
    split
    · next small =>
      rw [if_pos (show v.toNat < 32 from Nat.lt_trans small (by decide))]
      exact if_neg (unready ⟨v.toNat, small⟩ rfl)
    · rw [show (if v.toNat < 32 then v.toNat else 32) = min 32 v.toNat by split <;> omega]
      rfl
  · have take : s.takeOrder = (s.setBlockStatus b stTAKEN).modOrders fun o =>
        { o with queue := q, executing := some (s.copyBlock b) } := by
      rw [State.takeOrder, free, head]
    exact ⟨_, exec_unshown (exec_orderTake s) held even take rfl, rfl, blockStatus_setBlockStatus s b _,
      setBlockStatus_read s b _⟩
  · refine exec_unshown (exec_orderTake s) held even ?_ rfl
    unfold State.takeOrder
    split
    · next free head =>
      rw [free, head] at h
      exact absurd h (by simp)
    · rfl

/-- Settles O11: the port's guard decides on a status word; a plain word is stored, and the rest of the window ignores. -/
theorem hostWritesToMemory : Obligations.HostWritesToMemory := by
  refine ⟨fun b v s held even => ⟨fun refused => ?_, fun queued taken stored => ?_⟩,
    fun w v s held even plain => ⟨fun inside => ?_, fun outside => ?_⟩⟩
  · refine exec_unshown (exec_statusWordWrite b v s) held even ?_ rfl
    unfold State.hostStatus
    split
    · rfl
    · next free =>
      rw [blockHeld_iff] at free
      refine if_neg ?_
      tauto
  · have write : s.hostStatus b v = s.setBlockStatus b v := by
      rw [State.hostStatus, if_neg (by rw [blockHeld_iff]; tauto), if_pos stored]
    exact ⟨_, exec_unshown (exec_statusWordWrite b v s) held even write rfl, rfl, blockStatus_setBlockStatus s b v,
      setBlockStatus_read s b v⟩
  · have write : s.hostWord w v = s.modMem (·.writeWords (2 * w.toNat) [v]) := (hostWord_plain v plain).trans (if_pos inside)
    refine ⟨_, exec_unshown (exec_exchangeMemoryWrite w v s) held even write rfl, rfl, ?_, fun a low high => ?_⟩
    · refine (hostRead_memory ?_ inside).trans (memory_readWord_writeWord _ _ _)
      exact held
    · refine memory_read_writeWords_of_outside _ _ _ _ ?_
      simp only [List.length_cons, List.length_nil]
      omega
  · exact exec_unshown (exec_exchangeMemoryWrite w v s) held even ((hostWord_plain v plain).trans (if_neg (by omega))) rfl

end Sys2Proof.Proofs
end

