-- ==== Sys2Proof/Proofs/PageFields.lean ====
section
/-! PROOFS. What the page records show, word by word (R14, R53, R95, R109, R116, R139, R157, R171, R195). -/

namespace Sys2Proof.Machine

/-! ### Runs of words in exchange memory -/

/-- From `a` on, `n` words of exchange memory are those of a list. -/
def Reads (m : Memory) (a n : Nat) (l : List Word) : Prop := ∀ i, i < n → m.readWord (a + 2 * i) = l.getD i 0

theorem reads_of_shows {s : State} {r : Rec} (h : s.shows r) {a n : Nat} {l : List Word} (hx : (a, l) ∈ s.recordRuns r)
    (hn : l.length = n) : Reads s.mem a n l := fun _ hi => shows_word h hx (hn ▸ hi)

theorem reads_split {m : Memory} {a : Nat} (n k : Nat) {l l' : List Word} (hn : l.length = n) (h : Reads m a (n + k) (l ++ l')) :
    Reads m a n l ∧ Reads m (a + 2 * n) k l' := by
  refine ⟨fun i hi => ?_, fun i hi => ?_⟩
  · rw [h i (by omega), List.getD_append _ _ _ _ (by omega)]
  · have := h (n + i) (by omega)
    rw [List.getD_append_right _ _ _ _ (by omega), hn, Nat.add_sub_cancel_left] at this
    rw [← this]
    congr 1
    omega

/-- A run made of pieces of one length, piece by piece. -/
theorem reads_flatMap {m : Memory} {a c : Nat} {f : Nat → List Word} (hf : ∀ i, (f i).length = c) (n : Nat)
    (h : Reads m a (c * n) ((List.range n).flatMap f)) (i : Nat) (hi : i < n) : Reads m (a + 2 * (c * i)) c (f i) := by
  induction n with
  | zero => exact absurd hi (Nat.not_lt_zero i)
  | succ n ih =>
    rw [List.range_succ, List.flatMap_append, Nat.mul_succ] at h
    have before : ((List.range n).flatMap f).length = c * n := by
      simp [List.length_flatMap, hf, Nat.mul_comm]
    obtain ⟨front, last⟩ := reads_split (c * n) c before h
    obtain below | rfl := Nat.lt_succ_iff_lt_or_eq.mp hi
    · exact ih front below
    · rwa [List.flatMap_singleton] at last

theorem reads_mapRange {m : Memory} {a n : Nat} {f : Nat → Word} (h : Reads m a n ((List.range n).map f)) (i : Nat) (hi : i < n) :
    m.readWord (a + 2 * i) = f i := by
  rw [h i hi]
  simp [List.getD, hi]

theorem reads_vector {m : Memory} {a n : Nat} {v : Vector Nat n} (h : Reads m a n (v.toList.map pageWord)) (i : Fin n) :
    m.readWord (a + 2 * i.val) = pageWord v[i] := by
  rw [h i.val i.isLt]
  simp [List.getD]

theorem reads_replicate {m : Memory} {a n : Nat} (h : Reads m a n (List.replicate n 0)) (i : Nat) (hi : i < n) :
    m.readWord (a + 2 * i) = 0 := by
  rw [h i hi]
  simp [List.getD, hi]

theorem reads_pair {m : Memory} {a : Nat} {x y : Word} (h : Reads m a 2 [x, y]) :
    m.readWord a = x ∧ ∀ b, b = a + 2 → m.readWord b = y :=
  ⟨h 0 (by decide), fun _ hb => hb ▸ h 1 (by decide)⟩

theorem numberAt_of_pageWord {s : State} {a n : Nat} (h : s.mem.readWord a = pageWord n) : s.numberAt a n := fun small => by
  rw [h, pageWord, if_pos small]

theorem listAt_of_reads {s : State} {a : Nat} {l : List Byte} (h : Reads s.mem a 8 (listWords l 8)) : s.listAt a 8 l :=
  reads_mapRange h

/-! ### Codes -/

theorem pageWord_sides (x : Sides) : pageWord x.code = (if x.l then 1 else 0) + (if x.r then 2 else 0) := by
  obtain ⟨l, r⟩ := x
  cases l <;> cases r <;> rfl

theorem byteWord_roleState (x : RoleState) :
    byteWord x.code = match x with | .lead => 1 | .member => 2 | .yielded => 3 := by
  cases x <;> rfl

theorem endWord_eq (x : Option EndId) : endWord x = match x with | none => 0 | some .a => 1 | some .b => 2 := by
  cases x with
  | none => rfl
  | some e => cases e <;> rfl

theorem byteWord_heatClass (x : HeatClass) : byteWord x.code = match x with | .essential => 1 | .comfort => 2 := by
  cases x <;> rfl

theorem rosterFlags_word (r : Roster) : pageWord r.flags =
    (if r.isPartial then 1 else 0) + (if r.overlength then 2 else 0) + (if r.dupIdentity then 4 else 0) := by
  unfold Roster.flags
  cases r.isPartial <;> cases r.overlength <;> cases r.dupIdentity <;> rfl

theorem entryFlags_word (e : RosterEntry) : pageWord e.flags = (if e.lead then 1 else 0) + (if e.terminal then 2 else 0) := by
  unfold RosterEntry.flags
  cases e.lead <;> cases e.terminal <;> rfl

/-! ### Lines and owners -/

theorem usable_iff (u : LineUnit) : u.usable = true ↔ u.state = .up ∨ u.state = .suspect := by
  simp [LineUnit.usable]

theorem usableCount_eq (s : State) (e : EndId) :
    let usable : LineNo → Prop := fun n => (s.lineOf ⟨e, n⟩).state = .up ∨ (s.lineOf ⟨e, n⟩).state = .suspect
    let one := (usable .one ∧ ¬ usable .two) ∨ (usable .two ∧ ¬ usable .one)
    (usable .one ∧ usable .two → s.usableCount e = 2) ∧ (one → s.usableCount e = 1)
      ∧ (¬ (usable .one ∧ usable .two) → ¬ one → s.usableCount e = 0) := by
  intro usable one
  have count : s.usableCount e = (if usable .one then 1 else 0) + (if usable .two then 1 else 0) := by
    simp only [State.usableCount, usable_iff]
    rfl
  rw [count]
  by_cases h1 : usable .one
  · by_cases h2 : usable .two
    · simp [one, h1, h2]
    · simp [one, h1, h2]
  · by_cases h2 : usable .two
    · simp [one, h1, h2]
    · simp [one, h1, h2]

/-- The owner of an output (R161, R166). -/
theorem ownerCode_eq {s : State} (count : s.cfg.count ≤ 6) {i : Nat} (hi : i < 12) :
    s.ownerCode i = (if 9 ≤ i then 3 else if s.part = .halted then 4 else if i < 3 then 1
      else if i < 3 + s.cfg.count then 2 else 3) := by
  have door : doorMask.getLsbD i = decide (i < 3) := by interval_cases i <;> rfl
  have gp : gpMask.getLsbD i = decide (9 ≤ i) := by interval_cases i <;> rfl
  have stage : ∀ n, (stageMask n).getLsbD i = (decide (3 ≤ i) && decide (i - 3 < n)) := fun n => by
    rw [getLsbD_stageMask, decide_eq_true hi, Bool.true_and]
  cases hp : s.part with
  | halted =>
    have none : ¬ s.part = .active := by
      rw [hp]
      exact PartState.noConfusion
    rw [State.ownerCode, State.doorOwned, State.heatOwned, State.hostOwned, if_neg none, if_neg none, if_neg none, gp]
    simp
  | active =>
    rw [State.ownerCode, State.doorOwned, State.heatOwned, State.hostOwned, if_pos hp, if_pos hp, if_pos hp, door, stage,
      BitVec.getLsbD_or, BitVec.getLsbD_and, BitVec.getLsbD_not, gp, stage, stage, decide_eq_true hi]
    simp only [Bool.and_eq_true, Bool.or_eq_true, Bool.not_eq_true', decide_eq_true_eq, Bool.and_eq_false_iff,
      decide_eq_false_iff_not, Bool.true_and, reduceCtorEq, if_false]
    split_ifs <;> grind

/-! ### Parts of records -/

theorem consistHeader_some {s : State} (h : Reads s.mem 0x1102 21 s.consist.words) (r : Roster)
    (hr : s.consist.roster = some r) :
    s.mem.readWord 0x1112 = r.generation ∧ s.identityAt 0x1116 r.leadId ∧ s.mem.readWord 0x111A = r.leadRank.setWidth 16
      ∧ s.numberAt 0x111C r.entries.length ∧ s.numberAt 0x111E r.f
      ∧ s.mem.readWord 0x1120 =
        (if r.isPartial then 1 else 0) + (if r.overlength then 2 else 0) + (if r.dupIdentity then 4 else 0) := by
  rw [ConsistUnit.words, ConsistUnit.generation, ConsistUnit.n, ConsistUnit.f, hr] at h
  exact ⟨h 8 (by decide), ⟨h 10 (by decide), h 11 (by decide)⟩, h 12 (by decide), numberAt_of_pageWord (h 13 (by decide)),
    numberAt_of_pageWord (h 14 (by decide)), (h 15 (by decide)).trans (rosterFlags_word r)⟩

theorem consistHeader_none {s : State} (h : Reads s.mem 0x1102 21 s.consist.words) (none : s.consist.roster = none) :
    s.mem.readWord 0x1112 = 0 ∧ ∀ i, i < 6 → s.mem.readWord (0x1116 + 2 * i) = 0 := by
  rw [ConsistUnit.words, ConsistUnit.generation, ConsistUnit.n, ConsistUnit.f, none] at h
  refine ⟨h 8 (by decide), fun i hi => ?_⟩
  interval_cases i
  · exact h 10 (by decide)
  · exact h 11 (by decide)
  · exact h 12 (by decide)
  · exact h 13 (by decide)
  · exact h 14 (by decide)
  · exact h 15 (by decide)

/-- An entry slot of the consist page, 0 throughout when no coach stands there (R95). -/
theorem entrySlot_reads {s : State} {a : Nat} {x : Option RosterEntry} (h : Reads s.mem a 8 (entryWords x)) :
    (∀ e, x = some e → s.mem.readWord a = 1 ∧ s.identityAt (a + 2) e.identity
        ∧ s.mem.readWord (a + 6) = e.orientation.setWidth 16
        ∧ s.mem.readWord (a + 8) = (if e.lead then 1 else 0) + (if e.terminal then 2 else 0)
        ∧ s.mem.readWord (a + 10) = e.doors.setWidth 16 ∧ s.mem.readWord (a + 12) = e.size.setWidth 16
        ∧ s.mem.readWord (a + 14) = e.count.setWidth 16)
      ∧ (x = none → ∀ i, i < 8 → s.mem.readWord (a + 2 * i) = 0) := by
  refine ⟨?_, ?_⟩
  · rintro e rfl
    exact ⟨h 0 (by decide), ⟨h 1 (by decide), h 2 (by decide)⟩, h 3 (by decide),
      (h 4 (by decide)).trans (entryFlags_word e), h 5 (by decide), h 6 (by decide), h 7 (by decide)⟩
  · rintro rfl
    exact reads_replicate h

/-- A neighbour record, 0 throughout when empty (R14). -/
theorem neighbour_reads {s : State} {a : Nat} {x : Option Neighbour} (h : Reads s.mem a 8 (neighbourWords x)) :
    (∀ n, x = some n → s.identityAt a n.identity ∧ s.mem.readWord (a + 4) = n.peerEnd.setWidth 16
        ∧ s.mem.readWord (a + 6) = n.role.setWidth 16 ∧ s.mem.readWord (a + 8) = n.generation ∧ s.identityAt (a + 10) n.lead
        ∧ s.mem.readWord (a + 14) = n.heard)
      ∧ (x = none → ∀ i, i < 8 → s.mem.readWord (a + 2 * i) = 0) := by
  refine ⟨?_, ?_⟩
  · rintro n rfl
    exact ⟨⟨h 0 (by decide), h 1 (by decide)⟩, h 2 (by decide), h 3 (by decide), h 4 (by decide),
      ⟨h 5 (by decide), h 6 (by decide)⟩, h 7 (by decide)⟩
  · rintro rfl
    exact reads_replicate h

/-- A side record with its age, 0 throughout when empty (R113, R116). -/
theorem doorRecord_reads {s : State} {a : Nat} {x : Option DoorRecord} (h : Reads s.mem a 15 (doorRecordWords x)) :
    (∀ r, x = some r → s.mem.readWord a = r.generation ∧ s.flagAt (a + 2) r.allClosed ∧ s.flagAt (a + 4) r.overflow
        ∧ s.flagAt (a + 6) r.mismatch ∧ s.mem.readWord (a + 8) = r.count.setWidth 16 ∧ s.listAt (a + 10) 8 r.list
        ∧ s.mem.readWord (a + 26) = r.received ∧ s.numberAt (a + 28) r.age)
      ∧ (x = none → ∀ i, i < 15 → s.mem.readWord (a + 2 * i) = 0) := by
  refine ⟨?_, ?_⟩
  · rintro r rfl
    obtain ⟨front, last⟩ := reads_split 13 2 (by simp [length_listWords]) h
    obtain ⟨head, list⟩ := reads_split 5 8 rfl front
    exact ⟨head 0 (by decide), head 1 (by decide), head 2 (by decide), head 3 (by decide), head 4 (by decide),
      listAt_of_reads list, last 0 (by decide), numberAt_of_pageWord (last 1 (by decide))⟩
  · rintro rfl
    exact reads_replicate h

/-- The traffic record of an end (R53). -/
theorem traffic_reads {s : State} {a : Nat} {u : EndUnit} (h : Reads s.mem a 8 u.trafficWords) :
    s.numberAt a u.fill ∧ s.numberAt (a + 2) u.buffer.length ∧ s.flagAt (a + 4) u.blocked
      ∧ s.numberAt (a + 6) u.relayQ.length ∧ s.numberAt (a + 8) u.originQ.length ∧ s.flagAt (a + 10) u.sentStop
      ∧ s.flagAt (a + 12) u.recvStop ∧ s.flagAt (a + 14) u.stalled :=
  ⟨numberAt_of_pageWord (h 0 (by decide)), numberAt_of_pageWord (h 1 (by decide)), h 2 (by decide),
    numberAt_of_pageWord (h 3 (by decide)), numberAt_of_pageWord (h 4 (by decide)), h 5 (by decide), h 6 (by decide),
    h 7 (by decide)⟩

/-- A row of the last allocation table (R139). -/
theorem allocRow_reads {s : State} {k : Nat} {x : Option AllocRow} (h : Reads s.mem k 5 (allocRowWords x)) :
    (∀ r, x = some r → s.numberAt k r.q
        ∧ s.mem.readWord (k + 2) = (match r.cls with | some .essential => 1 | some .comfort => 2 | none => 0) ∧ s.numberAt (k + 4) r.size
        ∧ (∀ n, r.age = some n → s.numberAt (k + 6) n) ∧ (r.age = none → s.mem.readWord (k + 6) = 0xFFFF)
        ∧ s.numberAt (k + 8) r.stages)
      ∧ (x = none → ∀ i, i < 5 → s.mem.readWord (k + 2 * i) = 0) := by
  refine ⟨?_, ?_⟩
  · rintro r rfl
    have age : s.mem.readWord (k + 6) = match r.age with | some n => pageWord n | none => 0xFFFF := h 3 (by decide)
    have cls : s.mem.readWord (k + 2) = match r.cls with | some c => byteWord c.code | none => 0 := h 1 (by decide)
    refine ⟨numberAt_of_pageWord (h 0 (by decide)), ?_, numberAt_of_pageWord (h 2 (by decide)),
      fun n hn => numberAt_of_pageWord ?_, fun none => ?_, numberAt_of_pageWord (h 4 (by decide))⟩
    · rw [cls]
      cases r.cls with
      | none => rfl
      | some c => cases c <;> rfl
    · rw [age, hn]
    · rw [age, none]
  · rintro rfl
    exact reads_replicate h

/-- An end's state, its lines and its neighbour record (R14). -/
theorem end_reads {s : State} {a : Nat} {e : EndId} (h : Reads s.mem a 11 (s.endWords e)) :
    let usable : LineNo → Prop := fun n => (s.lineOf ⟨e, n⟩).state = .up ∨ (s.lineOf ⟨e, n⟩).state = .suspect
    let one := (usable .one ∧ ¬ usable .two) ∨ (usable .two ∧ ¬ usable .one)
    s.mem.readWord a = (match (s.endOf e).state with | .uncoupled => 0 | .probing => 1 | .linked => 2)
      ∧ s.mem.readWord (a + 2) = (if usable .one ∧ usable .two then 2 else if one then 1 else 0)
      ∧ s.mem.readWord (a + 4) = (if (s.endOf e).state = .linked ∧ one then 1 else 0)
      ∧ (∀ n, (s.endOf e).neighbour = some n → s.identityAt (a + 6) n.identity
          ∧ s.mem.readWord (a + 10) = n.peerEnd.setWidth 16 ∧ s.mem.readWord (a + 12) = n.role.setWidth 16
          ∧ s.mem.readWord (a + 14) = n.generation ∧ s.identityAt (a + 16) n.lead ∧ s.mem.readWord (a + 20) = n.heard)
      ∧ ((s.endOf e).neighbour = none → ∀ i, i < 8 → s.mem.readWord (a + 6 + 2 * i) = 0) := by
  intro usable one
  obtain ⟨head, neighbour⟩ := reads_split 3 8 rfl h
  have count : s.usableCount e = if usable .one ∧ usable .two then 2 else if one then 1 else 0 := by
    obtain ⟨two, single, zero⟩ := usableCount_eq s e
    split
    · next h => exact two h
    · next hn =>
      split
      · next h => exact single h
      · next h => exact zero hn h
  have apart : one → ¬ (usable .one ∧ usable .two) := by tauto
  obtain ⟨record, empty⟩ := neighbour_reads neighbour
  refine ⟨head 0 (by decide), ?_, ?_, record, empty⟩
  · refine (head 1 (by decide)).trans ?_
    show pageWord (s.usableCount e) = _
    rw [count]
    split_ifs <;> rfl
  · refine (head 2 (by decide)).trans ?_
    show flagWord (s.singleLine e) = _
    rw [State.singleLine, count]
    by_cases linked : (s.endOf e).state = .linked
    · by_cases single : one
      · simp [flagWord, linked, single, apart single]
      · simp only [flagWord, linked, single]
        split_ifs <;> simp_all
    · simp [flagWord, linked]

/-- Group state, released sides and release in effect (R109). -/
theorem doorGroup_reads {s : State} {a : Nat} {g : DoorGroup} (h : Reads s.mem a 5 g.words) :
    s.mem.readWord a = (match (generalizing := false) g with | .idle => 0 | .released _ _ => 1 | .closing => 2)
      ∧ (∀ x r, g = .released x r → s.mem.readWord (a + 2) = (if x.l then 1 else 0) + (if x.r then 2 else 0)
          ∧ s.mem.readWord (a + 4) = r.generation ∧ s.numberAt (a + 6) r.first ∧ s.numberAt (a + 8) r.last)
      ∧ ((∀ x r, g ≠ .released x r) → ∀ i, i < 4 → s.mem.readWord (a + 2 + 2 * i) = 0) := by
  cases g with
  | idle =>
    refine ⟨h 0 (by decide), fun x r k => DoorGroup.noConfusion k, fun _ => ?_⟩
    exact reads_replicate (n := 4) (reads_split (l := [0]) 1 4 rfl h).2
  | closing =>
    refine ⟨h 0 (by decide), fun x r k => DoorGroup.noConfusion k, fun _ => ?_⟩
    exact reads_replicate (n := 4) (reads_split (l := [2]) 1 4 rfl h).2
  | released x r =>
    refine ⟨h 0 (by decide), ?_, fun k => absurd rfl (k x r)⟩
    rintro y q ⟨⟩
    exact ⟨(h 1 (by decide)).trans (pageWord_sides x), h 2 (by decide), numberAt_of_pageWord (h 3 (by decide)),
      numberAt_of_pageWord (h 4 (by decide))⟩

/-- The last release outcome record (R102, R109). -/
theorem lastRelease_reads {s : State} {a : Nat} {x : Option LastRelease} (h : Reads s.mem a 6 (lastReleaseWords x)) :
    (∀ r, x = some r → s.mem.readWord a = r.generation ∧ s.numberAt (a + 2) r.trainSide ∧ s.numberAt (a + 4) r.first
        ∧ s.numberAt (a + 6) r.last ∧ s.mem.readWord (a + 8) = (if r.sides.l then 1 else 0) + (if r.sides.r then 2 else 0)
        ∧ s.mem.readWord (a + 10) = (match r.outcome with
          | .applied => 1 | .notFormed => 2 | .generation => 3 | .outOfRange => 4 | .noZeroSpeed => 5 | .noSide => 6))
      ∧ (x = none → ∀ i, i < 6 → s.mem.readWord (a + 2 * i) = 0) := by
  refine ⟨?_, ?_⟩
  · rintro r rfl
    exact ⟨h 0 (by decide), numberAt_of_pageWord (h 1 (by decide)), numberAt_of_pageWord (h 2 (by decide)),
      numberAt_of_pageWord (h 3 (by decide)), (h 4 (by decide)).trans (pageWord_sides _), h 5 (by decide)⟩
  · rintro rfl
    exact reads_replicate h

/-- The words of the heating view before the grant (R139). -/
theorem heatViewHead_length (s : State) : ([s.heat.state.code, pageWord s.heat.limit, pageWord s.heat.on]
    ++ (match s.heat.ramp with | some r => [pageWord r.target, r.dueAt] | none => [0, 0])).length = 5 := by
  cases s.heat.ramp <;> rfl

theorem heatViewFront_length (s : State) : ([s.heat.state.code, pageWord s.heat.limit, pageWord s.heat.on]
    ++ (match s.heat.ramp with | some r => [pageWord r.target, r.dueAt] | none => [0, 0])
    ++ (match s.heat.grant with
      | some g => [g.generation, g.round, pageWord g.stages, flagWord g.void] | none => [0, 0, 0, 0])).length = 9 := by
  cases s.heat.ramp <;> cases s.heat.grant <;> rfl

/-- Level and filter time of an input (R157). -/
theorem inputPair_reads {s : State} {k : Fin 7} {i : Input}
    (h : Reads s.mem 0x1782 16
      (allInputs.flatMap (fun i => [flagWord (s.level i), pageWord s.cfg.filters[inputIdx i]])
        ++ [s.cfg.sens0.code, s.cfg.sens1.code]))
    (hi : (k, i) ∈ [((0 : Fin 7), Input.cplA), (1, .cplB), (2, .zspd), (3, .dloop), (4, .supply), (5, .aux0), (6, .aux1)]) :
    Reads s.mem (0x1782 + 4 * k.val) 2 [flagWord (s.level i), pageWord s.cfg.filters[k]] := by
  have pair : ∀ (k : Nat) (l : List Word), k ≤ 14 →
      (∀ j, j < 2 → (allInputs.flatMap (fun i => [flagWord (s.level i), pageWord s.cfg.filters[inputIdx i]])
        ++ [s.cfg.sens0.code, s.cfg.sens1.code]).getD (k + j) 0 = l.getD j 0) → Reads s.mem (0x1782 + 2 * k) 2 l :=
    fun k l hk same j hj => by
      rw [← same j hj, ← h (k + j) (by omega)]
      congr 1
      omega
  simp only [List.mem_cons, Prod.mk.injEq, List.not_mem_nil, or_false] at hi
  rcases hi with ⟨rfl, rfl⟩ | ⟨rfl, rfl⟩ | ⟨rfl, rfl⟩ | ⟨rfl, rfl⟩ | ⟨rfl, rfl⟩ | ⟨rfl, rfl⟩ | ⟨rfl, rfl⟩
  · exact pair 0 _ (by decide) fun j hj => by interval_cases j <;> rfl
  · exact pair 2 _ (by decide) fun j hj => by interval_cases j <;> rfl
  · exact pair 4 _ (by decide) fun j hj => by interval_cases j <;> rfl
  · exact pair 6 _ (by decide) fun j hj => by interval_cases j <;> rfl
  · exact pair 8 _ (by decide) fun j hj => by interval_cases j <;> rfl
  · exact pair 10 _ (by decide) fun j hj => by interval_cases j <;> rfl
  · exact pair 12 _ (by decide) fun j hj => by interval_cases j <;> rfl

end Sys2Proof.Machine

namespace Sys2Proof.Proofs

open Sys2Proof Sys2Proof.Machine

/-- Settles O12: each field is a word of its record's runs, at its place among them. -/
theorem pageFields : Obligations.PageFields := by
  refine ⟨fun s => ?_, fun s => ?_, fun s => ?_⟩
  · intro w c u role letter sides sens
    refine ⟨fun h => ?_, fun h => ?_⟩
    · have head := reads_of_shows h (.head _) (length_frontHead s)
      have settings := reads_of_shows h (.tail _ (.head _)) (length_settingsWords s.cfg)
      obtain ⟨front, levels⟩ := reads_split 26 12 (by simp [length_identWords]) settings
      obtain ⟨middle, plain⟩ := reads_split 17 9 (by simp [length_identWords]) front
      obtain ⟨first, filters⟩ := reads_split 10 7 rfl middle
      exact ⟨h.1, head 0 (by decide), head 1 (by decide), head 2 (by decide), ⟨head 3 (by decide), head 4 (by decide)⟩,
        head 5 (by decide), ⟨first 0 (by decide), first 1 (by decide)⟩, first 2 (by decide),
        numberAt_of_pageWord (first 3 (by decide)), (first 4 (by decide)).trans (endWord_eq (some s.cfg.front)), first 5 (by decide),
        (first 6 (by decide)).trans (pageWord_sides _), numberAt_of_pageWord (first 7 (by decide)),
        numberAt_of_pageWord (first 8 (by decide)), numberAt_of_pageWord (first 9 (by decide)),
        fun i => numberAt_of_pageWord (reads_vector filters i), plain 0 (by decide), plain 1 (by decide),
        numberAt_of_pageWord (plain 2 (by decide)), numberAt_of_pageWord (plain 3 (by decide)), plain 4 (by decide),
        numberAt_of_pageWord (plain 5 (by decide)), numberAt_of_pageWord (plain 6 (by decide)),
        numberAt_of_pageWord (plain 7 (by decide)), numberAt_of_pageWord (plain 8 (by decide)),
        fun i => numberAt_of_pageWord (reads_vector levels i)⟩
    · have head := reads_of_shows h (.head _) (length_consistWords s.consist)
      have slots := reads_of_shows h (.tail _ (.head _)) (length_slotWords s.consist)
      refine ⟨h.1, (head 0 (by decide)).trans (byteWord_roleState _), head 1 (by decide), head 2 (by decide),
        numberAt_of_pageWord (head 3 (by decide)), head 4 (by decide), head 5 (by decide),
        ⟨head 6 (by decide), head 7 (by decide)⟩, ?_, ?_, head 9 (by decide),
        numberAt_of_pageWord (head 16 (by decide)), head 17 (by decide), (head 18 (by decide)).trans (endWord_eq s.consist.leadEnd),
        (head 19 (by decide)).trans (endWord_eq s.consist.awayEnd), head 20 (by decide), fun p hp => ?_⟩
      · exact consistHeader_some head
      · exact consistHeader_none head
      · have slot := reads_flatMap (fun _ => length_entryWords _) 32 slots p hp
        rw [show 0x1200 + 2 * (8 * p) = 0x1200 + 16 * p by omega] at slot
        exact entrySlot_reads slot
  · intro w sides side traffic
    refine ⟨fun h => ?_, fun h => ?_, fun h => ?_, fun h => ?_, fun h => ?_⟩
    · have lines := reads_of_shows h (.head _) (length_lineWords s)
      obtain ⟨before, endB⟩ := reads_split 19 11 (by simp [State.endWords, LineUnit.words, length_neighbourWords]) lines
      obtain ⟨four, endA⟩ := reads_split 8 11 rfl before
      refine ⟨h.1, fun a l hl => ?_, fun a e he => ?_⟩
      · simp only [List.mem_cons, Prod.mk.injEq, List.not_mem_nil, or_false] at hl
        rcases hl with ⟨rfl, rfl⟩ | ⟨rfl, rfl⟩ | ⟨rfl, rfl⟩ | ⟨rfl, rfl⟩
        · exact ⟨four 0 (by decide), numberAt_of_pageWord (four 1 (by decide))⟩
        · exact ⟨four 2 (by decide), numberAt_of_pageWord (four 3 (by decide))⟩
        · exact ⟨four 4 (by decide), numberAt_of_pageWord (four 5 (by decide))⟩
        · exact ⟨four 6 (by decide), numberAt_of_pageWord (four 7 (by decide))⟩
      · simp only [List.mem_cons, Prod.mk.injEq, List.not_mem_nil, or_false] at he
        rcases he with ⟨rfl, rfl⟩ | ⟨rfl, rfl⟩
        · exact end_reads endA
        · exact end_reads endB
    · exact ⟨h.1, traffic_reads (reads_of_shows h (.head _) (length_trafficWords _))⟩
    · exact ⟨h.1, traffic_reads (reads_of_shows h (.head _) (length_trafficWords _))⟩
    · have view := reads_of_shows h (.head _) (length_doorViewWords s)
      obtain ⟨front, loop⟩ := reads_split 12 1 (by simp [length_groupWords, length_lastReleaseWords]) view
      obtain ⟨front, last⟩ := reads_split 6 6 (by simp [length_groupWords]) front
      obtain ⟨group, drop⟩ := reads_split 5 1 (length_groupWords _) front
      obtain ⟨state, released, free⟩ := doorGroup_reads group
      obtain ⟨given, none⟩ := lastRelease_reads last
      exact ⟨h.1, state, released, free, drop 0 (by decide), given, none, loop 0 (by decide)⟩
    · have summary := reads_of_shows h (.head _) (length_summaryWords s.door)
      obtain ⟨front, recR⟩ := reads_split 26 15 (by simp [length_listWords, length_doorRecordWords]) summary
      obtain ⟨front, recF⟩ := reads_split 11 15 (by simp [length_listWords]) front
      obtain ⟨head, list⟩ := reads_split 3 8 rfl front
      exact ⟨h.1, head 0 (by decide), numberAt_of_pageWord (head 1 (by decide)), head 2 (by decide), listAt_of_reads list,
        doorRecord_reads recF, doorRecord_reads recR⟩
  · intro w u c cls sens
    refine ⟨fun h => ?_, fun h => ?_, fun h count => ?_⟩
    · have view := reads_of_shows h (.head _) (length_heatViewWords s)
      obtain ⟨front, plain⟩ := reads_split 9 11 (heatViewFront_length s) view
      obtain ⟨front, grant⟩ := reads_split 5 4 (heatViewHead_length s) front
      obtain ⟨head, ramp⟩ := reads_split 3 2 rfl front
      refine ⟨h.1, head 0 (by decide), numberAt_of_pageWord (head 1 (by decide)), numberAt_of_pageWord (head 2 (by decide)),
        fun r hr => ?_, fun hr => ?_, fun g hg => ?_, fun hg => ?_,
        numberAt_of_pageWord (plain 0 (by decide)), numberAt_of_pageWord (plain 1 (by decide)),
        (plain 2 (by decide)).trans (byteWord_heatClass _), numberAt_of_pageWord (plain 3 (by decide)),
        numberAt_of_pageWord (plain 4 (by decide)), numberAt_of_pageWord (plain 5 (by decide)),
        numberAt_of_pageWord (plain 6 (by decide)), numberAt_of_pageWord (plain 7 (by decide)),
        numberAt_of_pageWord (plain 8 (by decide)), numberAt_of_pageWord (plain 9 (by decide)),
        numberAt_of_pageWord (plain 10 (by decide))⟩
      · rw [hr] at ramp
        exact ⟨numberAt_of_pageWord (ramp 0 (by decide)), ramp 1 (by decide)⟩
      · rw [hr] at ramp
        exact ⟨ramp 0 (by decide), ramp 1 (by decide)⟩
      · rw [hg] at grant
        exact ⟨grant 0 (by decide), grant 1 (by decide), numberAt_of_pageWord (grant 2 (by decide)), grant 3 (by decide)⟩
      · rw [hg] at grant
        exact reads_replicate grant
    · have table := reads_of_shows h (.head _) (length_allocWords s.heat.alloc)
      refine ⟨h.1, fun a ha => ?_, fun ha => ?_⟩
      · rw [ha] at table
        obtain ⟨head, rows⟩ := reads_split 12 160 rfl table
        refine ⟨head 0 (by decide), head 1 (by decide), numberAt_of_pageWord (head 2 (by decide)),
          numberAt_of_pageWord (head 3 (by decide)), head 4 (by decide), numberAt_of_pageWord (head 5 (by decide)),
          numberAt_of_pageWord (head 6 (by decide)), numberAt_of_pageWord (head 7 (by decide)),
          numberAt_of_pageWord (head 8 (by decide)), numberAt_of_pageWord (head 9 (by decide)),
          numberAt_of_pageWord (head 10 (by decide)), numberAt_of_pageWord (head 11 (by decide)), fun p hp => ?_⟩
        have row := reads_flatMap (fun _ => length_allocRowWords _) 32 rows p hp
        rw [show 0x15C2 + 2 * 12 + 2 * (5 * p) = 0x15DA + 10 * p by omega] at row
        obtain ⟨given, none⟩ := allocRow_reads row
        refine ⟨fun r hr => ?_, none⟩
        obtain ⟨q, cls, size, age, absent, stages⟩ := given r hr
        refine ⟨q, cls.trans ?_, size, age, absent, stages⟩
        cases r.cls with
        | none => rfl
        | some c => cases c <;> rfl
      · rw [ha] at table
        exact reads_replicate table
    · have view := reads_of_shows h (.head _) (length_ioViewWords s)
      obtain ⟨inputs, outputs⟩ := reads_split 16 24 rfl view
      refine ⟨h.1, fun k i hi => ?_, inputs 14 (by decide), inputs 15 (by decide), fun i hi => ?_⟩
      · have pair : Reads s.mem (0x1782 + 4 * k.val) 2 [flagWord (s.level i), pageWord s.cfg.filters[k]] := inputPair_reads inputs hi
        obtain ⟨level, time⟩ := reads_pair pair
        exact ⟨level, numberAt_of_pageWord (time _ (by omega))⟩
      · have pair := reads_flatMap (c := 2) (fun _ => rfl) 12 outputs i hi
        rw [show 0x1782 + 2 * 16 + 2 * (2 * i) = 0x17A2 + 4 * i by omega] at pair
        obtain ⟨level, owner⟩ := reads_pair pair
        exact ⟨level, (owner _ (by omega)).trans (ownerCode_eq count hi)⟩

end Sys2Proof.Proofs
end

