-- ==== Sys2Proof/Proofs/OrdersAndSettings.lean ====
section
/-! PROOFS. Orders (chapter 10): completion (R177, R178), the tests on kind and part state, the fields of CONFIGURE
(R180), HEAT_DEMAND and HEAT_SUPPLY (R120, R121), and SET_OUTPUTS (R163, R164). -/

namespace Sys2Proof.Machine

/-! ### Running an order -/

/-- A completion command of the executing order's kind yields what the order does. -/
theorem yields_order {c : Instr} {s u : State} {o : OrderCopy} {mine : Word → Bool} {f : State → OrderCopy → State}
    (run : exec c s = partStep (fun s => s.completing mine f) s) (held : s.resetHeld = false)
    (ho : s.orders.executing = some o) (kind : mine o.kind = true) (e : f s o = u) : Yields c s u := by
  have yields := yields_partStep run held
  rwa [completing_eq s mine f o ho kind, e] at yields

/-- In ACTIVE an order of a unit runs. -/
theorem yields_active {c : Instr} {s u : State} {o : OrderCopy} {k : Word} {f : State → OrderCopy → State}
    (run : exec c s = partStep (fun s => s.completing (· == k) (fun s o => s.inActive o f)) s) (h : s.executes o)
    (kind : o.kind = k) (e : f s o = u) : Yields c s u := by
  obtain ⟨held, active, ho⟩ := h
  exact yields_order run held ho (beq_iff_eq.mpr kind) ((inActive_active s o f active).trans e)

/-- In HALTED an order of a unit is refused WRONG_STATE (R177, R179). -/
theorem yields_halted {c : Instr} {s : State} {o : OrderCopy} {k : Word} {f : State → OrderCopy → State}
    (run : exec c s = partStep (fun s => s.completing (· == k) (fun s o => s.inActive o f)) s) (held : s.resetHeld = false)
    (ho : s.orders.executing = some o) (halted : s.part = .halted) (kind : o.kind = k) :
    Yields c s (s.complete o .wrongState []) :=
  yields_order run held ho (beq_iff_eq.mpr kind) (inActive_halted s o f halted)

/-- A completion command of another kind finds nothing to complete (log 20). -/
theorem exec_noOrder {c : Instr} {s : State} {k : Word} {f : State → OrderCopy → State}
    (run : exec c s = partStep (fun s => s.completing (· == k) f) s) (held : s.resetHeld = false) (even : s.evenPages)
    (other : ∀ o, s.orders.executing = some o → o.kind ≠ k) : exec c s = .next s :=
  exec_unshown run held even (completing_none s _ f fun o ho => beq_false_of_ne (other o ho)) rfl

theorem status_eq (r : ResultCode) :
    r.status = if r = .done then stDONE else if r = .aborted then stABORTED else stREFUSED := by
  cases r <;> rfl

/-! ### Codes and clamps of parameters (R180, R194) -/

theorem roleOfCode_none (n : Nat) : roleOfCode n = none ↔ n ≠ 1 ∧ n ≠ 2 := by
  unfold roleOfCode
  split_ifs <;> simp_all

theorem endOfCode_none (n : Nat) : endOfCode n = none ↔ n ≠ 1 ∧ n ≠ 2 := by
  unfold endOfCode
  split_ifs <;> simp_all

theorem modeOfCode_none (n : Nat) : modeOfCode n = none ↔ n ≠ 1 ∧ n ≠ 2 := by
  unfold modeOfCode
  split_ifs <;> simp_all

theorem fittedOfCode_none (n : Nat) : fittedOfCode n = none ↔ 3 < n := by
  unfold fittedOfCode
  split_ifs <;> simp_all

theorem sensOfCode_none (n : Nat) : sensOfCode n = none ↔ n = 0 ∨ 5 < n := by
  unfold sensOfCode
  split_ifs <;> simp <;> omega

theorem clamp_eq {lo hi : Nat} (h : lo ≤ hi) (n : Nat) : clamp lo hi n = if n < lo then lo else if hi < n then hi else n := by
  unfold clamp
  split_ifs <;> omega

theorem size_eq (n : Nat) : clamp 1 40 n = if n = 0 then 1 else if 40 < n then 40 else n := by
  rw [clamp_eq (by decide)]
  simp only [Nat.lt_one_iff]

theorem min_eq_if (hi n : Nat) : min hi n = if hi < n then hi else n := by
  split <;> omega

/-- A sensitivity of CONFIGURE by its code (R180, R195). -/
theorem sens_settings {o : OrderCopy} {n : Nat} {x : Sensitivity}
    (h : (n, x) ∈ [(1, Sensitivity.rising), (2, .falling), (3, .both), (4, .levelHigh), (5, .levelLow)]) :
    (o.num 34 = n → o.settings.sens0 = x) ∧ (o.num 36 = n → o.settings.sens1 = x) := by
  have code : sensOfCode n = some x := by
    simp only [List.mem_cons, Prod.mk.injEq, List.not_mem_nil, or_false] at h
    rcases h with ⟨rfl, rfl⟩ | ⟨rfl, rfl⟩ | ⟨rfl, rfl⟩ | ⟨rfl, rfl⟩ | ⟨rfl, rfl⟩ <;> rfl
  refine ⟨fun hn => ?_, fun hn => ?_⟩
  · show (sensOfCode (o.num 34)).getD .both = x
    rw [hn, code]
    rfl
  · show (sensOfCode (o.num 36)).getD .both = x
    rw [hn, code]
    rfl

/-- The door sides of CONFIGURE read back as their code (R180, R195). -/
theorem fitted_code {o : OrderCopy} (h : o.num 12 ≤ 3) : o.settings.fitted.code = o.num 12 := by
  show ((fittedOfCode (o.num 12)).getD _).code = _
  generalize o.num 12 = n at h ⊢
  interval_cases n <;> rfl

theorem pageWord_small {n : Nat} (h : n < 65536) : pageWord n = BitVec.ofNat 16 n := if_pos h

theorem num_lt (o : OrderCopy) (i : Nat) : o.num i < 65536 := (o.word i).isLt

/-! ### The fields of CONFIGURE (R180) -/

/-- A field of CONFIGURE holds a value outside its set. -/
def OrderCopy.faulty (o : OrderCopy) (n : Nat) : Prop :=
  (n = 1 ∧ o.ident 0 = 0) ∨ (n = 2 ∧ o.num 4 ≠ 1 ∧ o.num 4 ≠ 2) ∨ (n = 4 ∧ o.num 8 ≠ 1 ∧ o.num 8 ≠ 2)
    ∨ (n = 6 ∧ 3 < o.num 12) ∨ (n = 11 ∧ (o.num 34 = 0 ∨ 5 < o.num 34)) ∨ (n = 12 ∧ (o.num 36 = 0 ∨ 5 < o.num 36))
    ∨ (n = 15 ∧ o.num 42 ≠ 1 ∧ o.num 42 ≠ 2)

/-- The tests run in table order, so the number found is that of the first faulty field. -/
theorem faultyField_eq {o : OrderCopy} {n : Nat} (h : o.faulty n) (first : ∀ m, m < n → ¬ o.faulty m) :
    o.faultyField = n := by
  unfold OrderCopy.faultyField
  simp only [roleOfCode_none, endOfCode_none, modeOfCode_none, fittedOfCode_none, sensOfCode_none]
  have before : ∀ m, o.faulty m → n ≤ m := fun m hm => Nat.le_of_not_lt fun lt => first m lt hm
  have one := before 1
  have two := before 2
  have four := before 4
  have six := before 6
  have eleven := before 11
  have twelve := before 12
  have fifteen := before 15
  unfold OrderCopy.faulty at h one two four six eleven twelve fifteen
  grind

theorem faultyField_lt (o : OrderCopy) : o.faultyField < 16 := by
  unfold OrderCopy.faultyField
  split_ifs <;> decide

/-- The clamped fields stand in table order. -/
theorem clampedFields_sorted (o : OrderCopy) : o.clampedFields.Pairwise (· < ·) := by
  have sub : ∀ l : List (Nat × Bool), List.Sublist (l.filterMap fun x => if x.2 then some x.1 else none) (l.map Prod.fst) := by
    intro l
    induction l with
    | nil => exact List.Sublist.slnil
    | cons x l ih =>
      obtain ⟨n, b⟩ := x
      cases b
      · exact ih.cons n
      · exact ih.cons_cons n
  unfold OrderCopy.clampedFields
  exact List.Pairwise.sublist (sub _) (by decide : [3, 5, 7, 8, 9, 13, 14, 16, 17, 18, 19, 20].Pairwise (· < ·))

theorem mem_clampedFields (o : OrderCopy) (n : Nat) :
    n ∈ o.clampedFields ↔
      (n = 3 ∧ o.num 6 ≠ o.settings.rank) ∨ (n = 5 ∧ 1 < o.num 10) ∨ (n = 7 ∧ o.num 14 ≠ o.settings.size)
        ∨ (n = 8 ∧ o.num 16 ≠ o.settings.count) ∨ (n = 9 ∧ o.num 18 ≠ o.settings.fallback)
        ∨ (n = 13 ∧ o.num 38 ≠ o.settings.high) ∨ (n = 14 ∧ o.num 40 ≠ o.settings.low)
        ∨ (n = 16 ∧ o.num 44 ≠ o.settings.weight) ∨ (n = 17 ∧ o.num 46 ≠ o.settings.timeout)
        ∨ (n = 18 ∧ o.num 48 ≠ o.settings.stagger) ∨ (n = 19 ∧ o.num 50 ≠ o.settings.stageGap)
        ∨ (n = 20 ∧ ∃ i : Fin 12, 3 < o.num (52 + 2 * i.val)) := by
  have levels : levelOffsets.any (fun i => decide (3 < o.num i)) = true ↔ ∃ i : Fin 12, 3 < o.num (52 + 2 * i.val) := by
    have offsets : levelOffsets = (List.finRange 12).map fun i => 52 + 2 * i.val := by decide
    rw [offsets]
    simp
  unfold OrderCopy.clampedFields
  simp only [List.mem_filterMap, List.mem_cons, List.not_mem_nil, or_false, Option.ite_none_right_eq_some,
    Option.some.injEq, exists_eq_or_imp, exists_eq_left, bne_iff_ne, decide_eq_true_eq, levels]
  simp only [@eq_comm Nat _ n, and_comm]

theorem isPending_congr {s t : State} (h : t.events = s.events) (c : EventClass) : t.isPending c = s.isPending c := by
  rw [State.isPending, h, State.isPending]

/-! ### Result fields (R178) -/

/-- A word of the outcome as the host reads it: the result code, then the result fields. -/
theorem completed_word {u t : State} {o : OrderCopy} {r : ResultCode} {f : List Word} (h : UpToPages (u.complete o r f) t)
    (i : Nat) (hi : i < 14) : t.mem.readWord (blockBase o.block + 4 + 2 * i) = (r.code :: resultWords f).getD i 0 := by
  obtain ⟨-, fields, -⟩ := completed h
  have length : (r.code :: resultWords f).length = 14 := by rw [List.length_cons, length_resultWords]
  exact memory_readWord_of_readWords t.mem _ _ (by rw [length]; exact fields) i (by omega)

/-! ### Outputs the host owns (R161) -/

theorem getLsbD_gpMask (i : Nat) : gpMask.getLsbD i = decide (9 ≤ i ∧ i < 12) := by
  obtain inside | outside := Nat.lt_or_ge i 12
  · interval_cases i <;> rfl
  · rw [BitVec.getLsbD_of_ge _ _ outside, eq_comm, decide_eq_false_iff_not]
    omega

theorem getLsbD_hostOwned {s : State} (count : s.cfg.count ≤ 6) (i : Nat) :
    s.hostOwned.getLsbD i =
      (decide (9 ≤ i ∧ i < 12) || (decide (s.part = .active) && decide (3 + s.cfg.count ≤ i ∧ i < 9))) := by
  unfold State.hostOwned
  split
  · next active =>
    rw [BitVec.getLsbD_or, BitVec.getLsbD_and, BitVec.getLsbD_not, getLsbD_gpMask, getLsbD_stageMask, getLsbD_stageMask,
      decide_eq_true active, Bool.eq_iff_iff]
    simp only [Bool.or_eq_true, Bool.and_eq_true, decide_eq_true_eq, Bool.not_eq_true', Bool.and_eq_false_iff,
      decide_eq_false_iff_not, true_and]
    omega
  · next halted =>
    rw [decide_eq_false halted, Bool.false_and, Bool.or_false]
    exact getLsbD_gpMask i

end Sys2Proof.Machine

namespace Sys2Proof.Proofs

open Sys2Proof Sys2Proof.Machine

/-- Settles O13: the outcome's bytes are the block's own, and only the executing order's kind has a completion. -/
theorem completion : Obligations.Completion := by
  refine ⟨fun s o r f => ?_, fun s held even k c mem other => ?_⟩
  · intro t
    have frame : t = s.complete o r f := rfl
    refine ⟨rfl, ?_, writeOutcome_fields s o.block r f, isPending_raise _ _, fun c hc => isPending_raise_of_ne _ hc,
      fun a ha => writeOutcome_read s o.block r f a ha⟩
    rw [← status_eq]
    exact blockStatus_writeOutcome s o.block r f
  · simp only [List.mem_cons, Prod.mk.injEq, List.not_mem_nil, or_false] at mem
    rcases mem with ⟨rfl, rfl⟩ | ⟨rfl, rfl⟩ | ⟨rfl, rfl⟩ | ⟨rfl, rfl⟩ | ⟨rfl, rfl⟩ | ⟨rfl, rfl⟩ | ⟨rfl, rfl⟩ | ⟨rfl, rfl⟩
      | ⟨rfl, rfl⟩
    · exact exec_noOrder (exec_configure s) held even other
    · exact exec_noOrder (exec_setRole s) held even other
    · exact exec_noOrder (exec_startSurvey s) held even other
    · exact exec_noOrder (exec_doorRelease s) held even other
    · exact exec_noOrder (exec_doorClose s) held even other
    · exact exec_noOrder (exec_heatDemand s) held even other
    · exact exec_noOrder (exec_heatSupply s) held even other
    · exact exec_noOrder (exec_sendMessage s) held even other
    · exact exec_noOrder (exec_setOutputs s) held even other

/-- Settles O14. -/
theorem ordersByKindAndState : Obligations.OrdersByKindAndState := by
  refine fun s o held ho => ⟨fun kind => ?_, fun active kind => ?_, fun halted => ⟨fun kind => ?_, fun kind => ?_,
    fun k c mem kind => ?_⟩⟩
  · refine yields_order (exec_unknownOrder s) held ho ?_ rfl
    unfold unknownKind
    simp only [Bool.not_eq_true', Bool.and_eq_false_iff, decide_eq_false_iff_not]
    omega
  · exact yields_order (exec_configure s) held ho (beq_iff_eq.mpr kind) (if_pos active)
  · exact yields_halted (exec_setRole s) held ho halted kind
  · exact yields_halted (exec_startSurvey s) held ho halted kind
  · simp only [List.mem_cons, Prod.mk.injEq, List.not_mem_nil, or_false] at mem
    rcases mem with ⟨rfl, rfl⟩ | ⟨rfl, rfl⟩ | ⟨rfl, rfl⟩ | ⟨rfl, rfl⟩ | ⟨rfl, rfl⟩
    · exact yields_halted (exec_doorRelease s) held ho halted kind
    · exact yields_halted (exec_doorClose s) held ho halted kind
    · exact yields_halted (exec_heatDemand s) held ho halted kind
    · exact yields_halted (exec_heatSupply s) held ho halted kind
    · exact yields_halted (exec_sendMessage s) held ho halted kind

/-- Settles O15: the tests run in table order, and the settings are the values written, cut to their ranges. -/
theorem configureFields : Obligations.ConfigureFields := by
  refine ⟨fun s o held halted ho kind => ?_, fun o => ?_⟩
  · intro faulty n hn first
    have field : o.faultyField = n := faultyField_eq hn first
    have small : n < 65536 := by
      have := faultyField_lt o
      omega
    refine yields_order (exec_configure s) held ho (beq_iff_eq.mpr kind) ?_
    rw [State.runConfigure, if_neg (by rw [halted]; exact PartState.noConfusion), field, if_pos, pageWord_small small]
    rintro rfl
    unfold faulty at hn
    omega
  · intro c
    have high : c.high = clamp 256 960 (o.num 38) / 16 * 16 := rfl
    rw [clamp_eq (by decide)] at high
    have low : c.low = clamp 64 (c.high - 64) (o.num 40) := rfl
    have bounds : 256 ≤ c.high ∧ c.high ≤ 960 ∧ c.high % 16 = 0
        ∧ (256 ≤ o.num 38 → o.num 38 ≤ 960 → c.high ≤ o.num 38 ∧ o.num 38 < c.high + 16)
        ∧ (o.num 38 < 256 → c.high = 256) ∧ (960 < o.num 38 → c.high = 960) := by
      rw [high]
      split_ifs <;> omega
    obtain ⟨least, most, multiple, within, below, above⟩ := bounds
    rw [clamp_eq (by omega)] at low
    refine ⟨rfl, rfl, ?_, size_eq _, min_eq_if _ _, min_eq_if _ _, fun i => ?_, fun n x hx => sens_settings hx, least, most,
      multiple, within, below, above, low, rfl, clamp_eq (by decide) _, rfl, clamp_eq (by decide) _, fun i => ?_,
      fun h => ?_, fun h => ?_, fun h => ?_, fun h => ?_, fun h => ?_, fun h => ?_, fun h => ?_, clampedFields_sorted o,
      mem_clampedFields o⟩
    · exact Bool.eq_iff_iff.mpr (by simp [c, OrderCopy.settings])
    · obtain ⟨i, hi⟩ := i
      interval_cases i <;> rfl
    · obtain ⟨i, hi⟩ := i
      interval_cases i <;> rfl
    · exact congrArg (Option.getD · Role.member) (if_pos h)
    · exact congrArg (Option.getD · Role.member) ((if_neg (by omega)).trans (if_pos h))
    · exact congrArg (Option.getD · EndId.a) (if_pos h)
    · exact congrArg (Option.getD · EndId.a) ((if_neg (by omega)).trans (if_pos h))
    · exact fitted_code h
    · exact congrArg (Option.getD · ArbMode.weighted) (if_pos h)
    · exact congrArg (Option.getD · ArbMode.weighted) ((if_neg (by omega)).trans (if_pos h))

/-- Settles O22. -/
theorem heatOrders : Obligations.HeatOrders := by
  refine ⟨fun s o h kind => ⟨fun one two => ?_, fun count c hc => ?_⟩, fun s o h kind => ?_⟩
  · have none : heatClassOfCode (o.num 2) = none := by
      rw [heatClassOfCode, if_neg one, if_neg two]
    refine yields_active (exec_heatDemand s) h kind ?_
    rw [State.runHeatDemand, none]
  · intro q
    have demand : min s.cfg.count (o.num 0) = q := by
      unfold q
      split_ifs <;> omega
    have known : heatClassOfCode (o.num 2) = some c ∧ byteWord c.code = o.word 2 := by
      obtain ⟨code, rfl⟩ | ⟨code, rfl⟩ := hc
      · rw [heatClassOfCode, if_pos code]
        exact ⟨rfl, BitVec.eq_of_toNat_eq (x := byteWord HeatClass.essential.code) code.symm⟩
      · rw [heatClassOfCode, if_neg (by omega), if_pos code]
        exact ⟨rfl, BitVec.eq_of_toNat_eq (x := byteWord HeatClass.comfort.code) code.symm⟩
    obtain ⟨cls, word⟩ := known
    refine yields_active (exec_heatDemand s) h kind ?_
    rw [State.runHeatDemand, cls]
    dsimp only
    rw [demand, word, pageWord_small (by unfold q; split_ifs <;> omega)]
    rfl
  · intro c p n u f
    have run : s.runHeatSupply o = u.testRound.complete o .done f := by
      have capacity : min 2000 (o.num 0) = c := by
        unfold c
        split_ifs <;> omega
      have derate : min 100 (o.num 2) = p := by
        unfold p
        split_ifs <;> omega
      have period : clamp 1 10 (o.num 4) = n := by
        rw [clamp_eq (by decide)]
        unfold n
        split_ifs <;> omega
      unfold State.runHeatSupply
      dsimp only
      rw [capacity, derate, period, pageWord_small (by unfold c; split_ifs <;> omega),
        pageWord_small (by unfold p; split_ifs <;> omega), pageWord_small (by unfold n; split_ifs <;> omega)]
      rfl
    refine ⟨fun early => ?_, fun due => ?_⟩
    · have stand : u.testRound = u := if_neg (Bool.eq_false_iff.mp early)
      exact yields_active (exec_heatSupply s) h kind (run.trans (by rw [stand]))
    · have opens : u.testRound = u.openRound := if_pos due
      exact yields_active (exec_heatSupply s) h kind (run.trans (by rw [opens]))

/-- Settles O24: an image of the host's own outputs is applied, and the named bits outside it come back as ignored. -/
theorem setOutputs : Obligations.SetOutputs := by
  intro s o held ho kind count owned
  have own : ∀ i, s.hostOwned.getLsbD i = owned i := getLsbD_hostOwned count
  obtain ⟨t, e, pages⟩ := yields_order (exec_setOutputs s) held ho (beq_iff_eq.mpr kind) rfl
  obtain ⟨status, -, done, others, frame, -⟩ := completed pages
  have outputs : t.outputs = (s.outputs &&& ~~~s.hostOwned) ||| (maskedOutputs s.outputs ((o.word 0).setWidth 12)
      ((o.word 2).setWidth 12) ((o.word 4).setWidth 12) &&& s.hostOwned) := by
    rw [frame]
    exact State.applyImage_outputs ..
  refine ⟨t, e, ?_, fun i hi => ?_, status, completed_word pages 0 (by decide), fun i hi => ?_, ?_, done,
    fun c hc => (others c hc).trans (isPending_congr (State.applyImage_events ..) c)⟩
  · rw [frame, applyImage_eq]
  · rw [outputs, BitVec.getLsbD_or, BitVec.getLsbD_and, BitVec.getLsbD_and, BitVec.getLsbD_not, own, decide_eq_true hi]
    unfold maskedOutputs
    rw [BitVec.getLsbD_xor, BitVec.getLsbD_and, BitVec.getLsbD_or, BitVec.getLsbD_not]
    simp only [BitVec.getLsbD_setWidth, decide_eq_true hi, Bool.true_and]
    cases owned i
    · simp
    · simp
  · rw [show blockBase o.block + 6 = blockBase o.block + 4 + 2 * 1 from rfl, completed_word pages 1 (by decide)]
    show ((o.word 0 ||| o.word 2 ||| o.word 4) &&& ~~~(s.hostOwned.setWidth 16)).getLsbD i = _
    rw [BitVec.getLsbD_and, BitVec.getLsbD_or, BitVec.getLsbD_or, BitVec.getLsbD_not, BitVec.getLsbD_setWidth,
      decide_eq_true hi, Bool.true_and, Bool.true_and, own]
  · rw [show blockBase o.block + 8 = blockBase o.block + 4 + 2 * 2 from rfl, completed_word pages 2 (by decide), frame]
    rfl

end Sys2Proof.Proofs
end

