-- ==== Sys2Proof/Proofs/DoorCommands.lean ====
section
/-! PROOFS. Door commands (chapter 6): DOOR_RELEASE and DOOR_CLOSE at the lead (R98 to R100), a consumed DOOR (R101 to
R105), and DOORSTAT (R110, R111, R113, R114). -/

namespace Sys2Proof.Machine

/-! ### The group and its image (R97) -/

theorem setGroup_frame (s : State) (g : DoorGroup) :
    s.setGroup g = { s with door := (s.setGroup g).door, outputs := (s.setGroup g).outputs, revs := (s.setGroup g).revs } := by
  unfold State.setGroup
  rw [applyImage_eq]
  rfl

theorem setGroup_outputs {s : State} (active : s.part = .active) (g : DoorGroup) :
    (s.setGroup g).outputs = (s.outputs &&& 0xFF8) ||| g.image := by
  rw [State.setGroup, State.applyImage_outputs, doorOwned_of_active (s := s) active, image_and_doorMask]
  rfl

theorem image_released (x : Sides) (r : Release) (out : BitVec 12) :
    out ||| (DoorGroup.released x r).image = out ||| (if x.l then 1 else 0) ||| (if x.r then 2 else 0) :=
  (BitVec.or_assoc ..).symm

theorem touch_frame (s : State) (r : Rec) : s.touch r = { s with revs := (s.touch r).revs } := by
  unfold State.touch
  split <;> rfl

/-! ### A release (R102, R104) -/

/-- The door unit after a release with outcome `o` (R102, R104). -/
def DoorUnit.released (d : DoorUnit) (gen : Word) (train first last : Nat) (x : Sides) (o : ReleaseOutcome) : DoorUnit :=
  if o = .applied then
    { d with group := .released (d.group.plus x) ⟨gen, first, last⟩, lastRelease := some ⟨gen, train, first, last, x, o⟩ }
  else { d with lastRelease := some ⟨gen, train, first, last, ⟨false, false⟩, o⟩ }

theorem applyRelease_frame (s : State) (gen : Word) (train first last : Nat) :
    s.applyRelease gen train first last = { s with
      door := (s.applyRelease gen train first last).door, outputs := (s.applyRelease gen train first last).outputs,
      revs := (s.applyRelease gen train first last).revs } := by
  unfold State.applyRelease
  extract_lets o x u
  have recorded : u = { s with door := u.door, revs := u.revs } := by
    unfold u
    rw [touch_frame]
    rfl
  split
  · rw [setGroup_frame, recorded]
  · have outputs : u.outputs = s.outputs := (congrArg State.outputs recorded :)
    rw [outputs]
    exact recorded

theorem applyRelease_door (s : State) (gen : Word) (train first last : Nat) :
    (s.applyRelease gen train first last).door
      = s.door.released gen train first last (s.mappedSides train) (s.releaseOutcome gen train first last) := by
  unfold State.applyRelease DoorUnit.released
  extract_lets o x u
  have door : u.door = { s.door with lastRelease := some ⟨gen, train, first, last, x, o⟩ } := by
    unfold u
    rw [touch_frame]
    rfl
  split
  · next applied =>
    have sides : x = s.mappedSides train := if_pos applied
    rw [setGroup_door, door, sides]
  · next other =>
    have sides : x = ⟨false, false⟩ := if_neg other
    rw [door, sides]

theorem applyRelease_outputs_of_ne {s : State} {gen : Word} {train first last : Nat}
    (h : s.releaseOutcome gen train first last ≠ .applied) : (s.applyRelease gen train first last).outputs = s.outputs := by
  unfold State.applyRelease
  dsimp only
  rw [if_neg h, touch_frame]
  rfl

theorem applyRelease_outputs {s : State} {gen : Word} {train first last : Nat} (active : s.part = .active)
    (h : s.releaseOutcome gen train first last = .applied) :
    (s.applyRelease gen train first last).outputs = (s.outputs &&& 0xFF8)
      ||| (if (s.door.group.plus (s.mappedSides train)).l then 1 else 0)
      ||| (if (s.door.group.plus (s.mappedSides train)).r then 2 else 0) := by
  have shown := fun r => image_released (s.door.group.plus (s.mappedSides train)) r (s.outputs &&& 0xFF8)
  unfold State.applyRelease
  extract_lets o x u
  have sides : x = s.mappedSides train := if_pos h
  have recorded : u = { s with door := { s.door with lastRelease := some ⟨gen, train, first, last, x, o⟩ }, revs := u.revs } := by
    unfold u
    rw [touch_frame]
    rfl
  have group : u.door.group = s.door.group := by rw [recorded]
  have outputs : u.outputs = s.outputs := by rw [recorded]
  rw [if_pos h, setGroup_outputs (by rw [recorded]; exact active), group, outputs, sides]
  exact shown _

/-! ### A close (R105, R106) -/

/-- The door unit after a close. -/
def State.closedDoor (s : State) : DoorUnit :=
  { s.door with
    drop := .close,
    group := match s.door.group with
      | .closing => .closing
      | .idle => if s.level .dloop then .idle else .closing
      | .released _ _ => if s.level .dloop then .idle else .closing }

theorem applyClose_frame (s : State) :
    s.applyClose = { s with
      door := s.applyClose.door, outputs := s.applyClose.outputs, revs := s.applyClose.revs } := by
  unfold State.applyClose State.enterClosing
  split
  · rfl
  · rw [setGroup_frame]
    rfl
  · rw [setGroup_frame]
    rfl

theorem applyClose_door (s : State) : s.applyClose.door = s.closedDoor := by
  unfold State.applyClose State.enterClosing State.closedDoor State.closed
  cases hg : s.door.group with
  | closing =>
    exact congrArg (fun g => { s.door with drop := DropReason.close, group := g }) hg
  | idle =>
    dsimp only
    rw [setGroup_door]
    rfl
  | released x r =>
    dsimp only
    rw [setGroup_door]
    rfl

theorem applyClose_outputs_closing {s : State} (h : s.door.group = .closing) : s.applyClose.outputs = s.outputs := by
  rw [State.applyClose, h]
  rfl

theorem applyClose_outputs {s : State} (active : s.part = .active) (h : s.door.group ≠ .closing) :
    s.applyClose.outputs = (s.outputs &&& 0xFF8) ||| (if s.level .dloop then 0 else 4) := by
  have entered : s.applyClose = s.enterClosing .close := by
    unfold State.applyClose
    split
    · next closing => exact absurd closing h
    · rfl
    · rfl
  rw [entered, State.enterClosing, setGroup_outputs (s := s.modDoor _) active, State.closed]
  cases s.level .dloop <;> rfl

/-! ### The lead's own door orders (R98 to R100) -/

/-- The telegram a lead's door order places, and the state behind its placement. -/
theorem placedDoor (s : State) (k : Kind) (x : Scope) (dest : Ident) (body route : List Byte) :
    let d := s.originates k x dest body route
    let u := ((s.build k x dest body route).2.placeBoth d).1
    u = { s with ends := u.ends, seqs := u.seqs }
      ∧ (∀ e, Placed (s.sendingLines e) d (s.endOf e) (u.endOf e))
      ∧ ((s.build k x dest body route).2.placeBoth d).2 = (s.enters .a d, s.enters .b d) := by
  intro d u
  exact ⟨sends_trans (sends_build s k x dest body route) (sends_placeBoth _ d),
    fun e => placeBoth_placed (s.build k x dest body route).2 d e, placeBoth_enters _ d⟩

/-- The words of an outcome from its result code on. -/
theorem completed_words {u t : State} {o : OrderCopy} {r : ResultCode} {f : List Word} (h : UpToPages (u.complete o r f) t)
    {n : Nat} (hn : n ≤ 14) : t.mem.readWords (blockBase o.block + 4) n = (r.code :: resultWords f).take n := by
  obtain ⟨-, fields, -⟩ := completed h
  exact readWords_take fields hn

/-- The outcome of a release in the words of R102: the first test that fails decides. -/
theorem releaseOutcome_of {s : State} {gen : Word} {train first last : Nat} {o : ReleaseOutcome}
    (h : (o = .notFormed ∧ s.consist.state ≠ .formed)
      ∨ (s.consist.state = .formed ∧
        ((o = .generation ∧ gen ≠ s.consist.generation)
          ∨ (gen = s.consist.generation ∧
            ((o = .outOfRange ∧ ¬ (first ≤ s.consist.position ∧ s.consist.position ≤ last))
              ∨ ((first ≤ s.consist.position ∧ s.consist.position ≤ last) ∧
                ((o = .noZeroSpeed ∧ s.level .zspd = false)
                  ∨ (s.level .zspd = true ∧
                    ((o = .noSide ∧ s.mappedSides train = ⟨false, false⟩)
                      ∨ (o = .applied ∧ s.mappedSides train ≠ ⟨false, false⟩)))))))))) :
    s.releaseOutcome gen train first last = o := by
  unfold State.releaseOutcome
  obtain ⟨rfl, unformed⟩ | ⟨formed, h⟩ := h
  · exact if_pos unformed
  rw [if_neg (not_not.mpr formed)]
  obtain ⟨rfl, other⟩ | ⟨same, h⟩ := h
  · exact if_pos other
  rw [if_neg (not_not.mpr same)]
  obtain ⟨rfl, outside⟩ | ⟨inside, h⟩ := h
  · exact if_pos outside
  rw [if_neg (not_not.mpr inside)]
  obtain ⟨rfl, moving⟩ | ⟨standing, h⟩ := h
  · exact if_pos moving
  rw [if_neg (Bool.not_eq_false _ |>.mpr standing)]
  obtain ⟨rfl, none⟩ | ⟨rfl, some⟩ := h
  · exact if_pos none
  · exact if_neg some

theorem releaseRefusal_none {s : State} {o : OrderCopy} (lead : s.consist.roleState = .lead) (formed : s.consist.state = .formed)
    (side : 1 ≤ o.num 0 ∧ o.num 0 ≤ 3) (range : 1 ≤ o.num 2 ∧ o.num 2 ≤ o.num 4 ∧ o.num 4 ≤ s.consist.n)
    (standing : s.level .zspd = true) : s.releaseRefusal o = none := by
  rw [State.releaseRefusal, if_neg (not_not.mpr lead), if_neg (not_not.mpr formed), if_neg (not_not.mpr side),
    if_neg (not_not.mpr range), if_neg (by rw [standing]; decide)]

theorem runDoorRelease_refused {s : State} {o : OrderCopy} {r : ResultCode} (h : s.releaseRefusal o = some r) :
    s.runDoorRelease o = s.complete o r [] := by
  rw [State.runDoorRelease, h]

/-- The outcome of the lead's own release: formed, in generation and at zero speed it is (R98, R99). -/
def ownRelease (s : State) (train first last : Nat) : ReleaseOutcome :=
  if first ≤ s.consist.position ∧ s.consist.position ≤ last then
    (if s.mappedSides train = ⟨false, false⟩ then .noSide else .applied)
  else .outOfRange

theorem releaseOutcome_own {s : State} (formed : s.consist.state = .formed) (standing : s.level .zspd = true)
    (train first last : Nat) :
    s.releaseOutcome s.consist.generation train first last = ownRelease s train first last := by
  refine releaseOutcome_of (Or.inr ⟨formed, Or.inr ⟨rfl, ?_⟩⟩)
  unfold ownRelease
  split
  · next inside =>
    refine Or.inr ⟨inside, Or.inr ⟨standing, ?_⟩⟩
    split
    · next none => exact Or.inl ⟨rfl, none⟩
    · next some => exact Or.inr ⟨rfl, some⟩
  · next outside => exact Or.inl ⟨rfl, outside⟩

theorem ownOutcome_applyRelease (s : State) (gen : Word) (train first last : Nat) :
    (s.applyRelease gen train first last).ownOutcome = (s.releaseOutcome gen train first last).code := by
  rw [State.ownOutcome, applyRelease_door, DoorUnit.released]
  split
  · rfl
  · rfl

/-! ### DOORSTAT (R110, R111) -/

theorem bne_eq_decide_ne (x y : Word) : (x != y) = decide (x ≠ y) := by
  rw [bne, Bool.beq_eq_decide_eq, decide_not]


/-- A start uses no sequence number but a HAIL's (R16, R22). -/
theorem start_seqs (s : State) (e : EndId) {k : Fin 12} (h : k ≠ 0) : (s.start e).1.seqs[k] = s.seqs[k] := by
  unfold State.start
  dsimp only
  split
  · rfl
  · split
    · exact Vector.getElem_set_ne (Fin.isLt _) k.isLt fun i => h (Fin.ext i.symm)
    · split
      · split
        · rfl
        · rfl
      · rfl

theorem placeAt_seqs (s : State) (e : EndId) (t : Telegram) {k : Fin 12} (h : k ≠ 0) :
    (s.placeAt e t).1.seqs[k] = s.seqs[k] := by
  unfold State.placeAt State.enterOrigin
  split
  · split
    · exact start_seqs _ e h
    · rfl
  · rfl

/-- Only the ends and the sequence counters move when a DOORSTAT goes out. -/
theorem originateStat_eq {s : State} {e : EndId} (leadEnd : s.consist.leadEnd = some e) (apart : s.consist.position ≠ s.consist.f + 1) :
    s.originateStat = (({ s with seqs := s.seqs.set 6 (succ1 s.seqs[6]) } : State).placeAt e
      (s.originates .doorstat .towardLead 0
        (be16 s.consist.generation ++ [if s.consist.position ≤ s.consist.f then 1 else 2])
        (if s.level .dloop then [1, 0] else [0, 1, byteOf s.consist.position]))).1 := by
  have side : s.statSide = if s.consist.position ≤ s.consist.f then 1 else 2 := by
    unfold State.statSide
    split
    · rfl
    · rw [if_pos (by omega)]
      rfl
  unfold State.originateStat
  dsimp only
  rw [side]
  split
  · next k hk =>
    obtain rfl := Option.some.inj (hk.symm.trans leadEnd)
    rfl
  · next none => exact absurd (none.symm.trans leadEnd) (by simp)

end Sys2Proof.Machine

namespace Sys2Proof.Proofs

open Sys2Proof Sys2Proof.Machine

/-- Settles O38. -/
theorem doorTelegram : Obligations.DoorTelegram := by
  intro s e x kind u g side first last y inRange outcome z
  have effect : u = s.takeDoor x := by
    show (s.consume e x).1 = _
    rw [State.consume, kind]
  have withheld : (s.consume e x).2 = false := by
    rw [State.consume, kind]
  refine ⟨withheld, ?_, fun ignored => ?_, fun member release low high o ho => ?_, fun member close => ?_⟩
  · rw [effect]
    unfold State.takeDoor
    split
    · rfl
    · split
      · split
        · exact applyRelease_frame s _ _ _ _
        · rfl
      · split
        · exact applyClose_frame s
        · rfl
  · rw [effect, State.takeDoor]
    obtain lead | ⟨one, two⟩ | ⟨one, faulty⟩ := ignored
    · exact if_pos lead
    · rw [if_neg one, if_neg two, ite_self]
    · rw [if_pos one, if_neg (show ¬ (1 ≤ side ∧ side ≤ 3) by omega), ite_self]
  · have applied : u = s.applyRelease g side first last := by
      rw [effect, State.takeDoor, if_neg member, if_pos release]
      exact if_pos ⟨low, high⟩
    have out : s.releaseOutcome g side first last = o := releaseOutcome_of ho
    rw [applied]
    refine ⟨fun other => ⟨applyRelease_outputs_of_ne (out ▸ other), ?_⟩, fun done => ⟨?_, fun active => ?_⟩⟩
    · rw [applyRelease_door, out, DoorUnit.released, if_neg other]
    · rw [applyRelease_door, out, DoorUnit.released, if_pos done, done]
      rfl
    · exact applyRelease_outputs active (out.trans done)
  · have closed : u = s.applyClose := by
      rw [effect, State.takeDoor, if_neg member, if_neg (by rw [close]; decide)]
      exact if_pos close
    rw [closed]
    exact ⟨applyClose_door s, fun active open_ => applyClose_outputs active open_, applyClose_outputs_closing⟩

/-- Settles O20: the telegram goes first, then the lead's own doors close. -/
theorem doorClose : Obligations.DoorClose := by
  refine fun s o h kind => ⟨fun member => yields_active (exec_doorClose s) h kind (if_pos member), fun lead => ?_⟩
  intro d
  obtain ⟨frame, placed, entered⟩ := placedDoor s .door .broadcast 0 (be16 s.consist.generation ++ [2, 0, 0, 0]) []
  set p := (s.build .door .broadcast 0 (be16 s.consist.generation ++ [2, 0, 0, 0]) []).2.placeBoth d with hp
  set u := p.1
  have words : endsWord p.2.1 p.2.2 = endsWord (s.enters .a d) (s.enters .b d) := by rw [entered]
  have run : s.runDoorClose o = u.applyClose.complete o .done [endsWord (s.enters .a d) (s.enters .b d)] := by
    rw [← words]
    exact if_neg (not_not.mpr lead)
  obtain ⟨t, e, pages⟩ := yields_active (exec_doorClose s) h kind run
  obtain ⟨-, active, -⟩ := h
  obtain ⟨status, -, done, others, whole, -⟩ := completed pages
  have closes := applyClose_frame u
  have door : u.door = s.door := (congrArg State.door frame :)
  have outputs : u.outputs = s.outputs := (congrArg State.outputs frame :)
  have part : u.part = .active := (congrArg State.part frame :).trans active
  have inputs : u.inputs = s.inputs := (congrArg State.inputs frame :)
  have level : u.level .dloop = s.level .dloop := by rw [State.level, inputs, State.level]
  have shown : t.outputs = u.applyClose.outputs := (congrArg State.outputs whole :)
  refine ⟨t, e, ?_, fun k => ?_, ?_, fun open_ => ?_, fun closing => ?_, status, ?_, done, fun c hc => ?_⟩
  · rw [whole, closes, frame]
  · have ends : t.ends = u.ends := (congrArg State.ends whole :).trans (congrArg State.ends closes :)
    rw [State.endOf, State.endOf, ends]
    exact placed k
  · have own : t.door = u.applyClose.door := (congrArg State.door whole :)
    rw [own, applyClose_door, State.closedDoor, door, level] <;> rfl
  · rw [shown, applyClose_outputs part (by rw [door]; exact open_), outputs, level]
  · rw [shown, applyClose_outputs_closing (door ▸ closing), outputs]
  · exact completed_words pages (by decide)
  · refine (others c hc).trans (isPending_congr ((congrArg State.events closes :).trans ?_) c)
    exact (congrArg State.events frame :)

/-- Settles O19: the tests in their order; then the telegram goes, and the lead's release is applied as any coach's. -/
theorem doorRelease : Obligations.DoorRelease := by
  refine ⟨fun s o h kind => ⟨fun member => ?_, fun lead => ⟨fun unformed => ?_, fun formed => ⟨fun side => ?_,
    fun low high => ⟨fun range => ?_, fun first order last moving => ?_⟩⟩⟩⟩, fun s o h kind lead formed low high first order last standing => ?_⟩
  · refine yields_active (exec_doorRelease s) h kind (runDoorRelease_refused ?_)
    rw [State.releaseRefusal, if_pos member]
  · refine yields_active (exec_doorRelease s) h kind (runDoorRelease_refused ?_)
    rw [State.releaseRefusal, if_neg (not_not.mpr lead), if_pos unformed]
  · refine yields_active (exec_doorRelease s) h kind (runDoorRelease_refused ?_)
    rw [State.releaseRefusal, if_neg (not_not.mpr lead), if_neg (not_not.mpr formed), if_pos (by omega)]
  · refine yields_active (exec_doorRelease s) h kind (runDoorRelease_refused ?_)
    rw [State.releaseRefusal, if_neg (not_not.mpr lead), if_neg (not_not.mpr formed), if_neg (by omega), if_pos (by omega)]
  · refine yields_active (exec_doorRelease s) h kind (runDoorRelease_refused ?_)
    rw [State.releaseRefusal, if_neg (not_not.mpr lead), if_neg (not_not.mpr formed), if_neg (by omega), if_neg (by omega),
      if_pos moving]
  · intro g d x inRange y
    have accepted := releaseRefusal_none lead formed ⟨low, high⟩ ⟨first, order, last⟩ standing
    obtain ⟨frame, placed, entered⟩ := placedDoor s .door .broadcast 0
      (be16 g ++ [1, byteOf (o.num 0), byteOf (o.num 2), byteOf (o.num 4)]) []
    set p := (s.build .door .broadcast 0 (be16 g ++ [1, byteOf (o.num 0), byteOf (o.num 2), byteOf (o.num 4)]) []).2.placeBoth d
    set u := p.1
    have door : u.door = s.door := (congrArg State.door frame :)
    have outputs : u.outputs = s.outputs := (congrArg State.outputs frame :)
    have consist : u.consist = s.consist := (congrArg State.consist frame :)
    have cfg : u.cfg = s.cfg := (congrArg State.cfg frame :)
    have inputs : u.inputs = s.inputs := (congrArg State.inputs frame :)
    have sides : u.mappedSides (o.num 0) = x := by rw [State.mappedSides, consist, cfg]
    have outcome : u.releaseOutcome g (o.num 0) (o.num 2) (o.num 4)
        = if inRange then (if x = ⟨false, false⟩ then .noSide else .applied) else .outOfRange := by
      have own := releaseOutcome_own (s := u) (by rw [consist]; exact formed)
        (by rw [State.level, inputs]; exact standing) (o.num 0) (o.num 2) (o.num 4)
      rw [ownRelease, sides, consist] at own
      exact own
    have words : endsWord p.2.1 p.2.2 = endsWord (s.enters .a d) (s.enters .b d) := by rw [entered]
    have run : s.runDoorRelease o = (u.applyRelease g (o.num 0) (o.num 2) (o.num 4)).complete o .done
        [endsWord (s.enters .a d) (s.enters .b d), (u.releaseOutcome g (o.num 0) (o.num 2) (o.num 4)).code] := by
      rw [← words, ← ownOutcome_applyRelease, State.runDoorRelease, accepted]
      rfl
    obtain ⟨t, e, pages⟩ := yields_active (exec_doorRelease s) h kind run
    obtain ⟨-, active, -⟩ := h
    obtain ⟨status, -, done, others, whole, -⟩ := completed pages
    have applied := applyRelease_frame u g (o.num 0) (o.num 2) (o.num 4)
    have ownDoor : t.door = s.door.released g (o.num 0) (o.num 2) (o.num 4) x
        (u.releaseOutcome g (o.num 0) (o.num 2) (o.num 4)) := by
      rw [← sides, ← door, ← applyRelease_door]
      exact (congrArg State.door whole :)
    have shown : t.outputs = (u.applyRelease g (o.num 0) (o.num 2) (o.num 4)).outputs := (congrArg State.outputs whole :)
    refine ⟨t, e, ?_, fun k => ?_, fun inside some => ?_, fun inside none => ?_, fun outside => ?_, status, ?_, done,
      fun c hc => ?_⟩
    · rw [whole, applied, frame]
    · have ends : t.ends = u.ends := (congrArg State.ends whole :).trans (congrArg State.ends applied :)
      rw [State.endOf, State.endOf, ends]
      exact placed k
    · rw [if_pos inside, if_neg some] at outcome
      refine ⟨by rw [ownDoor, outcome]; rfl, ?_⟩
      rw [shown, applyRelease_outputs ((congrArg State.part frame :).trans active) outcome, sides, outputs, door]
      rfl
    · rw [if_pos inside, if_pos none] at outcome
      refine ⟨?_, by rw [ownDoor, outcome]; rfl⟩
      rw [shown, applyRelease_outputs_of_ne (by rw [outcome]; exact ReleaseOutcome.noConfusion), outputs]
    · rw [if_neg outside] at outcome
      refine ⟨?_, by rw [ownDoor, outcome]; rfl⟩
      rw [shown, applyRelease_outputs_of_ne (by rw [outcome]; exact ReleaseOutcome.noConfusion), outputs]
    · have code : (if inRange then (if x = ⟨false, false⟩ then ReleaseOutcome.noSide else .applied) else .outOfRange).code
          = if inRange then (if x = ⟨false, false⟩ then 6 else 1) else 4 := by
        split_ifs <;> rfl
      rw [completed_words pages (by decide), outcome, code]
      rfl
    · refine (others c hc).trans (isPending_congr ((congrArg State.events applied :).trans ?_) c)
      exact (congrArg State.events frame :)

/-- Settles O39. -/
theorem doorstat : Obligations.Doorstat := by
  refine ⟨fun s held => ⟨fun early => ?_, fun n e stat due leadEnd apart => ?_⟩, fun s e x kind lead => ?_,
    fun s x held => ⟨fun r hr stale => ?_, fun fresh => ?_⟩⟩
  · have idle : s.statOut = s := by
      refine if_neg ?_
      obtain none | ⟨n, some, below⟩ := early
      · rw [none]
        exact Bool.false_ne_true
      · rw [some]
        exact fun due => absurd (of_decide_eq_true due) (by omega)
    have yields := yields_partStep (exec_doorstatTimer s) held
    rwa [idle] at yields
  · intro side route d
    have start : s.statOut = (s.modDoor fun d => { d with stat := some 0 }).originateStat := by
      refine if_pos ?_
      rw [stat]
      exact decide_eq_true due
    have yields := yields_partStep (exec_doorstatTimer s) held
    rw [start.trans (originateStat_eq (s := s.modDoor _) leadEnd apart)] at yields
    obtain ⟨t, run, pages⟩ := yields
    set v : State := { s with door := { s.door with stat := some 0 }, seqs := s.seqs.set 6 (succ1 s.seqs[6]) }
    have frame : (v.placeAt e d).1 = { v with ends := (v.placeAt e d).1.ends, seqs := (v.placeAt e d).1.seqs } :=
      sends_placeAt v e d
    have pages : UpToPages (v.placeAt e d).1 t := pages
    obtain ⟨whole, bytes, -⟩ := pages
    have ends : t.ends = (v.placeAt e d).1.ends := (congrArg State.ends whole :)
    have seqs : t.seqs = (v.placeAt e d).1.seqs := (congrArg State.seqs whole :)
    have mem : (v.placeAt e d).1.mem = s.mem := (congrArg State.mem frame :)
    refine ⟨t, run, ?_, ?_, ?_, ?_, fun a ha => ?_⟩
    · rw [whole, frame]
    · rw [State.endOf, State.endOf, ends]
      exact placeAt_placed v e d
    · rw [State.endOf, State.endOf, ends]
      exact placeAt_other v (opp_ne e) d
    · rw [seqs]
      refine (placeAt_seqs v e d (k := 6) (by decide)).trans ?_
      exact Vector.getElem_set_self _
    · rw [← mem]
      exact bytes a ha
  · intro u r written
    have effect : u = s.takeStat e x := by
      show (s.consume e x).1 = _
      rw [State.consume, kind]
      exact if_pos lead
    have record : s.recordOf x = r := by
      unfold State.recordOf r
      rw [bne_eq_decide_ne]
    refine ⟨fun side front => ?_, fun side back => ?_, fun notF notR => effect.trans ?_⟩
    · have taken : s.takeStat e x = s.writeStat fun d => { d with recF := some r } := by
        rw [← record]
        exact if_pos ⟨side, front⟩
      exact ⟨fun same => (effect.trans taken).trans (if_pos same), fun differ => (effect.trans taken).trans (if_neg differ)⟩
    · have taken : s.takeStat e x = s.writeStat fun d => { d with recR := some r } := by
        rw [State.takeStat, if_neg (by rw [side]; exact fun h => absurd h.1 (by decide)), ← record]
        exact if_pos ⟨side, back⟩
      exact ⟨fun same => (effect.trans taken).trans (if_pos same), fun differ => (effect.trans taken).trans (if_neg differ)⟩
    · exact (if_neg notF).trans (if_neg notR)
  · have evaluated : s.recordStale x = s.evalSummary := by
      rw [State.recordStale, hr]
      exact if_pos stale
    have yields := yields_partStep (exec_recordStale x s) held
    rwa [evaluated] at yields
  · have idle : s.recordStale x = s := by
      unfold State.recordStale
      obtain none | ⟨r, some, below⟩ := fresh
      · rw [none]
      · rw [some]
        exact if_neg (by omega)
    have yields := yields_partStep (exec_recordStale x s) held
    rwa [idle] at yields

end Sys2Proof.Proofs
end

