-- ==== Sys2Proof/Proofs/MessageOrders.lean ====
section
/-! PROOFS. SEND_MESSAGE (R141 to R143): its refusals, joint placement (R47), and what becomes of a broadcast and of a
unicast. -/

namespace Sys2Proof.Machine

/-! ### Joint placement (R47) -/

theorem jointOk_iff (s : State) (e : EndId) (t : Telegram) :
    s.jointOk e t = true ↔ ((s.endOf e).state = .linked → (admission t (s.endOf e).originQ).isSome = true) := by
  rw [State.jointOk, Bool.or_eq_true, bne_iff_ne]
  tauto

theorem placeJoint_none {s : State} {e : EndId} {t : Telegram} (linked : (s.endOf e).state = .linked)
    (full : admission t (s.endOf e).originQ = none) : s.placeJoint t = none := by
  have refused : ¬ s.jointOk e t = true := by
    rw [jointOk_iff, full]
    exact fun h => absurd (h linked) Bool.false_ne_true
  refine if_neg ?_
  rw [Bool.and_eq_true]
  cases e with
  | a => exact fun h => refused h.1
  | b => exact fun h => refused h.2

theorem placeJoint_some {s : State} {t : Telegram}
    (room : ∀ e, (s.endOf e).state = .linked → (admission t (s.endOf e).originQ).isSome = true) :
    s.placeJoint t = some (s.placeBoth t) :=
  if_pos (by rw [Bool.and_eq_true, jointOk_iff, jointOk_iff]; exact ⟨room .a, room .b⟩)

/-- Where every LINKED end has room, the telegram enters at each of them. -/
theorem enters_of_room {s : State} {e : EndId} {t : Telegram}
    (room : (s.endOf e).state = .linked → (admission t (s.endOf e).originQ).isSome = true) :
    s.enters e t = ((s.endOf e).state == .linked) := by
  unfold State.enters
  cases linked : (s.endOf e).state == .linked with
  | false => rfl
  | true =>
    have admitted := room (beq_iff_eq.mp linked)
    unfold admitOrigin
    cases h : admission t (s.endOf e).originQ with
    | none =>
      rw [h] at admitted
      exact absurd admitted Bool.false_ne_true
    | some q => rfl

/-! ### Tests of SEND_MESSAGE (R141) -/

theorem runSendMessage_refused {s : State} {o : OrderCopy} {r : ResultCode} (h : s.sendRefusal o = some r) :
    s.runSendMessage o = s.complete o r [] := by
  rw [State.runSendMessage, h]

theorem sendRefusal_none {s : State} {o : OrderCopy} (other : o.ident 0 ≠ s.cfg.identity)
    (length : 1 ≤ o.num 4 ∧ o.num 4 ≤ 200) (few : o.ident 0 = 0 ∨ s.inFlight.length < 4) : s.sendRefusal o = none := by
  rw [State.sendRefusal, if_neg other, if_neg (not_not.mpr length), if_neg]
  rintro ⟨unicast, four⟩
  exact few.elim unicast (Nat.not_lt.mpr four)

end Sys2Proof.Machine

namespace Sys2Proof.Proofs

open Sys2Proof Sys2Proof.Machine

/-- Settles O23: the tests in their order; then the telegram is placed at all LINKED ends or at none. -/
theorem sendMessage : Obligations.SendMessage := by
  refine ⟨fun s o h kind => ⟨fun own => ?_, fun other => ⟨fun range => ?_, fun low high => ⟨fun unicast four => ?_,
    fun few => ?_⟩⟩⟩, fun s o h kind other low high few => ?_⟩
  · refine yields_active (exec_sendMessage s) h kind (runSendMessage_refused ?_)
    rw [State.sendRefusal, if_pos own]
  · refine yields_active (exec_sendMessage s) h kind (runSendMessage_refused ?_)
    rw [State.sendRefusal, if_neg other, if_pos (by omega)]
  · refine yields_active (exec_sendMessage s) h kind (runSendMessage_refused ?_)
    rw [State.sendRefusal, if_neg other, if_neg (by omega), if_pos ⟨unicast, four⟩]
  · rintro m ⟨e, linked, full⟩
    refine yields_active (exec_sendMessage s) h kind ?_
    have joint : (s.build .msg (if o.ident 0 = 0 then .broadcast else .coach) (o.ident 0) o.msgBody []).2.placeJoint m = none :=
      placeJoint_none (e := e) linked full
    rw [State.runSendMessage, sendRefusal_none other ⟨low, high⟩ few]
    dsimp only
    split
    · rfl
    · next entered => exact absurd (joint.symm.trans entered) (by simp)
  · intro m room
    obtain ⟨frame, placed, entered⟩ := placedDoor s .msg (if o.ident 0 = 0 then .broadcast else .coach) (o.ident 0) o.msgBody []
    set b := s.build .msg (if o.ident 0 = 0 then .broadcast else .coach) (o.ident 0) o.msgBody []
    set u := (b.2.placeBoth m).1
    have words : endsWord (b.2.placeBoth m).2.1 (b.2.placeBoth m).2.2
        = (if (s.endOf .a).state = .linked then 1 else 0) + (if (s.endOf .b).state = .linked then 2 else 0) := by
      rw [entered]
      dsimp only
      rw [enters_of_room (room .a), enters_of_room (room .b), endsWord]
      simp only [beq_iff_eq]
    have joint : b.2.placeJoint m = some (b.2.placeBoth m) := placeJoint_some room
    have run : s.runSendMessage o =
        if o.ident 0 = 0 then u.complete o .done [endsWord (b.2.placeBoth m).2.1 (b.2.placeBoth m).2.2, s.seqs[10]]
        else ({ u with inFlight := u.inFlight ++ [(⟨o.block, o.ident 0, s.seqs[10], 0⟩ : InFlight)] } : State).freeUnit := by
      rw [State.runSendMessage, sendRefusal_none other ⟨low, high⟩ few]
      dsimp only
      split
      · next none => exact absurd (joint.symm.trans none) (by simp)
      · next v x y some =>
        have pair : (v, x, y) = b.2.placeBoth m := Option.some.inj (some.symm.trans joint)
        obtain rfl : v = u := congrArg Prod.fst pair
        obtain rfl : x = (b.2.placeBoth m).2.1 := congrArg (fun p => p.2.1) pair
        obtain rfl : y = (b.2.placeBoth m).2.2 := congrArg (fun p => p.2.2) pair
        rfl
    have ends : ∀ t : State, t.ends = u.ends → ∀ e, Placed (s.sendingLines e) m (s.endOf e) (t.endOf e) := fun t ht e => by
      rw [State.endOf, State.endOf, ht]
      exact placed e
    have flight : u.inFlight = s.inFlight := (congrArg State.inFlight frame :)
    have events : u.events = s.events := (congrArg State.events frame :)
    have mem : u.mem = s.mem := (congrArg State.mem frame :)
    rw [words] at run
    by_cases broadcast : o.ident 0 = 0
    · rw [if_pos broadcast] at run
      obtain ⟨t, e, pages⟩ := yields_active (exec_sendMessage s) h kind run
      obtain ⟨status, -, done, others, whole, -⟩ := completed pages
      refine ⟨t, e, ?_, ends t (congrArg State.ends whole :), fun _ => ⟨?_, status, done, completed_words pages (by decide)⟩,
        fun unicast => absurd broadcast unicast⟩
      · rw [whole, frame]
      · exact (congrArg State.inFlight whole :).trans flight
    · rw [if_neg broadcast] at run
      obtain ⟨t, e, pages⟩ := yields_active (exec_sendMessage s) h kind run
      obtain ⟨whole, -⟩ := id pages
      refine ⟨t, e, ?_, ends t (congrArg State.ends whole :), fun k => absurd k broadcast, fun _ => ⟨?_, ?_, fun c => ?_⟩⟩
      · rw [whole, frame]
        rfl
      · rw [← flight]
        exact (congrArg State.inFlight whole :)
      · refine (block_status pages o.block).trans ?_
        show u.mem.readWord _ = s.mem.readWord _
        rw [mem]
      · exact isPending_congr ((congrArg State.events whole :).trans events) c

end Sys2Proof.Proofs
end

