-- ==== Sys2Proof/Proofs/InputChanges.lean ====
section
/-! PROOFS. Inputs (chapter 9): raw and qualified changes (R153 to R159), the door and heating interlocks they carry
(R106, R107, R137). -/

namespace Sys2Proof.Machine

/-! ### Commands by their effect -/

/-- A command yields what its effect comes to. -/
theorem yields_effect {c : Instr} {s u : State} {f : State → State} (run : exec c s = partStep f s)
    (held : s.resetHeld = false) (e : f s = u) : Yields c s u := e ▸ yields_partStep run held

/-- A command yields what its effect comes to but for the page records. -/
theorem yields_pages {c : Instr} {s u : State} {f : State → State} (run : exec c s = partStep f s)
    (held : s.resetHeld = false) (e : UpToPages u (f s)) : Yields c s u := by
  obtain ⟨t, next, pages⟩ := yields_partStep run held
  exact ⟨t, next, upToPages_trans e pages⟩

theorem reached_some {n k : Nat} (h : k ≤ n) : reached (some n) k = true := decide_eq_true h

/-- A timer that is stopped or short of its limit has not reached it. -/
theorem reached_false {t : Option Nat} {k : Nat} (h : t = none ∨ ∃ n, t = some n ∧ n < k) : reached t k = false := by
  obtain rfl | ⟨n, rfl, short⟩ := h
  · rfl
  · exact decide_eq_false (Nat.not_le.mpr short)

/-! ### Up to the pages -/

theorem summaryNow_upToPages {s t : State} (h : UpToPages s t) : t.summaryNow = s.summaryNow := by
  rw [h.1]
  rfl

theorem upToPages_raise {s t : State} (h : UpToPages s t) (c : EventClass) : UpToPages (s.raise c) (t.raise c) := by
  obtain ⟨frame, bytes, slots⟩ := h
  refine ⟨?_, bytes, slots⟩
  show t.raise c = { s.raise c with mem := t.mem, revs := t.revs }
  rw [frame]
  rfl

theorem upToPages_modDoor {s t : State} (h : UpToPages s t) (f : DoorUnit → DoorUnit) :
    UpToPages (s.modDoor f) (t.modDoor f) := by
  obtain ⟨frame, bytes, slots⟩ := h
  refine ⟨?_, bytes, slots⟩
  show t.modDoor f = { s.modDoor f with mem := t.mem, revs := t.revs }
  rw [frame]
  rfl

/-- Rewrites begun on either side are page matters. -/
theorem upToPages_rewrites {s t : State} (h : UpToPages s t) {r : Rec} (hr : r ∈ pageRecs) :
    UpToPages (s.touchAgain r) (t.touchAgain r) := by
  obtain ⟨frame, bytes, slots⟩ := h
  refine ⟨?_, bytes, fun n => ?_⟩
  · show t.touchAgain r = { s.touchAgain r with mem := t.mem, revs := (t.touchAgain r).revs }
    rw [frame]
    rfl
  · rw [State.touchAgain, State.touchAgain, setRev_slot t r hr, setRev_slot s r hr]
    exact slots n

/-- An evaluation of the summary looks at no page record. -/
theorem upToPages_evalSummary {s t : State} (h : UpToPages s t) : UpToPages s.evalSummary t.evalSummary := by
  have now := summaryNow_upToPages h
  have door : t.door = s.door := (congrArg State.door h.1 :)
  unfold State.evalSummary
  rw [now, door]
  split
  · exact h
  · exact upToPages_raise (upToPages_rewrites (upToPages_modDoor h _) (by decide)) _

/-! ### Raw and qualified changes -/

theorem qualify_early {s : State} {i : Input}
    (h : (s.inputs.get i).timer = none ∨ ∃ n, (s.inputs.get i).timer = some n ∧ n < s.cfg.filters[inputIdx i]) :
    s.qualify i = s :=
  if_neg (by rw [State.filterTime, reached_false h]; exact Bool.false_ne_true)

/-- The input as a qualified change leaves it (R153). -/
def State.qualified (s : State) (i : Input) : State :=
  { s with inputs := s.inputs.set i { raw := (s.inputs.get i).raw, qualified := (s.inputs.get i).raw, timer := none } }

theorem qualify_due {s : State} {i : Input} {n : Nat} (timer : (s.inputs.get i).timer = some n)
    (due : s.cfg.filters[inputIdx i] ≤ n) :
    s.qualify i = ((s.qualified i).touchAgain .ioView).act i (s.inputs.get i).raw :=
  if_pos (by rw [State.filterTime, timer]; exact reached_some due)

/-- The I/O view that goes with a qualified change is a page matter. -/
theorem qualified_pages (s : State) (i : Input) : UpToPages (s.qualified i) ((s.qualified i).touchAgain .ioView) :=
  upToPages_touchAgain _ _ (by decide)

/-- A qualified change yields what the reader's act comes to. -/
theorem yields_qualified {s u : State} {i : Input} {n : Nat} (held : s.resetHeld = false)
    (timer : (s.inputs.get i).timer = some n) (due : s.cfg.filters[inputIdx i] ≤ n)
    (act : UpToPages u (((s.qualified i).touchAgain .ioView).act i (s.inputs.get i).raw)) :
    Yields (.qualifiedChange i) s u :=
  yields_pages (exec_qualifiedChange i s) held (by rw [qualify_due timer due]; exact act)

/-- RAW_CHANGE: the filter timer, and the qualified change of a filter time of 0 (R153). -/
theorem rawChange_eq (s : State) (i : Input) (v : Bool) :
    let r := s.inputs.get i
    let u : State := { s with
      inputs := s.inputs.set i
        { raw := v, qualified := r.qualified, timer := if v = r.qualified then none else some (r.timer.getD 0) } }
    s.rawChange i v = if s.cfg.filters[inputIdx i] = 0 then u.qualify i else u := by
  intro r u
  have timer : (if v = r.qualified then none else (match r.timer with | some n => some n | none => some 0))
      = if v = r.qualified then none else some (r.timer.getD 0) := by
    cases r.timer <;> rfl
  have moved : (s.modInput i fun r' => { r' with
      raw := v, timer := if v = r.qualified then none else (match r.timer with | some n => some n | none => some 0) }) = u := by
    rw [timer]
    rfl
  show (if State.filterTime (s.modInput i _) i = 0 then (s.modInput i _).qualify i else s.modInput i _) = _
  rw [← moved]
  rfl

/-! ### AUX inputs (R158, R159) -/

theorem names_iff (x : Sensitivity) (v : Bool) :
    x.names v = true ↔
      x = .both ∨ (v = true ∧ (x = .rising ∨ x = .levelHigh)) ∨ (v = false ∧ (x = .falling ∨ x = .levelLow)) := by
  cases x <;> cases v <;> decide

theorem auxChange_named {s : State} {x : Sensitivity} {v : Bool} (c : EventClass) (h : x.names v = true) :
    s.auxChange x c v = s.raise c := if_pos h

theorem auxChange_unnamed {s : State} {x : Sensitivity} {v : Bool} (c : EventClass) (h : ¬ x.names v = true) :
    s.auxChange x c v = s := if_neg h

/-! ### Interlocks (R106, R107, R137) -/

/-- An image applied to the outputs goes with the I/O view alone (R160). -/
theorem upToPages_applyImage (s : State) (cover levels : BitVec 12) :
    UpToPages { s with outputs := (s.outputs &&& ~~~cover) ||| (levels &&& cover) } (s.applyImage cover levels) := by
  unfold State.applyImage
  dsimp only
  split
  · next same =>
    rw [same]
    exact upToPages_refl s
  · exact upToPages_touchAgain _ _ (by decide)

theorem upToPages_setGroup {s : State} (active : s.part = .active) (g : DoorGroup) :
    UpToPages { s with door := { s.door with group := g }, outputs := (s.outputs &&& 0xFF8) ||| g.image } (s.setGroup g) := by
  have image := upToPages_applyImage (s.modDoor fun d => { d with group := g }) s.doorOwned g.image
  rw [doorOwned_of_active active, image_and_doorMask] at image
  rw [State.setGroup, doorOwned_of_active active]
  exact image

theorem upToPages_doors {s t : State} (h : UpToPages s t) (d : DoorUnit) (out : BitVec 12) :
    UpToPages { s with door := d, outputs := out } { t with door := d, outputs := out } := by
  obtain ⟨frame, bytes, slots⟩ := h
  refine ⟨?_, bytes, slots⟩
  rw [frame]

/-- CLOSING is entered, or left at once where the coach is closed (R106). -/
theorem upToPages_enterClosing {s : State} (active : s.part = .active) (r : DropReason) :
    UpToPages { s with
        door := { s.door with drop := r, group := if s.level .dloop then .idle else .closing },
        outputs := (s.outputs &&& 0xFF8) ||| (if s.level .dloop then 0 else 4) } (s.enterClosing r) := by
  have group := upToPages_setGroup (s := s.modDoor fun d => { d with drop := r }) active (if s.level .dloop then .idle else .closing)
  have image : (if s.level .dloop then DoorGroup.idle else .closing).image = if s.level .dloop then 0 else 4 := by
    cases s.level .dloop <;> rfl
  rw [image] at group
  exact group

/-- The outputs after the stages on have become `c` (R135). -/
theorem getLsbD_setStages {s : State} (active : s.part = .active) (c : Nat) {i : Nat} (hi : i < 12) :
    (s.setStages c).outputs.getLsbD i
      = if 3 ≤ i ∧ i < 3 + s.cfg.count then decide (i < 3 + c) else s.outputs.getLsbD i := by
  rw [State.setStages, State.applyImage_outputs, heatOwned_of_active active]
  simp only [BitVec.getLsbD_or, BitVec.getLsbD_and, BitVec.getLsbD_not, getLsbD_stageMask, hi, decide_true, Bool.true_and,
    State.modHeat_outputs]
  by_cases stage : 3 ≤ i ∧ i < 3 + s.cfg.count
  · have within : i - 3 < s.cfg.count := by omega
    have iff : i - 3 < c ↔ i < 3 + c := by omega
    simp [stage.1, stage.2, within, iff]
  · have outside : ¬ (3 ≤ i ∧ i - 3 < s.cfg.count) := by omega
    rw [if_neg stage]
    by_cases low : 3 ≤ i
    · simp [low, show ¬ i - 3 < s.cfg.count from fun h => outside ⟨low, h⟩]
    · simp [low]

theorem setStages_frame (s : State) (c : Nat) :
    s.setStages c = { s with
      heat := { s.heat with on := c }, outputs := (s.setStages c).outputs, revs := (s.setStages c).revs } := by
  unfold State.setStages
  rw [applyImage_eq]
  rfl

theorem zeroSpeedLost_released {s : State} {x : Sides} {d : Release} (h : s.door.group = .released x d) :
    s.zeroSpeedLost = (s.enterClosing .zeroSpeed).raise .doorInterlock := by
  unfold State.zeroSpeedLost
  rw [h]

theorem zeroSpeedLost_stands {s : State} (h : ∀ x d, s.door.group ≠ .released x d) : s.zeroSpeedLost = s := by
  unfold State.zeroSpeedLost
  split
  · next x d g => exact absurd g (h x d)
  · rfl
  · rfl

theorem loopClosed_closing {s : State} (h : s.door.group = .closing) : s.loopClosed = s.setGroup .idle := by
  unfold State.loopClosed
  rw [h]

theorem loopClosed_stands {s : State} (h : s.door.group ≠ .closing) : s.loopClosed = s := by
  unfold State.loopClosed
  split
  · next g => exact absurd g h
  · rfl
  · rfl

/-- Loss of supply, from any other state (R137). -/
theorem supplyLost_eq {s : State} (h : s.heat.state ≠ .supplyOff) :
    s.supplyLost = ((s.modHeat fun h => { h with state := .supplyOff, limit := 0, ramp := none, loss := none }).setStages 0).raise
      .heatShed := if_neg h

theorem supplyLost_frame {s : State} (h : s.heat.state ≠ .supplyOff) :
    s.supplyLost = { s with
      heat := { s.heat with state := .supplyOff, limit := 0, on := 0, ramp := none, loss := none },
      outputs := s.supplyLost.outputs, events := s.supplyLost.events, revs := s.supplyLost.revs } := by
  rw [supplyLost_eq h, setStages_frame]
  rfl

/-- Zero speed lost while doors are released (R107). -/
theorem upToPages_zeroSpeedLost {s t : State} (pages : UpToPages s t) (active : s.part = .active) {x : Sides} {d : Release}
    (released : s.door.group = .released x d) :
    UpToPages (({ s with
        door := { s.door with drop := .zeroSpeed, group := if s.level .dloop then .idle else .closing },
        outputs := (s.outputs &&& 0xFF8) ||| (if s.level .dloop then 0 else 4) } : State).raise .doorInterlock)
      t.zeroSpeedLost := by
  have door : t.door = s.door := (congrArg State.door pages.1 :)
  have outputs : t.outputs = s.outputs := (congrArg State.outputs pages.1 :)
  have part : t.part = s.part := (congrArg State.part pages.1 :)
  have level : t.level .dloop = s.level .dloop := congrArg (fun x => (x.get .dloop).qualified) (congrArg State.inputs pages.1 :)
  have closes := upToPages_enterClosing (part.trans active) .zeroSpeed
  rw [level, door, outputs] at closes
  rw [zeroSpeedLost_released ((congrArg DoorUnit.group door).trans released)]
  exact upToPages_raise (upToPages_trans (upToPages_doors pages _ _) closes) _

/-- The loop closes in CLOSING (R106). -/
theorem upToPages_loopClosed {s t : State} (pages : UpToPages s t) (active : s.part = .active)
    (closing : s.door.group = .closing) :
    UpToPages { s with door := { s.door with group := .idle }, outputs := s.outputs &&& 0xFF8 } t.loopClosed := by
  have door : t.door = s.door := (congrArg State.door pages.1 :)
  have outputs : t.outputs = s.outputs := (congrArg State.outputs pages.1 :)
  have part : t.part = s.part := (congrArg State.part pages.1 :)
  have closes := upToPages_setGroup (part.trans active) .idle
  rw [door, outputs, show (s.outputs &&& 0xFF8) ||| DoorGroup.idle.image = s.outputs &&& 0xFF8 from BitVec.or_zero] at closes
  rw [loopClosed_closing ((congrArg DoorUnit.group door).trans closing)]
  exact upToPages_trans (upToPages_doors pages _ _) closes

/-! ### The readers' acts (R156) -/

theorem act_zspd_stands {s : State} {v : Bool} (h : v = true ∨ ∀ x d, s.door.group ≠ .released x d) : s.act .zspd v = s := by
  cases v with
  | true => rfl
  | false => exact zeroSpeedLost_stands (h.resolve_left Bool.false_ne_true)

theorem act_dloop_stands {s : State} {v : Bool} (h : v = false ∨ s.door.group ≠ .closing) : s.act .dloop v = s.evalSummary := by
  cases v with
  | true => exact congrArg State.evalSummary (loopClosed_stands (h.resolve_left (by decide)))
  | false => rfl

theorem act_supply_stands {s : State} {v : Bool} (h : v = true ∨ s.part = .halted ∨ s.heat.state = .supplyOff) :
    s.act .supply v = s := by
  refine ite_eq_right_iff.mpr fun lost => ?_
  rw [Bool.and_eq_true, Bool.not_eq_true', beq_iff_eq] at lost
  obtain ⟨fell, active⟩ := lost
  obtain raised | halted | off := h
  · exact absurd (raised.symm.trans fell) (by decide)
  · exact absurd (halted.symm.trans active) (by decide)
  · exact if_pos off

theorem act_supply_lost {s : State} (active : s.part = .active) : s.act .supply false = s.supplyLost :=
  if_pos (by rw [active]; rfl)

/-- An AUX input's class is pending after a change that its sensitivity names (R158, R159). -/
theorem yields_aux {s : State} {i : Input} {n : Nat} {x : Sensitivity} {k : EventClass} (held : s.resetHeld = false)
    (timer : (s.inputs.get i).timer = some n) (due : s.cfg.filters[inputIdx i] ≤ n)
    (act : ∀ u : State, u.cfg = s.cfg → u.act i (s.inputs.get i).raw = u.auxChange x k (s.inputs.get i).raw) :
    (x.names (s.inputs.get i).raw = true → Yields (.qualifiedChange i) s ((s.qualified i).raise k))
      ∧ (¬ x.names (s.inputs.get i).raw = true → Yields (.qualifiedChange i) s (s.qualified i)) := by
  have run := act ((s.qualified i).touchAgain .ioView) rfl
  refine ⟨fun named => yields_qualified held timer due ?_, fun unnamed => yields_qualified held timer due ?_⟩
  · rw [run, auxChange_named k named]
    exact upToPages_raise (qualified_pages s i) k
  · rw [run, auxChange_unnamed k unnamed]
    exact qualified_pages s i

end Sys2Proof.Machine

namespace Sys2Proof.Proofs

open Sys2Proof Sys2Proof.Machine

/-- Settles O25: the filter timer, the qualified change of the quiet cases, and the AUX classes. -/
theorem inputFilter : Obligations.InputFilter := by
  refine ⟨fun s i v held => ?_, fun s i held => ⟨fun early => ?_, fun n timer due => ⟨?_, ?_, ?_⟩⟩,
    fun s n x v held => ⟨?_, ?_⟩⟩
  · have run : exec (.rawChange i v) s = partStep (fun s => s.rawChange i v) s :=
      (exec_rawChange i v s).trans (if_neg (by rw [held]; exact Bool.false_ne_true))
    refine ⟨fun stays => yields_effect run held ((rawChange_eq s i v).trans ?_),
      fun moves zero => yields_effect run held ((rawChange_eq s i v).trans (if_pos zero))⟩
    split
    · next zero =>
      refine qualify_early (Or.inl ?_)
      rw [inputs_get_set]
      exact if_pos (stays.resolve_right (not_not.mpr zero))
    · rfl
  · exact yields_effect (exec_qualifiedChange i s) held (qualify_early early)
  · rintro rfl stands
    refine yields_qualified held timer due ?_
    rw [act_zspd_stands (s := (s.qualified .zspd).touchAgain .ioView) stands]
    exact qualified_pages s .zspd
  · rintro rfl stands
    refine yields_qualified held timer due ?_
    rw [act_dloop_stands (s := (s.qualified .dloop).touchAgain .ioView) stands]
    exact upToPages_evalSummary (qualified_pages s .dloop)
  · rintro rfl stands
    refine yields_qualified held timer due ?_
    rw [act_supply_stands (s := (s.qualified .supply).touchAgain .ioView) stands]
    exact qualified_pages s .supply
  · rintro timer due rfl rfl
    obtain ⟨named, unnamed⟩ := yields_aux (i := .aux0) (x := s.cfg.sens0) (k := .aux0) held timer due fun u cfg => by
      rw [← cfg]
      rfl
    exact ⟨fun h => named ((names_iff _ _).mpr h), fun h => unnamed (mt (names_iff _ _).mp h)⟩
  · rintro timer due rfl rfl
    obtain ⟨named, unnamed⟩ := yields_aux (i := .aux1) (x := s.cfg.sens1) (k := .aux1) held timer due fun u cfg => by
      rw [← cfg]
      rfl
    exact ⟨fun h => named ((names_iff _ _).mpr h), fun h => unnamed (mt (names_iff _ _).mp h)⟩

/-- Settles O26: zero speed drops a release, a closed loop ends CLOSING, and loss of supply turns the stages off. -/
theorem interlocks : Obligations.Interlocks := by
  refine ⟨fun s n held active => ⟨fun x d timer due fell released => ?_, fun timer due rose closing => ?_⟩,
    fun s n held active timer due fell on count => ?_⟩
  · have own : s.qualified .zspd = { s with inputs := { s.inputs with zspd := ⟨s.inputs.zspd.raw, s.inputs.zspd.raw, none⟩ } } := rfl
    have begun := qualified_pages s .zspd
    refine yields_qualified (i := .zspd) held timer due ?_
    rw [show (s.inputs.get .zspd).raw = false from fell]
    rw [own, fell] at begun ⊢
    exact upToPages_zeroSpeedLost begun active released
  · have own : s.qualified .dloop = { s with inputs := { s.inputs with dloop := ⟨s.inputs.dloop.raw, s.inputs.dloop.raw, none⟩ } } := rfl
    have begun := qualified_pages s .dloop
    refine yields_qualified (i := .dloop) held timer due ?_
    rw [show (s.inputs.get .dloop).raw = true from rose]
    rw [own, rose] at begun ⊢
    exact upToPages_evalSummary (upToPages_loopClosed begun active closing)
  · obtain ⟨t, e, pages⟩ := yields_qualified (i := .supply) held timer due (upToPages_refl _)
    have begun := qualified_pages s .supply
    have inputs : (s.qualified .supply).inputs = { s.inputs with supply := ⟨false, false, none⟩ } := by
      rw [State.qualified, show (s.inputs.get .supply).raw = false from fell]
      rfl
    rw [show (s.inputs.get .supply).raw = false from fell] at pages
    set w := (s.qualified .supply).touchAgain .ioView
    rw [act_supply_lost (s := w) active] at pages
    obtain ⟨whole, -⟩ := pages
    have frame := supplyLost_frame (s := w) on
    have outputs : t.outputs = w.supplyLost.outputs := (congrArg State.outputs whole :)
    have events : t.events = w.supplyLost.events := (congrArg State.events whole :)
    refine ⟨t, e, ?_, ?_, fun i hi => ?_, ?_, ?_⟩
    · exact (congrArg State.heat whole :).trans (congrArg State.heat frame :)
    · exact ((congrArg State.inputs whole :).trans (congrArg State.inputs frame :)).trans inputs
    · rw [outputs, supplyLost_eq (s := w) on]
      refine (getLsbD_setStages (s := State.modHeat w _) active 0 hi).trans (ite_congr rfl (fun stage => ?_) fun _ => rfl)
      exact decide_eq_false (by omega)
    · rw [isPending_congr events, supplyLost_eq (s := w) on]
      exact isPending_raise _ _
    · rw [whole, frame]
      rfl

end Sys2Proof.Proofs
end

