-- ==== Sys2Proof/Proofs/LineChanges.lean ====
section
/-! PROOFS. Line units (chapter 1): output conditions (R1), energy (R2, R3, R5), settling and rest (R4, R9), bad candidates
(R6 to R8). -/

namespace Sys2Proof.Machine

/-! ### Setting a line -/

@[simp] theorem lines_set_set (x : Lines) (l : LineId) (u v : LineUnit) : (x.set l u).set l v = x.set l v := by
  obtain ⟨e, n⟩ := l
  cases e <;> cases n <;> rfl

@[simp] theorem ends_set_set (x : Ends) (e : EndId) (u v : EndUnit) : (x.set e u).set e v = x.set e v := by
  cases e <;> rfl

@[simp] theorem ends_set_self (x : Ends) (e : EndId) : x.set e (x.get e) = x := by
  cases e <;> rfl

@[simp] theorem lines_set_self (x : Lines) (l : LineId) : x.set l (x.get l) = x := by
  obtain ⟨e, n⟩ := l
  cases e <;> cases n <;> rfl

theorem raise_raise (s : State) (c : EventClass) : (s.raise c).raise c = s.raise c := by
  have flags : (s.events.flags.set c.idx true).set c.idx true = s.events.flags.set c.idx true := Vector.set_set ..
  show { s with events := { s.events with flags := (s.events.flags.set c.idx true).set c.idx true } } = _
  rw [flags]
  rfl

theorem isSending_iff (u : LineUnit) : u.isSending = true ↔ u.state = .settling ∨ u.state = .up ∨ u.state = .suspect := by
  rw [LineUnit.isSending, Bool.or_eq_true, beq_iff_eq, usable_iff]

theorem not_isSending_iff (u : LineUnit) : u.isSending = false ↔ u.state = .dark ∨ u.state = .rest := by
  rw [LineUnit.isSending, LineUnit.usable]
  cases u.state <;> decide

/-- A line that was not sending, or goes on sending, changes its state (R14). -/
theorem setLine_moves {s : State} {l : LineId} {u : LineUnit} (changes : (s.lineOf l).state ≠ u.state)
    (carries : (s.lineOf l).isSending = false ∨ u.isSending = true) :
    s.setLine l u = ({ s with lines := s.lines.set l u } : State).raise .lineChange := by
  unfold State.setLine
  dsimp only
  rw [if_neg changes, if_neg]
  · rfl
  · rw [Bool.and_eq_true, Bool.not_eq_true']
    rintro ⟨was, now⟩
    obtain h | h := carries
    · exact absurd (h.symm.trans was) (by decide)
    · exact absurd (h.symm.trans now) (by decide)

/-- A line that stops sending carries nothing more of a telegram in transmission (R5, R14). -/
theorem setLine_stops {s : State} {l : LineId} {u : LineUnit} (was : (s.lineOf l).isSending = true)
    (now : u.isSending = false) :
    s.setLine l u = ({ s with
      lines := s.lines.set l u,
      ends := s.ends.set l.side { s.endOf l.side with
        sending := (s.endOf l.side).sending.map fun x => { x with lines := x.lines.filter (fun m => m != l.no) } } } :
        State).raise .lineChange := by
  have changes : (s.lineOf l).state ≠ u.state := fun same => by
    rw [LineUnit.isSending, LineUnit.usable, same] at was
    exact absurd (was.symm.trans now) (by decide)
  unfold State.setLine
  dsimp only
  rw [if_neg changes, if_pos (by rw [was, now]; rfl)]
  rfl

/-! ### DARK and SETTLING (R3, R5, R9) -/

/-- A line that enters SETTLING (R3). -/
def LineUnit.woken : LineUnit :=
  { state := .settling, energy := true, score := 0, settling := some 0, rest := none, asm := .waiting }

theorem maySettle_iff (s : State) (l : LineId) :
    s.maySettle l = true ↔ s.part = .active ∧ (s.endOf l.side).state ≠ .uncoupled ∧ (s.lineOf l).energy = true
      ∧ (s.lineOf l).state = .dark := by
  rw [State.maySettle, Bool.and_eq_true, Bool.and_eq_true, Bool.and_eq_true, beq_iff_eq, beq_iff_eq, bne_iff_ne]
  tauto

theorem testDark_wakes {s : State} {l : LineId} (h : s.maySettle l = true) :
    s.testDark l = ({ s with lines := s.lines.set l LineUnit.woken } : State).raise .lineChange := by
  obtain ⟨-, -, energy, dark⟩ := (maySettle_iff s l).mp h
  have woken : ({ s.lineOf l with state := .settling, score := 0, settling := some 0, rest := none, asm := .waiting } : LineUnit)
      = .woken := by
    dsimp only
    rw [energy]
    rfl
  rw [State.testDark, if_pos h, woken]
  exact setLine_moves (by rw [dark]; exact fun h => nomatch h) (Or.inr rfl)

theorem testDark_stands {s : State} {l : LineId} (h : ¬ s.maySettle l = true) : s.testDark l = s := if_neg h

theorem lineDark_of_sending {s : State} {l : LineId} (h : (s.lineOf l).isSending = true) :
    s.lineDark l = s.setLine l { s.lineOf l with state := .dark, asm := .waiting, settling := none, rest := none } := by
  refine if_neg fun dark => ?_
  obtain h | h | h := (isSending_iff _).mp h <;> exact absurd (h.symm.trans dark) (by decide)

/-! ### Bad candidates (R6 to R9) -/

/-- The thresholds below 32 (R8). -/
theorem judged_eq {x : LineState} {n : Nat} (sending : x = .settling ∨ x = .up ∨ x = .suspect) (low : n < 32) :
    judged x n = if x = .up ∧ 16 ≤ n then .suspect else if x = .suspect ∧ n ≤ 7 then .up else x := by
  obtain rfl | rfl | rfl := sending
  · rw [judged, if_neg (by omega)]
    rfl
  · rw [judged, if_neg (by omega)]
    simp
  · rw [judged, if_neg (by omega)]
    simp

theorem judged_rest {x : LineState} {n : Nat} (sending : x = .settling ∨ x = .up ∨ x = .suspect) (high : 32 ≤ n) :
    judged x n = .rest := by
  obtain rfl | rfl | rfl := sending <;> exact if_pos high

theorem judged_sending {x : LineState} {n : Nat} (sending : x = .settling ∨ x = .up ∨ x = .suspect) (low : n < 32) :
    judged x n = .settling ∨ judged x n = .up ∨ judged x n = .suspect := by
  obtain rfl | rfl | rfl := sending
  · exact Or.inl (if_neg (by omega))
  · rw [judged, if_neg (by omega)]
    split <;> simp
  · rw [judged, if_neg (by omega)]
    split <;> simp

/-- A new score below 32 (R8). -/
theorem rescore_low {s : State} {l : LineId} {n : Nat} (sending : (s.lineOf l).isSending = true) (low : n < 32) :
    s.rescore l n =
      let v : LineUnit := { s.lineOf l with state := judged (s.lineOf l).state n, score := n }
      let w : State := { s with lines := s.lines.set l v }
      if v.state = (s.lineOf l).state then w else w.raise .lineChange := by
  have now := judged_sending ((isSending_iff _).mp sending) low
  have apart : judged (s.lineOf l).state n ≠ .rest := fun rest => by
    rw [rest] at now
    exact absurd now (by decide)
  dsimp only
  unfold State.rescore
  dsimp only
  rw [if_neg apart]
  split
  · next same => exact setLine_same same.symm
  · next moved => exact setLine_moves (Ne.symm moved) (Or.inr ((isSending_iff _).mpr now))

/-- A score of 32 sends the line to rest (R8, R9). -/
theorem rescore_rest {s : State} {l : LineId} {n : Nat} (sending : (s.lineOf l).isSending = true) (high : 32 ≤ n) :
    s.rescore l n =
      s.setLine l { s.lineOf l with state := .rest, score := n, asm := .waiting, settling := none, rest := some 0 } := by
  unfold State.rescore
  dsimp only
  exact if_pos (judged_rest ((isSending_iff _).mp sending) high)

/-- A bad candidate, with the assembler already moved on (R7). -/
theorem scoreBad_afterBad {s : State} {l : LineId} (a : Assembler) (sending : (s.lineOf l).isSending = true) :
    (s.setLine l { s.lineOf l with asm := a }).scoreBad l = s.afterBad l a := by
  have moved : s.setLine l { s.lineOf l with asm := a } = { s with lines := s.lines.set l { s.lineOf l with asm := a } } :=
    setLine_same rfl
  rw [moved]
  set w : State := { s with lines := s.lines.set l { s.lineOf l with asm := a } }
  have line : w.lineOf l = { s.lineOf l with asm := a } := lines_get_set ..
  have still : (w.lineOf l).isSending = true := by rw [line]; exact sending
  have score : (w.lineOf l).score = (s.lineOf l).score := by rw [line]
  have state : (w.lineOf l).state = (s.lineOf l).state := by rw [line]
  rw [State.scoreBad, score]
  unfold State.afterBad
  dsimp only
  by_cases low : (s.lineOf l).score + 4 < 32
  · rw [if_pos low, if_neg (by omega), Nat.min_eq_right (by omega), rescore_low still low, line]
    dsimp only
    rw [judged_eq ((isSending_iff _).mp sending) low, lines_set_set]
  · rw [if_neg low, if_pos rfl, Nat.min_eq_left (by omega), rescore_rest still (le_refl _), setLine_stops still rfl, line]
    show State.raise { s with lines := (s.lines.set l _).set l _, ends := _ } _ = _
    rw [lines_set_set]
    rfl

end Sys2Proof.Machine

namespace Sys2Proof.Proofs

open Sys2Proof Sys2Proof.Machine

/-- Settles O28: the output condition, and each command of the detector and of the line timers. -/
theorem lineStates : Obligations.LineStates := by
  refine ⟨fun s l => ⟨lineOutput_held (l := l), fun free => ⟨fun sends => ?_, fun rest => ?_, fun dark active coupled => ?_,
    fun dark off => ?_⟩⟩, fun s l held => ⟨fun starts => ?_, fun stays => ?_⟩, fun s l held => ⟨fun still => ?_, fun sends => ?_⟩,
    fun s l held => ⟨fun n settling timer due => ?_, fun early => ?_⟩, fun s l held => ⟨fun n rest timer due => ?_, fun early => ?_⟩⟩
  · exact (lineOutput_bytes_iff s l).mpr ⟨free, (isSending_iff _).mpr sends⟩
  · rw [State.lineOutput, if_neg (by rw [free]; exact Bool.false_ne_true), rest]
  · exact (lineOutput_idle_iff s l).mpr ⟨free, dark, active, coupled⟩
  · rw [State.lineOutput, if_neg (by rw [free]; exact Bool.false_ne_true), dark]
    refine if_neg fun idle => ?_
    obtain ⟨active, coupled⟩ := idle
    exact off.elim (fun halted => absurd (active.symm.trans halted) (by decide)) coupled
  · obtain ⟨active, coupled, dark⟩ := starts
    refine yields_effect (exec_energyPresent l s) held (congrArg (fun v : State => v.boundary l.side) ?_)
    set w := s.modLine l fun u => { u with energy := true }
    have line : w.lineOf l = { s.lineOf l with energy := true } := lines_get_set ..
    refine (testDark_wakes (s := w) ((maySettle_iff w l).mpr ⟨active, coupled, by rw [line], by rw [line]; exact dark⟩)).trans ?_
    show State.raise { s with lines := (s.lines.set l _).set l _ } _ = _
    rw [lines_set_set]
    rfl
  · refine yields_effect (exec_energyPresent l s) held (congrArg (fun v : State => v.boundary l.side) ?_)
    set w := s.modLine l fun u => { u with energy := true }
    have line : w.lineOf l = { s.lineOf l with energy := true } := lines_get_set ..
    refine testDark_stands (s := w) fun may => stays ?_
    obtain ⟨active, coupled, -, dark⟩ := (maySettle_iff w l).mp may
    rw [line] at dark
    exact ⟨active, coupled, dark⟩
  · refine yields_effect (exec_energyAbsent l s) held (if_neg ?_)
    have line : (s.modLine l fun u => { u with energy := false }).lineOf l = { s.lineOf l with energy := false } :=
      lines_get_set ..
    rw [line, Bool.not_eq_true]
    exact (not_isSending_iff _).mpr still
  · refine yields_effect (exec_energyAbsent l s) held ?_
    set w := s.modLine l fun u => { u with energy := false }
    have line : w.lineOf l = { s.lineOf l with energy := false } := lines_get_set ..
    have sending : (w.lineOf l).isSending = true := by rw [line]; exact (isSending_iff _).mpr sends
    have falls : s.energyOff l = w.lineDark l := if_pos sending
    rw [falls, lineDark_of_sending sending, setLine_stops sending rfl, line]
    show State.raise { s with lines := (s.lines.set l _).set l _, ends := _ } _ = _
    rw [lines_set_set]
    rfl
  · refine yields_effect (exec_settlingTimer l s) held ?_
    have due' : s.qualifyLine l = s.setLine l { s.lineOf l with
        state := if (s.lineOf l).score < 16 then .up else .suspect, settling := none } :=
      if_pos ⟨settling, by rw [timer]; exact reached_some due⟩
    rw [due']
    refine setLine_moves ?_ (Or.inr ?_)
    · rw [settling]
      dsimp only
      split <;> decide
    · rw [isSending_iff]
      dsimp only
      split <;> simp
  · refine yields_effect (exec_settlingTimer l s) held (if_neg ?_)
    rintro ⟨settling, due⟩
    rw [reached_false (early.resolve_left (not_not.mpr settling))] at due
    exact absurd due Bool.false_ne_true
  · refine yields_effect (exec_restTimer l s) held ?_
    have ends : s.endRest l = ((s.lineDark l).testDark l).boundary l.side :=
      if_pos ⟨rest, by rw [timer]; exact reached_some due⟩
    rw [ends]
    refine congrArg (fun v : State => v.boundary l.side) ?_
    set d : LineUnit := { s.lineOf l with state := .dark, asm := .waiting, settling := none, rest := none }
    have darkens : s.lineDark l = ({ s with lines := s.lines.set l d } : State).raise .lineChange := by
      rw [State.lineDark, if_neg (by rw [rest]; decide)]
      exact setLine_moves (u := d) (by rw [rest]; exact fun h => nomatch h) (Or.inl ((not_isSending_iff _).mpr (Or.inr rest)))
    have line : (s.lineDark l).lineOf l = d := by
      rw [darkens]
      exact lines_get_set ..
    have may : (s.lineDark l).maySettle l = true
        ↔ s.part = .active ∧ (s.endOf l.side).state ≠ .uncoupled ∧ (s.lineOf l).energy = true := by
      rw [maySettle_iff, line, darkens]
      exact ⟨fun ⟨active, coupled, energy, _⟩ => ⟨active, coupled, energy⟩,
        fun ⟨active, coupled, energy⟩ => ⟨active, coupled, energy, rfl⟩⟩
    by_cases wakes : s.part = .active ∧ (s.endOf l.side).state ≠ .uncoupled ∧ (s.lineOf l).energy = true
    · rw [testDark_wakes (may.mpr wakes), if_pos wakes, darkens]
      show State.raise (State.raise { s with lines := (s.lines.set l _).set l _ } _) _ = _
      rw [raise_raise, lines_set_set]
      rfl
    · rw [testDark_stands (mt may.mp wakes), if_neg wakes, darkens]
  · refine yields_effect (exec_restTimer l s) held (if_neg ?_)
    rintro ⟨rest, due⟩
    rw [reached_false (early.resolve_left (not_not.mpr rest))] at due
    exact absurd due Bool.false_ne_true

end Sys2Proof.Proofs
end

