-- ==== Sys2Proof/Proofs/Candidates.lean ====
section
/-! PROOFS. Bytes and candidates (chapters 1 and 2): the byte assembler (R27, R28), the checks of a candidate (R29, R30),
bad candidates and gaps (R6, R7), and the delivery of a good telegram (R12, R17, R31, R32, R34, R36). -/

namespace Sys2Proof.Machine

/-! ### The assembler (R28) -/

theorem asmStep_escaped (v : Byte) (bs : List Byte) (g : Nat) :
    asmStep (.escaped bs g) v =
      (if 1 ≤ v.toNat ∧ v.toNat ≤ 5 then
         (if bs.length < 320 then (.opened (bs ++ [v + 0xF0]) 0, .nothing) else (.discarding, .bad .framing))
       else if v = 0xF1 then (.opened [] 0, .bad .escape)
       else if v = 0xF2 then (.waiting, .bad .escape) else (.discarding, .bad .escape)) := by
  by_cases code : 1 ≤ v.toNat ∧ v.toNat ≤ 5
  · have escape : unescape v = some (v + 0xF0) := if_pos (by rw [Bool.and_eq_true]; exact ⟨decide_eq_true code.1, decide_eq_true code.2⟩)
    rw [asmStep, escape, if_pos code]
    rfl
  · have escape : unescape v = none := if_neg (by
      rw [Bool.and_eq_true]
      exact fun h => code ⟨of_decide_eq_true h.1, of_decide_eq_true h.2⟩)
    rw [asmStep, escape, if_neg code]
    rfl

/-! ### A byte received (R26 to R28) -/

/-- What the assembler's report of a byte brings about (R7, R29). -/
def State.reported (s : State) (l : LineId) : AsmReport → State
  | .nothing => s
  | .bad _ => s.scoreBad l
  | .closed c => s.closeCandidate l c

/-- A byte that is no flow character, on a line that is sending or not. -/
theorem byteIn_eq {s : State} {l : LineId} {v : Byte} (stop : v ≠ 0xF4) (go : v ≠ 0xF5) :
    s.byteIn l v =
      if (s.lineOf l).isSending then
        (s.setLine l { s.lineOf l with asm := (asmStep (s.lineOf l).asm v).1 }).reported l (asmStep (s.lineOf l).asm v).2
      else s :=
  (if_neg stop).trans (if_neg go)

theorem closeCandidate_bad {s : State} {l : LineId} {c : List Byte} {b : BadCause} (h : checkCandidate c = .bad b) :
    s.closeCandidate l c = s.scoreBad l := by
  unfold State.closeCandidate
  rw [h]

/-! ### The checks of a candidate (R29, R30) -/

theorem kindOfCode_code (k : Kind) : kindOfCode k.code = some k := by cases k <;> decide

theorem scopeOfCode_code (x : Scope) : scopeOfCode x.code = some x := by cases x <;> decide

theorem code_of_kindOfCode {b : Byte} {k : Kind} (h : kindOfCode b = some k) : b = k.code := by
  unfold kindOfCode at h
  have found := List.find?_some h
  exact (beq_iff_eq.mp found).symm

theorem code_of_scopeOfCode {b : Byte} {x : Scope} (h : scopeOfCode b = some x) : b = x.code := by
  unfold scopeOfCode at h
  have found := List.find?_some h
  exact (beq_iff_eq.mp found).symm

/-- The header test against the table of kinds (R30). -/
theorem headerOk_iff (t : Telegram) (cls : Byte) :
    headerOk t cls = true ↔ cls = byteOf t.kind.cls.code ∧ t.scope ∈ t.kind.scopes ∧ ¬ (t.scope = .coach ∧ t.dest = 0)
      ∧ t.hop ≠ 0 ∧ (t.kind = .hail → t.hop = 1) ∧ t.kind.bodyLengthOk t.body.length = true
      ∧ t.kind.routeLengthOk t.route.length = true := by
  simp only [headerOk, Bool.and_eq_true, Bool.not_eq_true', Bool.and_eq_false_iff, beq_iff_eq, bne_iff_ne, beq_eq_false_iff_ne,
    bne_eq_false_iff_eq, List.contains_iff_mem, not_and_or, ne_eq, Decidable.imp_iff_not_or]
  tauto

/-- The telegram that a candidate reads as, of a kind and a scope (R194). -/
def readAs (c : List Byte) (k : Kind) (x : Scope) : Telegram :=
  let b := (rd16 c 13).toNat
  let g := (rd8 c (18 + b)).toNat
  ⟨k, x, rd32 c 3, rd32 c 7, rd16 c 11, (c.drop 15).take b, rd16 c (15 + b), rd8 c (17 + b), (c.drop (19 + b)).take g,
    rd16 c (19 + b + g)⟩

/-- The telegram read has the lengths that the candidate names. -/
theorem readAs_lengths {c : List Byte} (k : Kind) (x : Scope)
    (length : c.length = 21 + (rd16 c 13).toNat + (rd8 c (18 + (rd16 c 13).toNat)).toNat) :
    (readAs c k x).body.length = (rd16 c 13).toNat
      ∧ (readAs c k x).route.length = (rd8 c (18 + (rd16 c 13).toNat)).toNat := by
  rw [readAs, List.length_take, List.length_take, List.length_drop, List.length_drop]
  omega

/-- The length of a candidate and both its checks are right (R29). -/
structure Sound (c : List Byte) : Prop where
  long : 21 ≤ c.length
  length : c.length = 21 + (rd16 c 13).toNat + (rd8 c (18 + (rd16 c 13).toNat)).toNat
  body : crc 0xFFFF (c.take (15 + (rd16 c 13).toNat)) = rd16 c (15 + (rd16 c 13).toNat)
  route : crc 0 ((c.drop (17 + (rd16 c 13).toNat)).take (2 + (rd8 c (18 + (rd16 c 13).toNat)).toNat))
    = rd16 c (19 + (rd16 c 13).toNat + (rd8 c (18 + (rd16 c 13).toNat)).toNat)

theorem checkCandidate_good {c : List Byte} (sound : Sound c) {k : Kind} {x : Scope} (kind : rd8 c 0 = k.code)
    (scope : rd8 c 2 = x.code) (header : headerOk (readAs c k x) (rd8 c 1) = true) :
    checkCandidate c = .good (readAs c k x) := by
  obtain ⟨long, length, body, route⟩ := sound
  unfold checkCandidate
  dsimp only
  rw [if_neg (by omega), if_neg (not_not.mpr body), if_neg (not_not.mpr route), kind, scope, kindOfCode_code, scopeOfCode_code]
  exact if_pos header

theorem checkCandidate_header {c : List Byte} (sound : Sound c)
    (none : ∀ k x, rd8 c 0 = k.code → rd8 c 2 = x.code → ¬ headerOk (readAs c k x) (rd8 c 1) = true) :
    checkCandidate c = .bad .framing := by
  obtain ⟨long, length, body, route⟩ := sound
  unfold checkCandidate
  dsimp only
  rw [if_neg (by omega), if_neg (not_not.mpr body), if_neg (not_not.mpr route)]
  split
  · next k x kind scope => exact if_neg (none k x (code_of_kindOfCode kind) (code_of_scopeOfCode scope))
  · rfl

/-! ### Delivery (R12, R31, R32) -/

/-- A good telegram's score, from a line that has just closed it (R7, R8). -/
theorem scoreGood_closed {s : State} {l : LineId} (sending : (s.lineOf l).isSending = true) (low : (s.lineOf l).score ≤ 32) :
    (s.setLine l { s.lineOf l with asm := .waiting }).scoreGood l =
      let u := s.lineOf l
      let n := u.score - 1
      let v : LineUnit := { u with
        score := n, asm := .waiting,
        state := if u.state = .up ∧ 16 ≤ n then .suspect else if u.state = .suspect ∧ n ≤ 7 then .up else u.state }
      let w : State := { s with lines := s.lines.set l v }
      if v.state = u.state then w else w.raise .lineChange := by
  have moved : s.setLine l { s.lineOf l with asm := .waiting }
      = { s with lines := s.lines.set l { s.lineOf l with asm := .waiting } } := setLine_same rfl
  rw [moved]
  set w : State := { s with lines := s.lines.set l { s.lineOf l with asm := .waiting } }
  have line : w.lineOf l = { s.lineOf l with asm := .waiting } := lines_get_set ..
  have still : (w.lineOf l).isSending = true := by rw [line]; exact sending
  have score : (w.lineOf l).score = (s.lineOf l).score := by rw [line]
  rw [State.scoreGood, score, rescore_low still (by omega), line]
  dsimp only
  rw [judged_eq ((isSending_iff _).mp sending) (by omega), lines_set_set]

theorem closeCandidate_good {s : State} {l : LineId} {c : List Byte} {t : Telegram} (h : checkCandidate c = .good t) :
    s.closeCandidate l c = if (s.lineOf l).usable then (s.scoreGood l).deliver l.side t else s.scoreGood l := by
  unfold State.closeCandidate
  rw [h]

theorem isKeyOf_iff (k : FilterKey) (t : Telegram) :
    k.isKeyOf t = true ↔ k.origin = t.origin ∧ k.kind = t.kind ∧ k.seq = t.seq := by
  rw [FilterKey.isKeyOf, Bool.and_eq_true, Bool.and_eq_true, beq_iff_eq, beq_iff_eq, beq_iff_eq, and_assoc]

theorem keyHeld_iff (ks : List FilterKey) (t : Telegram) :
    (ks.any fun k => k.isKeyOf t) = true ↔ ∃ k ∈ ks, k.origin = t.origin ∧ k.kind = t.kind ∧ k.seq = t.seq := by
  rw [List.any_eq_true]
  exact exists_congr fun k => and_congr_right fun _ => isKeyOf_iff k t

/-- An end controller's change, by what it comes to. -/
theorem modEnd_eq {s : State} {e : EndId} {f : EndUnit → EndUnit} {v : EndUnit} (h : f (s.endOf e) = v) :
    s.modEnd e f = { s with ends := s.ends.set e v } := h ▸ rfl

/-- The delivery of a good telegram up to the filter: the link timer restarts, and a PROBING end enters LINKED (R12, R116). -/
def State.arrived (s : State) (e : EndId) : State :=
  if (s.endOf e).state == .probing then ((s.modEnd e EndUnit.refreshed).raise .lineChange).evalSummary
  else s.modEnd e EndUnit.refreshed

/-- The key of an arrived telegram has entered the filter (R32). -/
def State.noted (s : State) (e : EndId) (x : Telegram) : State :=
  (s.arrived e).modEnd e fun u => { u with filter := enterKey u.filter (x.key (s.arrived e).ms) }

theorem refreshed_linked {u : EndUnit} (h : u.state = .linked) : u.refreshed = { u with link := some 0 } := by
  unfold EndUnit.refreshed
  rw [h]

theorem refreshed_probing {u : EndUnit} (h : u.state = .probing) : u.refreshed = { u with state := .linked, link := some 0 } := by
  unfold EndUnit.refreshed
  rw [h]

theorem arrived_linked {s : State} {e : EndId} (h : (s.endOf e).state = .linked) :
    s.arrived e = { s with ends := s.ends.set e { s.endOf e with link := some 0 } } := by
  rw [State.arrived, if_neg (by rw [h]; decide)]
  exact modEnd_eq (refreshed_linked h)

theorem arrived_probing {s : State} {e : EndId} (h : (s.endOf e).state = .probing) :
    s.arrived e = (({ s with ends := s.ends.set e { s.endOf e with state := .linked, link := some 0 } } : State).raise
      .lineChange).evalSummary := by
  rw [State.arrived, if_pos (by rw [h]; rfl), modEnd_eq (refreshed_probing h)]

theorem arrived_ms (s : State) (e : EndId) : (s.arrived e).ms = s.ms := by
  unfold State.arrived
  split
  · exact (congrArg State.ms (evalSummary_frame _) :)
  · rfl

theorem arrived_filter (s : State) (e : EndId) : ((s.arrived e).endOf e).filter = (s.endOf e).filter := by
  have refreshed : ((s.modEnd e EndUnit.refreshed).endOf e).filter = (s.endOf e).filter := by
    rw [endOf_modEnd, EndUnit.refreshed]
    split <;> rfl
  unfold State.arrived
  split
  · exact (congrArg (fun v : State => (v.endOf e).filter) (evalSummary_frame ((s.modEnd e EndUnit.refreshed).raise .lineChange))).trans
      refreshed
  · exact refreshed

/-- The entering key, in the terms of the state before. -/
theorem noted_eq (s : State) (e : EndId) (x : Telegram) :
    s.noted e x = (s.arrived e).modEnd e fun u => { u with filter := enterKey (s.endOf e).filter (x.key s.ms) } := by
  rw [State.noted, arrived_ms, ← arrived_filter]
  rfl

theorem noted_linked {s : State} {e : EndId} (h : (s.endOf e).state = .linked) (x : Telegram) :
    s.noted e x = { s with ends := s.ends.set e { s.endOf e with
      link := some 0, filter := enterKey (s.endOf e).filter (x.key s.ms) } } := by
  rw [noted_eq, arrived_linked h]
  show { s with ends := (s.ends.set e _).set e { (s.ends.set e _).get e with filter := _ } } = _
  rw [ends_set_set, ends_get_set]

/-- A telegram whose key is held is dropped (R32). -/
theorem deliver_held {s : State} {e : EndId} {x : Telegram}
    (held : ∃ k ∈ (s.endOf e).filter, k.origin = x.origin ∧ k.kind = x.kind ∧ k.seq = x.seq) :
    s.deliver e x = if (s.endOf e).state == .probing then (s.arrived e).linkChange (.enter e none) else s.arrived e :=
  if_pos (show (((s.arrived e).endOf e).filter.any fun k => k.isKeyOf x) = true by
    rw [arrived_filter]
    exact (keyHeld_iff _ x).mpr held)

/-- A telegram that passes the filter (R31, R32). -/
theorem deliver_fresh {s : State} {e : EndId} {x : Telegram}
    (fresh : ¬ ∃ k ∈ (s.endOf e).filter, k.origin = x.origin ∧ k.kind = x.kind ∧ k.seq = x.seq) :
    s.deliver e x =
      if x.kind = .hail then (s.noted e x).takeHail e ((s.endOf e).state == .probing) x
      else (if (s.endOf e).state == .probing then (s.noted e x).linkChange (.enter e none) else s.noted e x).offer e x :=
  if_neg (show ¬ (((s.arrived e).endOf e).filter.any fun k => k.isKeyOf x) = true by
    rw [arrived_filter]
    exact mt (keyHeld_iff _ x).mp fresh)

/-! ### A HAIL that passed the filter (R12, R17) -/

theorem takeHail_nobody {s : State} {e : EndId} {entered : Bool} {t : Telegram} (h : rd32 t.body 0 = 0) :
    s.takeHail e entered t = if entered then s.linkChange (.enter e none) else s := if_pos h

/-- The neighbour record as a HAIL writes it (R17). -/
def State.recorded (s : State) (e : EndId) (t : Telegram) : State :=
  (s.modEnd e fun u => { u with neighbour := some (neighbourFrom t.body s.ms) }).touch .lines

theorem takeHail_entered {s : State} {e : EndId} {t : Telegram} (h : rd32 t.body 0 ≠ 0) :
    s.takeHail e true t = (s.recorded e t).linkChange (.enter e (some (rd32 t.body 0))) := if_neg h

theorem takeHail_known {s : State} {e : EndId} {t : Telegram} (h : rd32 t.body 0 ≠ 0)
    (known : (s.endOf e).neighbour.map (·.identity) = some (rd32 t.body 0)) :
    s.takeHail e false t = s.recorded e t := (if_neg h).trans (if_pos known)

theorem takeHail_newPeer {s : State} {e : EndId} {t : Telegram} (h : rd32 t.body 0 ≠ 0) (linked : (s.endOf e).state = .linked)
    (others : (s.endOf e).neighbour.map (·.identity) ≠ some (rd32 t.body 0)) :
    s.takeHail e false t
      = (s.recorded e t).linkChange (.newPeer e ((s.endOf e).neighbour.map (·.identity)) (rd32 t.body 0)) := by
  refine ((if_neg h).trans (if_neg others)).trans (if_pos ?_)
  rw [State.endOf, State.touch_ends]
  exact (congrArg EndUnit.state (endOf_modEnd s e _)).trans linked

/-! ### The receive buffer (R34, R36) -/

theorem offer_full {s : State} {e : EndId} {t : Telegram} (full : 1024 < (s.endOf e).fill + t.length) :
    s.offer e t = s.raise .rxOverflow := if_neg (Nat.not_le.mpr full)

theorem offer_fits {s : State} {e : EndId} {t : Telegram} (fits : (s.endOf e).fill + t.length ≤ 1024) :
    s.offer e t =
      let u := { s.endOf e with buffer := (s.endOf e).buffer ++ [t] }
      let v := if s.cfg.high ≤ (s.endOf e).fill + t.length ∧ (s.endOf e).sentStop = false then
        { u with sentStop := true, flowDue := some .stop } else u
      { s with ends := s.ends.set e v } := by
  refine (if_pos fits).trans (modEnd_eq ?_)
  dsimp only
  rw [fill_append]

end Sys2Proof.Machine

namespace Sys2Proof.Proofs

open Sys2Proof Sys2Proof.Machine

/-- Settles O29: the table of R28, the bad candidates, the checks in their order, and the gap. -/
theorem candidateBytes : Obligations.CandidateBytes := by
  refine ⟨fun v bs g => ⟨rfl, rfl, rfl, asmStep_escaped v bs g⟩, fun s l v held stop go => ⟨fun still => ?_, fun sends =>
    ⟨fun nothing => ?_, fun bad => ?_⟩⟩, fun c => ⟨fun length => ?_, fun long length => ⟨fun body => ?_, fun body route => ?_,
    fun body route => ?_⟩⟩, fun s l held => ⟨fun bs g sends open_ => ?_, fun still => ?_⟩⟩
  · refine yields_effect (exec_byteReceived l v s) held ((byteIn_eq stop go).trans (if_neg ?_))
    rw [(not_isSending_iff _).mpr still]
    exact Bool.false_ne_true
  · refine yields_effect (exec_byteReceived l v s) held ((byteIn_eq stop go).trans ((if_pos ((isSending_iff _).mpr sends)).trans ?_))
    rw [nothing]
    exact setLine_same rfl
  · have sending := (isSending_iff _).mpr sends
    refine yields_effect (exec_byteReceived l v s) held ((byteIn_eq stop go).trans ((if_pos sending).trans ?_))
    refine Eq.trans ?_ (scoreBad_afterBad _ sending)
    obtain ⟨c, report⟩ | ⟨bs, c, report, fails⟩ := bad
    · rw [report]
      rfl
    · rw [report]
      exact closeCandidate_bad fails
  · unfold checkCandidate
    exact if_pos length
  · unfold checkCandidate
    dsimp only
    rw [if_neg (by omega), if_pos body]
  · unfold checkCandidate
    dsimp only
    rw [if_neg (by omega), if_neg (not_not.mpr body), if_pos route]
  · have sound : Sound c := ⟨long, length, body, route⟩
    refine ⟨fun k x kind scope header => checkCandidate_good sound kind scope ((headerOk_iff _ _).mpr ?_),
      fun none => checkCandidate_header sound fun k x kind scope header => none k x kind scope ?_⟩
    · obtain ⟨bodyLength, routeLength⟩ := readAs_lengths k x length
      rw [bodyLength, routeLength]
      exact header
    · obtain ⟨bodyLength, routeLength⟩ := readAs_lengths k x length
      rw [headerOk_iff, bodyLength, routeLength] at header
      exact header
  · have sending := (isSending_iff _).mpr sends
    have gap : (s.lineOf l).asm.gapOver = decide (2 ≤ g) := by
      obtain h | h := open_ <;> rw [h] <;> rfl
    refine ⟨fun early => yields_effect (exec_gapTimeout l s) held (if_neg ?_),
      fun due => yields_effect (exec_gapTimeout l s) held ((if_pos ?_).trans (scoreBad_afterBad .waiting sending))⟩
    · rw [gap, decide_eq_false (by omega), Bool.and_false]
      exact Bool.false_ne_true
    · rw [gap, sending, decide_eq_true due]
      rfl
  · refine yields_effect (exec_gapTimeout l s) held (if_neg ?_)
    rw [Bool.and_eq_true]
    rintro ⟨sending, gap⟩
    obtain h | h | h | h := still
    · exact absurd (((not_isSending_iff _).mpr (Or.inl h)).symm.trans sending) (by decide)
    · exact absurd (((not_isSending_iff _).mpr (Or.inr h)).symm.trans sending) (by decide)
    · rw [h] at gap
      exact absurd gap Bool.false_ne_true
    · rw [h] at gap
      exact absurd gap Bool.false_ne_true

/-- Settles O30: a closed candidate's score and delivery, delivery by the end's state, and the receive buffer. -/
theorem telegramDelivery : Obligations.TelegramDelivery := by
  refine ⟨fun s l bs g x held => ?_, fun s e x => ⟨fun linked => ?_, fun probing => ?_⟩, fun s e x => ⟨fun full => ?_,
    fun fits => ⟨fun low => ?_, fun high unsent => ?_⟩⟩⟩
  · intro u n v w z low open_ good
    have step : asmStep (s.lineOf l).asm 0xF2 = (.waiting, .closed bs) := by
      rw [show (s.lineOf l).asm = _ from open_]
      rfl
    have run : ∀ sending : (s.lineOf l).isSending = true,
        s.byteIn l 0xF2 = if u.usable then z.deliver l.side x else z := fun sending => by
      have line : (s.setLine l { s.lineOf l with asm := .waiting }).lineOf l = { s.lineOf l with asm := .waiting } := by
        rw [setLine_same (u := { s.lineOf l with asm := .waiting }) rfl]
        exact lines_get_set ..
      refine ((byteIn_eq (by decide) (by decide)).trans (if_pos sending)).trans ?_
      rw [step]
      refine (closeCandidate_good good).trans ?_
      rw [line, scoreGood_closed sending low]
      rfl
    refine ⟨fun settling => ?_, fun usable => ?_⟩
    · refine yields_effect (exec_byteReceived l 0xF2 s) held ((run ((isSending_iff _).mpr (Or.inl settling))).trans (if_neg ?_))
      rw [LineUnit.usable, show u.state = .settling from settling]
      decide
    · refine yields_effect (exec_byteReceived l 0xF2 s) held ((run ((isSending_iff _).mpr (Or.inr usable))).trans (if_pos ?_))
      exact (usable_iff u).mpr usable
  · intro upd w h
    have entered : ((s.endOf e).state == .probing) = false := by rw [linked]; rfl
    have noted : s.noted e x = w := noted_linked linked x
    have unit : w.endOf e = { s.endOf e with link := some 0, filter := enterKey (s.endOf e).filter (x.key s.ms) } :=
      ends_get_set ..
    have recorded : w.recorded e x = h := by
      rw [State.recorded, modEnd_eq rfl, unit]
      show State.touch { s with ends := (s.ends.set e _).set e _ } _ = _
      rw [ends_set_set]
      rfl
    refine ⟨fun held => ?_, fun fresh other => ?_, fun fresh hail => ?_⟩
    · rw [deliver_held held, entered]
      exact arrived_linked linked
    · rw [deliver_fresh fresh, if_neg other, entered, noted]
      rfl
    · have run : s.deliver e x = w.takeHail e false x := by
        rw [deliver_fresh fresh, if_pos hail, entered, noted]
      rw [run]
      refine ⟨fun nobody => ?_, fun somebody => ⟨fun m known same => ?_, fun others => ?_⟩⟩
      · exact takeHail_nobody nobody
      · rw [takeHail_known somebody, recorded]
        rw [unit]
        exact (congrArg (Option.map _) known).trans (congrArg some same)
      · rw [takeHail_newPeer somebody, recorded]
        · rw [unit]
        · rw [unit]; exact linked
        · rw [unit]
          intro same
          obtain ⟨m, known, identity⟩ := Option.map_eq_some_iff.mp same
          exact others m known identity
  · intro v w h
    have entered : ((s.endOf e).state == .probing) = true := by rw [probing]; rfl
    have noted : s.noted e x = w := by
      rw [noted_eq, arrived_probing probing]
      rfl
    have ms : w.ms = s.ms := (congrArg State.ms noted.symm).trans (arrived_ms s e)
    have recorded : w.recorded e x = h := by
      rw [State.recorded, ms]
      rfl
    refine ⟨fun held => ?_, fun fresh other => ?_, fun fresh hail => ?_⟩
    · rw [deliver_held held, entered, arrived_probing probing]
      rfl
    · rw [deliver_fresh fresh, if_neg other, entered, noted]
      rfl
    · have run : s.deliver e x = w.takeHail e true x := by
        rw [deliver_fresh fresh, if_pos hail, entered, noted]
      rw [run]
      refine ⟨takeHail_nobody, fun somebody => ?_⟩
      rw [takeHail_entered somebody, recorded]
  · exact offer_full full
  · refine (offer_fits fits).trans ?_
    dsimp only
    rw [if_neg]
    rintro ⟨high, unsent⟩
    obtain below | sent := low
    · exact absurd high (Nat.not_le.mpr below)
    · exact absurd (unsent.symm.trans sent) (by decide)
  · refine (offer_fits fits).trans ?_
    dsimp only
    rw [if_pos ⟨high, unsent⟩]

end Sys2Proof.Proofs
end

