-- ==== Sys2Proof/Proofs/EndCommands.lean ====
section
/-! PROOFS. End controllers and the transmitter (chapters 1 and 3): flow characters (R26, R36 to R39), link, stall, HAIL
and key timers (R13, R16, R33, R39), telegram boundaries and the arbiter (R50 to R52). -/

namespace Sys2Proof.Machine

/-! ### Flow characters (R26, R36 to R39) -/

theorem flowOn_silent {s : State} {l : LineId} (f : State → State) (still : (s.lineOf l).isSending = false) :
    s.flowOn l f = s := if_neg (by rw [still]; exact Bool.false_ne_true)

/-- A line on which a flow character has been received (R6, R26). -/
def State.heardOn (s : State) (l : LineId) : State :=
  { s with lines := s.lines.set l { s.lineOf l with asm := (s.lineOf l).asm.restartGap } }

theorem flowOn_settling {s : State} {l : LineId} (f : State → State) (settling : (s.lineOf l).state = .settling) :
    s.flowOn l f = s.heardOn l := by
  refine (if_pos ((isSending_iff _).mpr (Or.inl settling))).trans (if_neg ?_)
  rw [LineUnit.usable, settling]
  decide

theorem flowOn_usable {s : State} {l : LineId} (f : State → State)
    (usable : (s.lineOf l).state = .up ∨ (s.lineOf l).state = .suspect) : s.flowOn l f = f (s.heardOn l) :=
  (if_pos ((isSending_iff _).mpr (Or.inr usable))).trans (if_pos ((usable_iff _).mpr usable))

theorem stopped_again {s : State} {e : EndId} (h : (s.endOf e).recvStop = true) : s.stopped e = s := if_pos h

theorem stopped_first {s : State} {e : EndId} (h : (s.endOf e).recvStop = false) :
    s.stopped e = { s with ends := s.ends.set e { s.endOf e with recvStop := true, stall := some 0 } } :=
  if_neg (by rw [h]; exact Bool.false_ne_true)

theorem released_again {s : State} {e : EndId} (h : (s.endOf e).recvStop = false) : s.released e = s :=
  if_neg (by rw [h]; exact Bool.false_ne_true)

theorem released_first {s : State} {e : EndId} (h : (s.endOf e).recvStop = true) :
    s.released e = ({ s with ends := s.ends.set e { s.endOf e with recvStop := false, stall := none, stalled := false } } :
      State).boundary e := if_pos h

/-! ### Boundaries (R16, R50) -/

theorem isSome_of_ne_none {α : Type} {x : Option α} (h : x ≠ none) : x.isSome = true := Option.isSome_iff_ne_none.mpr h

/-- A transmitter inside a telegram, or without a line sending, starts nothing. -/
theorem start_busy {s : State} {e : EndId} (h : (s.endOf e).sending ≠ none ∨ s.sendingLines e = []) : s.start e = (s, false) := by
  refine if_pos ?_
  rw [Bool.or_eq_true, List.isEmpty_iff]
  exact h.imp_left isSome_of_ne_none

/-- A due HAIL goes first (R16). -/
theorem start_hail {s : State} {e : EndId} (idle : (s.endOf e).sending = none) (lines : s.sendingLines e ≠ [])
    (due : (s.endOf e).hailDue = true) (coupled : (s.endOf e).state ≠ .uncoupled) :
    s.start e = ({ s with
      seqs := s.seqs.set 0 (succ1 s.seqs[0]),
      ends := s.ends.set e { s.endOf e with
        hailDue := false, sending := some ⟨s.originates .hail .neighbour 0 (s.hailBody e) [], s.sendingLines e⟩ } }, false) := by
  refine (if_neg ?_).trans (if_pos ?_)
  · rw [Bool.or_eq_true, List.isEmpty_iff, idle]
    exact fun h => h.elim Bool.false_ne_true lines
  · rw [due, Bool.true_and]
    exact bne_iff_ne.mpr coupled

/-- With no HAIL due, an end that is not LINKED, is stopped or has nothing queued starts nothing. -/
theorem start_nothing {s : State} {e : EndId} (none : (s.endOf e).hailDue = false ∨ (s.endOf e).state = .uncoupled)
    (h : (s.endOf e).state ≠ .linked ∨ (s.endOf e).recvStop = true ∨ ((s.endOf e).relayQ = [] ∧ (s.endOf e).originQ = [])) :
    s.start e = (s, false) := by
  unfold State.start
  dsimp only
  split
  · rfl
  · rw [if_neg (by rw [Bool.and_eq_true, bne_iff_ne]; rintro ⟨due, coupled⟩; exact none.elim (by rw [due]; decide) coupled)]
    split
    · next ready =>
      obtain ⟨linked, open_⟩ := ready
      obtain apart | stopped | ⟨relay, origin⟩ := h
      · exact absurd linked apart
      · exact absurd (open_.symm.trans stopped) (by decide)
      · have idle : (s.endOf e).arbitrate s.cfg = Option.none := by
          unfold EndUnit.arbitrate
          rw [relay, origin]
        rw [idle]
    · rfl

/-- Else the arbiter's choice goes (R50, R51). -/
theorem start_chosen {s : State} {e : EndId} (idle : (s.endOf e).sending = none) (lines : s.sendingLines e ≠ [])
    (none : (s.endOf e).hailDue = false ∨ (s.endOf e).state = .uncoupled) (linked : (s.endOf e).state = .linked)
    (open_ : (s.endOf e).recvStop = false) {r : Bool} {x : Telegram} {m : EndUnit}
    (choice : (s.endOf e).arbitrate s.cfg = some (r, x, m)) :
    s.start e = ({ s with ends := s.ends.set e { m with sending := some ⟨x, s.sendingLines e⟩ } }, r) := by
  unfold State.start
  dsimp only
  rw [if_neg, if_neg, if_pos ⟨linked, open_⟩, choice]
  · rfl
  · rw [Bool.and_eq_true, bne_iff_ne]
    rintro ⟨due, coupled⟩
    exact none.elim (by rw [due]; decide) coupled
  · rw [Bool.or_eq_true, List.isEmpty_iff, idle]
    exact fun h => h.elim Bool.false_ne_true lines

theorem boundary_of_start {s t : State} {e : EndId} (h : s.start e = (t, false)) : s.boundary e = t := by
  unfold State.boundary
  rw [h]
  rfl

theorem boundary_of_relay {s t : State} {e : EndId} (h : s.start e = (t, true)) : s.boundary e = t.retake e.opp := by
  unfold State.boundary
  rw [h]
  rfl

theorem retake_blocked {s : State} {e : EndId} (h : (s.endOf e).blocked = true) : s.retake e = s.dispatchHead e := if_pos h

theorem retake_free {s : State} {e : EndId} (h : (s.endOf e).blocked = false) : s.retake e = s :=
  if_neg (by rw [h]; exact Bool.false_ne_true)

/-! ### The arbiter (R51, R52) -/

theorem arbitrate_relay {u : EndUnit} {c : Settings} {x y : Telegram} {p q : List Telegram} (relay : u.relayQ = x :: p)
    (origin : u.originQ = y :: q) (better : x.cls < y.cls ∨ (x.cls = y.cls ∧ c.mode = .fixed)) :
    u.arbitrate c = some (true, x, { u with relayQ := p, relayRun := 0 }) := by
  unfold EndUnit.arbitrate
  rw [relay, origin]
  dsimp only
  obtain less | ⟨same, fixed⟩ := better
  · rw [if_pos less]
  · rw [if_neg (by omega), if_neg (by omega), fixed]

theorem arbitrate_origin {u : EndUnit} {c : Settings} {x y : Telegram} {p q : List Telegram} (relay : u.relayQ = x :: p)
    (origin : u.originQ = y :: q) (better : y.cls < x.cls) :
    u.arbitrate c = some (false, y, { u with originQ := q, relayRun := 0 }) := by
  unfold EndUnit.arbitrate
  rw [relay, origin]
  dsimp only
  rw [if_neg (by omega), if_pos better]

/-- Equal classes under WEIGHTED (R52). -/
theorem arbitrate_weighted {u : EndUnit} {c : Settings} {x y : Telegram} {p q : List Telegram} (relay : u.relayQ = x :: p)
    (origin : u.originQ = y :: q) (same : x.cls = y.cls) (weighted : c.mode = .weighted) :
    u.arbitrate c = if u.relayRun < c.weight + 1 then some (true, x, { u with relayQ := p, relayRun := u.relayRun + 1 })
      else some (false, y, { u with originQ := q, relayRun := 0 }) := by
  unfold EndUnit.arbitrate
  rw [relay, origin]
  dsimp only
  rw [if_neg (by omega), if_neg (by omega), weighted]

end Sys2Proof.Machine

namespace Sys2Proof.Proofs

open Sys2Proof Sys2Proof.Machine

/-- Settles O34: the head of the better class, and the mode on a tie. -/
theorem arbiterChoice : Obligations.ArbiterChoice := by
  intro u c x y p q
  refine ⟨fun relay origin => ?_, fun relay origin => ?_, fun relay origin => ?_, fun relay origin => ⟨fun less => ?_,
    fun more => ?_, fun same fixed => ?_, fun same weighted => ⟨fun low => ?_, fun high => ?_⟩⟩⟩
  · rw [EndUnit.arbitrate, relay, origin]
  · rw [EndUnit.arbitrate, relay, origin]
  · rw [EndUnit.arbitrate, relay, origin]
  · exact arbitrate_relay relay origin (Or.inl less)
  · exact arbitrate_origin relay origin more
  · exact arbitrate_relay relay origin (Or.inr ⟨same, fixed⟩)
  · exact (arbitrate_weighted relay origin same weighted).trans (if_pos (by omega))
  · exact (arbitrate_weighted relay origin same weighted).trans (if_neg (by omega))

/-- Settles O31: by the state of the line, then by what the end has received; the stall timer; the character sent. -/
theorem flowCharacters : Obligations.FlowCharacters := by
  refine ⟨fun s l held => ⟨fun still => ?_, fun settling => ?_, fun usable => ⟨fun stop => ?_, fun free => ?_⟩⟩,
    fun s e held => ⟨fun n timer due => ?_, fun early => ?_⟩, fun s e held => ⟨fun none => ?_, fun c due lines => ?_⟩⟩
  · have silent := (not_isSending_iff _).mpr still
    exact ⟨yields_effect (exec_stopReceived l s) held (flowOn_silent _ silent),
      yields_effect (exec_goReceived l s) held (flowOn_silent _ silent)⟩
  · exact ⟨yields_effect (exec_stopReceived l s) held (flowOn_settling _ settling),
      yields_effect (exec_goReceived l s) held (flowOn_settling _ settling)⟩
  · exact ⟨yields_effect (exec_stopReceived l s) held ((flowOn_usable _ usable).trans (stopped_again stop)),
      yields_effect (exec_goReceived l s) held ((flowOn_usable _ usable).trans (released_first stop))⟩
  · exact ⟨yields_effect (exec_goReceived l s) held ((flowOn_usable _ usable).trans (released_again free)),
      yields_effect (exec_stopReceived l s) held ((flowOn_usable _ usable).trans (stopped_first free))⟩
  · refine yields_effect (exec_stallTimer e s) held (if_pos ?_)
    rw [timer]
    exact reached_some due
  · refine yields_effect (exec_stallTimer e s) held (if_neg ?_)
    rw [reached_false early]
    exact Bool.false_ne_true
  · refine yields_effect (exec_flowCharacterSent e s) held ?_
    unfold State.sendFlow
    split
    · next c due =>
      refine if_pos (List.isEmpty_iff.mpr (Eq.trans ?_ (none.resolve_left (by rw [due]; exact Option.some_ne_none c))))
      rfl
    · rfl
  · refine yields_effect (exec_flowCharacterSent e s) held ?_
    unfold State.sendFlow
    rw [due]
    exact if_neg (mt List.isEmpty_iff.mp lines)

/-- Settles O32: an expired link leaves LINKED with LEAVE handed; the oldest key goes after 100 ms. -/
theorem endTimers : Obligations.EndTimers := by
  refine ⟨fun s e held => ?_, fun s e held => ⟨fun empty => ?_, fun k ks keys => ⟨fun old => ?_, fun young => ?_⟩⟩⟩
  · intro u v y
    have run : ∀ n, u.state = .linked → u.link = some n → 150 ≤ n → s.linkLost e = (y.retake e.opp).boundary e :=
      fun n linked timer due => by
        refine (if_pos ⟨linked, by rw [show (s.endOf e).link = some n from timer]; exact reached_some due⟩).trans ?_
        rfl
    refine ⟨fun n linked timer due => ⟨fun free => ?_, fun blocked => ?_⟩, fun early => ?_⟩
    · exact yields_effect (exec_linkTimer e s) held ((run n linked timer due).trans (by rw [retake_free free]))
    · exact yields_effect (exec_linkTimer e s) held ((run n linked timer due).trans (by rw [retake_blocked blocked]))
    · refine yields_effect (exec_linkTimer e s) held (if_neg ?_)
      rintro ⟨linked, due⟩
      rw [reached_false (early.resolve_left (not_not.mpr linked))] at due
      exact absurd due Bool.false_ne_true
  · refine yields_effect (exec_keyExpiry e s) held ?_
    unfold State.expireKey
    rw [empty]
  · refine yields_effect (exec_keyExpiry e s) held ?_
    unfold State.expireKey
    rw [keys]
    exact if_pos (decide_eq_true old)
  · refine yields_effect (exec_keyExpiry e s) held ?_
    unfold State.expireKey
    rw [keys]
    refine if_neg ?_
    rw [FilterKey.expired, decide_eq_false (Nat.not_le.mpr young)]
    exact Bool.false_ne_true

/-- Settles O33: the HAIL timer, the end of a telegram, and what a boundary starts. -/
theorem hailAndBoundary : Obligations.HailAndBoundary := by
  refine ⟨fun s e held => ⟨fun n timer due => ?_, fun early => ?_⟩, ⟨fun s e held => ⟨fun idle => ?_, fun busy => ?_⟩,
    fun s e => ?_⟩, fun s => ⟨fun lead => ?_, fun other => ⟨fun x surveying followed => ?_, fun unled => ?_⟩⟩⟩
  · refine yields_effect (exec_hailTimer e s) held (if_pos ?_)
    rw [timer]
    exact reached_some due
  · refine yields_effect (exec_hailTimer e s) held (if_neg ?_)
    rw [reached_false early]
    exact Bool.false_ne_true
  · refine yields_effect (exec_telegramBoundary e s) held (if_neg ?_)
    rw [idle]
    exact Bool.false_ne_true
  · exact yields_effect (exec_telegramBoundary e s) held (if_pos (isSome_of_ne_none busy))
  · intro u ls body
    have hail : s.hailBody e = body := by
      unfold body State.hailBody
      cases e <;> cases s.consist.roleState <;> rfl
    refine ⟨fun held => boundary_of_start (start_busy held), fun idle lines => ⟨fun due coupled => ?_, fun none =>
      ⟨fun nothing => boundary_of_start (start_nothing none nothing), fun linked open_ r x m choice => ?_⟩⟩⟩
    · rw [← hail]
      exact boundary_of_start (start_hail idle lines due coupled)
    · intro y
      have start := start_chosen idle lines none linked open_ choice
      have opposite : y.endOf e.opp = s.endOf e.opp := ends_get_set_opp ..
      refine ⟨fun stays => ?_, fun relay blocked => ?_⟩
      · cases r with
        | false => exact boundary_of_start start
        | true => exact (boundary_of_relay start).trans (retake_free (opposite ▸ stays.resolve_left (by decide)))
      · subst relay
        exact (boundary_of_relay start).trans (retake_blocked (opposite ▸ blocked))
  · exact if_pos lead
  · unfold State.followedLead
    rw [if_neg other, surveying, followed]
  · have installed : s.followedLead = (s.consist.roster.map (·.leadId)).getD 0 := by
      unfold State.followedLead
      rw [if_neg other]
      split
      · next x surveying followed =>
        exact absurd followed (unled.elim (absurd surveying) fun none => by rw [none]; exact (Option.some_ne_none x).symm)
      · rfl
    refine ⟨fun r roster => ?_, fun roster => ?_⟩ <;> rw [installed, roster] <;> rfl

end Sys2Proof.Proofs
end

