-- ==== Sys2Proof/Proofs/RelaySwitch.lean ====
section
/-! PROOFS. The relay switch (chapter 3): queues in class order (R45, R46, R48), routes and the relay leg (R40 to R44), the
departure of a head (R35, R37) and the relayed form (R23, R112). -/

namespace Sys2Proof.Machine

/-! ### Class order (R45, R46, R48) -/

/-- A queue in class order. -/
def InOrder (q : List Telegram) : Prop := q.Pairwise (fun x y => x.cls ≤ y.cls)

/-- The newcomer stands behind its own and better classes. -/
theorem insertByClass_split {t : Telegram} {q : List Telegram} (order : InOrder q) :
    ∃ l r, q = l ++ r ∧ insertByClass t q = l ++ t :: r ∧ (∀ x ∈ l, x.cls ≤ t.cls) ∧ ∀ x ∈ r, t.cls < x.cls := by
  refine ⟨_, _, (List.takeWhile_append_dropWhile (p := fun u : Telegram => decide (u.cls ≤ t.cls))).symm, rfl, fun x hx => ?_, ?_⟩
  · have better := List.mem_takeWhile_imp hx
    exact of_decide_eq_true better
  have behind : InOrder (q.dropWhile fun u => decide (u.cls ≤ t.cls)) := List.Pairwise.sublist (List.dropWhile_sublist _) order
  cases h : q.dropWhile fun u => decide (u.cls ≤ t.cls) with
  | nil => exact fun x hx => nomatch hx
  | cons y ys =>
    have worse : t.cls < y.cls := by
      have := List.head_dropWhile_not (fun u : Telegram => decide (u.cls ≤ t.cls)) (l := q) (by rw [h]; exact List.cons_ne_nil _ _)
      simp only [h, List.head_cons, decide_eq_false_iff_not] at this
      omega
    rw [h] at behind
    intro x hx
    obtain rfl | hx := List.mem_cons.mp hx
    · exact worse
    · exact lt_of_lt_of_le worse ((List.pairwise_cons.mp behind).1 x hx)

theorem insertByClass_order {t : Telegram} {q : List Telegram} (order : InOrder q) : InOrder (insertByClass t q) := by
  obtain ⟨l, r, split, inserted, better, worse⟩ := insertByClass_split (t := t) order
  rw [InOrder, split, List.pairwise_append] at order
  obtain ⟨front, back, across⟩ := order
  rw [InOrder, inserted, List.pairwise_append]
  refine ⟨front, List.pairwise_cons.mpr ⟨fun x hx => (worse x hx).le, back⟩, fun x hx y hy => ?_⟩
  obtain rfl | hy := List.mem_cons.mp hy
  · exact better x hx
  · exact across x hx y hy

theorem mem_insertByClass (t : Telegram) (q : List Telegram) : t ∈ insertByClass t q :=
  List.mem_append_right _ List.mem_cons_self

theorem insertByClass_last {t : Telegram} {q : List Telegram} (better : ∀ x ∈ q, x.cls ≤ t.cls) :
    insertByClass t q = q ++ [t] := by
  have all : ∀ x ∈ q, decide (x.cls ≤ t.cls) = true := fun x hx => decide_eq_true (better x hx)
  rw [insertByClass, List.takeWhile_eq_self_iff.mpr all, List.dropWhile_eq_nil_iff.mpr all]

/-- The newest telegram of the worst class present is the last one. -/
theorem last_worst {q : List Telegram} {u : Telegram} (order : InOrder q) (last : q.getLast? = some u) :
    ∀ x ∈ q, x.cls ≤ u.cls := by
  obtain ⟨ys, rfl⟩ := List.getLast?_eq_some_iff.mp last
  intro x hx
  rw [InOrder, List.pairwise_append] at order
  obtain hx | hx := List.mem_append.mp hx
  · exact order.2.2 x hx u (List.mem_singleton.mpr rfl)
  · rw [List.mem_singleton.mp hx]

theorem admission_room {t : Telegram} {q : List Telegram} (room : q.length < 8) : admission t q = some (insertByClass t q) :=
  if_pos room

theorem admission_full {t u : Telegram} {q : List Telegram} (full : ¬ q.length < 8) (last : q.getLast? = some u) :
    admission t q = if t.cls < u.cls then some (insertByClass t q.dropLast) else none := by
  unfold admission
  rw [if_neg full, last]

/-- A queue that refuses the newcomer is full, and holds nothing of a worse class (R45, R46). -/
theorem admission_none {t : Telegram} {q : List Telegram} (order : InOrder q) (refused : admission t q = none) :
    ¬ q.length < 8 ∧ ∀ x ∈ q, x.cls ≤ t.cls := by
  have full : ¬ q.length < 8 := fun room => by
    rw [admission_room room] at refused
    exact Option.some_ne_none _ refused
  refine ⟨full, fun x hx => ?_⟩
  cases last : q.getLast? with
  | none =>
    rw [List.getLast?_eq_none_iff.mp last] at hx
    exact nomatch hx
  | some u =>
    rw [admission_full full last] at refused
    have above : ¬ t.cls < u.cls := fun better => by
      rw [if_pos better] at refused
      exact Option.some_ne_none _ refused
    exact (last_worst order last x hx).trans (not_lt.mp above)

theorem admission_order {t : Telegram} {q p : List Telegram} (order : InOrder q) (admitted : admission t q = some p) :
    InOrder p ∧ t ∈ p := by
  unfold admission at admitted
  split at admitted
  · obtain rfl := Option.some.inj admitted
    exact ⟨insertByClass_order order, mem_insertByClass t q⟩
  · split at admitted
    · split at admitted
      · obtain rfl := Option.some.inj admitted
        exact ⟨insertByClass_order (List.Pairwise.sublist (List.dropLast_sublist q) order), mem_insertByClass t _⟩
      · exact absurd admitted (by simp)
    · exact absurd admitted (by simp)

theorem admitOrigin_refused {t : Telegram} {q : List Telegram} (refused : admission t q = none) :
    admitOrigin t q =
      if t.cls ≤ 1 ∧ q.any (fun u => u.cls == t.cls) then some (insertByClass t (q.eraseP (fun u => u.cls == t.cls))) else none := by
  unfold admitOrigin
  rw [refused]

theorem admitOrigin_order {t : Telegram} {q p : List Telegram} (order : InOrder q) (admitted : admitOrigin t q = some p) :
    InOrder p ∧ t ∈ p := by
  cases plain : admission t q with
  | some p' =>
    have same : admitOrigin t q = some p' := by
      unfold admitOrigin
      rw [plain]
    obtain rfl := Option.some.inj (same.symm.trans admitted)
    exact admission_order order plain
  | none =>
    rw [admitOrigin_refused plain] at admitted
    split at admitted
    · obtain rfl := Option.some.inj admitted
      exact ⟨insertByClass_order (List.Pairwise.sublist List.eraseP_sublist order), mem_insertByClass t _⟩
    · exact absurd admitted (by simp)

/-! ### The departure of a head (R35, R37) -/

theorem dropHead_eq {s : State} {e : EndId} {x : Telegram} {q : List Telegram} (buffer : (s.endOf e).buffer = x :: q) :
    s.dropHead e =
      let u := s.endOf e
      let v := { u with buffer := q, consumed := false, blocked := false }
      let w := if u.sentStop = true ∧ (q.map Telegram.length).sum ≤ s.cfg.low then
        { v with sentStop := false, flowDue := if u.flowDue = some .stop then none else some .go } else v
      { s with ends := s.ends.set e w } := by
  refine modEnd_eq ?_
  unfold EndUnit.dropHead
  rw [buffer]
  rfl

theorem dropHead_other (s : State) (e : EndId) : (s.dropHead e).endOf e.opp = s.endOf e.opp :=
  endOf_modEnd_of_ne s (opp_ne e) _

theorem dropHead_unblocked (s : State) (e : EndId) : ((s.dropHead e).endOf e).blocked = false := by
  rw [State.dropHead, endOf_modEnd, EndUnit.dropHead]
  dsimp only
  split <;> rfl

/-! ### The relay leg (R41 to R44) -/

@[simp] theorem opp_opp (e : EndId) : e.opp.opp = e := by cases e <;> rfl

/-- At an end whose opposite buffer holds no blocked head, a boundary is a start. -/
theorem boundary_unblocked {s : State} {e : EndId} (free : (s.endOf e.opp).blocked = false) : s.boundary e = (s.start e).1 := by
  cases h : s.start e with
  | mk t r =>
    have kept : t.endOf e.opp = s.endOf e.opp := by
      have other := start_other s (opp_ne e)
      rwa [h] at other
    cases r with
    | false => exact boundary_of_start h
    | true => exact (boundary_of_relay h).trans (retake_free (kept ▸ free))

theorem relayHead_leg (s : State) (e : EndId) (x : Telegram) (c : Bool) : RelayLeg s e x c (s.relayHead e x c) := by
  refine ⟨fun apart => if_neg apart, fun linked full => ?_, fun q linked room => ?_⟩
  · refine (if_pos linked).trans ?_
    rw [full]
    rfl
  · refine (if_pos linked).trans ?_
    rw [room]
    show (State.start _ e.opp).1 = _
    have entered := modEnd_eq (s := s.dropHead e) (f := fun u : EndUnit => { u with relayQ := q })
      (congrArg (fun u : EndUnit => { u with relayQ := q }) (dropHead_other s e))
    rw [entered]
    refine (boundary_unblocked ?_).symm
    rw [opp_opp]
    refine (congrArg EndUnit.blocked ?_).trans (dropHead_unblocked s e)
    exact ends_get_set_of_ne _ _ _ _ (opp_ne e).symm

/-! ### Routes (R40 to R43) -/

/-- The head of a buffer goes its way by hop and scope (R40). -/
theorem dispatchHead_eq {s : State} {e : EndId} {x : Telegram} {q : List Telegram} (buffer : (s.endOf e).buffer = x :: q)
    (near : x.hop.toNat ≤ 31) :
    (x.scope = .broadcast → s.dispatchHead e = s.routeBroadcast e x)
      ∧ (x.scope = .towardLead → s.dispatchHead e = s.routeTowardLead e x)
      ∧ (x.scope = .coach → s.dispatchHead e = s.routeCoach e x) := by
  unfold State.dispatchHead
  rw [buffer]
  refine ⟨fun scope => ?_, fun scope => ?_, fun scope => ?_⟩ <;> dsimp only <;> rw [if_neg (by omega), scope]

theorem routeBroadcast_consumed {s : State} {e : EndId} (x : Telegram) (h : (s.endOf e).consumed = true) :
    s.routeBroadcast e x = s.relayHead e x true := if_pos h

theorem routeBroadcast_fresh {s : State} {e : EndId} (x : Telegram) (h : (s.endOf e).consumed = false) :
    s.routeBroadcast e x =
      if (s.consume e x).2 then (s.consume e x).1.dropHead e else (s.consume e x).1.relayHead e x true :=
  if_neg (by rw [h]; exact Bool.false_ne_true)

theorem routeTowardLead_member {s : State} {e : EndId} (x : Telegram) (h : s.consist.roleState ≠ .lead) :
    s.routeTowardLead e x = if s.heldEnd = some e then s.dropHead e else s.relayHead e x false := by
  refine (if_neg h).trans ?_
  cases s.heldEnd with
  | none => rfl
  | some d =>
    dsimp only
    by_cases same : d = e
    · rw [if_pos same, if_pos (congrArg some same)]
    · rw [if_neg same, if_neg fun h => same (Option.some.inj h)]

/-! ### The merged route data of a DOORSTAT (R112) -/

theorem statFlags_bits (a b c : Bool) :
    (statFlags a b c).getLsbD 0 = a ∧ (statFlags a b c).getLsbD 1 = b ∧ (statFlags a b c).getLsbD 2 = c := by
  revert a b c
  decide

/-- The roster that a DOORSTAT names is the one in force at a FORMED coach. -/
def State.sameRoster (s : State) (x : Telegram) : Bool :=
  s.consist.state == .formed && s.consist.generation == rd16 x.body 0

theorem sameRoster_iff (s : State) (x : Telegram) :
    s.sameRoster x = true ↔ s.consist.state = .formed ∧ s.consist.generation = rd16 x.body 0 := by
  rw [State.sameRoster, Bool.and_eq_true, beq_iff_eq, beq_iff_eq]

/-- The three parts of the merged route data. -/
theorem mergeStat_parts (s : State) (x : Telegram) :
    rd8 (s.mergeStat x) 0 = statFlags ((rd8 x.route 0).getLsbD 0 && s.closed)
        ((rd8 x.route 0).getLsbD 1 || !s.sameRoster x)
        ((rd8 x.route 0).getLsbD 2 || (!s.closed && s.sameRoster x && !decide ((x.route.drop 2).length < 8)))
      ∧ rd8 (s.mergeStat x) 1 = (if s.closed then rd8 x.route 1 else addOpen (rd8 x.route 1))
      ∧ (s.mergeStat x).drop 2 = if !s.closed && s.sameRoster x && decide ((x.route.drop 2).length < 8) then
          x.route.drop 2 ++ [byteOf s.consist.position] else x.route.drop 2 := by
  refine ⟨?_, ?_, rfl⟩
  · show statFlags ((rd8 x.route 0).getLsbD 0 && !!s.closed) _ _ = _
    rw [Bool.not_not]
    rfl
  · show (if !s.closed then addOpen (rd8 x.route 1) else rd8 x.route 1) = _
    cases s.closed <;> rfl

theorem addOpen_below {n : Byte} (h : n.toNat < 32) : (addOpen n).toNat = n.toNat + 1 := by
  rw [addOpen, if_pos h, BitVec.toNat_add]
  have := n.isLt
  show (n.toNat + 1) % 2 ^ 8 = _
  omega

theorem addOpen_full {n : Byte} (h : n.toNat = 32) : addOpen n = 32 := by
  rw [addOpen, if_neg (by omega), if_pos h]
  exact BitVec.eq_of_toNat_eq h

end Sys2Proof.Machine

namespace Sys2Proof.Proofs

open Sys2Proof Sys2Proof.Machine

/-- Settles O35: insertion behind the newcomer's class, displacement of the last, replacement at an origin queue. -/
theorem queueAdmission : Obligations.QueueAdmission := by
  intro t q order short
  refine ⟨fun room => ?_, fun full better => ?_, fun full ⟨x, hx, worse⟩ => ?_, fun p admitted => ?_, fun refused => ⟨?_, ?_⟩⟩
  · obtain ⟨l, r, split, inserted, better, worse⟩ := insertByClass_split (t := t) order
    exact ⟨l, r, split, (admission_room room).trans (congrArg some inserted), better, worse⟩
  · cases last : q.getLast? with
    | none =>
      rw [List.getLast?_eq_none_iff.mp last] at full
      exact absurd full (by decide)
    | some u =>
      rw [admission_full (by omega) last, if_neg (Nat.not_lt.mpr (better u (List.mem_of_getLast? last)))]
  · cases last : q.getLast? with
    | none =>
      rw [List.getLast?_eq_none_iff.mp last] at hx
      exact nomatch hx
    | some u =>
      obtain ⟨l, r, split, inserted, better, behind⟩ :=
        insertByClass_split (t := t) (List.Pairwise.sublist (List.dropLast_sublist q) order)
      refine ⟨l, r, u, ?_, ?_, better, behind⟩
      · rw [← split, List.dropLast_append_getLast? u last]
      · rw [admission_full (by omega) last, if_pos (lt_of_lt_of_le worse (last_worst order last x hx)), inserted]
  · obtain ⟨sorted, mem⟩ := admitOrigin_order order admitted
    exact ⟨sorted, length_admitOrigin admitted short, mem⟩
  · intro unmatched
    rw [admitOrigin_refused refused, if_neg]
    rintro ⟨low, match_⟩
    obtain ⟨x, hx, same⟩ := List.any_eq_true.mp match_
    obtain high | others := unmatched
    · omega
    · exact others x hx (beq_iff_eq.mp same)
  · rintro low l x r rfl same others
    obtain ⟨-, better⟩ := admission_none order refused
    have erased : (l ++ x :: r).eraseP (fun u => u.cls == t.cls) = l ++ r := by
      rw [List.eraseP_append_right _ fun y hy => by rw [beq_iff_eq]; exact others y hy, List.eraseP_cons_of_pos (p := fun u : Telegram => u.cls == t.cls) (beq_iff_eq.mpr same)]
    rw [admitOrigin_refused refused, if_pos ⟨low, List.any_eq_true.mpr ⟨x, List.mem_append_right _ List.mem_cons_self, beq_iff_eq.mpr same⟩⟩,
      erased, insertByClass_last fun y hy => better y ?_]
    obtain hy | hy := List.mem_append.mp hy
    · exact List.mem_append_left _ hy
    · exact List.mem_append_right _ (List.mem_cons_of_mem _ hy)

/-- Settles O36: the test on a blocked head, the routes by scope, and the lead end held. -/
theorem dispatchRoutes : Obligations.DispatchRoutes := by
  refine ⟨⟨fun s e held => ⟨fun full => ?_, fun free => ?_⟩, fun s e => ⟨fun empty => ?_, fun x q buffer => ⟨fun far => ?_,
    fun near => ?_⟩⟩⟩, fun s => ⟨fun lead => if_pos lead, fun other => ⟨fun unformed => ?_, fun x surveying followed => ?_,
    fun settled => ?_⟩⟩⟩
  · obtain ⟨blocked, linked, full⟩ := full
    refine yields_effect (exec_dispatch e s) held (if_pos ?_)
    rw [blocked, linked, decide_eq_true full]
    rfl
  · refine yields_effect (exec_dispatch e s) held (if_neg fun full => free ?_)
    rw [Bool.and_eq_true, Bool.and_eq_true, beq_iff_eq, decide_eq_true_iff, and_assoc] at full
    exact full
  · unfold State.dispatchHead
    rw [empty]
  · unfold State.dispatchHead
    rw [buffer]
    exact if_pos far
  · obtain ⟨broadcast, towardLead, coach⟩ := dispatchHead_eq buffer near
    refine ⟨fun scope consumed => ?_, fun scope fresh => ⟨fun withheld => ?_, fun relayed => ?_⟩, fun scope => ⟨fun lead => ?_,
      fun member => ⟨fun held => ?_, fun other => ?_⟩⟩, fun scope => ⟨fun own => ?_, fun other => ?_⟩⟩
    · rw [broadcast scope, routeBroadcast_consumed x consumed]
      exact relayHead_leg s e x true
    · rw [broadcast scope, routeBroadcast_fresh x fresh, if_pos withheld]
    · rw [broadcast scope, routeBroadcast_fresh x fresh, if_neg (by rw [relayed]; exact Bool.false_ne_true)]
      exact relayHead_leg _ e x true
    · exact (towardLead scope).trans (if_pos lead)
    · rw [towardLead scope, routeTowardLead_member x member, if_pos held]
    · rw [towardLead scope, routeTowardLead_member x member, if_neg other]
      exact relayHead_leg s e x false
    · exact (coach scope).trans (if_pos own)
    · rw [coach scope, State.routeCoach, if_neg other]
      exact relayHead_leg s e x false
  · unfold State.heldEnd
    rw [if_neg other, unformed]
  · unfold State.heldEnd
    rw [if_neg other, surveying, followed]
    rfl
  · unfold State.heldEnd
    rw [if_neg other]
    obtain formed | stale := settled
    · rw [formed]
    · rw [stale]

/-- Settles O37: low water at the departing head; hop, route data and route check of the relayed telegram. -/
theorem departureAndRelayForm : Obligations.DepartureAndRelayForm := by
  refine ⟨fun s e x q buffer => ⟨fun stays => ?_, fun sent low => ?_⟩, fun s x => ⟨rfl, rfl, rfl, fun other => if_neg other,
    fun doorstat => ?_⟩⟩
  · refine (dropHead_eq buffer).trans ?_
    dsimp only
    rw [if_neg]
    rintro ⟨sent, low⟩
    obtain unsent | high := stays
    · exact absurd (unsent.symm.trans sent) (by decide)
    · exact absurd low (Nat.not_le.mpr high)
  · refine (dropHead_eq buffer).trans ?_
    dsimp only
    rw [if_pos ⟨sent, low⟩]
  · have route : (s.relayForm x).route = s.mergeStat x := if_pos doorstat
    obtain ⟨flags, count, list⟩ := mergeStat_parts s x
    have closed : s.closed = s.level .dloop := rfl
    have same := sameRoster_iff s x
    have shut : s.closed = true ↔ ¬ s.level .dloop = false := by
      rw [closed, Bool.not_eq_false]
    have listed : (!s.closed && s.sameRoster x && decide ((x.route.drop 2).length < 8)) = true
        ↔ s.level .dloop = false ∧ (s.consist.state = .formed ∧ s.consist.generation = rd16 x.body 0)
          ∧ (x.route.drop 2).length < 8 := by
      rw [Bool.and_eq_true, Bool.and_eq_true, Bool.not_eq_true', decide_eq_true_iff, same, and_assoc, closed]
    rw [route, flags, count, list]
    obtain ⟨bit0, bit1, bit2⟩ := statFlags_bits ((rd8 x.route 0).getLsbD 0 && s.closed)
        ((rd8 x.route 0).getLsbD 1 || !s.sameRoster x)
        ((rd8 x.route 0).getLsbD 2 || (!s.closed && s.sameRoster x && !decide ((x.route.drop 2).length < 8)))
    rw [bit0, bit1, bit2]
    refine ⟨?_, ?_, ?_, fun shut' => if_pos (shut.mpr shut'), fun open_ low => ?_, fun open_ full => ?_,
      fun room => if_pos (listed.mpr room), fun none => if_neg (mt listed.mp none)⟩
    · rw [Bool.and_eq_true, shut]
    · rw [Bool.or_eq_true, Bool.not_eq_true', ← Bool.not_eq_true, same]
    · rw [Bool.or_eq_true, Bool.and_eq_true, Bool.and_eq_true, Bool.not_eq_true', Bool.not_eq_true', decide_eq_false_iff_not,
        same, not_lt, and_assoc, closed]
    · rw [if_neg (by rw [shut]; exact not_not.mpr open_)]
      exact addOpen_below low
    · rw [if_neg (by rw [shut]; exact not_not.mpr open_)]
      exact addOpen_full full

end Sys2Proof.Proofs
end

