-- ==== Sys2Proof/Proofs/ConsistStates.lean ====
section
/-! PROOFS. Changes of the consist state (R57): what leaving FORMED does to doors and heating (R108, R110, R126, R138),
link changes and triggers (R59 to R62), and SET_ROLE (R79). -/

namespace Sys2Proof.Machine

/-! ### Leaving FORMED (R108, R110, R126, R138) -/

/-- The door unit with a release dropped (R108). -/
def DoorUnit.dropped (d : DoorUnit) : DoorUnit :=
  match d.group with
  | .released _ _ => { d with group := .idle, drop := .consist }
  | .idle => d
  | .closing => d

/-- The outputs with a release dropped (R108). -/
def State.droppedOutputs (s : State) : BitVec 12 :=
  match s.door.group with
  | .released _ _ => s.outputs &&& ~~~s.doorOwned
  | .idle => s.outputs
  | .closing => s.outputs

/-- The heating unit with its grant void (R138). -/
def HeatUnit.voided (h : HeatUnit) : HeatUnit :=
  { h with
    grant := h.grant.map fun g => { g with void := true }, ramp := if h.state = .held then none else h.ramp,
    limit := if h.state = .held then h.on else h.limit }

theorem dropped_released {d : DoorUnit} {x : Sides} {r : Release} (h : d.group = .released x r) :
    d.dropped = { d with group := .idle, drop := .consist } := by
  unfold DoorUnit.dropped
  rw [h]

theorem dropped_stands {d : DoorUnit} (h : ∀ x r, d.group ≠ .released x r) : d.dropped = d := by
  unfold DoorUnit.dropped
  split
  · next x r g => exact absurd g (h x r)
  · rfl
  · rfl

theorem droppedOutputs_released {s : State} (active : s.part = .active) {x : Sides} {r : Release}
    (h : s.door.group = .released x r) : s.droppedOutputs = s.outputs &&& 0xFF8 := by
  unfold State.droppedOutputs
  rw [h]
  dsimp only
  rw [doorOwned_of_active active]
  rfl

theorem droppedOutputs_stands {s : State} (h : ∀ x r, s.door.group ≠ .released x r) : s.droppedOutputs = s.outputs := by
  unfold State.droppedOutputs
  split
  · next x r g => exact absurd g (h x r)
  · rfl
  · rfl

theorem dropRelease_frame (s : State) :
    s.dropRelease = { s with door := s.door.dropped, outputs := s.droppedOutputs, revs := s.dropRelease.revs } := by
  unfold State.dropRelease DoorUnit.dropped State.droppedOutputs
  cases group : s.door.group with
  | idle => rfl
  | closing => rfl
  | released x r =>
    have outputs : ((s.modDoor fun d => { d with drop := .consist }).setGroup .idle).outputs = s.outputs &&& ~~~s.doorOwned := by
      rw [State.setGroup, State.applyImage_outputs, show DoorGroup.idle.image = (0#12) from rfl, BitVec.zero_and]
      exact BitVec.or_zero
    dsimp only
    rw [setGroup_frame, outputs, setGroup_door]
    rfl

theorem voidGrant_eq (s : State) : s.voidGrant = { s with heat := s.heat.voided } := by
  unfold State.voidGrant HeatUnit.voided State.modHeat
  dsimp only
  split <;> rfl

theorem leaveFormed_frame (s : State) :
    s.leaveFormed = { s with
      door := { s.door.dropped with stat := none }, heat := { s.heat.voided with round := none, window := none },
      outputs := s.droppedOutputs, revs := s.leaveFormed.revs } := by
  have revs : s.leaveFormed.revs = s.dropRelease.revs := by
    rw [State.leaveFormed, voidGrant_eq]
    rfl
  rw [revs, State.leaveFormed, voidGrant_eq, dropRelease_frame]
  rfl

/-! ### The consist state (R57) -/

/-- A class pending stays pending through an evaluation. -/
theorem evalSummary_pending {s : State} {c : EventClass} (h : s.isPending c = true) : s.evalSummary.isPending c = true := by
  unfold State.evalSummary
  split
  · exact h
  · by_cases same : c = .doorSummary
    · rw [same]
      exact isPending_raise _ _
    · rw [isPending_raise_of_ne _ same]
      exact h

/-- A coach that is no FORMED lead shows UNKNOWN (R115). -/
theorem evalSummary_unknown {s : State} (h : s.consist.roleState ≠ .lead ∨ s.consist.state ≠ .formed) :
    s.evalSummary = { s with
      door := { s.door with summary := .unknown }, events := s.evalSummary.events, revs := s.evalSummary.revs } := by
  have unknown : s.summaryNow = .unknown := summaryNow_unknown (Or.inl (by tauto))
  rw [← unknown]
  exact evalSummary_frame s

theorem evalSummary_unknown_raises {s : State} (h : s.consist.roleState ≠ .lead ∨ s.consist.state ≠ .formed)
    (changes : s.door.summary ≠ .unknown) : s.evalSummary.isPending .doorSummary = true := by
  have unknown : s.summaryNow = .unknown := summaryNow_unknown (Or.inl (by tauto))
  exact evalSummary_raises (unknown ▸ changes.symm)

/-- The consist state has been written and shown, before its effects on the other units (R57). -/
def State.stateShown (s : State) (x : ConsistState) : State :=
  ((s.modConsist fun c => { c with state := x }).touchAgain .consist).raise .consistChange

/-- The door unit after the consist state has moved from `old` to one that is not FORMED. -/
def DoorUnit.unformed (d : DoorUnit) (old : ConsistState) : DoorUnit :=
  { (if old = .formed then { d.dropped with stat := none } else d) with summary := .unknown }

/-- The heating unit after the consist state has moved from `old` to one that is not FORMED. -/
def HeatUnit.unformed (h : HeatUnit) (old : ConsistState) : HeatUnit :=
  if old = .formed then { h.voided with round := none, window := none } else h

theorem setConsist_eq {s : State} {x : ConsistState} (moves : s.consist.state ≠ x) :
    s.setConsist x =
      (if s.consist.state = .formed then (s.stateShown x).leaveFormed else s.stateShown x).evalSummary := if_neg moves

theorem setConsist_same {s : State} {x : ConsistState} (same : s.consist.state = x) : s.setConsist x = s := if_pos same

/-- A move of the consist state to one that is not FORMED. -/
theorem setConsist_frame {s : State} {x : ConsistState} (hx : x ≠ .formed) (moves : s.consist.state ≠ x) :
    s.setConsist x = { s with
      consist := { s.consist with state := x }, door := s.door.unformed s.consist.state,
      heat := s.heat.unformed s.consist.state,
      outputs := if s.consist.state = .formed then s.droppedOutputs else s.outputs,
      events := (s.setConsist x).events, revs := (s.setConsist x).revs } := by
  rw [setConsist_eq moves]
  unfold DoorUnit.unformed HeatUnit.unformed
  split
  · rw [evalSummary_unknown (Or.inr (by rw [leaveFormed_frame]; exact hx)), leaveFormed_frame]
    rfl
  · rw [evalSummary_unknown (Or.inr hx)]
    rfl

theorem setConsist_pending {s : State} {x : ConsistState} (moves : s.consist.state ≠ x) :
    (s.setConsist x).isPending .consistChange = true := by
  have shown : (s.stateShown x).isPending .consistChange = true := isPending_raise _ _
  rw [setConsist_eq moves]
  refine evalSummary_pending ?_
  split
  · rw [leaveFormed_frame]
    exact shown
  · exact shown

theorem setConsist_summary {s : State} {x : ConsistState} (hx : x ≠ .formed) (moves : s.consist.state ≠ x)
    (known : s.door.summary ≠ .unknown) : (s.setConsist x).isPending .doorSummary = true := by
  rw [setConsist_eq moves]
  split
  · refine evalSummary_unknown_raises (Or.inr (by rw [leaveFormed_frame]; exact hx)) ?_
    rw [leaveFormed_frame]
    refine fun same => known (Eq.trans ?_ same)
    show s.door.summary = s.door.dropped.summary
    unfold DoorUnit.dropped
    split <;> rfl
  · exact evalSummary_unknown_raises (Or.inr hx) known

/-! ### A telegram built and placed (R22, R47) -/

/-- A telegram originated and placed out of one end: its number is used, the other end stays. -/
theorem sentAt (s : State) (k : Kind) (x : Scope) (dest : Ident) (body route : List Byte) (e : EndId) (hk : k.idx ≠ 0) :
    let d := s.originates k x dest body route
    let u := ((s.build k x dest body route).2.placeAt e d).1
    u = { s with ends := u.ends, seqs := u.seqs } ∧ Placed (s.sendingLines e) d (s.endOf e) (u.endOf e)
      ∧ u.endOf e.opp = s.endOf e.opp ∧ u.seqs[k.idx] = succ1 s.seqs[k.idx] := by
  intro d u
  refine ⟨sends_trans (sends_build s k x dest body route) (sends_placeAt _ e d), placeAt_placed (s.build k x dest body route).2 e d,
    placeAt_other (s.build k x dest body route).2 (opp_ne e) d, ?_⟩
  exact (placeAt_seqs _ e d hk).trans (Vector.getElem_set_self _)

/-- A telegram originated and placed out of both ends. -/
theorem sentBoth (s : State) (k : Kind) (x : Scope) (dest : Ident) (body route : List Byte) (hk : k.idx ≠ 0) :
    let d := s.originates k x dest body route
    let u := ((s.build k x dest body route).2.placeBoth d).1
    u = { s with ends := u.ends, seqs := u.seqs } ∧ (∀ e, Placed (s.sendingLines e) d (s.endOf e) (u.endOf e))
      ∧ u.seqs[k.idx] = succ1 s.seqs[k.idx] := by
  intro d u
  obtain ⟨frame, placed, -⟩ := placedDoor s k x dest body route
  refine ⟨frame, placed, ?_⟩
  exact ((placeAt_seqs _ .b d hk).trans (placeAt_seqs _ .a d hk)).trans (Vector.getElem_set_self _)

/-! ### Triggers and link changes (R59 to R62) -/

/-- A FORMED lead that takes a trigger, up to the change of state. -/
def State.triggered (s : State) (c : CauseKind) (b : Byte) (i : Ident) : State :=
  { s with consist := { s.consist with surveyCause := ⟨c, b, i⟩, holdOff := some 0, partials := 0 } }

theorem trigger_formed {s : State} (c : CauseKind) (b : Byte) (i : Ident) (formed : s.consist.state = .formed) :
    s.trigger c b i = (s.triggered c b i).setConsist .settling := by
  unfold State.trigger
  rw [formed]
  rfl

theorem trigger_settling {s : State} (c : CauseKind) (b : Byte) (i : Ident) (settling : s.consist.state = .settling) :
    s.trigger c b i = { s with
      consist := { s.consist with surveyCause := ⟨c, b, i⟩, holdOff := some 0 }, revs := (s.trigger c b i).revs } := by
  unfold State.trigger
  rw [settling]
  exact showHeader_frame _ _

theorem trigger_surveying {s : State} (c : CauseKind) (b : Byte) (i : Ident) (surveying : s.consist.state = .surveying) :
    s.trigger c b i = { s with consist := { s.consist with resurvey := true }, revs := (s.trigger c b i).revs } := by
  unfold State.trigger
  rw [surveying]
  exact showHeader_frame _ _

theorem trigger_stands {s : State} (c : CauseKind) (b : Byte) (i : Ident)
    (h : s.consist.state = .unformed ∨ s.consist.state = .stale) : s.trigger c b i = s := by
  unfold State.trigger
  obtain h | h := h <;> rw [h]

theorem consistState_cases (x : ConsistState) :
    x = .formed ∨ x = .settling ∨ x = .surveying ∨ (x = .unformed ∨ x = .stale) := by cases x <;> simp

/-- What a trigger or a link change makes of the other units of a FORMED coach. -/
structure Unsettles (s u : State) : Prop where
  pending : u.isPending .consistChange = true
  heat : u.heat = s.heat.unformed .formed
  door : u.door = s.door.unformed .formed
  outputs : u.outputs = s.droppedOutputs

theorem unsettles_setConsist {s v : State} {x : ConsistState} (hx : x ≠ .formed) (formed : s.consist.state = .formed)
    (heat : s.heat = v.heat) (door : s.door = v.door) (outputs : s.droppedOutputs = v.droppedOutputs) :
    Unsettles v (s.setConsist x) := by
  have moves : s.consist.state ≠ x := fun same => hx (same.symm.trans formed)
  have frame := setConsist_frame hx moves
  rw [formed] at frame
  exact ⟨setConsist_pending moves, heat ▸ (congrArg State.heat frame :), door ▸ (congrArg State.door frame :),
    outputs ▸ (congrArg State.outputs frame :)⟩

theorem trigger_unsettles {s : State} (c : CauseKind) (b : Byte) (i : Ident) (formed : s.consist.state = .formed) :
    Unsettles s (s.trigger c b i) := by
  rw [trigger_formed c b i formed]
  exact unsettles_setConsist (s := s.triggered c b i) (by decide) formed rfl rfl rfl

/-- Elsewhere a trigger leaves the other units alone. -/
theorem trigger_apart {s : State} (c : CauseKind) (b : Byte) (i : Ident) (unformed : s.consist.state ≠ .formed) :
    s.trigger c b i = { s with consist := (s.trigger c b i).consist, revs := (s.trigger c b i).revs } := by
  obtain formed | settling | surveying | still := consistState_cases s.consist.state
  · exact absurd formed unformed
  · have frame := trigger_settling c b i settling
    rw [frame]
  · have frame := trigger_surveying c b i surveying
    rw [frame]
  · rw [trigger_stands c b i still]

/-- A member's response, up to the CHANGE it sends (R61). -/
def State.unsettled (s : State) : State := if s.consist.state = .formed then s.setConsist .stale else s

theorem unsettled_frame (s : State) :
    s.unsettled = { s with
      consist := { s.consist with state := if s.consist.state = .formed then .stale else s.consist.state },
      door := s.unsettled.door, heat := s.unsettled.heat, outputs := s.unsettled.outputs, events := s.unsettled.events,
      revs := s.unsettled.revs } := by
  unfold State.unsettled
  split
  · next formed =>
    have frame := setConsist_frame (s := s) (x := .stale) (by decide) (by rw [formed]; decide)
    rw [frame]
  · rfl

theorem unsettled_heldEnd {s : State} (member : s.consist.roleState ≠ .lead) : s.unsettled.heldEnd = s.heldEnd := by
  rw [unsettled_frame]
  unfold State.heldEnd
  dsimp only
  rw [if_neg member, if_neg member]
  cases s.consist.state <;> rfl

/-- The body of a CHANGE (R62). -/
def LinkChange.body (c : LinkChange) : List Byte := [endCode c.side, c.kind.code] ++ be32 c.identity

theorem reportChange_held {s : State} (c : LinkChange) {e : EndId} (held : s.unsettled.heldEnd = some e) :
    s.reportChange c = ((s.unsettled.build .change .towardLead 0 c.body []).2.placeAt e
      (s.unsettled.originates .change .towardLead 0 c.body [])).1 := by
  unfold State.reportChange
  dsimp only
  split
  · next d h =>
    obtain rfl := Option.some.inj (h.symm.trans held)
    rfl
  · next h => exact absurd (h.symm.trans held) (by simp)

theorem reportChange_free {s : State} (c : LinkChange) (free : s.unsettled.heldEnd = none) :
    s.reportChange c = ((s.unsettled.build .change .towardLead 0 c.body []).2.placeBoth
      (s.unsettled.originates .change .towardLead 0 c.body [])).1 := by
  unfold State.reportChange
  dsimp only
  split
  · next d h => exact absurd (h.symm.trans free) (by simp)
  · rfl

/-- A report moves ends and sequence counters beyond the change of state. -/
theorem reportChange_sends (s : State) (c : LinkChange) : Sends s.unsettled (s.reportChange c) := by
  cases held : s.unsettled.heldEnd with
  | some e =>
    rw [reportChange_held c held]
    exact (sentAt s.unsettled .change .towardLead 0 c.body [] e (by decide)).1
  | none =>
    rw [reportChange_free c held]
    exact (sentBoth s.unsettled .change .towardLead 0 c.body [] (by decide)).1

theorem linkChange_unsettles {s : State} (k : LinkChange) (formed : s.consist.state = .formed) :
    Unsettles s (s.linkChange k) := by
  unfold State.linkChange
  split
  · exact trigger_unsettles _ _ _ formed
  · have unsettles : Unsettles s s.unsettled := by
      rw [State.unsettled, if_pos formed]
      exact unsettles_setConsist (by decide) formed rfl rfl rfl
    have sends : s.reportChange k = { s.unsettled with ends := (s.reportChange k).ends, seqs := (s.reportChange k).seqs } :=
      reportChange_sends s k
    rw [sends]
    exact ⟨unsettles.pending, unsettles.heat, unsettles.door, unsettles.outputs⟩

/-- Elsewhere a link change leaves doors, heating and flags alone. -/
theorem linkChange_apart {s : State} (k : LinkChange) (unformed : s.consist.state ≠ .formed) :
    s.linkChange k = { s with
      consist := (s.linkChange k).consist, ends := (s.linkChange k).ends, seqs := (s.linkChange k).seqs,
      revs := (s.linkChange k).revs } := by
  unfold State.linkChange
  split
  · have frame := trigger_apart .link (endCode k.side) k.identity unformed
    rw [frame]
  · have sends : s.reportChange k = { s.unsettled with ends := (s.reportChange k).ends, seqs := (s.reportChange k).seqs } :=
      reportChange_sends s k
    rw [State.unsettled, if_neg unformed] at sends
    rw [sends]

/-- What Unsettles says of the units, in the terms of R108, R110, R126 and R138. -/
theorem unsettles_units {s u : State} (h : Unsettles s u) :
    u.isPending .consistChange = true
      ∧ u.heat = { s.heat with
          grant := s.heat.grant.map (fun g => { g with void := true }),
          ramp := if s.heat.state = .held then none else s.heat.ramp,
          limit := if s.heat.state = .held then s.heat.on else s.heat.limit, round := none, window := none }
      ∧ u.door.stat = none ∧ u.door.summary = ⟨.unknown, 0, [], false⟩
      ∧ (∀ x r, s.door.group = .released x r →
          u.door.group = .idle ∧ u.door.drop = .consist ∧ (s.part = .active → u.outputs = s.outputs &&& 0xFF8)) := by
  refine ⟨h.pending, h.heat, ?_, ?_, fun x r released => ⟨?_, ?_, fun active => ?_⟩⟩
  · rw [h.door]
    rfl
  · rw [h.door]
    rfl
  · rw [h.door, DoorUnit.unformed, dropped_released released]
    rfl
  · rw [h.door, DoorUnit.unformed, dropped_released released]
    rfl
  · rw [h.outputs, droppedOutputs_released active released]

end Sys2Proof.Machine

namespace Sys2Proof.Proofs

open Sys2Proof Sys2Proof.Machine

/-- Settles O45: a trigger at the lead by consist state; elsewhere STALE and a CHANGE towards the lead. -/
theorem linkChangeResponse : Obligations.LinkChangeResponse := by
  refine ⟨fun s k => ?_, fun s e x kind => ?_, fun s c b i => ?_, fun s u cause => ⟨fun formed => ?_, fun unformed => ?_⟩⟩
  · intro i e code u ch
    have identity : k.identity = i := by
      unfold i LinkChange.identity
      cases k.kind <;> rfl
    have side : endCode k.side = e := by
      unfold e
      cases k.side <;> rfl
    have body : k.body = [e, code] ++ be32 i := by
      rw [LinkChange.body, identity, side]
      unfold code
      cases k.kind <;> rfl
    refine ⟨fun lead => ?_, fun member => ?_⟩
    · rw [← identity, ← side]
      exact if_pos lead
    · have own : u = s.reportChange k := if_neg member
      have frame := unsettled_frame s
      have ends : s.unsettled.ends = s.ends := (congrArg State.ends frame :)
      have seqs : s.unsettled.seqs = s.seqs := (congrArg State.seqs frame :)
      have lines : ∀ d, s.unsettled.sendingLines d = s.sendingLines d := fun d => by
        rw [frame]
        rfl
      have unit : ∀ d, s.unsettled.endOf d = s.endOf d := fun d => congrArg (fun x : Ends => x.get d) ends
      have sent : s.unsettled.originates .change .towardLead 0 k.body [] = ch := by
        rw [body, frame]
        rfl
      have sends : s.reportChange k = { s.unsettled with ends := (s.reportChange k).ends, seqs := (s.reportChange k).seqs } :=
        reportChange_sends s k
      rw [own]
      refine ⟨?_, ?_, fun h held => ?_, fun none d => ?_⟩
      · rw [sends, frame]
      · cases held : s.unsettled.heldEnd with
        | some h =>
          obtain ⟨-, -, -, number⟩ := sentAt s.unsettled .change .towardLead 0 k.body [] h (by decide)
          rw [reportChange_held k held, ← seqs]
          exact number
        | none =>
          obtain ⟨-, -, number⟩ := sentBoth s.unsettled .change .towardLead 0 k.body [] (by decide)
          rw [reportChange_free k held, ← seqs]
          exact number
      · obtain ⟨-, placed, other, -⟩ := sentAt s.unsettled .change .towardLead 0 k.body [] h (by decide)
        rw [reportChange_held k ((unsettled_heldEnd member).trans held), ← sent, ← lines, ← unit, ← unit]
        exact ⟨placed, other⟩
      · obtain ⟨-, placed, -⟩ := sentBoth s.unsettled .change .towardLead 0 k.body [] (by decide)
        rw [reportChange_free k ((unsettled_heldEnd member).trans none), ← sent, ← lines, ← unit]
        exact placed d
  · intro i
    refine ⟨fun lead => ?_, fun member => ?_⟩
    · rw [State.consume, kind]
      exact congrArg (·, false) (if_pos lead)
    · rw [State.consume, kind]
      exact congrArg (·, false) (if_neg member)
  · intro u
    refine ⟨?_, fun formed => ?_, fun settling => ?_, fun surveying => ?_⟩
    · by_cases formed : s.consist.state = .formed
      · have frame := setConsist_frame (s := s.triggered c b i) (x := .settling) (by decide) (by
          rw [show (s.triggered c b i).consist.state = .formed from formed]; decide)
        rw [show u = _ from trigger_formed c b i formed, frame]
        rfl
      · have frame := trigger_apart c b i formed
        rw [show u = s.trigger c b i from rfl, frame]
    · have frame := setConsist_frame (s := s.triggered c b i) (x := .settling) (by decide) (by
        rw [show (s.triggered c b i).consist.state = .formed from formed]; decide)
      rw [show u = _ from trigger_formed c b i formed, frame]
      rfl
    · exact trigger_settling c b i settling
    · exact trigger_surveying c b i surveying
  · obtain ⟨k, rfl⟩ | ⟨c, b, i, rfl⟩ := cause
    · exact unsettles_units (linkChange_unsettles k formed)
    · exact unsettles_units (trigger_unsettles c b i formed)
  · obtain ⟨k, rfl⟩ | ⟨c, b, i, rfl⟩ := cause
    · have frame := linkChange_apart k unformed
      exact ⟨(congrArg State.events frame :), (congrArg State.door frame :), (congrArg State.heat frame :),
        (congrArg State.outputs frame :)⟩
    · have frame := trigger_apart c b i unformed
      exact ⟨(congrArg State.events frame :), (congrArg State.door frame :), (congrArg State.heat frame :),
        (congrArg State.outputs frame :)⟩

end Sys2Proof.Proofs
end

