-- ==== Sys2Proof/Proofs/RoleOrders.lean ====
section
/-! PROOFS. SET_ROLE (R79): the units after a change of role, and the order's outcome. -/

namespace Sys2Proof.Machine

/-! ### The consist state written and the summary evaluated -/

theorem dropped_frame (d : DoorUnit) : d.dropped = { d with group := d.dropped.group, drop := d.dropped.drop } := by
  unfold DoorUnit.dropped
  split <;> rfl

/-- A new consist state, not FORMED, with the evaluation that a change of role adds (R57, R79, R116). -/
theorem settled_frame (s : State) {x : ConsistState} (hx : x ≠ .formed) :
    (s.setConsist x).evalSummary = { s with
      consist := { s.consist with state := x }, door := s.door.unformed s.consist.state,
      heat := s.heat.unformed s.consist.state,
      outputs := if s.consist.state = .formed then s.droppedOutputs else s.outputs,
      events := (s.setConsist x).evalSummary.events, revs := (s.setConsist x).evalSummary.revs } := by
  by_cases same : s.consist.state = x
  · have unformed : s.consist.state ≠ .formed := fun h => hx (same.symm.trans h)
    rw [setConsist_same same, DoorUnit.unformed, HeatUnit.unformed, if_neg unformed, if_neg unformed, if_neg unformed, ← same]
    exact evalSummary_unknown (Or.inr unformed)
  · have frame := setConsist_frame hx same
    have unformed : (s.setConsist x).consist.state ≠ .formed := by
      rw [frame]
      exact hx
    rw [evalSummary_unknown (Or.inr unformed), frame]
    rfl

theorem settled_pending {s : State} {x : ConsistState} (moves : s.consist.state ≠ x) :
    (s.setConsist x).evalSummary.isPending .consistChange = true := evalSummary_pending (setConsist_pending moves)

theorem settled_summary {s : State} {x : ConsistState} (hx : x ≠ .formed) (known : s.door.summary ≠ .unknown) :
    (s.setConsist x).evalSummary.isPending .doorSummary = true := by
  by_cases same : s.consist.state = x
  · rw [setConsist_same same]
    exact evalSummary_unknown_raises (Or.inr fun h => hx (same.symm.trans h)) known
  · exact evalSummary_pending (setConsist_summary hx same known)

/-! ### The units after a change of role (R79, R108, R110, R116, R117, R126, R138) -/

/-- What SET_ROLE makes of the units: `unsettles` where the coach leaves FORMED, `leaves` where it leaves LEAD, `cleared`
where its role state moves. -/
structure RoleUnits (s u : State) (unsettles leaves cleared : Prop) [Decidable unsettles] [Decidable leaves]
    [Decidable cleared] : Prop where
  frame : u = { s with
    consist := u.consist, door := u.door, heat := u.heat, outputs := u.outputs, events := u.events, revs := u.revs }
  state : u.consist.state ≠ s.consist.state → u.isPending .consistChange = true
  heat : u.heat = { s.heat with
    grant := if unsettles then s.heat.grant.map (fun g => { g with void := true }) else s.heat.grant,
    ramp := if unsettles ∧ s.heat.state = .held then none else s.heat.ramp,
    limit := if unsettles ∧ s.heat.state = .held then s.heat.on else s.heat.limit,
    round := if unsettles ∨ leaves then none else s.heat.round,
    window := if unsettles ∨ leaves then none else s.heat.window,
    bids := if leaves then Vector.replicate 32 none else s.heat.bids }
  door : u.door = { s.door with
    group := u.door.group, drop := u.door.drop, stat := if unsettles then none else s.door.stat,
    recF := if leaves then none else s.door.recF, recR := if leaves then none else s.door.recR,
    summary := if cleared then ⟨.unknown, 0, [], false⟩ else s.door.summary }
  summary : u.door.summary ≠ s.door.summary → u.isPending .doorSummary = true
  released : ∀ x r, s.door.group = .released x r → unsettles →
    u.door.group = .idle ∧ u.door.drop = .consist ∧ (s.part = .active → u.outputs = s.outputs &&& 0xFF8)
  kept : ¬ unsettles ∨ (∀ x r, s.door.group ≠ .released x r) →
    u.door.group = s.door.group ∧ u.door.drop = s.door.drop ∧ u.outputs = s.outputs

section
variable {s u : State} {unsettles leaves cleared : Prop} [Decidable unsettles] [Decidable leaves] [Decidable cleared]

/-- Where the role stands, nothing moves. -/
theorem roleUnits_same (settled : ¬ unsettles) (stays : ¬ leaves) (uncleared : ¬ cleared) :
    RoleUnits s s unsettles leaves cleared where
  frame := rfl
  state := fun moves => absurd rfl moves
  heat := by
    rw [if_neg settled, if_neg fun h => settled h.1, if_neg fun h => settled h.1, if_neg fun h => h.elim settled stays,
      if_neg fun h => h.elim settled stays, if_neg stays]
  door := by rw [if_neg settled, if_neg stays, if_neg stays, if_neg uncleared]
  summary := fun moves => absurd rfl moves
  released := fun _ _ _ unsettled => absurd unsettled settled
  kept := fun _ => ⟨rfl, rfl, rfl⟩

/-- A role state that moves without the consist state (R79, R116). -/
theorem roleUnits_shown {c : ConsistUnit} {old : ConsistUnit} (settled : ¬ unsettles) (stays : ¬ leaves) (clear : cleared)
    (state : c.state = s.consist.state) (member : c.roleState ≠ .lead) :
    RoleUnits s (({ s with consist := c } : State).showHeader old).evalSummary unsettles leaves cleared := by
  have header := showHeader_frame ({ s with consist := c } : State) old
  set w := ({ s with consist := c } : State).showHeader old
  have wc : w.consist = c := (congrArg State.consist header :)
  have wd : w.door = s.door := (congrArg State.door header :)
  have unled : w.consist.roleState ≠ .lead ∨ w.consist.state ≠ .formed := Or.inl (wc ▸ member)
  have frame := evalSummary_unknown unled
  refine ⟨?_, ?_, ?_, ?_, fun moves => ?_, fun _ _ _ unsettled => absurd unsettled settled, fun _ => ⟨?_, ?_, ?_⟩⟩
  · rw [frame, header]
  · rw [frame]
    exact fun moves => absurd (wc ▸ state) moves
  · rw [frame, header, if_neg settled, if_neg fun h => settled h.1, if_neg fun h => settled h.1,
      if_neg fun h => h.elim settled stays, if_neg fun h => h.elim settled stays, if_neg stays]
  · rw [frame, header, if_neg settled, if_neg stays, if_neg stays, if_pos clear]
    rfl
  · refine evalSummary_unknown_raises unled fun same => moves ?_
    rw [frame, ← wd, same]
  · rw [frame, header]
  · rw [frame, header]
  · rw [frame, header]

/-- A role state that moves with the consist state (R79). `v` is the state with role, records and bids as they will be. -/
theorem roleUnits_settled {v : State} {x : ConsistState} (hx : x ≠ .formed) (state : v.consist.state = s.consist.state)
    (unsettled : unsettles ↔ s.consist.state = .formed) (clear : cleared)
    (before : v = { s with
      consist := v.consist,
      door := { s.door with recF := if leaves then none else s.door.recF, recR := if leaves then none else s.door.recR },
      heat := { s.heat with
        round := if leaves then none else s.heat.round, window := if leaves then none else s.heat.window,
        bids := if leaves then Vector.replicate 32 none else s.heat.bids } }) :
    RoleUnits s (v.setConsist x).evalSummary unsettles leaves cleared := by
  have door : v.door = _ := (congrArg State.door before :)
  have heat : v.heat = _ := (congrArg State.heat before :)
  have group : v.door.group = s.door.group := (congrArg DoorUnit.group door :)
  have part : v.part = s.part := (congrArg State.part before :)
  have outputs : v.outputs = s.outputs := (congrArg State.outputs before :)
  have frame := settled_frame v hx
  rw [state] at frame
  refine ⟨?_, fun moves => settled_pending fun same => moves ?_, ?_, ?_, fun moves => settled_summary hx fun same => moves ?_,
    fun y r released unsettled' => ?_, fun still => ?_⟩
  · rw [frame, before]
  · exact (congrArg (fun w : State => w.consist.state) frame).trans (same ▸ state)
  · refine (congrArg State.heat frame :).trans ?_
    rw [heat]
    by_cases formed : s.consist.state = .formed
    · have yes := unsettled.mpr formed
      rw [HeatUnit.unformed, if_pos formed, if_pos yes, if_pos (Or.inl yes), if_pos (Or.inl yes)]
      simp only [HeatUnit.voided, yes, true_and]
    · have no := mt unsettled.mp formed
      rw [HeatUnit.unformed, if_neg formed]
      simp only [no, false_and, false_or, if_false]
  · have own : (v.setConsist x).evalSummary.door = v.door.unformed s.consist.state := (congrArg State.door frame :)
    rw [own, DoorUnit.unformed, if_pos clear, dropped_frame v.door, door]
    by_cases formed : s.consist.state = .formed
    · rw [if_pos formed, if_pos (unsettled.mpr formed)]
      rfl
    · rw [if_neg formed, if_neg (mt unsettled.mp formed)]
      rfl
  · rw [frame, DoorUnit.unformed]
    rw [door] at same
    exact same.symm
  · have formed := unsettled.mp unsettled'
    have own : v.door.group = .released y r := group.trans released
    refine ⟨?_, ?_, fun active => ?_⟩
    · rw [frame, DoorUnit.unformed, if_pos formed, dropped_released own]
    · rw [frame, DoorUnit.unformed, if_pos formed, dropped_released own]
    · rw [frame, ← outputs, if_pos formed]
      exact droppedOutputs_released (part.trans active) own
  · have stands : (v.setConsist x).evalSummary.door.group = v.door.group
        ∧ (v.setConsist x).evalSummary.door.drop = v.door.drop ∧ (v.setConsist x).evalSummary.outputs = v.outputs := by
      rw [frame, DoorUnit.unformed]
      by_cases formed : s.consist.state = .formed
      · have idle : ∀ y r, v.door.group ≠ .released y r := group ▸ still.resolve_left (not_not.mpr (unsettled.mpr formed))
        rw [if_pos formed, if_pos formed, dropped_stands idle, droppedOutputs_stands idle]
        exact ⟨rfl, rfl, rfl⟩
      · rw [if_neg formed, if_neg formed]
        exact ⟨rfl, rfl, rfl⟩
    obtain ⟨sameGroup, sameDrop, sameOutputs⟩ := stands
    exact ⟨sameGroup.trans group, sameDrop.trans (congrArg DoorUnit.drop door :), sameOutputs.trans outputs⟩

end

/-! ### Leaving LEAD (R60, R63, R75, R117, R126) -/

/-- The consist unit as a coach leaves LEAD: its survey abandoned, hold-off and re-survey flag gone. -/
def ConsistUnit.unled (c : ConsistUnit) : ConsistUnit :=
  { c with
    holdOff := none, resurvey := false, survey := none,
    sideF := if c.survey.isSome then .empty else c.sideF, sideR := if c.survey.isSome then .empty else c.sideR }

theorem abandonSurvey_frame (s : State) : s.abandonSurvey = { s with consist := s.abandonSurvey.consist } := by
  unfold State.abandonSurvey
  split <;> rfl

theorem abandonSurvey_unled (s : State) :
    ({ s.abandonSurvey.consist with holdOff := none, resurvey := false } : ConsistUnit) = s.consist.unled := by
  unfold State.abandonSurvey ConsistUnit.unled
  by_cases running : s.consist.survey.isSome = true
  · rw [if_pos running, if_pos running, if_pos running]
    rfl
  · have none : s.consist.survey = none := Option.not_isSome_iff_eq_none.mp running
    rw [if_neg running, if_neg running, if_neg running, ← none]

theorem leaveLead_eq (s : State) :
    s.leaveLead = { s with
      consist := s.consist.unled, door := { s.door with recF := none, recR := none },
      heat := { s.heat with round := none, window := none, bids := Vector.replicate 32 none } } := by
  show ((s.abandonSurvey.modConsist fun c => { c with holdOff := none, resurvey := false }).stopRounds.emptyRecords.emptyBids) = _
  rw [← abandonSurvey_unled s, abandonSurvey_frame s]
  rfl

/-! ### The table of R79 -/

theorem applyRole_becomes {s : State} (unled : s.consist.roleState ≠ .lead) : s.applyRole .lead = s.becomeLead := by
  unfold State.applyRole
  cases h : s.consist.roleState with
  | lead => exact absurd h unled
  | member => rfl
  | yielded => rfl

theorem applyRole_same {s : State} {r : Role} (same : (s.consist.roleState = .lead ∧ r = .lead)
    ∨ (s.consist.roleState = .member ∧ r = .member)) : s.applyRole r = s := by
  unfold State.applyRole
  obtain ⟨h, rfl⟩ | ⟨h, rfl⟩ := same <;> rw [h]

theorem applyRole_leaves {s : State} (lead : s.consist.roleState = .lead) : s.applyRole .member = s.becomeMember := by
  unfold State.applyRole
  rw [lead]

theorem applyRole_yielded {s : State} (yielded : s.consist.roleState = .yielded) :
    s.applyRole .member =
      ((s.modConsist fun c => { c with role := .member, roleState := .member }).showHeader s.consist).evalSummary := by
  unfold State.applyRole
  rw [yielded]

section
variable {s : State} {unsettles leaves cleared : Prop} [Decidable unsettles] [Decidable leaves] [Decidable cleared]

theorem becomeLead_units (unsettled : unsettles ↔ s.consist.state = .formed) (stays : ¬ leaves) (clear : cleared) :
    RoleUnits s s.becomeLead unsettles leaves cleared
      ∧ s.becomeLead.consist = { s.consist with
          role := .lead, roleState := .lead, followed := none, rosterWait := none, holdOff := some 0,
          surveyCause := ⟨.role, 0, 0⟩, state := .settling } := by
  set v : State := { s with
    consist := { s.consist with
      role := .lead, roleState := .lead, followed := none, rosterWait := none, holdOff := some 0,
      surveyCause := ⟨.role, 0, 0⟩ } } with before
  have eq : s.becomeLead = (v.setConsist .settling).evalSummary := rfl
  have settling : ConsistState.settling ≠ .formed := fun h => nomatch h
  rw [eq]
  refine ⟨roleUnits_settled settling rfl unsettled clear ?_, (congrArg State.consist (settled_frame v settling) :)⟩
  rw [if_neg stays, if_neg stays, if_neg stays, if_neg stays, if_neg stays]

theorem becomeMember_units (unsettled : unsettles ↔ s.consist.state = .formed) (left : leaves) (clear : cleared) :
    RoleUnits s s.becomeMember unsettles leaves cleared
      ∧ s.becomeMember.consist = { s.consist with
          role := .member, roleState := .member, holdOff := none, resurvey := false, survey := none,
          sideF := if s.consist.survey.isSome then .empty else s.consist.sideF,
          sideR := if s.consist.survey.isSome then .empty else s.consist.sideR,
          state := if s.consist.roster.isSome then .stale else .unformed } := by
  set v : State := { s with
    consist := { s.consist.unled with role := .member, roleState := .member },
    door := { s.door with recF := none, recR := none },
    heat := { s.heat with round := none, window := none, bids := Vector.replicate 32 none } } with before
  set x : ConsistState := if s.consist.roster.isSome then .stale else .unformed with hx
  have eq : s.becomeMember = (v.setConsist x).evalSummary := by
    rw [State.becomeMember, leaveLead_eq, before, hx]
    rfl
  have unformed : x ≠ .formed := by
    rw [hx]
    split <;> exact fun h => nomatch h
  rw [eq]
  refine ⟨roleUnits_settled unformed rfl unsettled clear ?_, (congrArg State.consist (settled_frame v unformed) :)⟩
  rw [if_pos left, if_pos left, if_pos left, if_pos left, if_pos left]

theorem yieldedMember_units (settled : ¬ unsettles) (stays : ¬ leaves) (clear : cleared)
    (yielded : s.consist.roleState = .yielded) :
    RoleUnits s (s.applyRole .member) unsettles leaves cleared
      ∧ (s.applyRole .member).consist = { s.consist with role := .member, roleState := .member } := by
  rw [applyRole_yielded yielded]
  refine ⟨roleUnits_shown (c := { s.consist with role := .member, roleState := .member }) settled stays clear rfl
    (fun h => nomatch h), ?_⟩
  have summary := evalSummary_frame
    ((s.modConsist fun c => { c with role := .member, roleState := .member }).showHeader s.consist)
  have header := showHeader_frame (s.modConsist fun c => { c with role := .member, roleState := .member }) s.consist
  exact (congrArg State.consist summary :).trans (congrArg State.consist header :)

end

/-- What SET_ROLE does before its completion, in the order's code. -/
structure RoleApplied (s u : State) (code : Nat) : Prop where
  units : RoleUnits s u
    (((code = 1 ∧ s.consist.roleState ≠ .lead) ∨ (code = 2 ∧ s.consist.roleState = .lead)) ∧ s.consist.state = .formed)
    (code = 2 ∧ s.consist.roleState = .lead)
    ((code = 1 ∧ s.consist.roleState ≠ .lead) ∨ (code = 2 ∧ s.consist.roleState = .lead)
      ∨ (code = 2 ∧ s.consist.roleState = .yielded))
  stands : code ≠ 1 → code ≠ 2 → u.consist = s.consist
  becomes : code = 1 → s.consist.roleState ≠ .lead →
    u.consist = { s.consist with
      role := .lead, roleState := .lead, followed := none, rosterWait := none, holdOff := some 0,
      surveyCause := ⟨.role, 0, 0⟩, state := .settling }
  leaves : code = 2 → s.consist.roleState = .lead →
    u.consist = { s.consist with
      role := .member, roleState := .member, holdOff := none, resurvey := false, survey := none,
      sideF := if s.consist.survey.isSome then .empty else s.consist.sideF,
      sideR := if s.consist.survey.isSome then .empty else s.consist.sideR,
      state := if s.consist.roster.isSome then .stale else .unformed }
  yielded : code = 2 → s.consist.roleState = .yielded →
    u.consist = { s.consist with role := .member, roleState := .member }
  member : code = 2 → s.consist.roleState = .member → u.consist = s.consist
  lead : code = 1 → s.consist.roleState = .lead → u.consist = s.consist

theorem roleApplied_none (s : State) {code : Nat} (h : code ≠ 1 ∧ code ≠ 2) : RoleApplied s s code where
  units := roleUnits_same (by tauto) (by tauto) (by tauto)
  stands := fun _ _ => rfl
  becomes := fun one => absurd one h.1
  leaves := fun two => absurd two h.2
  yielded := fun two => absurd two h.2
  member := fun _ _ => rfl
  lead := fun _ _ => rfl

theorem roleApplied_lead (s : State) : RoleApplied s (s.applyRole .lead) 1 := by
  have two : (1 : Nat) ≠ 2 := by decide
  by_cases lead : s.consist.roleState = .lead
  · rw [applyRole_same (Or.inl ⟨lead, rfl⟩)]
    exact ⟨roleUnits_same (by tauto) (by tauto) (by tauto), fun h => absurd rfl h, fun _ h => absurd lead h,
      fun h => absurd h two, fun h => absurd h two, fun _ _ => rfl, fun _ _ => rfl⟩
  · rw [applyRole_becomes lead]
    obtain ⟨units, consist⟩ := becomeLead_units (s := s)
      (unsettles := (((1 : Nat) = 1 ∧ s.consist.roleState ≠ .lead) ∨ ((1 : Nat) = 2 ∧ s.consist.roleState = .lead))
        ∧ s.consist.state = .formed)
      (leaves := (1 : Nat) = 2 ∧ s.consist.roleState = .lead)
      (cleared := ((1 : Nat) = 1 ∧ s.consist.roleState ≠ .lead) ∨ ((1 : Nat) = 2 ∧ s.consist.roleState = .lead)
        ∨ ((1 : Nat) = 2 ∧ s.consist.roleState = .yielded)) (by tauto) (by tauto) (by tauto)
    exact ⟨units, fun h => absurd rfl h, fun _ _ => consist, fun h => absurd h two, fun h => absurd h two,
      fun h => absurd h two, fun _ h => absurd h lead⟩

theorem roleApplied_member (s : State) : RoleApplied s (s.applyRole .member) 2 := by
  have one : (2 : Nat) ≠ 1 := by decide
  cases role : s.consist.roleState with
  | lead =>
    rw [applyRole_leaves role]
    obtain ⟨units, consist⟩ := becomeMember_units (s := s)
      (unsettles := (((2 : Nat) = 1 ∧ s.consist.roleState ≠ .lead) ∨ ((2 : Nat) = 2 ∧ s.consist.roleState = .lead))
        ∧ s.consist.state = .formed)
      (leaves := (2 : Nat) = 2 ∧ s.consist.roleState = .lead)
      (cleared := ((2 : Nat) = 1 ∧ s.consist.roleState ≠ .lead) ∨ ((2 : Nat) = 2 ∧ s.consist.roleState = .lead)
        ∨ ((2 : Nat) = 2 ∧ s.consist.roleState = .yielded)) (by tauto) (by tauto) (by tauto)
    exact ⟨units, fun _ h => absurd rfl h, fun h => absurd h one, fun _ _ => consist,
      fun _ h => (nomatch role.symm.trans h), fun _ h => (nomatch role.symm.trans h), fun h => absurd h one⟩
  | member =>
    have unled : s.consist.roleState ≠ .lead := fun h => nomatch role.symm.trans h
    have unyielded : s.consist.roleState ≠ .yielded := fun h => nomatch role.symm.trans h
    rw [applyRole_same (Or.inr ⟨role, rfl⟩)]
    exact ⟨roleUnits_same (by tauto) (by tauto) (by tauto), fun _ _ => rfl, fun h => absurd h one,
      fun _ h => absurd h unled, fun _ h => absurd h unyielded, fun _ _ => rfl, fun _ _ => rfl⟩
  | yielded =>
    have unled : s.consist.roleState ≠ .lead := fun h => nomatch role.symm.trans h
    obtain ⟨units, consist⟩ := yieldedMember_units (s := s)
      (unsettles := (((2 : Nat) = 1 ∧ s.consist.roleState ≠ .lead) ∨ ((2 : Nat) = 2 ∧ s.consist.roleState = .lead))
        ∧ s.consist.state = .formed)
      (leaves := (2 : Nat) = 2 ∧ s.consist.roleState = .lead)
      (cleared := ((2 : Nat) = 1 ∧ s.consist.roleState ≠ .lead) ∨ ((2 : Nat) = 2 ∧ s.consist.roleState = .lead)
        ∨ ((2 : Nat) = 2 ∧ s.consist.roleState = .yielded)) (by tauto) (by tauto) (by tauto) role
    exact ⟨units, fun _ h => absurd rfl h, fun h => absurd h one, fun _ h => absurd h unled, fun _ _ => consist,
      fun _ h => (nomatch role.symm.trans h), fun h => absurd h one⟩

/-- The order by its code: a role is applied and the order DONE, or the code is no role and it is refused. -/
theorem setRole_effect (s : State) (o : OrderCopy) :
    ∃ u r, s.runSetRole o = u.complete o r [] ∧ RoleApplied s u (o.num 0)
      ∧ (r = .badField ∧ o.num 0 ≠ 1 ∧ o.num 0 ≠ 2 ∨ r = .done ∧ (o.num 0 = 1 ∨ o.num 0 = 2)) := by
  by_cases one : o.num 0 = 1
  · refine ⟨s.applyRole .lead, .done, ?_, one ▸ roleApplied_lead s, Or.inr ⟨rfl, Or.inl one⟩⟩
    rw [State.runSetRole, one]
    rfl
  by_cases two : o.num 0 = 2
  · refine ⟨s.applyRole .member, .done, ?_, two ▸ roleApplied_member s, Or.inr ⟨rfl, Or.inr two⟩⟩
    rw [State.runSetRole, two]
    rfl
  · refine ⟨s, .badField, ?_, roleApplied_none s ⟨one, two⟩, Or.inl ⟨rfl, one, two⟩⟩
    rw [State.runSetRole, (roleOfCode_none _).mpr ⟨one, two⟩]

end Sys2Proof.Machine

namespace Sys2Proof.Proofs

open Sys2Proof Sys2Proof.Machine

/-- Settles O17: the cases of the table, and a code that is no role; the order's completion touches none of the units. -/
theorem setRole : Obligations.SetRole := by
  intro s o h kind takes leaves unsettles voided
  obtain ⟨u, r, run, applied, result⟩ := setRole_effect s o
  obtain ⟨⟨frame, state, heat, door, summary, released, kept⟩, stands, becomes, left, yielded, member, lead⟩ := applied
  obtain ⟨t, e, pages⟩ := yields_active (exec_setRole s) h kind run
  obtain ⟨-, active, -⟩ := h
  obtain ⟨status, words, done, others, whole, memory⟩ := completed pages
  have block : ({ u with orders := { u.orders with executing := none } } : State).orders
      = { s.orders with executing := none } := by rw [frame]
  have tc : t.consist = u.consist := (congrArg State.consist whole :)
  have td : t.door = u.door := (congrArg State.door whole :)
  have th : t.heat = u.heat := (congrArg State.heat whole :)
  have outs : t.outputs = u.outputs := (congrArg State.outputs whole :)
  have mem : u.mem = s.mem := (congrArg State.mem frame :)
  refine ⟨t, e, ?_, (congrArg State.orders whole :).trans block, done, fun a page outside => ?_, fun one two => ?_,
    fun code => ?_, fun one unled => tc.trans (becomes one unled), fun two led => tc.trans (left two led),
    fun two y => tc.trans (yielded two y), fun two m => tc.trans (member two m), fun one led => tc.trans (lead one led),
    fun moves => ?_, th.trans heat, ?_, fun moves => ?_, fun x y own unsettled => ?_, fun still => ?_⟩
  · rw [whole, frame]
  · rw [memory a page outside, mem]
  · obtain ⟨rfl, -, -⟩ | ⟨-, code⟩ := result
    · refine ⟨tc.trans (stands one two), status, ?_⟩
      exact completed_word pages 0 (by decide)
    · exact absurd (code.elim one two) id
  · obtain ⟨-, one, two⟩ | ⟨rfl, -⟩ := result
    · exact absurd (code.elim one two) id
    · exact ⟨status, words⟩
  · exact (others .consistChange (fun h => nomatch h)).trans (state (tc ▸ moves))
  · rw [td]
    exact door
  · exact (others .doorSummary (fun h => nomatch h)).trans (summary (td ▸ moves))
  · obtain ⟨idle, drop, outputs⟩ := released x y own unsettled
    rw [td, outs]
    exact ⟨idle, drop, outputs active⟩
  · rw [td, outs]
    exact kept still

end Sys2Proof.Proofs
end

