-- ==== Sys2Proof/Proofs/EntryToActive.lean ====
section
/-! PROOFS. CONFIGURE brings the part from HALTED to ACTIVE (R181): what each unit does at the entry, and what the inputs
whose filter times end with it add (R154). -/

namespace Sys2Proof.Machine

theorem raise_pending {s : State} {d : EventClass} (c : EventClass) (h : s.isPending d = true) :
    (s.raise c).isPending d = true := by
  by_cases same : d = c
  · rw [same]
    exact isPending_raise s c
  · rw [isPending_raise_of_ne s same]
    exact h

/-! ### Operations of one end (R3, R10, R11, R19) -/

/-- What an operation of one end keeps at the entry. -/
structure EndStep (e : EndId) (s t : State) : Prop where
  frame : t = { s with seqs := t.seqs, lines := t.lines, ends := t.ends, events := t.events }
  energy : ∀ l, (t.lineOf l).energy = (s.lineOf l).energy
  pending : ∀ c, s.isPending c = true → t.isPending c = true
  other : t.endOf e.opp = s.endOf e.opp
  otherLines : ∀ n, t.lineOf ⟨e.opp, n⟩ = s.lineOf ⟨e.opp, n⟩

theorem endStep_refl (e : EndId) (s : State) : EndStep e s s := ⟨rfl, fun _ => rfl, fun _ h => h, rfl, fun _ => rfl⟩

theorem endStep_trans {e : EndId} {s t u : State} (h : EndStep e s t) (k : EndStep e t u) : EndStep e s u where
  frame := by rw [k.frame, h.frame]
  energy l := (k.energy l).trans (h.energy l)
  pending c p := k.pending c (h.pending c p)
  other := k.other.trans h.other
  otherLines n := (k.otherLines n).trans (h.otherLines n)

theorem endStep_modEnd (e : EndId) (s : State) (f : EndUnit → EndUnit) : EndStep e s (s.modEnd e f) :=
  ⟨rfl, fun _ => rfl, fun _ h => h, endOf_modEnd_of_ne s (opp_ne e) f, fun _ => rfl⟩

theorem endStep_raise (e : EndId) (s : State) (c : EventClass) : EndStep e s (s.raise c) :=
  ⟨rfl, fun _ => rfl, fun _ h => raise_pending c h, rfl, fun _ => rfl⟩

/-- A line of the end moves, and with it at most the telegram in transmission. -/
structure LineStep (l : LineId) (s t : State) : Prop where
  step : EndStep l.side s t
  ends : (t.endOf l.side).state = (s.endOf l.side).state ∧ (t.endOf l.side).hail = (s.endOf l.side).hail
    ∧ (t.endOf l.side).hailDue = (s.endOf l.side).hailDue
  lines : ∀ k, k ≠ l → t.lineOf k = s.lineOf k

theorem lineStep_refl (l : LineId) (s : State) : LineStep l s s := ⟨endStep_refl _ s, ⟨rfl, rfl, rfl⟩, fun _ _ => rfl⟩

/-- A line and its end's transmitter are written, and LINE_CHANGE is raised. -/
theorem lineStep_set {l : LineId} {s : State} {u : LineUnit} {x : EndUnit} (energy : u.energy = (s.lineOf l).energy)
    (state : x.state = (s.endOf l.side).state) (hail : x.hail = (s.endOf l.side).hail)
    (due : x.hailDue = (s.endOf l.side).hailDue) :
    LineStep l s (({ s with lines := s.lines.set l u, ends := s.ends.set l.side x } : State).raise .lineChange) := by
  have own : (({ s with lines := s.lines.set l u, ends := s.ends.set l.side x } : State).raise .lineChange).endOf l.side = x :=
    ends_get_set ..
  have others : ∀ k, k ≠ l → (s.lines.set l u).get k = s.lines.get k := fun k hk => lines_get_set_of_ne _ _ _ _ hk
  refine ⟨⟨rfl, fun k => ?_, fun c h => raise_pending _ h, ends_get_set_opp .., fun n => others _ fun same => ?_⟩, ?_, others⟩
  · show ((s.lines.set l u).get k).energy = (s.lines.get k).energy
    by_cases hk : k = l
    · rw [hk, lines_get_set]
      exact energy
    · rw [others k hk]
  · exact absurd (congrArg LineId.side same) (opp_ne l.side)
  · rw [own]
    exact ⟨state, hail, due⟩

theorem lineStep_testDark (l : LineId) (s : State) : LineStep l s (s.testDark l) := by
  by_cases may : s.maySettle l = true
  · obtain ⟨-, -, energy, -⟩ := (maySettle_iff s l).mp may
    have step := lineStep_set (l := l) (s := s) (u := .woken) (x := s.endOf l.side) energy.symm rfl rfl rfl
    have kept : s.ends.set l.side (s.endOf l.side) = s.ends := ends_set_self ..
    rw [kept] at step
    rw [testDark_wakes may]
    exact step
  · rw [testDark_stands may]
    exact lineStep_refl l s

theorem lineStep_lineDark {l : LineId} {s : State} (h : (s.lineOf l).state = .dark ∨ (s.lineOf l).state = .settling) :
    LineStep l s (s.lineDark l) ∧ ((s.lineDark l).lineOf l).state = .dark := by
  obtain dark | settling := h
  · have same : s.lineDark l = s := if_pos dark
    rw [same]
    exact ⟨lineStep_refl l s, dark⟩
  · have sending := (isSending_iff _).mpr (Or.inl settling)
    rw [lineDark_of_sending sending, setLine_stops sending rfl]
    exact ⟨lineStep_set rfl rfl rfl rfl, congrArg LineUnit.state (lines_get_set ..)⟩

/-- A boundary of an end that is not LINKED sends at most its HAIL (R50, R54). -/
theorem boundary_unlinked {e : EndId} {s : State} (unlinked : (s.endOf e).state ≠ .linked) :
    EndStep e s (s.boundary e) ∧ (s.boundary e).lines = s.lines
      ∧ ((s.boundary e).endOf e).state = (s.endOf e).state ∧ ((s.boundary e).endOf e).hail = (s.endOf e).hail := by
  have cases : s.boundary e = s ∨ ((s.endOf e).sending = none ∧ s.sendingLines e ≠ []
      ∧ (s.endOf e).hailDue = true ∧ (s.endOf e).state ≠ .uncoupled) := by
    by_cases busy : (s.endOf e).sending ≠ none ∨ s.sendingLines e = []
    · exact Or.inl (boundary_of_start (start_busy busy))
    by_cases still : (s.endOf e).hailDue = false ∨ (s.endOf e).state = .uncoupled
    · exact Or.inl (boundary_of_start (start_nothing still (Or.inl unlinked)))
    obtain ⟨idle, lines⟩ := not_or.mp busy
    obtain ⟨due, coupled⟩ := not_or.mp still
    exact Or.inr ⟨not_not.mp idle, lines, Bool.not_eq_false _ ▸ due, coupled⟩
  obtain same | ⟨idle, lines, due, coupled⟩ := cases
  · rw [same]
    exact ⟨endStep_refl e s, rfl, rfl, rfl⟩
  · rw [boundary_of_start (start_hail idle lines due coupled)]
    exact ⟨⟨rfl, fun _ => rfl, fun _ h => h, ends_get_set_opp .., fun _ => rfl⟩, rfl,
      (congrArg EndUnit.state (ends_get_set ..) :), (congrArg EndUnit.hail (ends_get_set ..) :)⟩

/-! ### An end in ACTIVE before its first candidate (R3, R10, R11, R19) -/

/-- The end is UNCOUPLED with dark lines, or in PROBING with its HAIL timer at 0 and its lines with energy in SETTLING. -/
def State.endEntered (s : State) (e : EndId) : Prop :=
  ((s.endOf e).state = .uncoupled ∨ ((s.endOf e).state = .probing ∧ (s.endOf e).hail = some 0))
    ∧ ∀ n, ((s.lineOf ⟨e, n⟩).state = .dark ∧ ((s.endOf e).state = .uncoupled ∨ (s.lineOf ⟨e, n⟩).energy = false))
      ∨ ((s.lineOf ⟨e, n⟩).state = .settling ∧ (s.endOf e).state ≠ .uncoupled ∧ (s.lineOf ⟨e, n⟩).energy = true)

theorem endEntered_congr {s t : State} {e : EndId} (same : t.endOf e = s.endOf e)
    (lines : ∀ n, t.lineOf ⟨e, n⟩ = s.lineOf ⟨e, n⟩) : t.endEntered e ↔ s.endEntered e := by
  unfold State.endEntered
  rw [same]
  simp only [lines]

/-- A DARK line tested at an end in PROBING (R3). -/
theorem testDark_entered {s : State} {l : LineId} (active : s.part = .active) (coupled : (s.endOf l.side).state ≠ .uncoupled)
    (dark : (s.lineOf l).state = .dark) :
    (((s.testDark l).lineOf l).state = .dark ∧ ((s.testDark l).lineOf l).energy = false)
      ∨ (((s.testDark l).lineOf l).state = .settling ∧ ((s.testDark l).lineOf l).energy = true) := by
  by_cases may : s.maySettle l = true
  · rw [testDark_wakes may]
    have woken : ((({ s with lines := s.lines.set l .woken } : State).raise .lineChange)).lineOf l = .woken := lines_get_set ..
    rw [woken]
    exact Or.inr ⟨rfl, rfl⟩
  · rw [testDark_stands may]
    refine Or.inl ⟨dark, ?_⟩
    rw [maySettle_iff] at may
    exact Bool.eq_false_iff.mpr fun energy => may ⟨active, coupled, energy, dark⟩

theorem startProbing_entered {s : State} {e : EndId} (active : s.part = .active) (probing : (s.endOf e).state = .probing)
    (dark : ∀ n, (s.lineOf ⟨e, n⟩).state = .dark) : EndStep e s (s.startProbing e) ∧ (s.startProbing e).endEntered e := by
  set w := s.modEnd e fun u => { u with hail := some 0, hailDue := true }
  have own : w.endOf e = { s.endOf e with hail := some 0, hailDue := true } := endOf_modEnd ..
  have first := lineStep_testDark ⟨e, .one⟩ w
  set x := w.testDark ⟨e, .one⟩
  have second := lineStep_testDark ⟨e, .two⟩ x
  set y := x.testDark ⟨e, .two⟩
  have wp : (w.endOf e).state = .probing := by
    rw [own]
    exact probing
  have wh : (w.endOf e).hail = some 0 := by rw [own]
  have xp : (x.endOf e).state = .probing := first.ends.1.trans wp
  have yp : (y.endOf e).state = .probing := second.ends.1.trans xp
  have yh : (y.endOf e).hail = some 0 := second.ends.2.1.trans (first.ends.2.1.trans wh)
  have coupled : ∀ {z : EndState}, z = .probing → z ≠ .uncoupled := fun h k => nomatch h.symm.trans k
  have apart : (⟨e, .two⟩ : LineId) ≠ ⟨e, .one⟩ := fun h => nomatch congrArg LineId.no h
  have one := testDark_entered (s := w) (l := ⟨e, .one⟩) active (coupled wp) (dark .one)
  have two := testDark_entered (s := x) (l := ⟨e, .two⟩) ((congrArg State.part first.step.frame :).trans active) (coupled xp)
    (by rw [first.lines _ apart]; exact dark .two)
  rw [← second.lines _ apart.symm] at one
  obtain ⟨last, lines, state, hail⟩ := boundary_unlinked (e := e) (s := y) fun h => nomatch yp.symm.trans h
  have run : s.startProbing e = y.boundary e := if_pos active
  rw [run]
  refine ⟨endStep_trans (endStep_trans (endStep_trans (endStep_modEnd e s _) first.step) second.step) last,
    Or.inr ⟨state.trans yp, hail.trans yh⟩, fun n => ?_⟩
  have line : (y.boundary e).lineOf ⟨e, n⟩ = y.lineOf ⟨e, n⟩ := by rw [State.lineOf, lines, State.lineOf]
  have split : ((y.lineOf ⟨e, n⟩).state = .dark ∧ (y.lineOf ⟨e, n⟩).energy = false)
      ∨ ((y.lineOf ⟨e, n⟩).state = .settling ∧ (y.lineOf ⟨e, n⟩).energy = true) := by
    cases n with
    | one => exact one
    | two => exact two
  rw [line]
  exact split.imp (fun h => ⟨h.1, Or.inr h.2⟩) fun h => ⟨h.1, coupled (state.trans yp), h.2⟩

theorem couple_entered {s : State} {e : EndId} (active : s.part = .active) (entered : s.endEntered e) :
    EndStep e s (s.couple e) ∧ (s.couple e).endEntered e := by
  by_cases apart : (s.endOf e).state = .uncoupled
  · have run : s.couple e = ((s.modEnd e fun u => { u with state := .probing, link := none }).raise .lineChange).startProbing e :=
      if_pos apart
    set w := (s.modEnd e fun u => { u with state := .probing, link := none }).raise .lineChange
    have own : w.endOf e = { s.endOf e with state := .probing, link := none } :=
      endOf_modEnd s e fun u => { u with state := .probing, link := none }
    obtain ⟨-, lines⟩ := entered
    obtain ⟨step, done⟩ := startProbing_entered (s := w) (e := e) active (by rw [own])
      fun n => (lines n).elim (fun h => h.1) fun h => absurd apart h.2.1
    rw [run]
    exact ⟨endStep_trans (endStep_trans (endStep_modEnd e s _) (endStep_raise e _ _)) step, done⟩
  · have same : s.couple e = s := if_neg apart
    rw [same]
    exact ⟨endStep_refl e s, entered⟩

theorem uncouple_entered {s : State} {e : EndId} (entered : s.endEntered e) :
    EndStep e s (s.uncouple e) ∧ (s.uncouple e).endEntered e := by
  obtain ⟨state, lines⟩ := entered
  obtain apart | ⟨probing, -⟩ := state
  · have same : s.uncouple e = s := by
      unfold State.uncouple
      dsimp only
      rw [apart]
    rw [same]
    exact ⟨endStep_refl e s, Or.inl apart, lines⟩
  · have run : s.uncouple e = (((s.modEnd e EndUnit.uncoupled).raise .lineChange).lineDark ⟨e, .one⟩).lineDark ⟨e, .two⟩ := by
      unfold State.uncouple
      dsimp only
      rw [probing]
      rfl
    set w := (s.modEnd e EndUnit.uncoupled).raise .lineChange
    have own : w.endOf e = (s.endOf e).uncoupled := endOf_modEnd s e _
    have unlit : ∀ n, (w.lineOf ⟨e, n⟩).state = .dark ∨ (w.lineOf ⟨e, n⟩).state = .settling :=
      fun n => (lines n).imp (fun h => h.1) fun h => h.1
    have apart : (⟨e, .two⟩ : LineId) ≠ ⟨e, .one⟩ := fun h => nomatch congrArg LineId.no h
    obtain ⟨first, one⟩ := lineStep_lineDark (unlit .one)
    set x := w.lineDark ⟨e, .one⟩
    obtain ⟨second, two⟩ := lineStep_lineDark (s := x) (l := ⟨e, .two⟩) (by rw [first.lines _ apart]; exact unlit .two)
    set y := x.lineDark ⟨e, .two⟩
    have off : (y.endOf e).state = .uncoupled := by
      rw [second.ends.1, first.ends.1, own]
      rfl
    rw [run]
    refine ⟨endStep_trans (endStep_trans (endStep_trans (endStep_modEnd e s _) (endStep_raise e _ _)) first.step) second.step,
      Or.inl off, fun n => Or.inl ⟨?_, Or.inl off⟩⟩
    cases n with
    | one =>
      rw [second.lines _ apart.symm]
      exact one
    | two => exact two

/-! ### The units at the entry (R137, R154, R159, R181) -/

/-- The units of a part that has just taken its settings: doors as at the reset, not FORMED, outputs off. -/
structure State.entryReady (s : State) : Prop where
  active : s.part = .active
  door : s.door = .reset
  unformed : s.consist.state ≠ .formed
  count : s.cfg.count ≤ 6
  off : s.outputs &&& 0x1FF = 0

/-- What the rest of the entry keeps. -/
structure Enters (s t : State) : Prop where
  frame : t = { s with
    heat := t.heat, seqs := t.seqs, lines := t.lines, ends := t.ends, inputs := t.inputs, events := t.events,
    revs := t.revs }
  energy : ∀ l, (t.lineOf l).energy = (s.lineOf l).energy
  pending : ∀ c, s.isPending c = true → t.isPending c = true

theorem enters_refl (s : State) : Enters s s := ⟨rfl, fun _ => rfl, fun _ h => h⟩

theorem enters_trans {s t u : State} (h : Enters s t) (k : Enters t u) : Enters s u where
  frame := by rw [k.frame, h.frame]
  energy l := (k.energy l).trans (h.energy l)
  pending c p := k.pending c (h.pending c p)

theorem entryReady_of_enters {s t : State} (ready : s.entryReady) (h : Enters s t) : t.entryReady := by
  obtain ⟨active, door, unformed, count, off⟩ := ready
  rw [h.frame]
  exact ⟨active, door, unformed, count, off⟩

theorem enters_of_endStep {e : EndId} {s t : State} (h : EndStep e s t) : Enters s t :=
  ⟨by rw [h.frame], h.energy, h.pending⟩

theorem enters_raise (s : State) (c : EventClass) : Enters s (s.raise c) :=
  ⟨rfl, fun _ => rfl, fun _ h => raise_pending c h⟩

/-- SUPPLY_OFF goes with HEAT_SHED (R137). -/
def State.shedTold (s : State) : Prop := s.heat.state = .supplyOff → s.isPending .heatShed = true

theorem shedTold_of_enters {s t : State} (told : s.shedTold) (h : Enters s t) (heat : t.heat = s.heat) : t.shedTold :=
  fun off => h.pending _ (told (heat ▸ off))

/-- With every output off, turning the stages off moves none. -/
theorem setStages_off {s : State} (ready : s.entryReady) : (s.setStages 0).outputs = s.outputs := by
  obtain ⟨active, -, -, count, off⟩ := ready
  refine BitVec.eq_of_getLsbD_eq fun i hi => ?_
  rw [getLsbD_setStages active 0 hi]
  split
  · next stage =>
    have bit : (s.outputs &&& 0x1FF).getLsbD i = false := by
      rw [off]
      exact BitVec.getLsbD_zero
    have mask : (0x1FF : BitVec 12).getLsbD i = true := by
      obtain ⟨low, high⟩ := stage
      have below : i < 9 := by omega
      interval_cases i <;> rfl
    rw [BitVec.getLsbD_and, mask, Bool.and_true] at bit
    rw [bit]
    exact decide_eq_false (by omega)
  · rfl

theorem enters_supplyLost {s : State} (ready : s.entryReady) :
    Enters s s.supplyLost ∧ (s.shedTold → s.supplyLost.shedTold) ∧ s.supplyLost.ends = s.ends
      ∧ s.supplyLost.lines = s.lines := by
  by_cases off : s.heat.state = .supplyOff
  · have same : s.supplyLost = s := if_pos off
    rw [same]
    exact ⟨enters_refl s, id, rfl, rfl⟩
  · have frame := supplyLost_frame off
    set w := s.modHeat fun h => { h with state := .supplyOff, limit := 0, ramp := none, loss := none }
    have shed : s.supplyLost = (w.setStages 0).raise .heatShed := supplyLost_eq off
    have outputs : s.supplyLost.outputs = s.outputs := by
      rw [shed]
      exact setStages_off (s := w) ⟨ready.active, ready.door, ready.unformed, ready.count, ready.off⟩
    rw [outputs] at frame
    refine ⟨⟨by rw [frame], fun l => by rw [frame]; rfl, fun c h => ?_⟩, fun _ _ => ?_, (congrArg State.ends frame :),
      (congrArg State.lines frame :)⟩
    · rw [shed]
      refine raise_pending _ ?_
      rw [setStages_frame]
      exact h
    · rw [shed]
      exact isPending_raise _ _

theorem enters_heatActive {s : State} (ready : s.entryReady) :
    Enters s s.heatActive ∧ (s.shedTold → s.heatActive.shedTold) ∧ s.heatActive.ends = s.ends
      ∧ s.heatActive.lines = s.lines := by
  unfold State.heatActive
  split
  · exact ⟨enters_refl s, id, rfl, rfl⟩
  · exact enters_supplyLost ready

theorem enters_raiseIf (s : State) (b : Prop) [Decidable b] (c : EventClass) :
    Enters s (if b then s.raise c else s) ∧ (if b then s.raise c else s).heat = s.heat
      ∧ (if b then s.raise c else s).ends = s.ends ∧ (if b then s.raise c else s).lines = s.lines := by
  split
  · exact ⟨enters_raise s c, rfl, rfl, rfl⟩
  · exact ⟨enters_refl s, rfl, rfl, rfl⟩

theorem enters_testAux (s : State) :
    Enters s s.testAux ∧ s.testAux.heat = s.heat ∧ s.testAux.ends = s.ends ∧ s.testAux.lines = s.lines := by
  obtain ⟨first, heat, ends, lines⟩ := enters_raiseIf s (s.cfg.sens0.activeAt (s.level .aux0) = true) .aux0
  set w := if s.cfg.sens0.activeAt (s.level .aux0) = true then s.raise .aux0 else s
  obtain ⟨second, heat', ends', lines'⟩ := enters_raiseIf w (w.cfg.sens1.activeAt (w.level .aux1) = true) .aux1
  exact ⟨enters_trans first second, heat'.trans heat, ends'.trans ends, lines'.trans lines⟩

/-- An end of a silent part enters ACTIVE (R10, R11, R19). -/
theorem endActive_entered {s : State} {e : EndId} (active : s.part = .active) (unlinked : (s.endOf e).state ≠ .linked)
    (dark : ∀ n, (s.lineOf ⟨e, n⟩).state = .dark) : EndStep e s (s.endActive e) ∧ (s.endActive e).endEntered e := by
  unfold State.endActive
  split
  · next apart => exact ⟨endStep_refl e s, Or.inl apart, fun n => Or.inl ⟨dark n, Or.inl apart⟩⟩
  · next coupled =>
    refine startProbing_entered active ?_ dark
    cases h : (s.endOf e).state with
    | uncoupled => exact absurd h coupled
    | linked => exact absurd h unlinked
    | probing => rfl

/-! ### The inputs at the entry (R153 to R159) -/

/-- What a part that enters ACTIVE holds from then on. -/
structure Entered (v t : State) : Prop where
  enters : Enters v t
  told : t.shedTold
  ends : ∀ e, t.endEntered e

theorem entered_units {v s t : State} (h : Entered v s) (k : Enters s t) (told : t.shedTold) (ends : t.ends = s.ends)
    (lines : t.lines = s.lines) : Entered v t := by
  refine ⟨enters_trans h.enters k, told, fun e => (endEntered_congr ?_ fun n => ?_).mpr (h.ends e)⟩
  · rw [State.endOf, ends, State.endOf]
  · rw [State.lineOf, lines, State.lineOf]

theorem entered_end {v s t : State} {e : EndId} (h : Entered v s) (k : EndStep e s t) (own : t.endEntered e) : Entered v t := by
  have enters := enters_of_endStep k
  refine ⟨enters_trans h.enters enters, shedTold_of_enters h.told enters (congrArg State.heat k.frame :), fun e' => ?_⟩
  obtain rfl | rfl := eq_or_eq_opp e e'
  · exact own
  · exact (endEntered_congr k.other k.otherLines).mpr (h.ends _)

theorem entered_coupler {v s : State} (ready : s.entryReady) (h : Entered v s) (e : EndId) (level : Bool) :
    Entered v (if level = true then s.couple e else s.uncouple e) := by
  split
  · obtain ⟨step, own⟩ := couple_entered ready.active (h.ends e)
    exact entered_end h step own
  · obtain ⟨step, own⟩ := uncouple_entered (h.ends e)
    exact entered_end h step own

theorem entered_aux {v s : State} (h : Entered v s) (x : Sensitivity) (c : EventClass) (level : Bool) :
    Entered v (s.auxChange x c level) := by
  obtain ⟨step, heat, ends, lines⟩ := enters_raiseIf s (x.names level = true) c
  exact entered_units h step (shedTold_of_enters h.told step heat) ends lines

/-- The acts of the readers; with the doors as at the reset, zero speed and the loop have nothing to act on (R156). -/
theorem entered_act {v s : State} (ready : s.entryReady) (h : Entered v s) (i : Input) (level : Bool) :
    Entered v (s.act i level) := by
  have door : s.door = .reset := ready.door
  cases i with
  | cplA => exact entered_coupler ready h .a level
  | cplB => exact entered_coupler ready h .b level
  | zspd =>
    rw [act_zspd_stands (Or.inr fun x d released => nomatch (congrArg DoorUnit.group door).symm.trans released)]
    exact h
  | dloop =>
    have unknown : s.summaryNow = s.door.summary := by
      rw [door]
      exact summaryNow_unknown (Or.inl fun led => ready.unformed led.2)
    rw [act_dloop_stands (Or.inr fun closing => nomatch (congrArg DoorUnit.group door).symm.trans closing),
      evalSummary_stands unknown]
    exact h
  | supply =>
    show Entered v (if (!level && s.part == .active) = true then s.supplyLost else s)
    split
    · obtain ⟨step, told, ends, lines⟩ := enters_supplyLost ready
      exact entered_units h step (told h.told) ends lines
    · exact h
  | aux0 => exact entered_aux h _ _ level
  | aux1 => exact entered_aux h _ _ level

theorem entered_qualify {v s : State} (ready : v.entryReady) (h : Entered v s) (i : Input) : Entered v (s.qualify i) := by
  unfold State.qualify
  dsimp only
  split
  · have step : Enters s ((s.qualified i).touchAgain .ioView) := ⟨rfl, fun _ => rfl, fun _ k => k⟩
    have begun := entered_units h step (shedTold_of_enters h.told step rfl) rfl rfl
    exact entered_act (entryReady_of_enters ready begun.enters) begun i _
  · exact h

theorem entered_foldl {v : State} (ready : v.entryReady) (l : List Input) :
    ∀ s, Entered v s → Entered v (l.foldl State.qualify s) := by
  induction l with
  | nil => exact fun s h => h
  | cons i l ih => exact fun s h => ih _ (entered_qualify ready h i)

/-! ### The entry (R181) -/

/-- The consist unit's entry (R58): a silent consist unit takes the role of the settings. -/
theorem consistActive_spec {w : State} (q : w.consist = .reset) (door : w.door = .reset) :
    w.consistActive = { w with consist := w.consistActive.consist, events := w.consistActive.events, revs := w.consistActive.revs }
      ∧ w.consistActive.consist.state ≠ .formed
      ∧ (w.cfg.role = .lead →
          w.consistActive.consist = { w.consist with
            role := .lead, roleState := .lead, state := .settling, surveyCause := ⟨.active, 0, 0⟩, holdOff := some 0 }
          ∧ w.consistActive.isPending .consistChange = true)
      ∧ (w.cfg.role = .member → w.consistActive.consist = w.consist) := by
  have state : w.consist.state = .unformed := congrArg ConsistUnit.state q
  cases role : w.cfg.role with
  | lead =>
    set v : State := { w with
      consist := { w.consist with role := .lead, roleState := .lead, holdOff := some 0, surveyCause := ⟨.active, 0, 0⟩ } }
    have run : w.consistActive = v.setConsist .settling := by
      unfold State.consistActive
      rw [role]
      rfl
    have moves : v.consist.state ≠ .settling := fun h => nomatch state.symm.trans h
    have apart : v.consist.state ≠ .formed := fun h => nomatch state.symm.trans h
    have still : v.door.unformed v.consist.state = w.door := by
      rw [DoorUnit.unformed, if_neg apart]
      show ({ w.door with summary := .unknown } : DoorUnit) = w.door
      rw [door]
      rfl
    have heat : v.heat.unformed v.consist.state = w.heat := if_neg apart
    have frame := setConsist_frame (s := v) (x := .settling) (fun h => nomatch h) moves
    rw [still, heat, if_neg apart] at frame
    have consist : w.consistActive.consist = { w.consist with
        role := .lead, roleState := .lead, state := .settling, surveyCause := ⟨.active, 0, 0⟩, holdOff := some 0 } := by
      rw [run, frame]
    refine ⟨?_, fun h => ?_, fun _ => ⟨consist, ?_⟩, fun h => nomatch h⟩
    · rw [run, frame]
    · rw [consist] at h
      exact nomatch h
    · rw [run]
      exact setConsist_pending moves
  | member =>
    have run : w.consistActive = { w with consist := { w.consist with role := .member, roleState := .member } } := by
      unfold State.consistActive
      rw [role]
      rfl
    have same : ({ w.consist with role := .member, roleState := .member } : ConsistUnit) = w.consist := by
      rw [q]
      rfl
    rw [run, same]
    exact ⟨rfl, fun h => (nomatch state.symm.trans h), fun h => (nomatch h), fun _ => rfl⟩

/-- A silent part that takes its settings. -/
theorem activate_entered {s : State} {c : Settings} (quiet : s.quiet) (count : c.count ≤ 6) :
    Entered (s.configured c).consistActive (s.activate c) := by
  obtain ⟨-, lines, ends, consist, door, heat, -, off⟩ := quiet
  obtain ⟨frame, unformed, -, -⟩ := consistActive_spec (w := s.configured c) consist door
  rw [activate_eq]
  set v := (s.configured c).consistActive
  have ready : v.entryReady := by
    refine ⟨?_, ?_, unformed, ?_, ?_⟩
    · rw [frame]
      rfl
    · rw [frame]
      exact door
    · rw [frame]
      exact count
    · rw [frame]
      exact off
  have told : v.shedTold := fun h => by
    rw [frame] at h
    exact nomatch (congrArg HeatUnit.state heat).symm.trans h
  have vends : v.ends = s.ends := (congrArg State.ends frame :)
  have vlines : v.lines = s.lines := (congrArg State.lines frame :)
  obtain ⟨first, told, hends, hlines⟩ := (enters_heatActive ready).imp_right fun h => h.imp_left fun k => k told
  set h := v.heatActive
  obtain ⟨second, xheat, xends, xlines⟩ := enters_testAux h
  set x := h.testAux
  have reached := enters_trans first second
  have xready := entryReady_of_enters ready reached
  have xtold := shedTold_of_enters told second xheat
  have unlinked : ∀ e, (x.endOf e).state ≠ .linked := fun e => by
    rw [State.endOf, xends, hends, vends]
    exact (ends e).1
  have dark : ∀ l, (x.lineOf l).state = .dark := fun l => by
    rw [State.lineOf, xlines, hlines, vlines]
    exact (lines l).1
  obtain ⟨stepA, ownA⟩ := endActive_entered xready.active (unlinked .a) fun n => dark ⟨.a, n⟩
  set y := x.endActive .a
  have yenters := enters_of_endStep stepA
  obtain ⟨stepB, ownB⟩ := endActive_entered (s := y) (e := .b) (entryReady_of_enters xready yenters).active
    (by rw [show y.endOf .b = x.endOf .b from stepA.other]; exact unlinked .b)
    fun n => by rw [show y.lineOf ⟨.b, n⟩ = x.lineOf ⟨.b, n⟩ from stepA.otherLines n]; exact dark ⟨.b, n⟩
  set z := y.endActive .b
  have zenters := enters_of_endStep stepB
  refine entered_foldl ready allInputs z ⟨enters_trans (enters_trans reached yenters) zenters, ?_, fun e => ?_⟩
  · exact shedTold_of_enters (shedTold_of_enters xtold yenters (congrArg State.heat stepA.frame :)) zenters
      (congrArg State.heat stepB.frame :)
  · cases e with
    | a => exact (endEntered_congr stepB.other stepB.otherLines).mpr ownA
    | b => exact ownB

/-! ### What the host finds -/

theorem settings_role (o : OrderCopy) :
    (o.num 4 = 1 → o.settings.role = .lead) ∧ (o.num 4 = 2 → o.settings.role = .member) := by
  refine ⟨fun h => ?_, fun h => ?_⟩
  · show (roleOfCode (o.num 4)).getD .member = .lead
    rw [h]
    rfl
  · show (roleOfCode (o.num 4)).getD .member = .member
    rw [h]
    rfl

/-- The counts that a completed CONFIGURE shows fit a word. -/
theorem clampedFields_small (o : OrderCopy) : o.clampedFields.length < 65536 ∧ o.clampedFields.headD 0 < 65536 := by
  have few : o.clampedFields.length ≤ 12 := by
    refine le_trans (List.length_filterMap_le ..) ?_
    rfl
  have small : ∀ n ∈ o.clampedFields, n ≤ 20 := fun n hn => by
    have cases := (mem_clampedFields o n).mp hn
    omega
  refine ⟨by omega, ?_⟩
  cases h : o.clampedFields with
  | nil => decide
  | cons n l =>
    have bound := small n (by rw [h]; exact List.mem_cons_self ..)
    show n < 65536
    omega

theorem endEntered_line {s : State} (ends : ∀ e, s.endEntered e) (l : LineId) :
    ((s.lineOf l).state = .settling ↔ (s.lineOf l).energy = true ∧ (s.endOf l.side).state ≠ .uncoupled) := by
  obtain ⟨e, n⟩ := l
  obtain ⟨-, lines⟩ := ends e
  refine ⟨fun settling => ?_, fun lit => ?_⟩
  · obtain ⟨dark, -⟩ | ⟨-, coupled, energy⟩ := lines n
    · exact absurd (settling.symm.trans dark) (by decide)
    · exact ⟨energy, coupled⟩
  · obtain ⟨energy, coupled⟩ := lit
    obtain ⟨-, apart | unlit⟩ | ⟨settling, -⟩ := lines n
    · exact absurd apart coupled
    · exact absurd (energy.symm.trans unlit) (by decide)
    · exact settling

theorem lineOutput_dark {s : State} {l : LineId} (held : s.resetHeld = false) (active : s.part = .active)
    (dark : (s.lineOf l).state = .dark) :
    s.lineOutput l = if (s.endOf l.side).state = .uncoupled then .off else .idle := by
  rw [State.lineOutput, if_neg (by rw [held]; exact Bool.false_ne_true), dark]
  dsimp only
  split <;> simp_all

end Sys2Proof.Machine

namespace Sys2Proof.Proofs

open Sys2Proof Sys2Proof.Machine

/-- Settles O16: the entry of each unit in turn, then the inputs; the completion shows the clamped fields. -/
theorem configureEntersActive : Obligations.ConfigureEntersActive := by
  intro s o held halted quiet ho kind good
  obtain ⟨length, head⟩ := clampedFields_small o
  have inactive : s.part ≠ .active := fun active => nomatch halted.symm.trans active
  have run : s.runConfigure o = (s.activate o.settings).complete o .done
      [BitVec.ofNat 16 o.clampedFields.length, BitVec.ofNat 16 (o.clampedFields.headD 0)] := by
    rw [State.runConfigure, if_neg inactive, if_neg (not_not.mpr good),
      pageWord_small length, pageWord_small head]
  obtain ⟨t, e, pages⟩ := yields_order (exec_configure s) held ho (beq_iff_eq.mpr kind) run
  obtain ⟨status, -, done, others, whole, memory⟩ := completed pages
  obtain ⟨-, -, -, count⟩ := settings_ranges o
  obtain ⟨enters, told, ends⟩ := activate_entered (c := o.settings) quiet count
  have supply := activate_supplyOk s o.settings
  set u := s.activate o.settings
  obtain ⟨-, -, -, consist, door, -, -, -⟩ := quiet
  obtain ⟨frame, -, lead, member⟩ := consistActive_spec (w := s.configured o.settings) consist door
  set v := (s.configured o.settings).consistActive
  clear_value u v
  obtain ⟨isLead, isMember⟩ := settings_role o
  have before : u = { s with
      part := .active, cfg := o.settings, gpHeld := false, consist := v.consist, heat := u.heat, seqs := u.seqs,
      lines := u.lines, ends := u.ends, inputs := u.inputs, events := u.events, revs := u.revs } := by
    rw [enters.frame, frame]
    rfl
  have part : u.part = .active := (congrArg State.part before :)
  have energy : ∀ l, (u.lineOf l).energy = (s.lineOf l).energy := fun l => by
    rw [enters.energy l, frame]
    rfl
  have tends : t.ends = u.ends := (congrArg State.ends whole :)
  have tlines : t.lines = u.lines := (congrArg State.lines whole :)
  have tpart : t.part = .active := (congrArg State.part whole :).trans part
  have theld : t.resetHeld = false := ((congrArg State.resetHeld whole :).trans (congrArg State.resetHeld before :)).trans held
  have entered : ∀ e, t.endEntered e := fun e => (endEntered_congr (by rw [State.endOf, tends, State.endOf])
    fun n => by rw [State.lineOf, tlines, State.lineOf]).mpr (ends e)
  have line : ∀ l, t.lineOf l = u.lineOf l := fun l => by rw [State.lineOf, tlines, State.lineOf]
  have tconsist : t.consist = v.consist := (congrArg State.consist whole :).trans (congrArg State.consist before :)
  have level : u.level .supply = t.level .supply := (congrArg (fun w : State => w.level .supply) whole :).symm
  refine ⟨t, e, tpart, ?_, ?_, (congrArg (fun w : State => w.orders.executing) whole :), status, completed_words pages (by decide), done,
    fun one => ⟨?_, ?_⟩, fun two => ?_, fun k coupled => ?_, fun l => ?_, fun l dark => lineOutput_dark theld tpart dark,
    fun off => ⟨?_, ?_⟩, ?_, ?_, ?_, ?_, fun a page outside => ?_⟩
  · exact (congrArg State.cfg whole :).trans (congrArg State.cfg before :)
  · exact (congrArg State.gpHeld whole :).trans (congrArg State.gpHeld before :)
  · exact tconsist.trans (lead (isLead one)).1
  · exact (others .consistChange fun h => nomatch h).trans (enters.pending _ (lead (isLead one)).2)
  · exact tconsist.trans (member (isMember two))
  · exact ((entered k).1.resolve_left coupled).2
  · have lit := endEntered_line entered l
    rwa [show (t.lineOf l).energy = (s.lineOf l).energy by rw [line, energy]] at lit
  · exact (congrArg (fun w : State => w.heat.state) whole :).trans (supply part (level.trans off))
  · exact (others .heatShed fun h => nomatch h).trans (told (supply part (level.trans off)))
  · exact (congrArg State.door whole :).trans (congrArg State.door before :)
  · exact (congrArg State.inFlight whole :).trans (congrArg State.inFlight before :)
  · exact (congrArg State.deliveries whole :).trans (congrArg State.deliveries before :)
  · exact (congrArg State.outputs whole :).trans (congrArg State.outputs before :)
  · exact (memory a page outside).trans (congrArg (fun w : State => w.mem.read a) before :)

end Sys2Proof.Proofs
end

