-- ==== Sys2Proof/Proofs/HeatingStates.lean ====
section
/-! PROOFS. The heating unit's stages (R132 to R138): a ramp step, a lost grant, a grant applied; telegrams of the rounds
(R122 to R126, R136). -/

namespace Sys2Proof.Machine

/-! ### Stages on (R132, R133) -/

/-- Stages turned off at once down to a limit. -/
def State.cutStages (s : State) (m : Nat) : State := if m < s.heat.on then s.setStages m else s

theorem cutStages_frame (s : State) (m : Nat) :
    s.cutStages m = { s with
      heat := { s.heat with on := if m < s.heat.on then m else s.heat.on }, outputs := (s.cutStages m).outputs,
      revs := (s.cutStages m).revs } := by
  unfold State.cutStages
  split
  · exact setStages_frame s m
  · rfl

/-- An output's level with `m` stages on. -/
def stageImage (count m : Nat) (out : BitVec 12) (i : Nat) : Bool :=
  if 3 ≤ i ∧ i < 3 + count then decide (i < 3 + m) else out.getLsbD i

theorem cutStages_less {s : State} {m : Nat} (active : s.part = .active) (less : m < s.heat.on) {i : Nat} (hi : i < 12) :
    (s.cutStages m).outputs.getLsbD i = stageImage s.cfg.count m s.outputs i := by
  rw [State.cutStages, if_pos less]
  exact getLsbD_setStages active m hi

theorem cutStages_stands {s : State} {m : Nat} (stands : s.heat.on ≤ m) : s.cutStages m = s := if_neg (by omega)

/-! ### The ramp and the loss of the grant (R133, R136) -/

theorem stepRamp_waits {s : State} (h : s.heat.ramp = none ∨ ∃ r, s.heat.ramp = some r ∧ r.left ≠ 0) : s.stepRamp = s := by
  unfold State.stepRamp
  obtain none | ⟨r, ramp, left⟩ := h
  · rw [none]
  · rw [ramp]
    exact if_neg left

/-- The ramp after a step that falls due (R133; log 28). -/
def State.nextRamp (s : State) (r : Ramp) : Option Ramp :=
  if s.heat.on + 1 < r.target then some ⟨r.target, s.cfg.stageGap, s.ms + BitVec.ofNat 16 s.cfg.stageGap⟩ else none

theorem stepRamp_due {s : State} {r : Ramp} (ramp : s.heat.ramp = some r) (due : r.left = 0) :
    s.stepRamp = (({ s with heat := { s.heat with ramp := s.nextRamp r } } : State).setStages (s.heat.on + 1)).touch .heatView := by
  unfold State.stepRamp
  rw [ramp]
  exact if_pos due

theorem stepRamp_frame {s : State} {r : Ramp} (ramp : s.heat.ramp = some r) (due : r.left = 0) :
    s.stepRamp = { s with
      heat := { s.heat with on := s.heat.on + 1, ramp := s.nextRamp r }, outputs := s.stepRamp.outputs,
      revs := s.stepRamp.revs } := by
  rw [stepRamp_due ramp due, touch_frame, setStages_frame]

theorem stepRamp_outputs {s : State} {r : Ramp} (active : s.part = .active) (ramp : s.heat.ramp = some r) (due : r.left = 0)
    {i : Nat} (hi : i < 12) : s.stepRamp.outputs.getLsbD i = stageImage s.cfg.count (s.heat.on + 1) s.outputs i := by
  rw [stepRamp_due ramp due, touch_frame]
  exact getLsbD_setStages (s := { s with heat := { s.heat with ramp := s.nextRamp r } }) active _ hi

/-- The limit in SHED (R136). -/
def State.shedLimit (s : State) : Nat := if s.cfg.fallback < s.heat.on then s.cfg.fallback else s.heat.on

/-- The heating unit in SHED before its stages are cut. -/
def State.shedding (s : State) : State :=
  { s with heat := { s.heat with state := .shed, limit := s.shedLimit, ramp := none, loss := none } }

theorem shed_eq (s : State) : s.shed = (s.shedding.cutStages s.shedLimit).raise .heatShed := by
  have limit : min s.cfg.fallback s.heat.on = s.shedLimit := by
    rw [State.shedLimit]
    split <;> omega
  rw [State.shed, limit]
  rfl

theorem shed_frame (s : State) :
    s.shed = { s with
      heat := { s.heat with state := .shed, limit := s.shedLimit, on := s.shedLimit, ramp := none, loss := none },
      outputs := s.shed.outputs, events := s.shed.events, revs := s.shed.revs } := by
  have on : (if s.shedLimit < s.heat.on then s.shedLimit else s.heat.on) = s.shedLimit := by
    unfold State.shedLimit
    split_ifs <;> omega
  have cut := cutStages_frame s.shedding s.shedLimit
  rw [show s.shedding.heat.on = s.heat.on from rfl, on] at cut
  rw [shed_eq, cut]
  rfl

theorem shed_outputs (s : State) : s.shed.outputs = (s.shedding.cutStages s.shedLimit).outputs := by
  rw [shed_eq]
  rfl

theorem shed_others (s : State) {c : EventClass} (h : c ≠ .heatShed) : s.shed.isPending c = s.isPending c := by
  rw [shed_eq, isPending_raise_of_ne _ h, cutStages_frame]
  rfl

theorem testLoss_stands {s : State} (h : s.heat.state ≠ .held ∨ reached s.heat.loss (3000 * s.heat.tSeen) = false) :
    s.testLoss = s := by
  refine if_neg fun lost => ?_
  obtain ⟨held, passed⟩ := lost
  exact h.elim (fun apart => apart held) fun short => absurd (short.symm.trans passed) (by decide)

theorem testLoss_lost {s : State} (held : s.heat.state = .held) (lost : reached s.heat.loss (3000 * s.heat.tSeen) = true) :
    s.testLoss = s.shed := if_pos ⟨held, lost⟩

/-! ### A grant applied (R132 to R134) -/

/-- The heating unit with a grant, before its stages are cut. -/
def State.granted (s : State) (gen round : Word) (m : Nat) : State :=
  { s with heat := { s.heat with grant := some ⟨gen, round, m, false⟩, state := .held, limit := m, loss := some 0, ramp := s.rampFor m } }

theorem applyGrant_eq (s : State) (gen round : Word) (n : Nat) :
    s.applyGrant gen round n =
      let m := if s.cfg.count < n then s.cfg.count else n
      let w := (s.granted gen round m).cutStages m
      (if m ≠ s.heat.limit then w.raise .heatChange else w).touch .heatView := by
  have stages : min n s.cfg.count = if s.cfg.count < n then s.cfg.count else n := by
    split <;> omega
  unfold State.applyGrant
  rw [stages]
  rfl

theorem applyGrant_frame (s : State) (gen round : Word) (n : Nat) :
    let m := if s.cfg.count < n then s.cfg.count else n
    let u := s.applyGrant gen round n
    u = { s with
      heat := { s.heat with
        grant := some ⟨gen, round, m, false⟩, state := .held, limit := m, on := if m < s.heat.on then m else s.heat.on,
        loss := some 0, ramp := s.rampFor m },
      outputs := ((s.granted gen round m).cutStages m).outputs, events := u.events, revs := u.revs } := by
  intro m u
  have cut := cutStages_frame (s.granted gen round m) m
  have run : u = _ := applyGrant_eq s gen round n
  rw [touch_frame] at run
  have moved : ∀ w : State, (if m ≠ s.heat.limit then w.raise .heatChange else w)
      = { w with events := (if m ≠ s.heat.limit then w.raise .heatChange else w).events } := fun w => by split <;> rfl
  rw [run]
  dsimp only
  rw [moved, cut]
  rfl

theorem applyGrant_events (s : State) (gen round : Word) (n : Nat) :
    let m := if s.cfg.count < n then s.cfg.count else n
    (s.applyGrant gen round n).events = (if m ≠ s.heat.limit then s.raise .heatChange else s).events := by
  intro m
  have cut := cutStages_frame (s.granted gen round m) m
  rw [applyGrant_eq, touch_frame]
  show (if m ≠ s.heat.limit then State.raise _ _ else _).events = _
  by_cases moves : m ≠ s.heat.limit
  · rw [if_pos moves, if_pos moves, cut]
    rfl
  · rw [if_neg moves, if_neg moves, cut]
    rfl

theorem rampFor_eq (s : State) (m : Nat) :
    s.rampFor m = if m ≤ s.heat.on then none
      else some (match s.heat.ramp with
        | some x => { x with target := m }
        | none =>
          ⟨m, 200 + (s.consist.position - 1) * s.cfg.stagger,
            s.ms + BitVec.ofNat 16 (200 + (s.consist.position - 1) * s.cfg.stagger)⟩) := by
  unfold State.rampFor
  cases s.heat.ramp <;> rfl

theorem pairFor_cons (p : Nat) (a n : Byte) (l : List Byte) :
    pairFor p (a :: n :: l) = if a.toNat = p then some n.toNat else pairFor p l := rfl

/-! ### Telegrams of the rounds (R123, R124, R131, R136) -/

theorem testLoss_frame (s : State) :
    s.testLoss = { s with
      heat := { s.heat with
        state := s.testLoss.heat.state, limit := s.testLoss.heat.limit, on := s.testLoss.heat.on,
        ramp := s.testLoss.heat.ramp, loss := s.testLoss.heat.loss },
      outputs := s.testLoss.outputs, events := s.testLoss.events, revs := s.testLoss.revs } := by
  unfold State.testLoss
  split
  · rw [shed_frame]
  · rfl

theorem heatClassOfCode_eq (n : Nat) (c : HeatClass) :
    heatClassOfCode n = some c ↔ (n = 1 ∧ c = .essential) ∨ (n = 2 ∧ c = .comfort) := by
  unfold heatClassOfCode
  split_ifs <;> cases c <;> simp_all

theorem takeBid_ignored {s : State} {t : Telegram}
    (h : heatClassOfCode (rd8 t.body 8).toNat = none
      ∨ ¬ (s.consist.roleState = .lead ∧ s.consist.state = .formed ∧ rd16 t.body 5 = s.consist.generation
        ∧ (rd8 t.body 0).toNat ≠ s.consist.position
        ∧ (s.consist.entryAt (rd8 t.body 0).toNat).map (·.identity) = some (rd32 t.body 1))) : s.takeBid t = s := by
  unfold State.takeBid
  dsimp only
  split
  · next cls known => exact if_neg (h.resolve_left fun none => nomatch none.symm.trans known)
  · rfl

theorem takeBid_taken {s : State} {t : Telegram} {c : HeatClass} (known : heatClassOfCode (rd8 t.body 8).toNat = some c)
    (h : s.consist.roleState = .lead ∧ s.consist.state = .formed ∧ rd16 t.body 5 = s.consist.generation
        ∧ (rd8 t.body 0).toNat ≠ s.consist.position
        ∧ (s.consist.entryAt (rd8 t.body 0).toNat).map (·.identity) = some (rd32 t.body 1)) :
    s.takeBid t = { s with heat := { s.heat with
      bids := s.heat.bids.setIfInBounds ((rd8 t.body 0).toNat - 1) (some ⟨(rd8 t.body 7).toNat, c, s.heat.currentRound, 0⟩) } } := by
  unfold State.takeBid
  dsimp only
  rw [known]
  exact if_pos h

/-- The state in which a call has been heard: the period seen, and the loss test at once. -/
def State.heard (s : State) (n : Nat) : State := ({ s with heat := { s.heat with tSeen := n } } : State).testLoss

theorem takeCall_lead {s : State} (t : Telegram) (lead : s.consist.roleState = .lead) : s.takeCall t = s := if_pos lead

/-- The call of a HEATCALL. -/
def Telegram.call (t : Telegram) : CallId := ⟨t.origin, rd16 t.body 0, rd16 t.body 2⟩

/-- The body of the bid that answers a call (R123, R194). -/
def State.bidBody (s : State) : List Byte :=
  [byteOf s.consist.position] ++ be32 s.cfg.identity ++ be16 s.consist.generation
    ++ [byteOf s.heat.demandQ, s.heat.demandClass.code]

theorem heard_keeps (s : State) (n : Nat) :
    (s.heard n).consist = s.consist ∧ (s.heard n).heat.lastCall = s.heat.lastCall ∧ (s.heard n).bidBody = s.bidBody := by
  have frame := testLoss_frame { s with heat := { s.heat with tSeen := n } }
  have consist : (s.heard n).consist = s.consist := (congrArg State.consist frame :)
  have cfg : (s.heard n).cfg = s.cfg := (congrArg State.cfg frame :)
  have call : (s.heard n).heat.lastCall = s.heat.lastCall := (congrArg (fun w : State => w.heat.lastCall) frame :)
  have demand : (s.heard n).heat.demandQ = s.heat.demandQ := (congrArg (fun w : State => w.heat.demandQ) frame :)
  have cls : (s.heard n).heat.demandClass = s.heat.demandClass := (congrArg (fun w : State => w.heat.demandClass) frame :)
  refine ⟨consist, call, ?_⟩
  rw [State.bidBody, consist, cfg, demand, cls, State.bidBody]

theorem takeCall_heard {s : State} {t : Telegram} (unled : s.consist.roleState ≠ .lead)
    (h : s.consist.state ≠ .formed ∨ t.call.generation ≠ s.consist.generation ∨ s.heat.lastCall = some t.call) :
    s.takeCall t = s.heard (clamp 1 10 (rd8 t.body 4).toNat) := by
  obtain ⟨consist, call, -⟩ := heard_keeps s (clamp 1 10 (rd8 t.body 4).toNat)
  refine (if_neg unled).trans (if_neg ?_)
  show ¬ ((s.heard _).consist.state = .formed ∧ t.call.generation = (s.heard _).consist.generation
    ∧ (s.heard _).heat.lastCall ≠ some t.call)
  rw [consist, call]
  tauto

theorem takeCall_answers {s : State} {t : Telegram} {d : EndId} (unled : s.consist.roleState ≠ .lead)
    (formed : s.consist.state = .formed) (generation : t.call.generation = s.consist.generation)
    (new : s.heat.lastCall ≠ some t.call) (lead : s.consist.leadEnd = some d) :
    let w := s.heard (clamp 1 10 (rd8 t.body 4).toNat)
    let v : State := { w with heat := { w.heat with lastCall := some t.call } }
    s.takeCall t = ((v.build .heatbid .towardLead 0 s.bidBody []).2.placeAt d (v.originates .heatbid .towardLead 0 s.bidBody [])).1 := by
  intro w v
  obtain ⟨consist, call, body⟩ := heard_keeps s (clamp 1 10 (rd8 t.body 4).toNat)
  have answers : (s.heard (clamp 1 10 (rd8 t.body 4).toNat)).consist.state = .formed
      ∧ t.call.generation = (s.heard (clamp 1 10 (rd8 t.body 4).toNat)).consist.generation
      ∧ (s.heard (clamp 1 10 (rd8 t.body 4).toNat)).heat.lastCall ≠ some t.call := by
    rw [consist, call]
    exact ⟨formed, generation, new⟩
  have leadEnd : v.consist.leadEnd = some d := by
    rw [show v.consist = s.consist from consist]
    exact lead
  refine (if_neg unled).trans ((if_pos answers).trans ?_)
  show (match v.consist.leadEnd with
    | some e => ((v.build .heatbid .towardLead 0 w.bidBody []).2.placeAt e (v.build .heatbid .towardLead 0 w.bidBody []).1).1
    | none => (v.build .heatbid .towardLead 0 w.bidBody []).2) = _
  rw [leadEnd, show w.bidBody = s.bidBody from body]
  rfl

end Sys2Proof.Machine

namespace Sys2Proof.Proofs

open Sys2Proof Sys2Proof.Machine

/-- Settles O44: a ramp step when due, and the loss test. -/
theorem rampAndLoss : Obligations.RampAndLoss := by
  intro s active count image u
  refine ⟨fun free => ⟨fun waits => yields_effect (exec_rampStep s) free (stepRamp_waits waits), fun r ramp due => ?_,
    yields_effect (exec_lossTimer s) free rfl⟩, testLoss_stands, fun held lost => ?_⟩
  · obtain ⟨t, e, whole, bytes, -⟩ := yields_effect (exec_rampStep s) free rfl
    have outputs : t.outputs = s.stepRamp.outputs := (congrArg State.outputs whole :)
    refine ⟨t, e, ?_, fun i hi => ?_, fun a page => ?_⟩
    · rw [whole, stepRamp_frame ramp due]
      rfl
    · rw [outputs]
      exact stepRamp_outputs active ramp due hi
    · rw [bytes a page, stepRamp_frame ramp due]
  · intro m
    have run : u = s.shed := testLoss_lost held lost
    rw [run]
    refine ⟨shed_frame s, fun less i hi => ?_, fun stands => ?_, ?_, fun c h => shed_others s h⟩
    · rw [shed_outputs]
      exact cutStages_less (s := s.shedding) active less hi
    · rw [shed_outputs, cutStages_stands (s := s.shedding) (m := s.shedLimit) (le_of_eq stands)]
      rfl
    · rw [shed_eq]
      exact isPending_raise _ _

/-- Settles O41: HEATCALL, HEATBID and HEATGRANT consumed, and what a grant applied comes to. -/
theorem heatTelegrams : Obligations.HeatTelegrams := by
  refine ⟨fun s e x kind => ?_, fun s e x kind => ?_, fun s e x kind => ?_, fun p a n l => ⟨pairFor_cons p a n l, rfl, rfl⟩,
    fun s g r n active count => ?_⟩
  · intro u b n call w cls bid
    have run : s.consume e x = (s.takeCall x, false) := by rw [State.consume, kind]
    have taken : u = s.takeCall x := congrArg Prod.fst run
    have period : clamp 1 10 (rd8 x.body 4).toNat = n := by
      rw [clamp_eq (lo := 1) (hi := 10) (by decide)]
      simp only [Nat.lt_one_iff]
      rfl
    have heard : s.heard (clamp 1 10 (rd8 x.body 4).toNat) = w := by rw [period]; rfl
    refine ⟨congrArg Prod.snd run, fun lead => taken.trans (takeCall_lead x lead), fun unled => ⟨fun ignored => ?_, ?_⟩⟩
    · exact taken.trans ((takeCall_heard unled ignored).trans heard)
    · intro formed generation new d lead
      have answer := takeCall_answers (t := x) unled formed generation new lead
      rw [heard] at answer
      set v : State := { w with heat := { w.heat with lastCall := some call } } with hv
      have frame := testLoss_frame { s with heat := { s.heat with tSeen := n } }
      have ends : v.ends = s.ends := (congrArg State.ends frame :)
      have lines : v.lines = s.lines := (congrArg State.lines frame :)
      have seqs : v.seqs = s.seqs := (congrArg State.seqs frame :)
      have cfg : v.cfg = s.cfg := (congrArg State.cfg frame :)
      obtain ⟨whole, placed, other, number⟩ := sentAt v .heatbid .towardLead 0 s.bidBody [] d (by decide)
      have origin : v.originates .heatbid .towardLead 0 s.bidBody [] = bid := by
        rw [State.originates, cfg, seqs]
        rfl
      have eq : u = ((v.build .heatbid .towardLead 0 s.bidBody []).2.placeAt d (v.originates .heatbid .towardLead 0 s.bidBody [])).1 :=
        taken.trans answer
      rw [← eq] at whole placed other number
      refine ⟨whole.trans (by rw [hv]), number.trans (by rw [seqs] <;> rfl), ?_, other.trans (by rw [State.endOf, ends, State.endOf])⟩
      have sending : v.sendingLines d = s.sendingLines d :=
        congrArg (fun x => ({ s with lines := x } : State).sendingLines d) lines
      rwa [origin, sending, State.endOf, ends] at placed
  · intro u p good
    have run : s.consume e x = (s.takeBid x, false) := by rw [State.consume, kind]
    have taken : u = s.takeBid x := congrArg Prod.fst run
    have known : good ↔ (s.consist.roleState = .lead ∧ s.consist.state = .formed ∧ rd16 x.body 5 = s.consist.generation
        ∧ (rd8 x.body 0).toNat ≠ s.consist.position
        ∧ (s.consist.entryAt (rd8 x.body 0).toNat).map (·.identity) = some (rd32 x.body 1)) := by
      rw [Option.map_eq_some_iff]
    have code : ∀ n : Nat, n < 256 → ((rd8 x.body 8).toNat = n ↔ rd8 x.body 8 = BitVec.ofNat 8 n) := fun n hn => by
      rw [← BitVec.toNat_inj, BitVec.toNat_ofNat, Nat.mod_eq_of_lt hn]
    refine ⟨fun c cls ok => taken.trans (takeBid_taken ?_ (known.mp ok)), fun ignored => taken.trans (takeBid_ignored ?_)⟩
    · rw [heatClassOfCode_eq, code 1 (by decide), code 2 (by decide)]
      exact cls
    · refine ignored.imp (fun none => ?_) (mt known.mpr)
      refine Option.eq_none_iff_forall_ne_some.mpr fun c some => ?_
      rw [heatClassOfCode_eq, code 1 (by decide), code 2 (by decide)] at some
      tauto
  · intro u good
    have run : s.consume e x = (s.takeGrant x, false) := by rw [State.consume, kind]
    have taken : u = s.takeGrant x := congrArg Prod.fst run
    refine ⟨fun n ok pair => taken.trans ((if_pos ok).trans (by rw [pair])), fun ignored => taken.trans ?_⟩
    by_cases ok : good
    · exact (if_pos ok).trans (by rw [ignored.resolve_left (not_not.mpr ok)])
    · exact if_neg ok
  · intro u m delay
    have frame : u = _ := applyGrant_frame s g r n
    have events : u.events = _ := applyGrant_events s g r n
    have outputs : u.outputs = ((s.granted g r m).cutStages m).outputs := (congrArg State.outputs frame :)
    have heat : u.heat = _ := (congrArg State.heat frame :)
    refine ⟨?_, heat.trans ?_, fun stands => ?_, fun less i hi => ?_, fun moves => ?_, fun same => ?_, fun c hc => ?_⟩
    · rw [heat, outputs]
      exact frame
    · rw [rampFor_eq] <;> rfl
    · rw [outputs, cutStages_stands (s := s.granted g r m) stands]
      rfl
    · rw [outputs]
      exact cutStages_less (s := s.granted g r m) active less hi
    · rw [isPending_congr (s := s.raise .heatChange) (events.trans (congrArg State.events (if_pos moves)))]
      exact isPending_raise _ _
    · exact events.trans (congrArg State.events (if_neg (not_not.mpr same)))
    · by_cases moves : m ≠ s.heat.limit
      · rw [isPending_congr (s := s.raise .heatChange) (events.trans (congrArg State.events (if_pos moves)))]
        exact isPending_raise_of_ne _ hc
      · exact isPending_congr (events.trans (congrArg State.events (if_neg moves))) c

end Sys2Proof.Proofs
end

