-- ==== Sys2Proof/Proofs/HeatAllocation.lean ====
section
/-! PROOFS. The allocation (R127 to R130): one pass over a class, and the two passes together; the rounds that use it
(R122, R125, R130). -/

namespace Sys2Proof.Machine

/-! ### Power -/

theorem powerOf_map (asks : List Ask) (f : Ask → Nat) : powerOf asks (asks.map f) = (asks.map fun a => f a * a.size).sum := by
  induction asks with
  | nil => rfl
  | cons a asks ih =>
    show f a * a.size + powerOf asks (asks.map f) = _
    rw [ih, List.map_cons, List.sum_cons]

theorem powerOf_add (asks : List Ask) : ∀ e c : List Nat, e.length = asks.length → c.length = asks.length →
    powerOf asks (List.zipWith (· + ·) e c) = powerOf asks e + powerOf asks c := by
  induction asks with
  | nil => exact fun _ _ _ _ => rfl
  | cons a asks ih =>
    intro e c he hc
    obtain ⟨x, e, rfl, short⟩ := List.length_eq_succ_iff.mp he
    obtain ⟨y, c, rfl, short'⟩ := List.length_eq_succ_iff.mp hc
    have rest := ih e c short short'
    show (x + y) * a.size + powerOf asks (List.zipWith (· + ·) e c) = (x * a.size + powerOf asks e) + (y * a.size + powerOf asks c)
    rw [rest, Nat.add_mul]
    omega

/-! ### The top-up sweep (R128) -/

/-- Positions with their first shares. -/
def sharedOut (f : Ask → Nat) (asks : List Ask) : List (Ask × Nat) := asks.map fun a => (a, f a)

theorem zip_shares (f : Ask → Nat) (asks : List Ask) : asks.zip (asks.map f) = sharedOut f asks := by
  induction asks with
  | nil => rfl
  | cons a asks ih => exact congrArg ((a, f a) :: ·) ih

theorem length_topUp (cls : HeatClass) (l : List (Ask × Nat)) : ∀ u, (topUp cls u l).length = l.length := by
  induction l with
  | nil => exact fun _ => rfl
  | cons p l ih =>
    intro u
    obtain ⟨a, n⟩ := p
    unfold topUp
    split <;> rw [List.length_cons, List.length_cons, ih]

/-- A sweep spends at most its remainder. -/
theorem powerOf_topUp (cls : HeatClass) (f : Ask → Nat) (asks : List Ask) :
    ∀ u, powerOf asks (topUp cls u (sharedOut f asks)) ≤ powerOf asks (asks.map f) + u := by
  induction asks with
  | nil => exact fun _ => Nat.zero_le _
  | cons a asks ih =>
    intro u
    show powerOf (a :: asks) (if a.cls = cls ∧ f a < a.q ∧ a.size ≤ u then
        (f a + 1) :: topUp cls (u - a.size) (sharedOut f asks) else f a :: topUp cls u (sharedOut f asks))
      ≤ (f a * a.size + powerOf asks (asks.map f)) + u
    split
    · next fits =>
      obtain ⟨-, -, room⟩ := fits
      have rest := ih (u - a.size)
      show (f a + 1) * a.size + powerOf asks _ ≤ _
      rw [Nat.add_mul, Nat.one_mul]
      omega
    · have rest := ih u
      show f a * a.size + powerOf asks _ ≤ _
      omega

/-- What the sweep has spent before position `i`. -/
def spentBefore (cls : HeatClass) (f : Ask → Nat) (asks : List Ask) (u i : Nat) : Nat :=
  (((asks.zip (topUp cls u (sharedOut f asks))).take i).map fun p => (p.2 - f p.1) * p.1.size).sum

/-- The sweep at one position: one stage more where it asks for more and what is left takes it. -/
theorem topUp_at (cls : HeatClass) (f : Ask → Nat) (asks : List Ask) : ∀ (u i : Nat) (a : Ask) (m : Nat), asks[i]? = some a →
    (topUp cls u (sharedOut f asks))[i]? = some m →
    m = f a + if a.cls = cls ∧ f a < a.q ∧ a.size ≤ u - spentBefore cls f asks u i then 1 else 0 := by
  induction asks with
  | nil => exact fun u i a m ha => nomatch ha
  | cons b asks ih =>
    intro u i a m ha hm
    by_cases fits : b.cls = cls ∧ f b < b.q ∧ b.size ≤ u
    · have sweep : topUp cls u (sharedOut f (b :: asks)) = (f b + 1) :: topUp cls (u - b.size) (sharedOut f asks) := if_pos fits
      rw [sweep] at hm
      cases i with
      | zero =>
        cases ha
        cases hm
        exact congrArg (f b + ·) (if_pos fits).symm
      | succ i =>
        have rest := ih (u - b.size) i a m ha hm
        have spent : spentBefore cls f (b :: asks) u (i + 1) = b.size + spentBefore cls f asks (u - b.size) i := by
          unfold spentBefore
          rw [sweep]
          show (f b + 1 - f b) * b.size + _ = _
          rw [Nat.add_sub_cancel_left, Nat.one_mul]
          rfl
        rw [spent, ← Nat.sub_sub]
        exact rest
    · have sweep : topUp cls u (sharedOut f (b :: asks)) = f b :: topUp cls u (sharedOut f asks) := if_neg fits
      rw [sweep] at hm
      cases i with
      | zero =>
        cases ha
        cases hm
        exact (Nat.add_zero (f b)).symm.trans (congrArg (f b + ·) (if_neg fits).symm)
      | succ i =>
        have rest := ih u i a m ha hm
        have spent : spentBefore cls f (b :: asks) u (i + 1) = spentBefore cls f asks u i := by
          unfold spentBefore
          rw [sweep]
          show (f b - f b) * b.size + _ = _
          rw [Nat.sub_self, Nat.zero_mul, Nat.zero_add]
          rfl
        rw [spent]
        exact rest

/-! ### One pass (R128, R129) -/

/-- The first share where the demand does not fit. -/
def floorShare (cls : HeatClass) (d k : Nat) (a : Ask) : Nat := if a.cls = cls then a.q * k / d else 0

theorem shareOf_short {cls : HeatClass} {d k : Nat} (short : k < d) : shareOf cls d k = floorShare cls d k := by
  funext a
  unfold shareOf floorShare
  rw [if_neg (show d ≠ 0 by omega), if_neg (show ¬ d ≤ k by omega)]

theorem shareOf_full {cls : HeatClass} {d k : Nat} (full : d ≤ k) (a : Ask) :
    shareOf cls d k a = if a.cls = cls then (if d = 0 then 0 else a.q) else 0 := by
  unfold shareOf
  rw [if_pos full]

theorem heatPass_full {cls : HeatClass} {asks : List Ask} {k : Nat} (full : demandOf cls asks ≤ k) :
    heatPass cls k asks = asks.map (shareOf cls (demandOf cls asks) k) := if_neg (by omega)

theorem heatPass_short {cls : HeatClass} {asks : List Ask} {k : Nat} (short : k < demandOf cls asks) :
    heatPass cls k asks =
      let f := floorShare cls (demandOf cls asks) k
      topUp cls (k - powerOf asks (asks.map f)) (sharedOut f asks) := by
  unfold heatPass
  dsimp only
  rw [if_pos short, shareOf_short short, zip_shares]

theorem length_heatPass (cls : HeatClass) (k : Nat) (asks : List Ask) : (heatPass cls k asks).length = asks.length := by
  by_cases short : k < demandOf cls asks
  · rw [heatPass_short short]
    dsimp only
    rw [length_topUp, sharedOut, List.length_map]
  · rw [heatPass_full (by omega), List.length_map]

/-- Floors of shares stay within what is shared. -/
theorem powerOf_floors (cls : HeatClass) (d k : Nat) (asks : List Ask) :
    powerOf asks (asks.map (floorShare cls d k)) * d ≤ demandOf cls asks * k := by
  rw [powerOf_map]
  unfold demandOf
  induction asks with
  | nil => exact Nat.le_of_eq (by simp)
  | cons a asks ih =>
    rw [List.map_cons, List.sum_cons, List.map_cons, List.sum_cons, Nat.add_mul, Nat.add_mul]
    refine Nat.add_le_add ?_ ih
    unfold floorShare
    split
    · calc a.q * k / d * a.size * d = a.q * k / d * d * a.size := by ring
        _ ≤ a.q * k * a.size := Nat.mul_le_mul_right _ (Nat.div_mul_le_self _ _)
        _ = a.q * a.size * k := by ring
    · rw [Nat.zero_mul, Nat.zero_mul]
      exact Nat.zero_le _

/-- A pass keeps within its capacity. -/
theorem powerOf_heatPass (cls : HeatClass) (k : Nat) (asks : List Ask) : powerOf asks (heatPass cls k asks) ≤ k := by
  by_cases short : k < demandOf cls asks
  · have floors := powerOf_floors cls (demandOf cls asks) k asks
    have within : powerOf asks (asks.map (floorShare cls (demandOf cls asks) k)) ≤ k :=
      Nat.le_of_mul_le_mul_right (by rw [Nat.mul_comm k]; exact floors) (by omega : 0 < demandOf cls asks)
    have swept := powerOf_topUp cls (floorShare cls (demandOf cls asks) k) asks
      (k - powerOf asks (asks.map (floorShare cls (demandOf cls asks) k)))
    rw [heatPass_short short]
    dsimp only
    omega
  · have full : demandOf cls asks ≤ k := by omega
    rw [heatPass_full full, powerOf_map]
    refine le_trans (List.sum_le_sum fun a _ => ?_) full
    rw [shareOf_full full]
    split
    · exact Nat.mul_le_mul_right _ (by split <;> omega)
    · rw [Nat.zero_mul]

/-- What a pass gives one position (R128). -/
theorem heatPass_at {cls : HeatClass} {k : Nat} {asks : List Ask} {i : Nat} {a : Ask} {n : Nat} (ha : asks[i]? = some a)
    (hn : (heatPass cls k asks)[i]? = some n) :
    let d := demandOf cls asks
    let f := floorShare cls d k
    (d ≤ k → n = if a.cls = cls then (if d = 0 then 0 else a.q) else 0)
      ∧ (k < d → n = f a + if a.cls = cls ∧ f a < a.q
          ∧ a.size ≤ k - powerOf asks (asks.map f) - spentBefore cls f asks (k - powerOf asks (asks.map f)) i then 1 else 0) := by
  intro d f
  refine ⟨fun full => ?_, fun short => ?_⟩
  · rw [heatPass_full full, List.getElem?_map, ha] at hn
    cases hn
    exact shareOf_full full a
  · rw [heatPass_short short] at hn
    exact topUp_at cls f asks _ i a n ha hn

theorem heatPass_other {cls : HeatClass} {k : Nat} {asks : List Ask} {i : Nat} {a : Ask} {n : Nat} (ha : asks[i]? = some a)
    (hn : (heatPass cls k asks)[i]? = some n) (other : a.cls ≠ cls) : n = 0 := by
  obtain ⟨full, short⟩ := heatPass_at ha hn
  obtain lt | le := Nat.lt_or_ge k (demandOf cls asks)
  · have given := short lt
    rwa [if_neg fun h => other h.1, floorShare, if_neg other] at given
  · exact (full le).trans (if_neg other)

/-- A pass gives no more than is asked for. -/
theorem heatPass_le {cls : HeatClass} {k : Nat} {asks : List Ask} {i : Nat} {a : Ask} {n : Nat} (ha : asks[i]? = some a)
    (hn : (heatPass cls k asks)[i]? = some n) : n ≤ a.q := by
  obtain ⟨full, short⟩ := heatPass_at ha hn
  obtain lt | le := Nat.lt_or_ge k (demandOf cls asks)
  · rw [short lt]
    split
    · next fits => exact fits.2.1
    · unfold floorShare
      split
      · exact Nat.div_le_of_le_mul (by rw [Nat.mul_comm]; exact Nat.mul_le_mul_right _ lt.le)
      · exact Nat.zero_le _
  · rw [full le]
    split_ifs <;> omega

/-! ### The two passes (R127, R129, R130) -/

theorem length_allocate (cap : Nat) (asks : List Ask) : (allocate cap asks).length = asks.length := by
  rw [allocate, List.length_zipWith, length_heatPass, length_heatPass, Nat.min_self]

/-- At a position the pass of its class decides; the other gives nothing. -/
theorem allocate_at {cap : Nat} {asks : List Ask} {i : Nat} {a : Ask} {n : Nat} (ha : asks[i]? = some a)
    (hn : (allocate cap asks)[i]? = some n) :
    (a.cls = .essential → (heatPass .essential cap asks)[i]? = some n)
      ∧ (a.cls = .comfort → (heatPass .comfort (leftFor cap asks) asks)[i]? = some n) := by
  rw [allocate, List.getElem?_zipWith] at hn
  cases essential : (heatPass .essential cap asks)[i]? with
  | none => rw [essential] at hn; exact nomatch hn
  | some x =>
    cases comfort : (heatPass .comfort (leftFor cap asks) asks)[i]? with
    | none => rw [essential, comfort] at hn; exact nomatch hn
    | some y =>
      rw [essential, comfort] at hn
      cases hn
      refine ⟨fun own => ?_, fun own => ?_⟩
      · rw [heatPass_other ha comfort (by rw [own]; decide), Nat.add_zero]
      · rw [heatPass_other ha essential (by rw [own]; decide), Nat.zero_add]

theorem powerOf_allocate (cap : Nat) (asks : List Ask) :
    powerOf asks (allocate cap asks)
      = powerOf asks (heatPass .essential cap asks) + powerOf asks (heatPass .comfort (leftFor cap asks) asks) :=
  powerOf_add asks _ _ (length_heatPass ..) (length_heatPass ..)

/-- What a class is served, as the sweep over all positions shows it. -/
theorem served_of_pass {cls : HeatClass} {k : Nat} {asks : List Ask} {ns : List Nat} (length : ns.length = asks.length)
    (own : ∀ (i : Nat) (a : Ask) (n : Nat), asks[i]? = some a → ns[i]? = some n → a.cls = cls →
      (heatPass cls k asks)[i]? = some n) (short : k < demandOf cls asks) (i : Nat) :
    let f := floorShare cls (demandOf cls asks) k
    spentBefore cls f asks (k - powerOf asks (asks.map f)) i
      = (((asks.zip ns).take i).map fun p => if p.1.cls = cls then (p.2 - f p.1) * p.1.size else 0).sum := by
  intro f
  have pass := heatPass_short short
  unfold spentBefore
  rw [← pass, List.map_take, List.map_take]
  refine congrArg (fun l => (List.take i l).sum) (List.ext_getElem? fun j => ?_)
  rw [List.getElem?_map, List.getElem?_map]
  cases ha : asks[j]? with
  | none =>
    rw [List.getElem?_eq_none_iff] at ha
    rw [List.getElem?_eq_none (by rw [List.length_zip]; omega), List.getElem?_eq_none (by rw [List.length_zip]; omega)]
    rfl
  | some a =>
    obtain ⟨inside, -⟩ := List.getElem?_eq_some_iff.mp ha
    have hn : ns[j]? = some ns[j] := List.getElem?_eq_getElem _
    have hm : (heatPass cls k asks)[j]? = some ((heatPass cls k asks)[j]'(by rw [length_heatPass]; exact inside)) :=
      List.getElem?_eq_getElem _
    set n := ns[j]
    set m := (heatPass cls k asks)[j]'(by rw [length_heatPass]; exact inside)
    rw [(List.getElem?_zip_eq_some (z := (a, m))).mpr ⟨ha, hm⟩, (List.getElem?_zip_eq_some (z := (a, n))).mpr ⟨ha, hn⟩]
    refine congrArg some ?_
    show (m - f a) * a.size = if a.cls = cls then (n - f a) * a.size else 0
    split
    · next mine => rw [Option.some.inj (hm.symm.trans (own j a n ha hn mine))]
    · next other => rw [heatPass_other ha hm other, Nat.zero_sub, Nat.zero_mul]

end Sys2Proof.Machine

namespace Sys2Proof.Proofs

open Sys2Proof Sys2Proof.Machine

/-- Settles O43: each class is served by its own pass. -/
theorem allocation : Obligations.Allocation := by
  intro cap asks ns served
  have serves : ∀ cls k, (∀ (i : Nat) (a : Ask) (n : Nat), asks[i]? = some a → ns[i]? = some n → a.cls = cls →
      (heatPass cls k asks)[i]? = some n) → served cls k := by
    intro cls k own i a n ha hn mine
    obtain ⟨full, short⟩ := heatPass_at ha (own i a n ha hn mine)
    refine ⟨fun none => ?_, fun some le => ?_, fun lt => ?_⟩
    · rw [full (by omega), if_pos mine]
      exact if_pos none
    · rw [full le, if_pos mine]
      exact if_neg (by omega)
    · have spent := served_of_pass (length_allocate cap asks) own lt i
      have given := short lt
      rw [spent, powerOf_map] at given
      refine given.trans (congrArg (floorShare cls (demandOf cls asks) k a + ·) (if_congr ?_ rfl rfl))
      exact ⟨fun h => h.2, fun h => ⟨mine, h⟩⟩
  have essential := powerOf_heatPass .essential cap asks
  have comfort := powerOf_heatPass .comfort (leftFor cap asks) asks
  refine ⟨length_allocate cap asks, ?_, fun i a n ha hn => ?_, serves _ _ fun i a n ha hn => (allocate_at ha hn).1,
    serves _ _ fun i a n ha hn => (allocate_at ha hn).2⟩
  · rw [powerOf_allocate]
    unfold leftFor at comfort ⊢
    omega
  · obtain ⟨isEssential, isComfort⟩ := allocate_at ha hn
    cases cls : a.cls with
    | essential => exact heatPass_le ha (isEssential cls)
    | comfort => exact heatPass_le ha (isComfort cls)

end Sys2Proof.Proofs
end

