-- ==== Sys2Proof/Proofs/HeatRounds.lean ====
section
/-! PROOFS. The heating rounds of a lead: a round opened (R122, R125), the bid window closed, the allocation and the lead's
own share (R125, R130, R139). -/

namespace Sys2Proof.Machine

/-! ### A round opened (R122) -/

/-- The bids a round older and the next round number taken. -/
def State.opening (s : State) : State :=
  { s with heat := { s.heat with
    roundNo := succ1 s.heat.roundNo, round := some 0, bids := s.heat.bids.map (Option.map Bid.older) } }

/-- The body of a round's HEATCALL (R122, R194). -/
def State.callBody (s : State) : List Byte :=
  be16 s.consist.generation ++ be16 s.heat.roundNo ++ [byteOf s.heat.period]

/-- A round opened, once its HEATCALL is placed. -/
def State.opened (s : State) : State :=
  { s with heat := { s.heat with window := some 0, tSeen := s.heat.period } }

theorem seeT_opened (p : State) :
    (p.modHeat fun h => { h with window := some 0 }).seeT p.heat.period = p.opened.testLoss := rfl

theorem openRound_eq (s : State) :
    s.openRound = (((s.opening.build .heatcall .broadcast 0 s.callBody []).2.placeBoth
      (s.opening.originates .heatcall .broadcast 0 s.callBody [])).1.opened).testLoss :=
  seeT_opened (((s.opening.build .heatcall .broadcast 0 s.callBody []).2.placeBoth
    (s.opening.originates .heatcall .broadcast 0 s.callBody [])).1)

theorem openRound_spec (s : State) :
    ∃ w : State, s.openRound = w.testLoss
      ∧ w = { s with
          heat := { s.heat with
            roundNo := succ1 s.heat.roundNo, round := some 0, window := some 0,
            bids := s.heat.bids.map (Option.map Bid.older), tSeen := s.heat.period },
          seqs := w.seqs, ends := w.ends }
      ∧ (∀ e, Placed (s.sendingLines e) (s.originates .heatcall .broadcast 0 s.callBody []) (s.endOf e) (w.endOf e))
      ∧ w.seqs[7] = succ1 s.seqs[7] := by
  have run := openRound_eq s
  obtain ⟨frame, placed, number⟩ := sentBoth s.opening .heatcall .broadcast 0 s.callBody [] (by decide)
  generalize ((s.opening.build .heatcall .broadcast 0 s.callBody []).2.placeBoth
    (s.opening.originates .heatcall .broadcast 0 s.callBody [])).1 = p at run frame placed number
  refine ⟨p.opened, run, ?_, placed, number⟩
  rw [State.opened, frame]
  rfl

/-! ### A grant applied looks at no page record -/

theorem setStages_outputs (s : State) (c : Nat) :
    (s.setStages c).outputs = (s.outputs &&& ~~~s.heatOwned) ||| (stageMask c &&& s.heatOwned) :=
  State.applyImage_outputs _ _ _

theorem upToPages_applyGrant {s t : State} (h : UpToPages s t) (gen round : Word) (n : Nat) :
    UpToPages (s.applyGrant gen round n) (t.applyGrant gen round n) := by
  obtain ⟨frame, bytes, slots⟩ := h
  obtain ⟨m, r, rfl⟩ : ∃ m r, t = { s with mem := m, revs := r } := ⟨_, _, frame⟩
  set v : State := { s with mem := m, revs := r }
  set k := if s.cfg.count < n then s.cfg.count else n
  have sf := applyGrant_frame s gen round n
  have vf := applyGrant_frame v gen round n
  have events : (v.applyGrant gen round n).events = (s.applyGrant gen round n).events := by
    rw [applyGrant_events s, applyGrant_events v]
    by_cases moves : k ≠ s.heat.limit
    · have there : (if k ≠ v.heat.limit then v.raise .heatChange else v) = v.raise .heatChange := if_pos moves
      have here : (if k ≠ s.heat.limit then s.raise .heatChange else s) = s.raise .heatChange := if_pos moves
      exact (congrArg State.events there).trans (congrArg State.events here).symm
    · have there : (if k ≠ v.heat.limit then v.raise .heatChange else v) = v := if_neg moves
      have here : (if k ≠ s.heat.limit then s.raise .heatChange else s) = s := if_neg moves
      exact (congrArg State.events there).trans (congrArg State.events here).symm
  have cuts : ((v.granted gen round k).cutStages k).outputs = ((s.granted gen round k).cutStages k).outputs := by
    have cut : ∀ u : State, ((u.granted gen round k).cutStages k).outputs
        = if k < u.heat.on then (u.outputs &&& ~~~u.heatOwned) ||| (stageMask k &&& u.heatOwned) else u.outputs := fun u => by
      unfold State.cutStages
      split
      · next less => exact (setStages_outputs (u.granted gen round k) k).trans (if_pos less).symm
      · next stands => exact (if_neg stands).symm
    rw [cut v, cut s]
    rfl
  have same : v.applyGrant gen round n = { s.applyGrant gen round n with mem := m, revs := (v.applyGrant gen round n).revs } := by
    refine vf.trans ?_
    rw [cuts, events, sf]
    rfl
  have sm : (s.applyGrant gen round n).mem = s.mem := (congrArg State.mem sf :)
  have vm : (v.applyGrant gen round n).mem = m := (congrArg State.mem vf :)
  have skept := (heats_applyGrant s gen round n).2.2.1
  have vkept := (heats_applyGrant v gen round n).2.2.1
  refine ⟨?_, fun a page => ?_, fun x => (vkept x).trans ((slots x).trans (skept x).symm)⟩
  · rw [vm]
    exact same
  · rw [vm, sm]
    exact bytes a page

/-! ### The allocation table (R139) -/

theorem zipWith_snd {α β : Type} (l : List α) : ∀ m : List β, m.length ≤ l.length → List.zipWith (fun _ y => y) l m = m := by
  induction l with
  | nil => exact fun m h => (List.eq_nil_of_length_eq_zero (Nat.le_zero.mp h)).symm
  | cons a l ih =>
    intro m h
    cases m with
    | nil => rfl
    | cons b m => exact congrArg (b :: ·) (ih m (Nat.le_of_succ_le_succ h))

theorem zipWith_fst {α β γ : Type} (g : α → γ) (l : List α) :
    ∀ m : List β, List.zipWith (fun x _ => g x) l m = (l.take m.length).map g := by
  induction l with
  | nil => exact fun m => by simp
  | cons a l ih =>
    intro m
    cases m with
    | nil => rfl
    | cons b m => exact congrArg (g a :: ·) (ih m)

/-- The rows of the allocation table, one a position of the roster. -/
theorem allocRows_map {bids : List (Option Bid)} {entries : List RosterEntry} {asks : List Ask} {ns : List Nat}
    (length : asks.length = min bids.length entries.length) (same : ns.length = asks.length) :
    let rows := List.zipWith allocRow bids (asks.zip ns)
    rows.map (·.stages) = ns ∧ rows.map (·.q) = asks.map (·.q) ∧ rows.map (·.size) = asks.map (·.size)
      ∧ rows.map (·.age) = List.zipWith (fun b _ => b.map (·.age)) bids entries := by
  intro rows
  have zipped : (asks.zip ns).length = asks.length := by rw [List.length_zip, same, Nat.min_self]
  have within : (asks.zip ns).length ≤ bids.length := by omega
  have of : ∀ {γ : Type} (g : Ask × Nat → γ), List.zipWith (fun _ x => g x) bids (asks.zip ns) = (asks.zip ns).map g := fun g => by
    rw [← List.map_zipWith (f := g) (g := fun _ x => x), zipWith_snd _ _ within]
  have fst : (asks.zip ns).map Prod.fst = asks := List.map_fst_zip same.ge
  refine ⟨?_, ?_, ?_, ?_⟩
  · rw [List.map_zipWith]
    exact (of Prod.snd).trans (List.map_snd_zip same.le)
  · rw [List.map_zipWith]
    exact (of fun x => x.1.q).trans (by rw [← fst, List.map_map, fst]; rfl)
  · rw [List.map_zipWith]
    exact (of fun x => x.1.size).trans (by rw [← fst, List.map_map, fst]; rfl)
  · rw [List.map_zipWith, zipWith_fst]
    refine (zipWith_fst (fun b : Option Bid => b.map (·.age)) bids (asks.zip ns)).trans ?_
    rw [zipped, length, Nat.min_comm, ← List.take_eq_take_min]

/-- What COMFORT leaves and what is granted make up the effective capacity (R129). -/
theorem allocate_rest (cap : Nat) (asks : List Ask) :
    leftFor cap asks - powerOf asks (heatPass .comfort (leftFor cap asks) asks) + powerOf asks (allocate cap asks) = cap := by
  have essential := powerOf_heatPass .essential cap asks
  have comfort := powerOf_heatPass .comfort (leftFor cap asks) asks
  rw [powerOf_allocate]
  unfold leftFor at comfort ⊢
  omega

/-! ### The bid window closed (R125, R130) -/

/-- The bid table with the lead's own demand in it. -/
def State.ownBid (s : State) : State :=
  { s with heat := { s.heat with
    bids := s.heat.bids.setIfInBounds (s.consist.position - 1) (some ⟨s.heat.demandQ, s.heat.demandClass, s.heat.currentRound, 0⟩) } }

/-- The HEATGRANT of an allocation. -/
def Allocation.grantBody (a : Allocation) : List Byte :=
  be16 a.generation ++ be16 a.round ++ grantPairs 1 (a.rows.map (·.stages))

theorem closeWindow_spec (s : State) :
    let a := s.ownBid.allocationNow
    ∃ w p : State, UpToPages w p
      ∧ w = { s.ownBid with heat := { s.ownBid.heat with window := none, alloc := some a }, seqs := w.seqs, ends := w.ends }
      ∧ (∀ e, Placed (s.sendingLines e) (s.originates .heatgrant .broadcast 0 a.grantBody []) (s.endOf e) (w.endOf e))
      ∧ w.seqs[9] = succ1 s.seqs[9]
      ∧ s.closeWindow = if s.level .supply = true then
          p.applyGrant a.generation a.round ((a.rows.map (·.stages)).getD (s.consist.position - 1) 0) else p := by
  intro a
  set v : State := { s.ownBid with heat := { s.ownBid.heat with window := none, alloc := some a } }
  set x := v.touch .allocTable
  have touched : x = { v with revs := x.revs } := touch_frame v _
  obtain ⟨frame, placed, number⟩ := sentBoth x .heatgrant .broadcast 0 a.grantBody [] (by decide)
  have number : _ = succ1 x.seqs[9] := number
  have origin : x.originates .heatgrant .broadcast 0 a.grantBody [] = s.originates .heatgrant .broadcast 0 a.grantBody [] := by
    rw [touched]
    rfl
  have closes : s.closeWindow
      = (let p := ((x.build .heatgrant .broadcast 0 a.grantBody []).2.placeBoth (x.originates .heatgrant .broadcast 0 a.grantBody [])).1
        if p.level .supply = true then
          p.applyGrant a.generation a.round ((a.rows.map (·.stages)).getD (p.consist.position - 1) 0) else p) := rfl
  set p := ((x.build .heatgrant .broadcast 0 a.grantBody []).2.placeBoth (x.originates .heatgrant .broadcast 0 a.grantBody [])).1
  set w : State := { v with ends := p.ends, seqs := p.seqs }
  have after : p = { w with revs := x.revs } := by
    rw [frame, touched]
  have pages : UpToPages w p := by
    have begun : UpToPages v x := upToPages_touch _ _ (by decide)
    obtain ⟨-, -, slots⟩ := begun
    rw [after]
    exact ⟨rfl, fun _ _ => rfl, slots⟩
  have sending : ∀ e, x.sendingLines e = s.sendingLines e := fun e => by
    rw [touched]
    rfl
  have ends : ∀ e, x.endOf e = s.endOf e := fun e => by
    rw [touched]
    rfl
  refine ⟨w, p, pages, rfl, fun e => ?_, ?_, closes.trans ?_⟩
  · have sent := placed e
    rwa [origin, sending, ends] at sent
  · refine Eq.trans number ?_
    rw [touched]
    rfl
  · dsimp only
    rw [after]
    rfl

theorem askOf_eq (b : Option Bid) (e : RosterEntry) :
    askOf b e = (match b with
      | some b => ⟨if b.age ≤ 3 then min b.q e.count.toNat else 0, b.cls, e.size.toNat⟩
      | none => ⟨0, .comfort, e.size.toNat⟩) := by
  cases b <;> rfl

end Sys2Proof.Machine

namespace Sys2Proof.Proofs

open Sys2Proof Sys2Proof.Machine

/-- Settles O42: a round opened and a window closed. -/
theorem heatingRounds : Obligations.HeatingRounds := by
  refine ⟨fun s held => ⟨fun early => ?_, fun due => ?_⟩, fun s held => ⟨fun early => ?_, fun due => ?_⟩⟩
  · exact yields_effect (exec_roundTimer s) held (if_neg (by rw [early]; exact Bool.false_ne_true))
  · intro call
    obtain ⟨w, opened, frame, placed, number⟩ := openRound_spec s
    exact ⟨w, yields_effect (exec_roundTimer s) held ((if_pos due).trans opened), frame, placed, number⟩
  · exact yields_effect (exec_bidWindowClose s) held (if_neg (by rw [early]; exact Bool.false_ne_true))
  · intro round bids entries ask asks cap ns grant
    have each : ask = askOf := funext fun b => funext fun e => (askOf_eq b e).symm ▸ rfl
    have own : s.ownBid.asks = asks := congrArg (fun f => List.zipWith f bids.toList entries) each.symm
    have length : asks.length = min bids.toList.length entries.length := List.length_zipWith
    have rows : s.ownBid.allocationNow.rows = List.zipWith allocRow bids.toList (asks.zip ns) := by
      rw [← own]
      rfl
    obtain ⟨stages, q, size, age⟩ := allocRows_map length (length_allocate cap asks)
    rw [← rows] at stages q size age
    obtain ⟨w, p, pages, frame, placed, number, closes⟩ := closeWindow_spec s
    have body : s.ownBid.allocationNow.grantBody = be16 s.consist.generation ++ be16 round ++ grantPairs 1 ns := by
      rw [Allocation.grantBody, stages]
      rfl
    have run : s.windowOut = s.closeWindow := if_pos due
    rw [body] at placed
    rw [stages] at closes
    have total : s.ownBid.allocationNow.total = powerOf asks ns := by
      rw [← own]
      rfl
    refine ⟨w, s.ownBid.allocationNow, frame, rfl, rfl, rfl, rfl, rfl, rfl, ?_, ?_, ?_, rfl, ?_, total, stages, q, size, age,
      placed, number, fun off => ?_, fun on => ?_⟩
    · rw [← own]
      rfl
    · rw [← own]
      rfl
    · rw [← own]
      rfl
    · rw [total]
      refine Eq.trans ?_ (allocate_rest cap asks)
      rw [← own]
      rfl
    · rw [if_neg (by rw [off]; exact Bool.false_ne_true)] at closes
      exact yields_pages (exec_bidWindowClose s) held (by rw [run, closes]; exact pages)
    · rw [if_pos on] at closes
      exact yields_pages (exec_bidWindowClose s) held (by rw [run, closes]; exact upToPages_applyGrant pages _ _ _)

end Sys2Proof.Proofs
end

