-- ==== Sys2Proof/Proofs/MessagesAndTime.lean ====
section
/-! PROOFS. The message unit (chapter 8): a MSG into the inbox (R146 to R148), the outcome of a unicast (R144, R145, R150);
one millisecond of every timer (R17). -/

namespace Sys2Proof.Machine

/-! ### One millisecond (R17) -/

theorem bump_eq (limit : Nat) (x : Option Nat) : bump limit x = x.map (fun n => if n < limit then n + 1 else limit) := by
  unfold bump
  congr 1
  funext n
  split <;> omega

theorem inputs_tick (s : State) (i : Input) : s.tick.inputs.get i = (s.inputs.get i).tick := by cases i <;> rfl

/-- The gap timer of an open candidate (R6). -/
theorem asmTick_spec (x : Assembler) :
    (∀ bs n, x = .opened bs n → x.tick = .opened bs (if n < 2 then n + 1 else 2))
      ∧ (∀ bs n, x = .escaped bs n → x.tick = .escaped bs (if n < 2 then n + 1 else 2))
      ∧ (x = .waiting ∨ x = .discarding → x.tick = x) := by
  have up : ∀ n, min 2 (n + 1) = if n < 2 then n + 1 else 2 := fun n => by split <;> omega
  refine ⟨?_, ?_, ?_⟩
  · rintro bs n rfl
    exact congrArg (Assembler.opened bs) (up n)
  · rintro bs n rfl
    exact congrArg (Assembler.escaped bs) (up n)
  · rintro (rfl | rfl) <;> rfl

/-! ### Lists with a first match -/

theorem find?_first {α : Type} {p : α → Bool} {l r : List α} {y : α} (none : ∀ z ∈ l, p z = false) (yes : p y = true) :
    (l ++ y :: r).find? p = some y := by
  rw [List.find?_append, List.find?_eq_none.mpr fun z hz => by rw [none z hz]; exact Bool.false_ne_true,
    List.find?_cons_of_pos yes]
  rfl

theorem erase_first {α : Type} [DecidableEq α] {l r : List α} {y : α} (new : y ∉ l) : (l ++ y :: r).erase y = l ++ r := by
  rw [List.erase_append_right _ new, List.erase_cons_head]

/-! ### The in-flight list (R144, R145, R150) -/

/-- What a unicast's completion writes (R144). -/
theorem finishFlight_spec (s : State) (x : InFlight) (c : ResultCode) (f : List Word) :
    let u := s.finishFlight x c f
    u = { s with inFlight := s.inFlight.erase x, events := u.events, mem := u.mem }
      ∧ u.blockStatus x.block = c.status
      ∧ u.mem.readWords (blockBase x.block + 4) 14 = c.code :: resultWords f
      ∧ u.isPending .orderDone = true ∧ (∀ k, k ≠ .orderDone → u.isPending k = s.isPending k)
      ∧ ∀ a, (a < blockBase x.block ∨ (blockBase x.block + 2 ≤ a ∧ a < blockBase x.block + 4)
          ∨ blockBase x.block + 32 ≤ a) → u.mem.read a = s.mem.read a := by
  intro u
  set w : State := { s with inFlight := s.inFlight.erase x }
  exact ⟨rfl, blockStatus_writeOutcome w x.block c f, writeOutcome_fields w x.block c f, isPending_raise _ _,
    fun k hk => isPending_raise_of_ne _ hk, writeOutcome_read w x.block c f⟩

/-- A MSGACK answers an in-flight entry (R150). -/
def Telegram.answers (t : Telegram) (x : InFlight) : Bool := x.dest == t.origin && x.seq == rd16 t.body 0

theorem answers_iff (t : Telegram) (x : InFlight) : t.answers x = true ↔ x.dest = t.origin ∧ x.seq = rd16 t.body 0 := by
  rw [Telegram.answers, Bool.and_eq_true, beq_iff_eq, beq_iff_eq]

theorem takeAck_unmatched {s : State} {e : EndId} {t : Telegram} (h : ∀ x ∈ s.inFlight, ¬ t.answers x = true) :
    s.takeAck e t = s := by
  have none : s.matching t = none := List.find?_eq_none.mpr h
  rw [State.takeAck, none]

theorem takeAck_other {s : State} {e : EndId} {t : Telegram} (h : rd8 t.body 2 ≠ 1 ∧ rd8 t.body 2 ≠ 2) : s.takeAck e t = s := by
  obtain ⟨delivered, full⟩ := h
  unfold State.takeAck
  split
  · exact (if_neg delivered).trans (if_neg full)
  · rfl

/-- The fields of a unicast's outcome (R150). -/
def ackFields (e : EndId) (x : InFlight) : List Word := [x.seq, (endCode e).setWidth 16, pageWord x.timer]

theorem takeAck_matched {s : State} {e : EndId} {t : Telegram} {x : InFlight} (found : s.matching t = some x)
    (result : rd8 t.body 2 = 1 ∨ rd8 t.body 2 = 2) :
    s.takeAck e t = s.finishFlight x (if rd8 t.body 2 = 1 then .done else .inboxFull) (ackFields e x) := by
  rw [State.takeAck, found]
  obtain delivered | full := result
  · rw [if_pos delivered]
    exact if_pos delivered
  · have other : rd8 t.body 2 ≠ 1 := by
      rw [full]
      decide
    rw [if_neg other]
    exact (if_neg other).trans (if_pos full)

theorem endCode_word (e : EndId) : (endCode e).setWidth 16 = (match e with | .a => 1 | .b => 2 : Word) := by
  cases e <;> rfl

/-! ### The inbox (R146, R147) -/

theorem usableMsg_iff (b : List Byte) :
    usableMsg b = true ↔ 1 ≤ (rd8 b 0).toNat ∧ (rd8 b 0).toNat ≤ 200 ∧ b.length = (rd8 b 0).toNat + 1 := by
  rw [usableMsg, Bool.and_eq_true, Bool.and_eq_true, decide_eq_true_eq, decide_eq_true_eq, beq_iff_eq, and_assoc]

theorem slotFree_iff (s : State) (n : Fin 8) :
    s.slotFree n = true ↔ s.mem.readWord (slotBase n + 4) = BitVec.ofNat 16 s.deliveries[n] := beq_iff_eq

theorem allSlots_split (n : Fin 8) :
    allSlots = allSlots.take n.val ++ n :: allSlots.drop (n.val + 1) ∧ ∀ m ∈ allSlots.take n.val, m < n := by
  revert n
  decide

theorem freeSlot_first {s : State} {n : Fin 8} (free : s.slotFree n = true) (lowest : ∀ m, m < n → ¬ s.slotFree m = true) :
    s.freeSlot = some n := by
  obtain ⟨split, below⟩ := allSlots_split n
  rw [State.freeSlot, split]
  exact find?_first (fun m hm => Bool.eq_false_iff.mpr (lowest m (below m hm))) free

theorem freeSlot_none {s : State} (full : ∀ n, ¬ s.slotFree n = true) : s.freeSlot = none :=
  List.find?_eq_none.mpr fun n _ => full n

/-- The position of an origin is that of the first entry that carries it (R147). -/
theorem positionOf_first {c : ConsistUnit} {i : Ident} {l r : List RosterEntry} {y : RosterEntry}
    (entries : (c.roster.map (·.entries)).getD [] = l ++ y :: r) (own : y.identity = i) (new : ∀ z ∈ l, z.identity ≠ i) :
    c.positionOf i = l.length + 1 := by
  have none : l.findIdx? (fun e => e.identity == i) = none :=
    List.findIdx?_eq_none_iff.mpr fun z hz => beq_false_of_ne (new z hz)
  unfold ConsistUnit.positionOf
  rw [entries, List.findIdx?_append, none, List.findIdx?_cons, if_pos (beq_iff_eq.mpr own)]
  exact congrArg (· + 1) (Nat.zero_add _)

theorem positionOf_absent {c : ConsistUnit} {i : Ident} (absent : ∀ y ∈ (c.roster.map (·.entries)).getD [], y.identity ≠ i) :
    c.positionOf i = 0 := by
  have none : ((c.roster.map (·.entries)).getD []).findIdx? (fun e => e.identity == i) = none :=
    List.findIdx?_eq_none_iff.mpr fun z hz => beq_false_of_ne (absent z hz)
  unfold ConsistUnit.positionOf
  rw [none]

/-- The words of a slot from its origin on (R147, R195). -/
def State.slotWords (s : State) (t : Telegram) : List Word :=
  [t.origin.setWidth 16, (t.origin >>> 16).setWidth 16, pageWord (s.consist.positionOf t.origin), slotKind t.scope, s.ms,
    byteWord (rd8 t.body 0)]

theorem deliverInto_mem (s : State) (n : Fin 8) (t : Telegram) :
    (s.deliverInto n t).mem =
      ((s.mem.writeWords (slotBase n) [s.rev (.slot n) + 2, BitVec.ofNat 16 (stepDelivery s.deliveries[n])]).writeWords
        (slotBase n + 6) (s.slotWords t)).write (slotBase n + 0x12) (messageBytes t.body) := rfl

/-- Words below the message bytes are as the words written before show them. -/
theorem readWord_write_below (m : Memory) (a : Nat) (bs : List Byte) {k : Nat} (h : k + 2 ≤ a) :
    (m.write a bs).readWord k = m.readWord k :=
  readWord_congr ((memory_read_write m a bs k).trans (if_neg (by omega)))
    ((memory_read_write m a bs (k + 1)).trans (if_neg (by omega)))

theorem deliverInto_head (s : State) (n : Fin 8) (t : Telegram) :
    (s.deliverInto n t).mem.readWords (slotBase n) 2
      = [s.rev (.slot n) + 2, BitVec.ofNat 16 (stepDelivery s.deliveries[n])] := by
  refine memory_readWords_eq _ [_, _] _ fun i hi => ?_
  have low : i < 2 := hi
  rw [deliverInto_mem, readWord_write_below _ _ _ (by omega), memory_readWord_writeWords_of_outside _ _ _ _ (by omega)]
  exact memory_readWord_writeWords _ _ _ i hi

theorem deliverInto_word (s : State) (n : Fin 8) (t : Telegram) {i : Nat} (hi : i < 6) :
    (s.deliverInto n t).mem.readWord (slotBase n + 6 + 2 * i) = (s.slotWords t).getD i 0 := by
  rw [deliverInto_mem, readWord_write_below _ _ _ (by omega)]
  exact memory_readWord_writeWords _ _ _ i hi

theorem deliverInto_byte (s : State) (n : Fin 8) (t : Telegram) {i : Nat} (hi : i < 200) :
    (s.deliverInto n t).mem.read (slotBase n + 0x12 + i) = t.body.getD (i + 1) 0 := by
  have length : (messageBytes t.body).length = 200 := by rw [messageBytes, List.length_map, List.length_range]
  rw [deliverInto_mem, memory_read_write, if_pos (by omega), Nat.add_sub_cancel_left, messageBytes,
    List.getD_eq_getElem?_getD, List.getElem?_map, List.getElem?_range hi]
  show (t.body.drop 1).getD i 0 = _
  rw [List.getD_eq_getElem?_getD, List.getElem?_drop, List.getD_eq_getElem?_getD, Nat.add_comm]

theorem deliverInto_outside (s : State) (n : Fin 8) (t : Telegram) {a : Nat}
    (h : a < slotBase n ∨ (slotBase n + 4 ≤ a ∧ a < slotBase n + 6) ∨ slotBase n + 0x12 + 200 ≤ a) :
    (s.deliverInto n t).mem.read a = s.mem.read a := by
  have length : (messageBytes t.body).length = 200 := by rw [messageBytes, List.length_map, List.length_range]
  have six : (s.slotWords t).length = 6 := rfl
  rw [deliverInto_mem, memory_read_write, if_neg (by omega), memory_read_writeWords_of_outside _ _ _ _ (by omega),
    memory_read_writeWords_of_outside _ _ _ _ (by simp only [List.length_cons, List.length_nil]; omega)]

theorem rec_idx_slot {r : Rec} {n : Fin 8} (h : r ≠ .slot n) : (Rec.slot n).idx ≠ r.idx := by
  intro same
  have value := congrArg Fin.val same
  cases r with
  | slot m => exact h (congrArg Rec.slot (Fin.ext (by simp only [Rec.idx] at value; omega)))
  | _ => simp only [Rec.idx] at value; omega

theorem deliverInto_rev (s : State) (n : Fin 8) (t : Telegram) :
    (s.deliverInto n t).rev (.slot n) = s.rev (.slot n) + 2
      ∧ ∀ r, r ≠ .slot n → (s.deliverInto n t).rev r = s.rev r := by
  refine ⟨rev_setRev { s with deliveries := _ } (.slot n) _, fun r hr => ?_⟩
  show (s.revs.set (Rec.slot n).idx.val _ (Rec.slot n).idx.isLt)[r.idx.val] = s.revs[r.idx.val]
  exact Vector.getElem_set_ne _ _ fun same => rec_idx_slot hr (Fin.ext same)

/-! ### The answer (R148) -/

/-- The MSGACK of a MSG. -/
def State.ackOf (s : State) (t : Telegram) (r : Byte) : Telegram := s.originates .msgack .coach t.origin (be16 t.seq ++ [r]) []

theorem acknowledge_none {s : State} (e : EndId) {t : Telegram} (r : Byte) (h : t.origin = 0) : s.acknowledge e t r = s := if_pos h

theorem acknowledge_frame (s : State) (e : EndId) (t : Telegram) (r : Byte) :
    s.acknowledge e t r = { s with ends := (s.acknowledge e t r).ends, seqs := (s.acknowledge e t r).seqs }
      ∧ (s.acknowledge e t r).endOf e.opp = s.endOf e.opp
      ∧ (t.origin ≠ 0 → Placed (s.sendingLines e) (s.ackOf t r) (s.endOf e) ((s.acknowledge e t r).endOf e)) := by
  by_cases h : t.origin = 0
  · rw [acknowledge_none e r h]
    exact ⟨rfl, rfl, fun named => absurd h named⟩
  · have run : s.acknowledge e t r
        = ((s.build .msgack .coach t.origin (be16 t.seq ++ [r]) []).2.placeAt e (s.ackOf t r)).1 := if_neg h
    obtain ⟨frame, placed, other, -⟩ := sentAt s .msgack .coach t.origin (be16 t.seq ++ [r]) [] e (by decide)
    rw [run]
    exact ⟨frame, other, fun _ => placed⟩

/-- A MSG that is answered or not (R147, R148). -/
def State.answered (s : State) (e : EndId) (t : Telegram) (r : Byte) : State :=
  if t.scope = .coach then s.acknowledge e t r else s

theorem answered_frame (s : State) (e : EndId) (t : Telegram) (r : Byte) :
    s.answered e t r = { s with ends := (s.answered e t r).ends, seqs := (s.answered e t r).seqs }
      ∧ (s.answered e t r).endOf e.opp = s.endOf e.opp
      ∧ (t.scope ≠ .coach ∨ t.origin = 0 → s.answered e t r = s)
      ∧ (t.scope = .coach → t.origin ≠ 0 →
          Placed (s.sendingLines e) (s.ackOf t r) (s.endOf e) ((s.answered e t r).endOf e)) := by
  by_cases own : t.scope = .coach
  · have run : s.answered e t r = s.acknowledge e t r := if_pos own
    obtain ⟨frame, other, placed⟩ := acknowledge_frame s e t r
    rw [run]
    exact ⟨frame, other, fun silent => acknowledge_none e r (silent.resolve_left (not_not.mpr own)), fun _ => placed⟩
  · have run : s.answered e t r = s := if_neg own
    rw [run]
    exact ⟨rfl, rfl, fun _ => rfl, fun yes => absurd yes own⟩

theorem takeMsg_unusable {s : State} {e : EndId} {t : Telegram} (h : ¬ usableMsg t.body = true) : s.takeMsg e t = s := if_neg h

theorem takeMsg_full {s : State} {e : EndId} {t : Telegram} (h : usableMsg t.body = true) (full : s.freeSlot = none) :
    s.takeMsg e t = s.answered e t 2 := by
  refine (if_pos h).trans ?_
  rw [full]
  rfl

theorem takeMsg_delivered {s : State} {e : EndId} {t : Telegram} {n : Fin 8} (h : usableMsg t.body = true)
    (free : s.freeSlot = some n) : s.takeMsg e t = (s.deliverInto n t).answered e t 1 := by
  refine (if_pos h).trans ?_
  rw [free]
  rfl

end Sys2Proof.Machine

namespace Sys2Proof.Proofs

open Sys2Proof Sys2Proof.Machine

/-- Settles O53: every timer a millisecond on. -/
theorem millisecondCount : Obligations.MillisecondCount := by
  intro s held up record
  obtain ⟨t, e, whole, bytes, slots⟩ := yields_effect (exec_millisecondCount s) held rfl
  have shown : ∀ limit x, bump limit x = up limit x := bump_eq
  have lines : ∀ l, t.lineOf l = (s.lineOf l).tick := fun l => by
    rw [State.lineOf, (congrArg State.lines whole :)]
    exact lines_tick s l
  have below : ∀ a, isPageByte a = false → a ≠ 0x1400 → a ≠ 0x1401 → t.mem.read a = s.mem.read a := fun a page low high =>
    (bytes a page).trans (tick_read s a (by omega))
  refine ⟨t, e, ?_, ?_, slots, fun l => ⟨?_, ?_⟩, fun k => ?_, ?_, ?_, ?_, fun i => ?_, ?_, below⟩
  · rw [whole]
    rfl
  · have word : t.mem.readWord 0x1400 = s.tick.mem.readWord 0x1400 := readWord_congr (bytes _ rfl) (bytes _ rfl)
    exact word.trans (memory_readWord_writeWord ..)
  · rw [lines, ← shown, ← shown]
    rfl
  · rw [lines]
    exact asmTick_spec _
  · rw [State.endOf, (congrArg State.ends whole :), ← shown, ← shown, ← shown]
    exact ends_tick s k
  · rw [(congrArg State.consist whole :), ← shown, ← shown, ← shown]
    rfl
  · rw [(congrArg State.door whole :), ← shown]
    rfl
  · rw [(congrArg State.heat whole :), ← shown, ← shown, ← shown]
    rfl
  · rw [(congrArg State.inputs whole :), ← shown]
    exact inputs_tick s i
  · rw [(congrArg State.inFlight whole :)]
    refine congrArg (fun f => s.inFlight.map f) (funext fun x => ?_)
    have timer : min 1000 (x.timer + 1) = if x.timer < 1000 then x.timer + 1 else 1000 := by split <;> omega
    rw [← timer]
    rfl

/-- Settles O52: a MSGACK and a deadline take the first entry they name out of the list and complete its block. -/
theorem messageOutcome : Obligations.MessageOutcome := by
  refine ⟨fun s e x kind => ?_, fun s b held => ⟨fun early => ?_, ?_⟩⟩
  · intro u mine
    have run : s.consume e x = (s.takeAck e x, false) := by rw [State.consume, kind]
    have taken : u = s.takeAck e x := congrArg Prod.fst run
    refine ⟨fun ignored => taken.trans ?_, fun l y r flight own first small result => ?_⟩
    · obtain unmatched | other := ignored
      · exact takeAck_unmatched fun y hy answers => unmatched y hy ((answers_iff x y).mp answers)
      · exact takeAck_other other
    · have found : s.matching x = some y := by
        rw [State.matching, flight]
        exact find?_first (fun z hz => Bool.eq_false_iff.mpr fun answers => first z hz ((answers_iff x z).mp answers))
          ((answers_iff x y).mpr own)
      have rest : s.inFlight.erase y = l ++ r := by
        rw [flight]
        exact erase_first fun hy => first y hy own
      have finished := finishFlight_spec s y (if rd8 x.body 2 = 1 then .done else .inboxFull) (ackFields e y)
      rw [← takeAck_matched found result, ← taken, rest] at finished
      obtain ⟨frame, status, words, done, others, memory⟩ := finished
      refine ⟨frame, status.trans ?_, (readWords_take words (by decide)).trans ?_, done, others, memory⟩
      · split <;> rfl
      · rw [ackFields, endCode_word, pageWord_small small]
        split <;> rfl
  · refine yields_effect (exec_messageDeadline b s) held ?_
    have none : s.overdue b = none := by
      refine List.find?_eq_none.mpr fun x hx late => ?_
      rw [Bool.and_eq_true, beq_iff_eq, decide_eq_true_eq] at late
      exact absurd (early x hx late.1) (Nat.not_lt.mpr late.2)
    rw [State.passDeadline, none]
  · rintro l x r flight rfl late first
    have found : s.overdue x.block = some x := by
      rw [State.overdue, flight]
      refine find?_first (fun z hz => ?_) ?_
      · rw [beq_false_of_ne (first z hz), Bool.false_and]
      · rw [beq_self_eq_true, Bool.true_and]
        exact decide_eq_true late
    have rest : s.inFlight.erase x = l ++ r := by
      rw [flight]
      exact erase_first fun hx => first x hx rfl
    have run : s.passDeadline x.block = s.finishFlight x .timeout [] := by rw [State.passDeadline, found]
    obtain ⟨t, e, pages⟩ := yields_effect (exec_messageDeadline x.block s) held run
    obtain ⟨frame, status, words, done, others, memory⟩ := finishFlight_spec s x .timeout []
    rw [rest] at frame
    have events : t.events = (s.finishFlight x .timeout []).events := (congrArg State.events pages.1 :)
    refine ⟨t, e, ?_, (block_status pages _).trans status, ?_, (isPending_congr events _).trans done,
      fun c hc => (isPending_congr events c).trans (others c hc), fun a page outside => (pages.2.1 a page).trans (memory a outside)⟩
    · rw [pages.1, frame]
    · exact (block_readWords pages x.block 14 _ (by omega) (by omega)).trans words

/-- Settles O51: the lowest FREE slot takes a usable MSG, and a unicast is answered. -/
theorem messageReceived : Obligations.MessageReceived := by
  intro s e x kind u len usable entries isFree ack
  have run : s.consume e x = (s.takeMsg e x, false) := by rw [State.consume, kind]
  have taken : u = s.takeMsg e x := congrArg Prod.fst run
  have good : usable ↔ usableMsg x.body = true := (usableMsg_iff x.body).symm
  have free : ∀ n, isFree n ↔ s.slotFree n = true := fun n => (slotFree_iff s n).symm
  have cases : (u = s ∧ ¬ usable) ∨ (u = s.answered e x 2) ∨ ∃ n, u = (s.deliverInto n x).answered e x 1 := by
    by_cases h : usable
    · cases slot : s.freeSlot with
      | none => exact Or.inr (Or.inl (taken.trans (takeMsg_full (good.mp h) slot)))
      | some n => exact Or.inr (Or.inr ⟨n, taken.trans (takeMsg_delivered (good.mp h) slot)⟩)
    · exact Or.inl ⟨taken.trans (takeMsg_unusable (mt good.mpr h)), h⟩
  refine ⟨congrArg Prod.snd run, ?_, fun bad => taken.trans (takeMsg_unusable (mt good.mpr bad)), fun silent => ?_,
    fun h full => ?_, fun h n slot lowest => ?_⟩
  · obtain ⟨same, -⟩ | refused | ⟨n, delivered⟩ := cases
    · rw [same]
    · rw [refused]
      exact (answered_frame s e x 2).2.1
    · rw [delivered]
      exact (answered_frame (s.deliverInto n x) e x 1).2.1
  · obtain ⟨same, -⟩ | refused | ⟨n, delivered⟩ := cases
    · rw [same]
      exact ⟨rfl, rfl⟩
    · rw [refused, (answered_frame s e x 2).2.2.1 silent]
      exact ⟨rfl, rfl⟩
    · rw [delivered, (answered_frame (s.deliverInto n x) e x 1).2.2.1 silent]
      exact ⟨rfl, rfl⟩
  · obtain ⟨frame, -, -, placed⟩ := answered_frame s e x 2
    rw [taken.trans (takeMsg_full (good.mp h) (freeSlot_none fun n => mt (free n).mpr (full n)))]
    exact ⟨frame, placed⟩
  · intro d
    have lands := freeSlot_first ((free n).mp slot) fun m hm => mt (free m).mpr (lowest m hm)
    have eq := taken.trans (takeMsg_delivered (e := e) (good.mp h) lands)
    obtain ⟨frame, -, -, placed⟩ := answered_frame (s.deliverInto n x) e x 1
    rw [← eq] at frame placed
    have mem : u.mem = (s.deliverInto n x).mem := (congrArg State.mem frame :)
    have revs : ∀ r, u.rev r = (s.deliverInto n x).rev r := fun r => congrArg (fun v => Vector.get v r.idx) (congrArg State.revs frame :)
    have events : u.events = (s.deliverInto n x).events := (congrArg State.events frame :)
    obtain ⟨own, others⟩ := deliverInto_rev s n x
    have word : ∀ i, i < 6 → u.mem.readWord (slotBase n + 6 + 2 * i) = (s.slotWords x).getD i 0 := fun i hi => by
      rw [mem]
      exact deliverInto_word s n x hi
    refine ⟨?_, ?_, fun c hc => ?_, (revs _).trans own, fun r hr => (revs r).trans (others r hr), ?_, ?_, ?_, ?_, ?_, fun i hi => ?_,
      fun a outside => ?_, placed⟩
    · rw [frame]
      rfl
    · rw [isPending_congr events]
      exact isPending_raise _ _
    · rw [isPending_congr events]
      exact isPending_raise_of_ne _ hc
    · rw [mem]
      exact deliverInto_head s n x
    · refine memory_readWords_eq _ [_, _] _ fun i hi => ?_
      have low : i < 2 := hi
      rw [word i (by omega)]
      interval_cases i <;> rfl
    · intro l y r split mine new small
      rw [word 2 (by decide)]
      show pageWord (s.consist.positionOf x.origin) = _
      rw [positionOf_first split mine new, pageWord_small (by omega)]
    · intro absent
      rw [word 2 (by decide)]
      show pageWord (s.consist.positionOf x.origin) = _
      rw [positionOf_absent absent]
      rfl
    · refine memory_readWords_eq _ [_, _, _] _ fun i hi => ?_
      have low : i < 3 := hi
      have shifted : slotBase n + 0x0C + 2 * i = slotBase n + 6 + 2 * (i + 3) := by omega
      rw [shifted, word (i + 3) (by omega)]
      interval_cases i
      · rfl
      · rfl
      · exact (BitVec.ofNat_toNat 16 (rd8 x.body 0)).symm
    · rw [mem]
      exact deliverInto_byte s n x hi
    · rw [mem]
      exact deliverInto_outside s n x outside

end Sys2Proof.Proofs
end

