-- ==== Sys2Proof/Proofs/RoundTrip.lean ====
section
/-! PROOFS. What goes out comes in (chapter 2): the escaped bytes through the assembler (R25, R27, R28), a telegram through
its checks (R29, R30), a roster through its ROSTER (R86, R89). -/

namespace Sys2Proof.Machine

/-! ### Fields at an offset (R194) -/

theorem rd8_of_drop {c : List Byte} {i : Nat} {b : Byte} {r : List Byte} (h : c.drop i = b :: r) : rd8 c i = b := by
  have found : (c)[i]? = some b := by rw [← Nat.add_zero i, ← List.getElem?_drop, h]; rfl
  rw [rd8, List.getD_eq_getElem?_getD, found]
  rfl

theorem drop_succ_of {c : List Byte} {i : Nat} {b : Byte} {r : List Byte} (h : c.drop i = b :: r) : c.drop (i + 1) = r := by
  rw [← List.drop_drop, h]
  rfl

theorem rd16_of_drop {c : List Byte} {i : Nat} {w : Word} {r : List Byte} (h : c.drop i = be16 w ++ r) : rd16 c i = w := by
  rw [rd16, rd8_of_drop h, rd8_of_drop (drop_succ_of h)]
  exact wordOf_hi_lo w

theorem rd32_of_drop {c : List Byte} {i : Nat} {w : Ident} {r : List Byte} (h : c.drop i = be32 w ++ r) : rd32 c i = w := by
  have low : c.drop (i + 2) = be16 (w.setWidth 16) ++ r := drop_succ_of (drop_succ_of h)
  rw [rd32, rd16_of_drop (w := (w >>> 16).setWidth 16) h, rd16_of_drop low]
  refine BitVec.eq_of_getLsbD_eq fun k hk => ?_
  rw [BitVec.getLsbD_append, BitVec.getLsbD_setWidth, BitVec.getLsbD_setWidth, BitVec.getLsbD_ushiftRight]
  by_cases below : k < 16
  · simp [below]
  · have within : k - 16 < 16 := by omega
    simp [below, within, show 16 + (k - 16) = k by omega]

theorem drop_after {c : List Byte} {i : Nat} {l r : List Byte} (h : c.drop i = l ++ r) : c.drop (i + l.length) = r := by
  rw [← List.drop_drop, h, List.drop_left]

/-! ### Escaping (R25, R28) -/

theorem byteOf_toNat {n : Nat} (h : n < 256) : (byteOf n).toNat = n := by
  rw [byteOf, BitVec.toNat_ofNat]
  exact Nat.mod_eq_of_lt h

/-- A byte that needs no escape, into an open candidate with room. -/
theorem asmStep_plain {bs : List Byte} {g : Nat} {v : Byte} (room : bs.length < 320)
    (plain : ¬ (0xF1 ≤ v.toNat ∧ v.toNat ≤ 0xF5)) : asmStep (.opened bs g) v = (.opened (bs ++ [v]) 0, .nothing) := by
  have apart : ∀ w : Byte, 0xF1 ≤ w.toNat → w.toNat ≤ 0xF5 → v ≠ w := fun w low high same => plain (same ▸ ⟨low, high⟩)
  refine (if_neg (apart chESC (by decide) (by decide))).trans ((if_neg (apart chEND (by decide) (by decide))).trans
    ((if_neg (apart chSTART (by decide) (by decide))).trans (if_pos room)))

/-- An escape code gives back its special value. -/
theorem unescape_special {v : Byte} (special : 0xF1 ≤ v.toNat ∧ v.toNat ≤ 0xF5) : unescape (v - 0xF0) = some v := by
  obtain ⟨low, high⟩ := special
  have code : (v - 0xF0).toNat = v.toNat - 0xF0 := by
    rw [BitVec.toNat_sub]
    have base : (0xF0 : Byte).toNat = 0xF0 := rfl
    omega
  have back : v - 0xF0 + 0xF0 = v := by
    rw [BitVec.sub_add_cancel]
  rw [unescape, code, back]
  refine if_pos ?_
  rw [Bool.and_eq_true, decide_eq_true_eq, decide_eq_true_eq]
  omega

/-- The bytes of one value as sent, into an open candidate with room. -/
theorem feed_escapeByte {bs : List Byte} {v : Byte} (room : bs.length < 320) (rest : List Byte) :
    feed (.opened bs 0) (escapeByte v ++ rest) = feed (.opened (bs ++ [v]) 0) rest := by
  by_cases special : 0xF1 ≤ v.toNat ∧ v.toNat ≤ 0xF5
  · have sent : escapeByte v = [chESC, v - 0xF0] := if_pos (by
      rw [Bool.and_eq_true, decide_eq_true_eq, decide_eq_true_eq]
      exact special)
    have escape : asmStep (.opened bs 0) chESC = (.escaped bs 0, .nothing) := rfl
    have value : asmStep (.escaped bs 0) (v - 0xF0) = (.opened (bs ++ [v]) 0, .nothing) := by
      rw [asmStep, unescape_special special]
      exact if_pos room
    rw [sent]
    show feed (.opened bs 0) (chESC :: (v - 0xF0) :: rest) = _
    rw [feed, escape]
    dsimp only
    rw [if_pos rfl, feed, value]
    dsimp only
    rw [if_pos rfl]
  · have sent : escapeByte v = [v] := if_neg (by
      rw [Bool.and_eq_true, decide_eq_true_eq, decide_eq_true_eq]
      exact special)
    rw [sent]
    show feed (.opened bs 0) (v :: rest) = _
    rw [feed, asmStep_plain room special]
    dsimp only
    rw [if_pos rfl]

/-- Escaped bytes are collected as they were (R25, R28). -/
theorem feed_escaped (l : List Byte) : ∀ (bs rest : List Byte), bs.length + l.length ≤ 320 →
    feed (.opened bs 0) (l.flatMap escapeByte ++ rest) = feed (.opened (bs ++ l) 0) rest := by
  induction l with
  | nil => exact fun bs rest _ => by rw [List.append_nil]; rfl
  | cons v l ih =>
    intro bs rest room
    rw [List.length_cons] at room
    rw [List.flatMap_cons, List.append_assoc, feed_escapeByte (by omega), ih _ _ (by
      rw [List.length_append, List.length_singleton]
      omega), List.append_assoc]
    rfl

/-- The wire form of no more than 320 bytes comes in as those bytes (R25, R27, R28). -/
theorem feed_wire {t : Telegram} (room : t.bytes.length ≤ 320) : feed .waiting t.wire = (.waiting, [.closed t.bytes]) := by
  have start : asmStep .waiting chSTART = (.opened [] 0, .nothing) := rfl
  have close : asmStep (.opened t.bytes 0) chEND = (.waiting, .closed t.bytes) := rfl
  have through := feed_escaped t.bytes [] [chEND] (by rw [List.length_nil]; omega)
  show feed .waiting (chSTART :: (t.bytes.flatMap escapeByte ++ [chEND])) = _
  rw [feed, start]
  dsimp only
  rw [through, if_pos rfl, List.nil_append, feed, close]
  rfl

/-! ### A telegram read back (R29, R30) -/

/-- The first 15 bytes of a telegram (R194). -/
def Telegram.head (t : Telegram) : List Byte :=
  [t.kind.code, byteOf t.kind.cls.code, t.scope.code] ++ be32 t.origin ++ be32 t.dest ++ be16 t.seq
    ++ be16 (BitVec.ofNat 16 t.body.length)

theorem bytes_eq (t : Telegram) :
    t.bytes = t.head ++ (t.body ++ (be16 t.bodyCheck ++ (t.routePart ++ be16 t.routeCheck))) := by
  show ((t.head ++ t.body) ++ be16 t.bodyCheck ++ t.routePart) ++ be16 t.routeCheck = _
  simp only [List.append_assoc]

theorem length_telegramBytes (t : Telegram) : t.bytes.length = 21 + t.body.length + t.route.length := by
  have head : t.head.length = 15 := rfl
  have check : ∀ w, (be16 w).length = 2 := fun _ => rfl
  have route : t.routePart.length = 2 + t.route.length := by
    rw [Telegram.routePart, List.length_append]
    rfl
  rw [bytes_eq]
  simp only [List.length_append, head, check, route]
  omega

/-- The lengths that the table of kinds allows fit the assembler and the length fields (R30). -/
theorem lengths_ok {t : Telegram} (body : t.kind.bodyLengthOk t.body.length = true)
    (route : t.kind.routeLengthOk t.route.length = true) : t.body.length ≤ 298 ∧ t.route.length ≤ 10
      ∧ t.body.length + t.route.length ≤ 299 := by
  revert body route
  generalize t.body.length = b
  generalize t.route.length = g
  cases t.kind <;> simp only [Kind.bodyLengthOk, Kind.routeLengthOk, Bool.and_eq_true, beq_iff_eq, decide_eq_true_eq] <;> omega

/-- Where the parts of a telegram stand in its bytes. -/
structure Laid (t : Telegram) (c : List Byte) : Prop where
  head : c.drop 0 = t.head ++ c.drop 15
  body : c.drop 15 = t.body ++ c.drop (15 + t.body.length)
  check : c.drop (15 + t.body.length) = be16 t.bodyCheck ++ c.drop (17 + t.body.length)
  hop : c.drop (17 + t.body.length) = t.hop :: byteOf t.route.length :: c.drop (19 + t.body.length)
  route : c.drop (19 + t.body.length) = t.route ++ c.drop (19 + t.body.length + t.route.length)
  last : c.drop (19 + t.body.length + t.route.length) = be16 t.routeCheck ++ []

theorem laid_bytes (t : Telegram) : Laid t t.bytes := by
  set c := t.bytes
  have start : c.drop 0 = t.head ++ (t.body ++ (be16 t.bodyCheck ++ (t.routePart ++ be16 t.routeCheck))) := bytes_eq t
  have body : c.drop 15 = t.body ++ (be16 t.bodyCheck ++ (t.routePart ++ be16 t.routeCheck)) := drop_after start
  have check : c.drop (15 + t.body.length) = be16 t.bodyCheck ++ (t.routePart ++ be16 t.routeCheck) := drop_after body
  have hop : c.drop (17 + t.body.length) = t.hop :: byteOf t.route.length :: (t.route ++ be16 t.routeCheck) := by
    rw [show 17 + t.body.length = 15 + t.body.length + 2 by omega]
    exact drop_after (i := 15 + t.body.length) (l := be16 t.bodyCheck) check
  have route : c.drop (19 + t.body.length) = t.route ++ be16 t.routeCheck := by
    rw [show 19 + t.body.length = 17 + t.body.length + 1 + 1 by omega]
    exact drop_succ_of (drop_succ_of hop)
  have last : c.drop (19 + t.body.length + t.route.length) = be16 t.routeCheck ++ [] := (drop_after route).trans (List.append_nil _).symm
  refine ⟨?_, ?_, ?_, ?_, ?_, last⟩
  · rw [body]
    exact start
  · rw [check]
    exact body
  · rw [hop]
    exact check
  · rw [route]
    exact hop
  · rw [last, List.append_nil]
    exact route

/-- The numbers in the head of a telegram. -/
theorem laid_head {t : Telegram} {c : List Byte} (laid : Laid t c) :
    rd8 c 0 = t.kind.code ∧ rd8 c 1 = byteOf t.kind.cls.code ∧ rd8 c 2 = t.scope.code ∧ rd32 c 3 = t.origin
      ∧ rd32 c 7 = t.dest ∧ rd16 c 11 = t.seq ∧ rd16 c 13 = BitVec.ofNat 16 t.body.length := by
  have h0 := laid.head
  have h1 := drop_succ_of (b := t.kind.code) h0
  have h2 := drop_succ_of (b := byteOf t.kind.cls.code) h1
  have h3 := drop_succ_of (b := t.scope.code) h2
  have h7 := drop_after (i := 3) (l := be32 t.origin) h3
  have h11 := drop_after (i := 7) (l := be32 t.dest) h7
  have h13 := drop_after (i := 11) (l := be16 t.seq) h11
  exact ⟨rd8_of_drop h0, rd8_of_drop h1, rd8_of_drop h2, rd32_of_drop h3, rd32_of_drop h7, rd16_of_drop h11, rd16_of_drop h13⟩

theorem take_of_drop {c l r : List Byte} {i : Nat} (h : c.drop i = l ++ r) : (c.drop i).take l.length = l := by
  rw [h, List.take_left]

theorem readAs_bytes {t : Telegram} (body : t.body.length < 65536) (route : t.route.length < 256) :
    (rd16 t.bytes 13).toNat = t.body.length ∧ (rd8 t.bytes (18 + t.body.length)).toNat = t.route.length
      ∧ readAs t.bytes t.kind t.scope = t := by
  have laid := laid_bytes t
  obtain ⟨-, -, -, origin, dest, seq, length⟩ := laid_head laid
  have b : (rd16 t.bytes 13).toNat = t.body.length := by
    rw [length, BitVec.toNat_ofNat]
    exact Nat.mod_eq_of_lt body
  have g : (rd8 t.bytes (18 + t.body.length)).toNat = t.route.length := by
    rw [show 18 + t.body.length = 17 + t.body.length + 1 by omega, rd8_of_drop (drop_succ_of laid.hop)]
    exact byteOf_toNat route
  refine ⟨b, g, ?_⟩
  unfold readAs
  dsimp only
  rw [b, g, origin, dest, seq, rd16_of_drop laid.check, rd8_of_drop laid.hop, rd16_of_drop laid.last, take_of_drop laid.body,
    take_of_drop laid.route]

theorem sound_bytes {t : Telegram} (body : t.body.length < 65536) (route : t.route.length < 256)
    (bodyCheck : t.bodyCheck = t.bodyCrc) (routeCheck : t.routeCheck = t.routeCrc) : Sound t.bytes := by
  have laid := laid_bytes t
  obtain ⟨b, g, -⟩ := readAs_bytes body route
  have fixed : t.bytes.take (15 + t.body.length) = t.fixedPart := by
    have length : t.fixedPart.length = 15 + t.body.length := by
      show (t.head ++ t.body).length = _
      rw [List.length_append]
      rfl
    rw [← length]
    show (((t.fixedPart ++ be16 t.bodyCheck) ++ t.routePart) ++ be16 t.routeCheck).take t.fixedPart.length = _
    rw [List.append_assoc, List.append_assoc, List.take_left]
  have part : (t.bytes.drop (17 + t.body.length)).take (2 + t.route.length) = t.routePart := by
    have whole : t.bytes.drop (17 + t.body.length) = t.routePart ++ be16 t.routeCheck := by
      rw [laid.hop, laid.route, laid.last, List.append_nil]
      rfl
    have length : t.routePart.length = 2 + t.route.length := by
      rw [Telegram.routePart, List.length_append]
      rfl
    rw [← length]
    exact take_of_drop whole
  refine ⟨?_, ?_, ?_, ?_⟩
  · rw [length_telegramBytes]
    omega
  · rw [b, g, length_telegramBytes]
  · rw [b, fixed, rd16_of_drop laid.check, bodyCheck]
    rfl
  · rw [b, g, part, rd16_of_drop laid.last, routeCheck]
    rfl

/-! ### A roster read back (R86, R89, R194) -/

theorem length_entryBytes (e : RosterEntry) : e.bytes.length = 9 := rfl

theorem drop_entries (l : List RosterEntry) : ∀ i, (l.flatMap RosterEntry.bytes).drop (9 * i) = (l.drop i).flatMap RosterEntry.bytes := by
  induction l with
  | nil => exact fun i => by rw [List.flatMap_nil, List.drop_nil, List.drop_nil, List.flatMap_nil]
  | cons e l ih =>
    intro i
    cases i with
    | zero => rfl
    | succ i =>
      rw [show 9 * (i + 1) = e.bytes.length + 9 * i by rw [length_entryBytes]; omega, List.flatMap_cons, ← List.drop_drop,
        List.drop_left, ih]
      rfl

theorem length_entries (l : List RosterEntry) : (l.flatMap RosterEntry.bytes).length = 9 * l.length := by
  induction l with
  | nil => rfl
  | cons e l ih =>
    rw [List.flatMap_cons, List.length_append, ih, length_entryBytes, List.length_cons]
    omega

theorem entryFrom_of_drop {b : List Byte} {o : Nat} {e : RosterEntry} {r : List Byte} (h : b.drop o = e.bytes ++ r) :
    entryFrom b o = e := by
  have h4 := drop_after (i := o) (l := be32 e.identity) h
  have h5 := drop_succ_of (b := e.orientation) h4
  have h6 := drop_succ_of (b := byteOf e.flags) h5
  have h7 := drop_succ_of (b := e.doors) h6
  have h8 := drop_succ_of (b := e.size) h7
  have lead : (byteOf e.flags).getLsbD 0 = e.lead ∧ (byteOf e.flags).getLsbD 1 = e.terminal := by
    rw [RosterEntry.flags]
    cases e.lead <;> cases e.terminal <;> decide
  have identity : rd32 b o = e.identity := rd32_of_drop h
  have orientation : rd8 b (o + 4) = e.orientation := rd8_of_drop h4
  have flags : rd8 b (o + 5) = byteOf e.flags := rd8_of_drop h5
  have doors : rd8 b (o + 6) = e.doors := rd8_of_drop h6
  have size : rd8 b (o + 7) = e.size := rd8_of_drop h7
  have count : rd8 b (o + 8) = e.count := rd8_of_drop h8
  unfold entryFrom
  rw [identity, orientation, flags, lead.1, lead.2, doors, size, count]

/-- The first ten bytes of a ROSTER (R194). -/
def Roster.head (r : Roster) : List Byte :=
  be16 r.generation ++ be32 r.leadId ++ [r.leadRank, byteOf r.entries.length, byteOf r.f, byteOf r.flags]

theorem rosterBody_eq (r : Roster) : r.body = r.head ++ r.entries.flatMap RosterEntry.bytes := rfl

theorem length_rosterBody (r : Roster) : r.body.length = 10 + 9 * r.entries.length := by
  rw [rosterBody_eq, List.length_append, length_entries]
  rfl

theorem rosterFlags_bits (r : Roster) :
    (byteOf r.flags).getLsbD 0 = r.isPartial ∧ (byteOf r.flags).getLsbD 1 = r.overlength
      ∧ (byteOf r.flags).getLsbD 2 = r.dupIdentity := by
  rw [Roster.flags]
  cases r.isPartial <;> cases r.overlength <;> cases r.dupIdentity <;> decide

theorem rosterFrom_body {r : Roster} (f : r.f < 256) : rosterFrom r.body = r ∧ rd8 r.body 7 = byteOf r.entries.length := by
  have h0 : r.body.drop 0 = r.head ++ r.entries.flatMap RosterEntry.bytes := rosterBody_eq r
  have h2 := drop_after (i := 0) (l := be16 r.generation) h0
  have h6 := drop_after (i := 2) (l := be32 r.leadId) h2
  have h7 := drop_succ_of (b := r.leadRank) h6
  have h8 := drop_succ_of (b := byteOf r.entries.length) h7
  have h9 := drop_succ_of (b := byteOf r.f) h8
  have h10 : r.body.drop 10 = r.entries.flatMap RosterEntry.bytes := drop_succ_of (b := byteOf r.flags) h9
  have count : (r.body.length - 10) / 9 = r.entries.length := by
    rw [length_rosterBody]
    omega
  have entries : (List.range r.entries.length).map (fun i => entryFrom r.body (10 + 9 * i)) = r.entries := by
    refine List.ext_getElem (by rw [List.length_map, List.length_range]) fun i _ hi => ?_
    rw [List.getElem_map, List.getElem_range]
    refine entryFrom_of_drop (r := (r.entries.drop (i + 1)).flatMap RosterEntry.bytes) ?_
    rw [← List.drop_drop, h10, drop_entries, List.drop_eq_getElem_cons hi, List.flatMap_cons]
  obtain ⟨cut, long, dup⟩ := rosterFlags_bits r
  refine ⟨?_, rd8_of_drop h7⟩
  have generation : rd16 r.body 0 = r.generation := rd16_of_drop h0
  have leadId : rd32 r.body 2 = r.leadId := rd32_of_drop h2
  have leadRank : rd8 r.body 6 = r.leadRank := rd8_of_drop h6
  have place : rd8 r.body 8 = byteOf r.f := rd8_of_drop h8
  have flags : rd8 r.body 9 = byteOf r.flags := rd8_of_drop h9
  unfold rosterFrom
  rw [generation, leadId, leadRank, place, byteOf_toNat f, flags, cut, long, dup, count, entries]

end Sys2Proof.Machine

namespace Sys2Proof.Proofs

open Sys2Proof Sys2Proof.Machine

/-- Settles O60: the wire form through the assembler and the checks, the ROSTER body through its reading. -/
theorem roundTrips : Obligations.RoundTrips := by
  refine ⟨fun t bodyCheck routeCheck header => ?_, fun r short f => ?_⟩
  · obtain ⟨-, -, -, -, -, body, route⟩ := (headerOk_iff _ _).mp header
    obtain ⟨low, few, room⟩ := lengths_ok body route
    have small : t.body.length < 65536 := by omega
    have byte : t.route.length < 256 := by omega
    obtain ⟨kind, cls, scope, -⟩ := laid_head (laid_bytes t)
    obtain ⟨-, -, back⟩ := readAs_bytes small byte
    refine ⟨feed_wire ?_, ?_⟩
    · rw [length_telegramBytes]
      omega
    · have good := checkCandidate_good (sound_bytes small byte bodyCheck routeCheck) kind scope (by rw [back, cls]; exact header)
      rwa [back] at good
  · obtain ⟨back, count⟩ := rosterFrom_body f
    refine ⟨back, ?_, length_rosterBody r⟩
    rw [count]
    exact byteOf_toNat (by omega)

end Sys2Proof.Proofs
end

