-- ==== Sys2Proof/Proofs/RollCollection.lean ====
section
/-! PROOFS. The roll lists of a survey: a ROLL consumed at the lead (R72 to R74), a side filled and complete (R72, R73). -/

namespace Sys2Proof.Machine

/-! ### Completeness of a side (R73) -/

/-- A coach of a roll list is terminal. -/
def isTerminal (e : Option RollEntry) : Bool := (e.map (·.terminal)).getD false

/-- The first terminal coach before any gap. -/
theorem terminal_at (l : List (Option RollEntry)) : ∀ k : Nat,
    (l.takeWhile Option.isSome).findIdx? isTerminal = some k ↔
      ∀ i, i ≤ k → ∃ v : RollEntry, l[i]? = some (some v) ∧ (v.terminal = true ↔ i = k) := by
  induction l with
  | nil =>
    refine fun k => ⟨fun h => (nomatch h), fun h => ?_⟩
    obtain ⟨v, first, -⟩ := h 0 (Nat.zero_le k)
    exact nomatch first
  | cons e l ih =>
    intro k
    cases e with
    | none =>
      refine ⟨fun h => (nomatch h), fun h => ?_⟩
      obtain ⟨v, first, -⟩ := h 0 (Nat.zero_le k)
      exact nomatch first
    | some v =>
      have run : ((some v :: l).takeWhile Option.isSome) = some v :: l.takeWhile Option.isSome := rfl
      rw [run, List.findIdx?_cons]
      by_cases terminal : v.terminal = true
      · rw [if_pos (show isTerminal (some v) = true from terminal)]
        refine ⟨fun h i hi => ?_, fun h => ?_⟩
        · cases h
          obtain rfl : i = 0 := Nat.le_zero.mp hi
          exact ⟨v, rfl, fun _ => rfl, fun _ => terminal⟩
        · obtain ⟨w, first, ends⟩ := h 0 (Nat.zero_le k)
          cases first
          exact congrArg some (ends.mp terminal)
      · rw [if_neg (show ¬ isTerminal (some v) = true from terminal)]
        refine ⟨fun h i hi => ?_, fun h => ?_⟩
        · obtain ⟨m, found, rfl⟩ := Option.map_eq_some_iff.mp h
          cases i with
          | zero => exact ⟨v, rfl, fun yes => absurd yes terminal, fun zero => absurd zero (by omega)⟩
          | succ i =>
            obtain ⟨w, here, ends⟩ := (ih m).mp found i (by omega)
            exact ⟨w, here, ends.trans (by omega)⟩
        · obtain ⟨m, rfl⟩ : ∃ m, k = m + 1 := by
            cases k with
            | zero =>
              obtain ⟨w, first, ends⟩ := h 0 (le_refl 0)
              cases first
              exact absurd (ends.mpr rfl) terminal
            | succ m => exact ⟨m, rfl⟩
          refine Option.map_eq_some_iff.mpr ⟨m, (ih m).mpr fun i hi => ?_, rfl⟩
          obtain ⟨w, here, ends⟩ := h (i + 1) (by omega)
          exact ⟨w, here, ends.trans (by omega)⟩

theorem completion_iff (x : RollSide) (t : Nat) :
    x.completion = some t ↔
      1 ≤ t ∧ t ≤ 31 ∧ ∀ i, i < t → ∃ v : RollEntry, x.entries.toList[i]? = some (some v) ∧ (v.terminal = true ↔ i + 1 = t) := by
  have whole : x.completion = ((x.entries.toList.takeWhile Option.isSome).findIdx? isTerminal).map (· + 1) := rfl
  rw [whole]
  refine ⟨fun h => ?_, fun h => ?_⟩
  · obtain ⟨k, found, rfl⟩ := Option.map_eq_some_iff.mp h
    have each := (terminal_at x.entries.toList k).mp found
    refine ⟨by omega, ?_, fun i hi => ?_⟩
    · obtain ⟨v, here, -⟩ := each k (le_refl k)
      obtain ⟨inside, -⟩ := List.getElem?_eq_some_iff.mp here
      rw [Vector.length_toList] at inside
      exact inside
    · obtain ⟨v, here, ends⟩ := each i (by omega)
      exact ⟨v, here, ends.trans (by omega)⟩
  · obtain ⟨low, -, each⟩ := h
    obtain ⟨k, rfl⟩ : ∃ k, t = k + 1 := ⟨t - 1, by omega⟩
    refine Option.map_eq_some_iff.mpr ⟨k, (terminal_at x.entries.toList k).mpr fun i hi => ?_, rfl⟩
    obtain ⟨v, here, ends⟩ := each i (by omega)
    exact ⟨v, here, ends.trans (by omega)⟩

/-! ### A side filled (R72) -/

theorem fill_kept {x : RollSide} {d : Nat} {e : RollEntry} (taken : x.entries.toList[d - 1]? ≠ some none) : x.fill d e = x :=
  if_neg taken

/-- The side with an entry in an empty slot. -/
def RollSide.withEntry (x : RollSide) (d : Nat) (e : RollEntry) : RollSide :=
  { x with entries := x.entries.setIfInBounds (d - 1) (some e) }

theorem fill_free {x : RollSide} {d : Nat} {e : RollEntry} (free : x.entries.toList[d - 1]? = some none) :
    x.fill d e = if x.complete.isSome then x.withEntry d e else { x.withEntry d e with complete := (x.withEntry d e).completion } :=
  if_pos free

theorem completion_congr {x y : RollSide} (h : x.entries = y.entries) : x.completion = y.completion := by
  rw [RollSide.completion, h, RollSide.completion]

/-! ### A ROLL consumed (R72 to R74) -/

theorem rollSide_f {s : State} {e : EndId} {code : Byte} (h : code = 1 ∧ e = s.cfg.front) : s.rollSide e code = some .f := if_pos h

theorem rollSide_r {s : State} {e : EndId} {code : Byte} (h : code = 2 ∧ e = s.cfg.front.opp) : s.rollSide e code = some .r := by
  refine (if_neg ?_).trans (if_pos h)
  rintro ⟨other, -⟩
  exact absurd (h.1.symm.trans other) (by decide)

theorem rollSide_none {s : State} {e : EndId} {code : Byte} (f : ¬ (code = 1 ∧ e = s.cfg.front))
    (r : ¬ (code = 2 ∧ e = s.cfg.front.opp)) : s.rollSide e code = none := (if_neg f).trans (if_neg r)

theorem endIfComplete_stands {s : State} (h : s.consist.sideF.complete = none ∨ s.consist.sideR.complete = none) :
    s.endIfComplete = s := by
  refine if_neg fun both => ?_
  rw [Bool.and_eq_true] at both
  obtain ⟨f, r⟩ := both
  obtain none | none := h
  · rw [none] at f
    exact nomatch f
  · rw [none] at r
    exact nomatch r

theorem endIfComplete_ends {s : State} (f : s.consist.sideF.complete ≠ none) (r : s.consist.sideR.complete ≠ none) :
    s.endIfComplete = s.endSurvey := by
  refine if_pos ?_
  rw [Bool.and_eq_true]
  exact ⟨isSome_of_ne_none f, isSome_of_ne_none r⟩

/-- A ROLL answers the survey in progress. -/
def State.rollFits (s : State) (t : Telegram) : Prop :=
  s.consist.roleState = .lead ∧ s.consist.state = .surveying ∧ rd32 t.body 0 = s.cfg.identity
    ∧ rd16 t.body 4 = s.consist.candidate ∧ 1 ≤ (rd8 t.body 7).toNat ∧ (rd8 t.body 7).toNat ≤ 31

theorem takeRoll_some {s : State} {e : EndId} {t : Telegram} {x : Side} (side : s.rollSide e (rd8 t.body 6) = some x)
    (fits : s.rollFits t) :
    s.takeRoll e t = (s.modSide x fun r => r.fill (rd8 t.body 7).toNat (rollEntry t)).endIfComplete := by
  unfold State.takeRoll
  dsimp only
  rw [side]
  exact if_pos fits

theorem takeRoll_ignored {s : State} {e : EndId} {t : Telegram} (h : s.rollSide e (rd8 t.body 6) = none ∨ ¬ s.rollFits t) :
    s.takeRoll e t = s := by
  unfold State.takeRoll
  dsimp only
  split
  · next x side => exact if_neg (h.resolve_left fun none => nomatch side.symm.trans none)
  · rfl

end Sys2Proof.Machine

namespace Sys2Proof.Proofs

open Sys2Proof Sys2Proof.Machine

/-- Settles O49: a ROLL fills its slot, and a full pair of sides ends the survey. -/
theorem rollCollected : Obligations.RollCollected := by
  refine ⟨fun s e x kind => ?_, fun y d en low high => ?_⟩
  · intro u d good onF onR en ends
    have run : s.consume e x = (s.takeRoll e x, false) := by rw [State.consume, kind]
    have taken : u = s.takeRoll e x := congrArg Prod.fst run
    have entry : rollEntry x = en := by
      have terminal : (rd8 x.body 9 != 0) = decide (rd8 x.body 9 ≠ 0) := by rw [bne, Bool.beq_eq_decide_eq, decide_not]
      rw [rollEntry, terminal]
    refine ⟨fun ignored => taken.trans (takeRoll_ignored ?_), fun fits f => ?_, fun fits r => ?_⟩
    · obtain bad | ⟨notF, notR⟩ := ignored
      · exact Or.inr bad
      · exact Or.inl (rollSide_none notF notR)
    · rw [taken, takeRoll_some (rollSide_f f) fits, entry]
      exact ⟨fun open_ => endIfComplete_stands open_, fun f r => endIfComplete_ends f r⟩
    · rw [taken, takeRoll_some (rollSide_r r) fits, entry]
      exact ⟨fun open_ => endIfComplete_stands open_, fun f r => endIfComplete_ends f r⟩
  · intro z
    refine ⟨fill_kept, fun free => ?_⟩
    have filled : z = _ := fill_free free
    have list : (y.withEntry d en).entries.toList = y.entries.toList.set (d - 1) (some en) := Vector.toList_setIfInBounds
    have entries : z.entries = (y.withEntry d en).entries := by
      rw [filled]
      split <;> rfl
    refine ⟨by rw [entries, list], fun t complete => ?_, fun open_ t => ?_⟩
    · rw [filled, if_pos (by rw [complete]; rfl)]
      exact complete
    · have whole : z.complete = z.completion := by
        rw [completion_congr entries, filled, if_neg (by rw [open_]; exact Bool.false_ne_true)]
      rw [whole, completion_iff]

end Sys2Proof.Proofs
end

