-- ==== Sys2Proof/Proofs/RosterInstallation.lean ====
section
/-! PROOFS. A roster installed: what every installation does (R93, R108, R138), a member's acceptance and position (R89 to
R92, R110), and a survey given up (R78). -/

namespace Sys2Proof.Machine

/-! ### Every installation (R93, R116) -/

/-- The state after an installation's drops, before the summary is evaluated. -/
def State.dropsInstalled (s : State) : State := (s.dropRelease.voidGrant.touchAgain .consist).raise .consistChange

theorem dropsInstalled_frame (s : State) :
    s.dropsInstalled = { s with
      door := s.door.dropped, heat := s.heat.voided, outputs := s.droppedOutputs, events := s.dropsInstalled.events,
      revs := s.dropsInstalled.revs } := by
  have kept : ∀ w : State, ((w.touchAgain .consist).raise .consistChange)
      = { w with
          events := ((w.touchAgain .consist).raise .consistChange).events,
          revs := ((w.touchAgain .consist).raise .consistChange).revs } := fun _ => rfl
  unfold State.dropsInstalled
  rw [kept, voidGrant_eq, dropRelease_frame]

theorem afterInstall_eq (s : State) : s.afterInstall = s.dropsInstalled.evalSummary := rfl

theorem afterInstall_frame (s : State) :
    s.afterInstall = { s with
      door := { s.door.dropped with summary := s.dropsInstalled.summaryNow }, heat := s.heat.voided,
      outputs := s.droppedOutputs, events := s.afterInstall.events, revs := s.afterInstall.revs } := by
  have summary := evalSummary_frame s.dropsInstalled
  rw [afterInstall_eq, summary, dropsInstalled_frame]

theorem afterInstall_pending (s : State) : s.afterInstall.isPending .consistChange = true :=
  evalSummary_pending (isPending_raise _ _)

theorem dropped_stat (d : DoorUnit) :
    d.dropped.stat = d.stat ∧ d.dropped.recF = d.recF ∧ d.dropped.recR = d.recR ∧ d.dropped.summary = d.summary := by
  rw [dropped_frame]
  exact ⟨rfl, rfl, rfl, rfl⟩

/-! ### DOORSTAT started or stopped (R110) -/

theorem originateStat_frame (s : State) :
    s.originateStat = { s with ends := s.originateStat.ends, seqs := s.originateStat.seqs } := by
  have sends : ∀ (k : Kind) (x : Scope) (b r : List Byte), Sends s (match s.consist.leadEnd with
      | some e => ((s.build k x 0 b r).2.placeAt e (s.build k x 0 b r).1).1
      | none => (s.build k x 0 b r).2) := fun k x b r => by
    split
    · exact sends_trans (sends_build s k x 0 b r) (sends_placeAt _ _ _)
    · exact sends_build s k x 0 b r
  exact sends .doorstat .towardLead _ _

theorem startStat_frame (s : State) :
    s.startStat = { s with
      door := { s.door with stat := if s.originatesStat = true then some 0 else none }, ends := s.startStat.ends,
      seqs := s.startStat.seqs } := by
  by_cases yes : s.originatesStat = true
  · have run : s.startStat = (s.modDoor fun d => { d with stat := some 0 }).originateStat := if_pos yes
    have frame := originateStat_frame (s.modDoor fun d => { d with stat := some 0 })
    rw [run, if_pos yes, frame]
    rfl
  · have run : s.startStat = s.modDoor fun d => { d with stat := none } := if_neg yes
    rw [run, if_neg yes]
    rfl

/-! ### A member installs (R89 to R93) -/

/-- The consist unit after a member's installation, without what the position decides. -/
def ConsistUnit.installed (c : ConsistUnit) (r : Roster) : ConsistUnit :=
  { c with roster := some r, lastGeneration := r.generation, followed := none, rosterWait := none }

/-- The consist unit after a member's installation (R91, R92). -/
def State.memberConsist (s : State) (r : Roster) (x : Followed) : ConsistUnit :=
  match s.confirmedEntry r x with
  | some e =>
    { s.consist.installed r with
      state := .formed, position := positionIn r.f x, orientation := e.orientation, leadEnd := some x.leadEnd,
      awayEnd := some x.leadEnd.opp, terminal := (s.endOf x.leadEnd.opp).state != .linked }
  | none =>
    { s.consist.installed r with
      state := .unformed, position := 0, orientation := 0, leadEnd := none, awayEnd := none, terminal := false }

theorem memberInstall_eq (s : State) (r : Roster) (x : Followed) :
    s.memberInstall r x = ({ s with consist := s.memberConsist r x } : State).afterInstall.startStat := by
  unfold State.memberInstall State.memberConsist
  cases s.confirmedEntry r x <;> rfl

theorem memberInstall_frame (s : State) (r : Roster) (x : Followed) :
    let u := s.memberInstall r x
    u = { s with
        consist := s.memberConsist r x, door := u.door, heat := s.heat.voided, outputs := s.droppedOutputs,
        ends := u.ends, seqs := u.seqs, events := u.events, revs := u.revs }
      ∧ u.isPending .consistChange = true
      ∧ u.door.group = s.door.dropped.group ∧ u.door.drop = s.door.dropped.drop
      ∧ u.door.stat = if (s.memberConsist r x).roleState ≠ .lead ∧ (s.memberConsist r x).state = .formed
          ∧ (s.memberConsist r x).terminal = true then some 0 else none := by
  intro u
  have run : u = _ := memberInstall_eq s r x
  set c := s.memberConsist r x
  have first := afterInstall_frame ({ s with consist := c } : State)
  have pending := afterInstall_pending ({ s with consist := c } : State)
  set w := ({ s with consist := c } : State).afterInstall
  have second := startStat_frame w
  rw [← run] at second
  have consist : w.consist = c := (congrArg State.consist first :)
  have door : u.door = { w.door with stat := if w.originatesStat = true then some 0 else none } :=
    (congrArg State.door second :)
  have group : w.door.group = s.door.dropped.group := (congrArg (fun v : State => v.door.group) first :)
  have drop : w.door.drop = s.door.dropped.drop := (congrArg (fun v : State => v.door.drop) first :)
  have starts : w.originatesStat = true ↔ c.roleState ≠ .lead ∧ c.state = .formed ∧ c.terminal = true := by
    rw [State.originatesStat, Bool.and_eq_true, Bool.and_eq_true, bne_iff_ne, beq_iff_eq, consist, and_assoc]
  have events : u.events = w.events := (congrArg State.events second :)
  refine ⟨?_, (isPending_congr events _).trans pending, ?_, ?_, ?_⟩
  · rw [second, first]
    rfl
  · rw [door]
    exact group
  · rw [door]
    exact drop
  · rw [door]
    exact if_congr starts rfl rfl

theorem memberConsist_roleState (s : State) (r : Roster) (x : Followed) :
    (s.memberConsist r x).roleState = s.consist.roleState := by
  unfold State.memberConsist
  split <;> rfl

theorem confirmedEntry_some {s : State} {r : Roster} {x : Followed} {e : RosterEntry} (pos : 1 ≤ positionIn r.f x)
    (here : r.entries[positionIn r.f x - 1]? = some e) (own : e.identity = s.cfg.identity) :
    s.confirmedEntry r x = some e := by
  have found : s.confirmedEntry r x = (r.entries[positionIn r.f x - 1]?).filter (fun e => e.identity == s.cfg.identity) :=
    if_neg (by omega)
  rw [found, here]
  exact Option.filter_eq_some_iff.mpr ⟨rfl, beq_iff_eq.mpr own⟩

theorem confirmedEntry_none {s : State} {r : Roster} {x : Followed}
    (h : positionIn r.f x = 0 ∨ ∀ e, r.entries[positionIn r.f x - 1]? = some e → e.identity ≠ s.cfg.identity) :
    s.confirmedEntry r x = none := by
  refine Option.eq_none_iff_forall_ne_some.mpr fun e found => ?_
  obtain ⟨pos, here, own⟩ := confirmedEntry_spec found
  exact h.elim pos fun other => other e here own

/-! ### Acceptance (R89, R90) -/

theorem wellFormed_iff (r : Roster) (n : Nat) :
    r.wellFormed n = true ↔ r.generation ≠ 0 ∧ 1 ≤ n ∧ n ≤ 32 ∧ r.entries.length = n ∧ r.f ≤ n - 1
      ∧ r.entries.countP (·.lead) = 1 ∧ (∃ z, r.entries[r.f]? = some z ∧ z.lead = true ∧ z.identity = r.leadId)
      ∧ ∀ z ∈ r.entries, z.orientation = 1 ∨ z.orientation = 2 := by
  have lead : (r.entries[r.f]?.map (fun e => e.lead && e.identity == r.leadId)).getD false = true
      ↔ ∃ z, r.entries[r.f]? = some z ∧ z.lead = true ∧ z.identity = r.leadId := by
    cases r.entries[r.f]? with
    | none => exact ⟨fun h => (nomatch h), fun ⟨z, h, _⟩ => (nomatch h)⟩
    | some z =>
      show (z.lead && z.identity == r.leadId) = true ↔ _
      rw [Bool.and_eq_true, beq_iff_eq]
      exact ⟨fun h => ⟨z, rfl, h⟩, fun ⟨y, h, k⟩ => Option.some.inj h ▸ k⟩
  simp only [Roster.wellFormed, Bool.and_eq_true, bne_iff_ne, decide_eq_true_eq, beq_iff_eq, List.all_eq_true,
    Bool.or_eq_true, lead, and_assoc]

theorem accepts_iff {s : State} {r : Roster} {x : Followed} (followed : s.consist.followed = some x) :
    s.accepts r = true ↔ s.consist.roleState ≠ .lead ∧ s.consist.state = .surveying ∧ r.generation ≠ s.consist.generation
      ∧ x.lead = r.leadId ∧ x.candidate = r.generation := by
  rw [State.accepts, followed, Option.map_some, Option.getD_some]
  simp only [Bool.and_eq_true, bne_iff_ne, beq_iff_eq, and_assoc]

/-- A ROSTER that the coach takes, with the survey it closes (R89, R90). -/
def State.takes (s : State) (t : Telegram) (x : Followed) : Prop :=
  s.consist.followed = some x ∧ (rosterFrom t.body).wellFormed (rd8 t.body 7).toNat = true ∧ s.accepts (rosterFrom t.body) = true

theorem takeRoster_taken {s : State} {t : Telegram} {x : Followed} (h : s.takes t x) :
    s.takeRoster t = s.memberInstall (rosterFrom t.body) x := by
  obtain ⟨followed, formed, accepted⟩ := h
  unfold State.takeRoster
  dsimp only
  rw [followed]
  exact if_pos (by rw [formed, accepted]; rfl)

theorem takeRoster_ignored {s : State} {t : Telegram} (h : ∀ x, ¬ s.takes t x) : s.takeRoster t = s := by
  unfold State.takeRoster
  dsimp only
  split
  · next x followed =>
    refine if_neg fun ok => h x ?_
    rw [Bool.and_eq_true] at ok
    exact ⟨followed, ok⟩
  · rfl

/-! ### A survey given up (R78) -/

/-- A new consist state for a coach that is not FORMED, up to the pages (R57, R116). -/
theorem upToPages_setConsist {s : State} {x : ConsistState} (unformed : s.consist.state ≠ .formed)
    (moves : s.consist.state ≠ x) :
    UpToPages (({ s with consist := { s.consist with state := x } } : State).raise .consistChange).evalSummary (s.setConsist x) := by
  rw [setConsist_eq moves, if_neg unformed]
  exact upToPages_evalSummary (upToPages_raise (upToPages_touchAgain _ _ (by decide)) _)

end Sys2Proof.Machine

namespace Sys2Proof.Proofs

open Sys2Proof Sys2Proof.Machine

/-- Settles O50: a ROSTER accepted and installed, and the roster wait's end. -/
theorem rosterTaken : Obligations.RosterTaken := by
  refine ⟨fun s e x kind => ?_, fun s held => ⟨fun x n surveying followed wait late => ?_, fun early => ?_⟩⟩
  · intro u r n good base
    have run : s.consume e x = (s.takeRoster x, false) := by rw [State.consume, kind]
    have taken : u = s.takeRoster x := congrArg Prod.fst run
    have closes : ∀ y, good y ↔ s.takes x y := fun y => by
      constructor
      · rintro ⟨unled, surveying, followed, lead, candidate, new, nonzero, low, high, length, place, one, own, faces⟩
        exact ⟨followed, (wellFormed_iff _ _).mpr ⟨nonzero, low, high, length, (Nat.le_sub_one_iff_lt low).mpr place, one, own,
            faces⟩,
          (accepts_iff followed).mpr ⟨unled, surveying, new, lead, candidate⟩⟩
      · rintro ⟨followed, formed, accepted⟩
        obtain ⟨nonzero, low, high, length, place, one, own, faces⟩ := (wellFormed_iff _ _).mp formed
        obtain ⟨unled, surveying, new, lead, candidate⟩ := (accepts_iff followed).mp accepted
        exact ⟨unled, surveying, followed, lead, candidate, new, nonzero, low, high, length, (Nat.le_sub_one_iff_lt low).mp place,
          one, own, faces⟩
    refine ⟨fun none => taken.trans (takeRoster_ignored fun y => mt (closes y).mpr (none y)), fun y yes side => ?_⟩
    intro p away
    have place : positionIn r.f y = p := by
      obtain front | rear := side
      · exact (if_pos front).trans (if_pos front).symm
      · have other : y.side ≠ 1 := by
          rw [rear]
          decide
        exact ((if_neg other).trans (if_pos rear)).trans (if_neg other).symm
    have installs : u = s.memberInstall r y := taken.trans (takeRoster_taken ((closes y).mp yes))
    obtain ⟨frame, pending, group, drop, stat⟩ := memberInstall_frame s r y
    rw [← installs] at frame pending group drop stat
    have consist : u.consist = s.memberConsist r y := (congrArg State.consist frame :)
    have heat : u.heat = s.heat.voided := (congrArg State.heat frame :)
    refine ⟨?_, pending, fun a b released => ?_, ?_, fun z low here own => ?_, fun absent => ?_⟩
    · rw [consist, heat, (congrArg State.outputs frame :)]
      exact frame
    · rw [group, drop, dropped_released released]
      exact ⟨rfl, rfl⟩
    · rw [heat]
      rfl
    · have found := confirmedEntry_some (x := y) (by rw [place]; exact low) (by rw [place]; exact here) own
      have terminal : ((s.endOf away).state != .linked) = decide ((s.endOf away).state ≠ .linked) := by
        rw [bne, Bool.beq_eq_decide_eq, decide_not]
      have own : s.memberConsist r y = { base with
          state := .formed, position := p, orientation := z.orientation, leadEnd := some y.leadEnd, awayEnd := some away,
          terminal := decide ((s.endOf away).state ≠ .linked) } := by
        rw [State.memberConsist, found, place, ← terminal]
        rfl
      refine ⟨consist.trans own, stat.trans (if_congr ?_ rfl rfl)⟩
      rw [memberConsist_roleState, own]
      exact ⟨fun h => of_decide_eq_true h.2.2, fun h => ⟨yes.1, rfl, decide_eq_true h⟩⟩
    · have missing := confirmedEntry_none (s := s) (r := r) (x := y) (by rw [place]; exact absent)
      have own : s.memberConsist r y = { base with
          state := .unformed, position := 0, orientation := 0, leadEnd := none, awayEnd := none, terminal := false } := by
        rw [State.memberConsist, missing]
        rfl
      refine ⟨consist.trans own, stat.trans (if_neg ?_)⟩
      rw [own]
      exact fun h => nomatch h.2.1
  · set v : State := { s with consist := { s.consist with followed := none, rosterWait := none } }
    set y : ConsistState := if s.consist.roster = none then .unformed else .stale
    have same : (if s.consist.roster.isSome = true then ConsistState.stale else .unformed) = y := by
      show (if s.consist.roster.isSome = true then ConsistState.stale else .unformed)
        = if s.consist.roster = none then .unformed else .stale
      cases s.consist.roster <;> rfl
    have run : s.rosterWaitOut = v.setConsist y := by
      unfold State.rosterWaitOut
      rw [followed]
      refine (if_pos ⟨surveying, by rw [wait]; exact reached_some late⟩).trans ?_
      rw [← same]
      rfl
    have moves : v.consist.state ≠ y := by
      show s.consist.state ≠ if s.consist.roster = none then .unformed else .stale
      rw [surveying]
      split <;> exact fun h => nomatch h
    have unformed : v.consist.state ≠ .formed := fun h => nomatch surveying.symm.trans h
    exact yields_pages (exec_rosterWaitTimer s) held (run ▸ upToPages_setConsist unformed moves)
  · refine yields_effect (exec_rosterWaitTimer s) held ?_
    unfold State.rosterWaitOut
    split
    · next x followed =>
      refine if_neg fun due => ?_
      obtain ⟨surveying, late⟩ := due
      obtain apart | none | none | ⟨y, n, own, wait, short⟩ := early
      · exact apart surveying
      · exact nomatch followed.symm.trans none
      · rw [none] at late
        exact nomatch late
      · rw [wait] at late
        have le : x.timeout + 1000 ≤ n := of_decide_eq_true late
        have same : x = y := Option.some.inj (followed.symm.trans own)
        rw [same] at le
        omega
    · rfl

end Sys2Proof.Proofs
end

