-- ==== Sys2Proof/Proofs/RosterAssembly.lean ====
section
/-! PROOFS. The roster a lead assembles from its roll lists (R81 to R86). -/

namespace Sys2Proof.Machine

/-! ### One side (R81) -/

/-- The slots before the first gap are filled, and the entries kept of them stand in their order. -/
theorem filled_before_gap {α : Type} (l : List (Option α)) : ∀ n i : Nat, i < n →
    n ≤ (l.takeWhile Option.isSome).length →
      ∃ v, l[i]? = some (some v) ∧ ((l.take n).filterMap id)[i]? = some v := by
  induction l with
  | nil => exact fun n i less fits => absurd less (by rw [Nat.le_zero.mp fits]; omega)
  | cons e l ih =>
    intro n i less fits
    obtain ⟨m, rfl⟩ : ∃ m, n = m + 1 := ⟨n - 1, by omega⟩
    cases e with
    | none => exact absurd fits (Nat.not_succ_le_zero m)
    | some a =>
      cases i with
      | zero => exact ⟨a, rfl, rfl⟩
      | succ i => exact ih m i (by omega) (Nat.le_of_succ_le_succ fits)

/-- The entries run to the end of the list or to a gap. -/
theorem gap_after_run {α : Type} (l : List (Option α)) :
    (l.takeWhile Option.isSome).length = l.length ∨ l[(l.takeWhile Option.isSome).length]? = some none := by
  induction l with
  | nil => exact .inl rfl
  | cons e l ih =>
    cases e with
    | none => exact .inr rfl
    | some a => exact ih.imp (congrArg (· + 1)) id

theorem RollSide.filled {x : RollSide} {n i : Nat} (less : i < n) (fits : n ≤ x.run) :
    ∃ v, x.entries.toList[i]? = some (some v) ∧ (x.kept n)[i]? = some v :=
  filled_before_gap x.entries.toList n i less fits

theorem RollSide.length_spec (x : RollSide) :
    (∀ t, x.complete = some t → x.length = t)
      ∧ (x.complete = none → x.length ≤ 31
        ∧ (∀ i, i < x.length → ∃ v, x.entries.toList[i]? = some (some v))
        ∧ (x.length = 31 ∨ x.entries.toList[x.length]? = some none)) := by
  refine ⟨fun t whole => by rw [RollSide.length, whole]; rfl, fun open_ => ?_⟩
  have length : x.length = x.run := by rw [RollSide.length, open_]; rfl
  rw [length]
  refine ⟨x.run_le, fun i less => ?_, ?_⟩
  · obtain ⟨v, here, -⟩ := RollSide.filled less (le_refl x.run)
    exact ⟨v, here⟩
  · have stops := gap_after_run x.entries.toList
    rw [Vector.length_toList] at stops
    exact stops

/-! ### The whole roster (R82 to R85) -/

theorem hasDuplicate_iff (l : List Ident) : hasDuplicate l = true ↔ ¬ l.Nodup := by
  induction l with
  | nil => exact ⟨fun h => (nomatch h), fun h => absurd List.nodup_nil h⟩
  | cons i is ih =>
    have step : hasDuplicate (i :: is) = (is.contains i || hasDuplicate is) := rfl
    rw [step, Bool.or_eq_true, ih, List.contains_iff_mem, List.nodup_cons]
    tauto

/-- A member's entry as the statement of the roster's assembly gives it: `a` stands for End A facing the lead, `b` for
End B. -/
theorem toEntry_spec (sideF : Bool) (x : RollEntry) :
    let y := x.toEntry sideF
    y = ⟨x.origin, y.orientation, false, x.terminal, x.doors, x.size, x.count⟩
      ∧ (x.facing = 1 → y.orientation = if sideF then 2 else 1)
      ∧ (x.facing = 2 → y.orientation = if sideF then 1 else 2) := by
  refine ⟨rfl, fun facing => if_pos facing, fun facing => ?_⟩
  exact (if_neg (by rw [facing]; decide)).trans (if_pos facing)

/-- The length of side R after the cut to 32 coaches (R82). -/
def State.cutR (s : State) : Nat :=
  if 31 - s.consist.sideF.length < s.consist.sideR.length then 31 - s.consist.sideF.length else s.consist.sideR.length

theorem cutR_eq {s : State} (fits : s.consist.sideF.length ≤ 31) :
    s.cutR = if decide (32 < s.consist.sideF.length + s.consist.sideR.length + 1) = true then 31 - s.consist.sideF.length
      else s.consist.sideR.length :=
  if_congr (by rw [decide_eq_true_iff]; omega) rfl rfl

/-- The entries in position order: side F from its far end, the lead, side R. -/
theorem assemble_listed {s : State} (fits : s.consist.sideF.length ≤ 31) :
    s.assemble.entries = ((s.consist.sideF.kept s.consist.sideF.length).reverse.map (RollEntry.toEntry true))
      ++ [s.leadEntry s.consist.sideF.length s.cutR] ++ (s.consist.sideR.kept s.cutR).map (RollEntry.toEntry false) := by
  rw [cutR_eq fits]
  rfl

theorem assemble_flags (s : State) :
    (s.assemble.isPartial = true ↔
        s.consist.sideF.complete = none ∨ s.consist.sideR.complete = none
          ∨ 31 < s.consist.sideF.length + s.consist.sideR.length)
      ∧ (s.assemble.overlength = true ↔ 31 < s.consist.sideF.length + s.consist.sideR.length)
      ∧ (s.assemble.dupIdentity = true ↔ ¬ (s.assemble.entries.map (·.identity)).Nodup) := by
  have long : s.assemble.overlength = true ↔ 31 < s.consist.sideF.length + s.consist.sideR.length := by
    refine decide_eq_true_iff.trans ?_
    show 32 < s.consist.sideF.length + s.consist.sideR.length + 1 ↔ _
    omega
  have parts : s.assemble.isPartial
      = (s.consist.sideF.complete.isNone || s.consist.sideR.complete.isNone || s.assemble.overlength) := rfl
  refine ⟨?_, long, hasDuplicate_iff _⟩
  rw [parts, Bool.or_eq_true, Bool.or_eq_true, long, Option.isNone_iff_eq_none, Option.isNone_iff_eq_none, or_assoc]

/-- A list cut at a middle element: how it reads before it, at it, and after it. -/
theorem around_middle {α : Type} (front back : List α) (m : α) {f : Nat} (h : front.length = f) :
    (front ++ [m] ++ back).length = f + 1 + back.length
      ∧ (front ++ [m] ++ back)[f]? = some m
      ∧ (∀ i, i < f → (front ++ [m] ++ back)[i]? = front[i]?)
      ∧ (∀ i, (front ++ [m] ++ back)[f + 1 + i]? = back[i]?) := by
  subst h
  refine ⟨by simp; omega, ?_, fun i less => ?_, fun i => ?_⟩
  · simp
  · rw [List.append_assoc, List.getElem?_append_left less]
  · rw [List.getElem?_append_right (by simp)]
    congr 1
    simp

theorem assemble_spec {s : State} (hF : s.consist.sideF.sound) (hR : s.consist.sideR.sound) :
    s.assemble.entries.length = s.consist.sideF.length + 1 + s.cutR
      ∧ s.assemble.entries[s.consist.sideF.length]? = some (s.leadEntry s.consist.sideF.length s.cutR)
      ∧ (∀ d, 1 ≤ d → d ≤ s.consist.sideF.length → ∃ x, s.consist.sideF.entries.toList[d - 1]? = some (some x)
          ∧ s.assemble.entries[s.consist.sideF.length - d]? = some (x.toEntry true))
      ∧ (∀ d, 1 ≤ d → d ≤ s.cutR → ∃ x, s.consist.sideR.entries.toList[d - 1]? = some (some x)
          ∧ s.assemble.entries[s.consist.sideF.length + d]? = some (x.toEntry false)) := by
  have f_run := RollSide.length_le_run hF
  have r_run := RollSide.length_le_run hR
  have fits : s.consist.sideF.length ≤ 31 := f_run.trans s.consist.sideF.run_le
  have cut : s.cutR ≤ s.consist.sideR.length := by
    unfold State.cutR
    split
    · omega
    · exact le_refl _
  have f_kept := RollSide.length_kept f_run
  have r_kept := RollSide.length_kept (cut.trans r_run)
  have front : ((s.consist.sideF.kept s.consist.sideF.length).reverse.map (RollEntry.toEntry true)).length
      = s.consist.sideF.length := by
    rw [List.length_map, List.length_reverse, f_kept]
  obtain ⟨length, middle, before, after⟩ := around_middle _
    ((s.consist.sideR.kept s.cutR).map (RollEntry.toEntry false)) (s.leadEntry s.consist.sideF.length s.cutR) front
  rw [← assemble_listed fits] at length middle before after
  refine ⟨?_, middle, fun d low high => ?_, fun d low high => ?_⟩
  · rw [length, List.length_map, r_kept]
  · obtain ⟨x, slot, kept⟩ := RollSide.filled (x := s.consist.sideF) (i := d - 1) (by omega) f_run
    refine ⟨x, slot, ?_⟩
    rw [before _ (by omega), List.getElem?_map, List.getElem?_reverse (by rw [f_kept]; omega), f_kept]
    rw [show s.consist.sideF.length - 1 - (s.consist.sideF.length - d) = d - 1 by omega, kept]
    rfl
  · obtain ⟨x, slot, kept⟩ := RollSide.filled (x := s.consist.sideR) (n := s.cutR) (i := d - 1) (by omega)
      (cut.trans r_run)
    refine ⟨x, slot, ?_⟩
    rw [show s.consist.sideF.length + d = s.consist.sideF.length + 1 + (d - 1) by omega, after, List.getElem?_map, kept]
    rfl

end Sys2Proof.Machine
end

