-- ==== Sys2Proof/Proofs/SurveyEnd.lean ====
section
/-! PROOFS. The end of a survey: the roster sent out of both ends and installed by the lead (R74, R86 to R88), and the
survey timeout (R74). -/

namespace Sys2Proof.Machine

/-! ### The survey ends (R74, R86) -/

/-- The survey timer stopped. -/
def State.unsurveyed (s : State) : State := { s with consist := { s.consist with survey := none } }

theorem endSurvey_eq (s : State) :
    s.endSurvey = ((s.unsurveyed.build .roster .broadcast 0 s.assemble.body []).2.placeBoth
      (s.originates .roster .broadcast 0 s.assemble.body [])).1.leadInstall s.assemble := rfl

theorem endSurvey_spec (s : State) :
    ∃ v : State,
      (∀ e, Placed (s.sendingLines e) (s.originates .roster .broadcast 0 s.assemble.body []) (s.endOf e) (v.endOf e))
        ∧ v = { s with consist := { s.consist with survey := none }, ends := v.ends, seqs := v.seqs }
        ∧ s.endSurvey = v.leadInstall s.assemble := by
  have run := endSurvey_eq s
  obtain ⟨frame, placed, -⟩ := sentBoth s.unsurveyed .roster .broadcast 0 s.assemble.body [] (by decide)
  exact ⟨_, placed, frame, run⟩

/-! ### The lead installs (R87, R88, R117, R122, R126) -/

/-- The partial count after a roster (R88). -/
def State.partialsNow (s : State) (r : Roster) : Nat := if r.isPartial then min 3 (s.consist.partials + 1) else 0

/-- The roster is followed by another survey (R63, R88). -/
def State.again (s : State) (r : Roster) : Bool :=
  s.consist.resurvey || (r.isPartial && decide (s.partialsNow r < 3))

/-- The consist unit after the lead's installation (R87, R88). -/
def State.leadConsist (s : State) (r : Roster) : ConsistUnit :=
  { s.consist with
    roster := some r, lastGeneration := r.generation, position := r.f + 1,
    orientation := ((r.entries[r.f]?).map (·.orientation)).getD 0, leadEnd := none, awayEnd := none,
    terminal := ((r.entries[r.f]?).map (·.terminal)).getD false, partials := s.partialsNow r, resurvey := false,
    state := if s.again r then .settling else .formed, holdOff := if s.again r then some 0 else s.consist.holdOff,
    surveyCause := if s.again r then ⟨.resurvey, 0, 0⟩ else s.consist.surveyCause }

/-- A consist unit taken over, with the door records and the bids emptied (R117, R126). -/
def State.emptied (s : State) (c : ConsistUnit) : State :=
  { s with
    consist := c, door := { s.door with recF := none, recR := none },
    heat := { s.heat with bids := Vector.replicate 32 none } }

theorem leadInstall_eq (s : State) (r : Roster) :
    s.leadInstall r = if s.again r then (s.emptied (s.leadConsist r)).afterInstall
      else (s.emptied (s.leadConsist r)).afterInstall.openRound := rfl

theorem again_iff (s : State) (r : Roster) :
    s.again r = true ↔ s.consist.resurvey = true ∨ (r.isPartial = true ∧ s.partialsNow r < 3) := by
  rw [State.again, Bool.or_eq_true, Bool.and_eq_true, decide_eq_true_iff]

theorem leadConsist_again {s : State} {r : Roster} {x : RosterEntry} (own : r.entries[r.f]? = some x)
    (again : s.again r = true) :
    s.leadConsist r = { s.consist with
      roster := some r, lastGeneration := r.generation, position := r.f + 1, orientation := x.orientation,
      leadEnd := none, awayEnd := none, terminal := x.terminal, partials := s.partialsNow r, resurvey := false,
      state := .settling, holdOff := some 0, surveyCause := ⟨.resurvey, 0, 0⟩ } := by
  rw [State.leadConsist, own, again]
  rfl

theorem leadConsist_formed {s : State} {r : Roster} {x : RosterEntry} (own : r.entries[r.f]? = some x)
    (once : s.again r = false) :
    s.leadConsist r = { s.consist with
      roster := some r, lastGeneration := r.generation, position := r.f + 1, orientation := x.orientation,
      leadEnd := none, awayEnd := none, terminal := x.terminal, partials := s.partialsNow r, resurvey := false,
      state := .formed } := by
  rw [State.leadConsist, own, once]
  rfl

/-- What an installation leaves of a state emptied for it. -/
theorem emptied_installed (s : State) (c : ConsistUnit) :
    let w := (s.emptied c).afterInstall
    w = { s with
        consist := c, door := w.door, heat := w.heat, outputs := w.outputs, events := w.events, revs := w.revs }
      ∧ w.isPending .consistChange = true ∧ w.door.recF = none ∧ w.door.recR = none
      ∧ (∀ y z, s.door.group = .released y z → w.door.group = .idle ∧ w.door.drop = .consist)
      ∧ w.heat = { s.heat with bids := Vector.replicate 32 none }.voided := by
  intro w
  have frame : w = _ := afterInstall_frame (s.emptied c)
  have door : w.door = { (s.emptied c).door.dropped with summary := (s.emptied c).dropsInstalled.summaryNow } :=
    (congrArg State.door frame :)
  obtain ⟨-, recF, recR, -⟩ := dropped_stat (s.emptied c).door
  refine ⟨?_, afterInstall_pending _, ?_, ?_, fun y z group => ?_, (congrArg State.heat frame :)⟩
  · clear_value w
    rw [frame]
    rfl
  · rw [door]
    exact recF
  · rw [door]
    exact recR
  · rw [door, dropped_released (d := (s.emptied c).door) group]
    exact ⟨rfl, rfl⟩

/-- A round opened touches the heating unit, the telegrams it sends, and at most HEAT_SHED of the events. -/
theorem openRound_frame (s : State) :
    let u := s.openRound
    u = { s with
        heat := u.heat, outputs := u.outputs, ends := u.ends, seqs := u.seqs, events := u.events, revs := u.revs }
      ∧ (∀ c : EventClass, c ≠ .heatShed → u.isPending c = s.isPending c)
      ∧ u.heat.bids = s.heat.bids.map (Option.map Bid.older) ∧ u.heat.grant = s.heat.grant
      ∧ u.heat.round = some 0 ∧ u.heat.window = some 0 ∧ u.heat.roundNo = succ1 s.heat.roundNo
      ∧ u.heat.tSeen = s.heat.period := by
  intro u
  obtain ⟨w, run, frame, -, -⟩ := openRound_spec s
  have u_run : u = w.testLoss := run
  clear_value u
  subst u_run
  have tested := testLoss_frame w
  have heat : w.testLoss.heat = { w.heat with
      state := w.testLoss.heat.state, limit := w.testLoss.heat.limit, on := w.testLoss.heat.on,
      ramp := w.testLoss.heat.ramp, loss := w.testLoss.heat.loss } := (congrArg State.heat tested :)
  have opened : w.heat = { s.heat with
      roundNo := succ1 s.heat.roundNo, round := some 0, window := some 0,
      bids := s.heat.bids.map (Option.map Bid.older), tSeen := s.heat.period } := (congrArg State.heat frame :)
  rw [opened] at heat
  refine ⟨?_, fun c other => ?_, ?_, ?_, ?_, ?_, ?_, ?_⟩
  · generalize w.testLoss = v at tested ⊢
    rw [tested, frame]
  · have before : w.isPending c = s.isPending c := isPending_congr (congrArg State.events frame :) c
    refine Eq.trans ?_ before
    unfold State.testLoss
    split
    · exact shed_others w other
    · rfl
  all_goals rw [heat]

theorem leadInstall_spec (s : State) (r : Roster) :
    let u := s.leadInstall r
    u = { s with
          consist := s.leadConsist r, door := u.door, heat := u.heat, outputs := u.outputs, ends := u.ends, seqs := u.seqs,
          events := u.events, revs := u.revs }
      ∧ u.isPending .consistChange = true ∧ u.door.recF = none ∧ u.door.recR = none
      ∧ (∀ y z, s.door.group = .released y z → u.door.group = .idle ∧ u.door.drop = .consist)
      ∧ (∀ i : Fin 32, u.heat.bids[i] = none)
      ∧ u.heat.grant = s.heat.grant.map (fun g => { g with void := true })
      ∧ (s.again r = true → u.ends = s.ends ∧ u.seqs = s.seqs)
      ∧ (s.again r = false → u.heat.round = some 0 ∧ u.heat.window = some 0
          ∧ u.heat.roundNo = succ1 s.heat.roundNo ∧ u.heat.tSeen = s.heat.period) := by
  intro u
  have run : u = _ := leadInstall_eq s r
  have installed := emptied_installed s (s.leadConsist r)
  generalize (s.emptied (s.leadConsist r)).afterInstall = w at run installed
  obtain ⟨frame, pending, recF, recR, group, heat⟩ := installed
  clear_value u
  cases again : s.again r with
  | true =>
    rw [again] at run
    subst run
    refine ⟨?_, pending, recF, recR, group, fun i => ?_, ?_, fun _ => ⟨?_, ?_⟩, fun no => (nomatch no)⟩
    · rw [frame]
    · rw [heat]
      exact Vector.getElem_replicate _
    · rw [heat]
      rfl
    · exact (congrArg State.ends frame :)
    · exact (congrArg State.seqs frame :)
  | false =>
    rw [again] at run
    have opened := openRound_frame w
    have rounds : u = w.openRound := run
    subst rounds
    obtain ⟨u_frame, others, bids, grant, round, window, number, seen⟩ := opened
    have door : w.openRound.door = w.door := (congrArg State.door u_frame :)
    refine ⟨?_, (others .consistChange fun h => (nomatch h)).trans pending, ?_, ?_, fun y z released => ?_, fun i => ?_, ?_,
      fun no => (nomatch no), fun _ => ⟨round, window, ?_, ?_⟩⟩
    · generalize w.openRound = v at u_frame ⊢
      rw [u_frame, frame]
    · rw [door]
      exact recF
    · rw [door]
      exact recR
    · rw [door]
      exact group y z released
    · rw [bids, heat]
      show ((Vector.replicate 32 none).map (Option.map Bid.older))[i] = none
      rw [Fin.getElem_fin, Vector.getElem_map, Vector.getElem_replicate]
      rfl
    · rw [grant, heat]
      rfl
    · rw [number, heat]
      rfl
    · rw [seen, heat]
      rfl

end Sys2Proof.Machine

namespace Sys2Proof.Proofs

open Sys2Proof Sys2Proof.Machine

/-- Settles O47: the survey timeout, the roster assembled, sent and installed. -/
theorem surveyEnds : Obligations.SurveyEnds := by
  refine ⟨⟨fun s held => ⟨fun lead surveying due => ?_, fun h => ?_⟩, endSurvey_spec, RollSide.length_spec,
    fun s hF hR => ?_⟩, fun s r x own => ?_⟩
  · exact yields_effect (exec_surveyTimeout s) held (if_pos ⟨lead, surveying, due⟩)
  · refine yields_effect (exec_surveyTimeout s) held (if_neg fun all => ?_)
    obtain ⟨lead, surveying, due⟩ := all
    rcases h with h | h | h
    · exact h lead
    · exact h surveying
    · exact absurd (h.symm.trans due) (by decide)
  · intro r f n entry
    have f_fits : f ≤ 31 := (RollSide.length_le_run hF).trans s.consist.sideF.run_le
    obtain ⟨length, middle, sideF, sideR⟩ := assemble_spec hF hR
    obtain ⟨partial_, over_, dup⟩ := assemble_flags s
    have cut : n + f ≤ 31 := by
      show (if 31 - f < s.consist.sideR.length then 31 - f else s.consist.sideR.length) + f ≤ 31
      split <;> omega
    refine ⟨rfl, rfl, rfl, rfl, length, ?_, ?_, fun d low high => ?_, fun d low high => ?_, partial_, over_, dup⟩
    · have : r.entries.length = f + 1 + n := length
      omega
    · refine middle.trans (congrArg some ?_)
      have terminal : (f == 0 || n == 0) = decide (f = 0 ∨ n = 0) := by
        rw [Bool.decide_or]
        rfl
      have lead : s.leadEntry f n = ⟨s.cfg.identity, endCode s.cfg.front, true, f == 0 || n == 0,
          byteOf s.cfg.fitted.code, byteOf s.cfg.size, byteOf s.cfg.count⟩ := rfl
      refine lead.trans ?_
      rw [terminal]
      cases s.cfg.front <;> rfl
    · obtain ⟨x, slot, here⟩ := sideF d low high
      exact ⟨x, slot, _, here, toEntry_spec true x⟩
    · obtain ⟨x, slot, here⟩ := sideR d low high
      exact ⟨x, slot, _, here, toEntry_spec false x⟩
  · intro u p again c
    have same : s.again r = true ↔ again := again_iff s r
    obtain ⟨frame, pending, recF, recR, group, bids, grant, stands, opens⟩ := leadInstall_spec s r
    have consist : u.consist = s.leadConsist r := (congrArg State.consist frame :)
    refine ⟨?_, pending, recF, recR, group, bids, grant, fun yes => ?_, fun no => ?_⟩
    · rw [consist]
      exact frame
    · obtain ⟨ends, seqs⟩ := stands (same.mpr yes)
      exact ⟨ends, seqs, consist.trans (leadConsist_again own (same.mpr yes))⟩
    · have once : s.again r = false := Bool.eq_false_iff.mpr fun yes => no (same.mp yes)
      exact ⟨consist.trans (leadConsist_formed own once), opens once⟩

end Sys2Proof.Proofs
end

