-- ==== Sys2Proof/Proofs/RecordCounters.lean ====
section
/-! PROOFS. How often a step rewrites the consist page and the door summary (R57, R93, R116, R169): which counters the
operations of the consist unit move, and by how much. -/

namespace Sys2Proof.Machine

/-! ### The operations that rewrite a record -/

/-- A counter after a further rewrite begun. -/
def rewritten (w : Word) : Word := w + if w.getLsbD 0 then 2 else 1

theorem rev_of_revs {s t : State} (h : t.revs = s.revs) (r : Rec) : t.rev r = s.rev r :=
  congrArg (fun v : Vector Word 18 => v[r.idx]) h

theorem rev_touchAgain (s : State) (r : Rec) : (s.touchAgain r).rev r = rewritten (s.rev r) := rev_setRev s r _

theorem rev_touchAgain_of_ne (s : State) {k r : Rec} (hk : k ∈ pageRecs) (hr : r ∈ pageRecs) (h : k ≠ r) :
    (s.touchAgain k).rev r = s.rev r := rev_setRev_of_ne s hk hr h _

/-- Two rewrites of a record that stood closed, and the step's end. -/
theorem rewritten_twice {w : Word} (even : w.getLsbD 0 = false) : rewritten (rewritten w) = w + 3 := by
  have once : rewritten w = w + 1 := by rw [rewritten, even]; rfl
  have odd : (w + 1).getLsbD 0 = true := by
    rw [BitVec.getLsbD_add (Nat.zero_lt_succ 15), even, BitVec.carry_zero]
    rfl
  rw [once, rewritten, if_pos odd, BitVec.add_assoc]
  rfl

theorem closedRev_twice (s0 : State) {s u : State} {r : Rec} (even : (s.rev r).getLsbD 0 = false)
    (begun : u.rev r = rewritten (rewritten (s.rev r))) : closedRev s0 u r = s.rev r + 4 := by
  rw [rewritten_twice even] at begun
  have odd : (u.rev r).getLsbD 0 = true := by
    rw [begun, BitVec.getLsbD_add (Nat.zero_lt_succ 15), even, BitVec.carry_zero]
    rfl
  rw [closedRev, if_pos odd, begun, BitVec.add_assoc]
  rfl

theorem mem_consist : Rec.consist ∈ pageRecs := by decide

theorem mem_doorSummary : Rec.doorSummary ∈ pageRecs := by decide

/-! ### The outputs, the releases and the rounds leave both records -/

/-- A record of the consist page or of the door summary. -/
def Rec.shown (r : Rec) : Prop := r = .consist ∨ r = .doorSummary

theorem Rec.shown_page {r : Rec} (h : r.shown) : r ∈ pageRecs := by
  obtain rfl | rfl := h
  · exact mem_consist
  · exact mem_doorSummary

theorem Rec.ne_of_shown {r : Rec} (h : r.shown) : Rec.ioView ≠ r ∧ Rec.heatView ≠ r := by
  obtain rfl | rfl := h <;> exact ⟨by decide, by decide⟩

theorem rev_applyImage (s : State) (cover levels : BitVec 12) {r : Rec} (h : r.shown) :
    (s.applyImage cover levels).rev r = s.rev r := by
  unfold State.applyImage
  dsimp only
  split
  · rfl
  · exact rev_touchAgain_of_ne _ (by decide) (Rec.shown_page h) (Rec.ne_of_shown h).1

theorem rev_dropRelease (s : State) {r : Rec} (h : r.shown) : s.dropRelease.rev r = s.rev r := by
  unfold State.dropRelease
  split
  · exact rev_applyImage _ _ _ h
  · rfl
  · rfl

theorem rev_leaveFormed (s : State) {r : Rec} (h : r.shown) : s.leaveFormed.rev r = s.rev r := by
  have same : s.leaveFormed.rev r = s.dropRelease.rev r :=
    rev_of_revs (by rw [State.leaveFormed, voidGrant_eq]; rfl) r
  exact same.trans (rev_dropRelease s h)

theorem rev_shed (s : State) {r : Rec} (h : r.shown) : s.shed.rev r = s.rev r := by
  have cut : ∀ (w : State) (n : Nat), (w.cutStages n).rev r = w.rev r := fun w n => by
    unfold State.cutStages
    split
    · exact rev_applyImage _ _ _ h
    · rfl
  rw [shed_eq]
  exact (cut _ _).trans rfl

theorem rev_openRound (s : State) {r : Rec} (h : r.shown) : s.openRound.rev r = s.rev r := by
  obtain ⟨w, run, frame, -, -⟩ := openRound_spec s
  have before : w.rev r = s.rev r := rev_of_revs (congrArg State.revs frame :) r
  rw [run, ← before]
  unfold State.testLoss
  split
  · exact rev_shed w h
  · rfl

/-! ### The door summary evaluated (R116) -/

theorem rev_evalSummary_consist (s : State) : s.evalSummary.rev .consist = s.rev .consist := by
  unfold State.evalSummary
  split
  · rfl
  · exact rev_touchAgain_of_ne _ mem_doorSummary mem_consist (by decide)

theorem rev_evalSummary_changes {s : State} (h : s.summaryNow ≠ s.door.summary) :
    s.evalSummary.rev .doorSummary = rewritten (s.rev .doorSummary) := by
  have run : s.evalSummary
      = ((s.modDoor fun d => { d with summary := s.summaryNow }).touchAgain .doorSummary).raise .doorSummary := if_neg h
  rw [run]
  exact rev_touchAgain _ _

/-! ### A move of the consist state, and an installation (R57, R93) -/

/-- The state as it is when a move of the consist state evaluates the summary. -/
theorem setConsist_before {s : State} (x : ConsistState) (r : Rec) (h : r.shown) :
    (if s.consist.state = .formed then (s.stateShown x).leaveFormed else s.stateShown x).rev r
      = (s.stateShown x).rev r := by
  split
  · exact rev_leaveFormed _ h
  · rfl

theorem rev_setConsist {s : State} {x : ConsistState} (moves : s.consist.state ≠ x) :
    (s.setConsist x).rev .consist = rewritten (s.rev .consist) := by
  rw [setConsist_eq moves, rev_evalSummary_consist, setConsist_before x .consist (.inl rfl)]
  exact rev_touchAgain _ _

/-- A summary that was known goes to UNKNOWN with the FORMED state. -/
theorem rev_setConsist_summary {s : State} {x : ConsistState} (hx : x ≠ .formed) (moves : s.consist.state ≠ x)
    (known : s.door.summary ≠ .unknown) : (s.setConsist x).rev .doorSummary = rewritten (s.rev .doorSummary) := by
  have before := setConsist_before (s := s) x .doorSummary (.inr rfl)
  have shown : (s.stateShown x).rev .doorSummary = s.rev .doorSummary :=
    rev_touchAgain_of_ne _ mem_consist mem_doorSummary (by decide)
  have state : (if s.consist.state = .formed then (s.stateShown x).leaveFormed else s.stateShown x).consist.state = x
      ∧ (if s.consist.state = .formed then (s.stateShown x).leaveFormed else s.stateShown x).door.summary
        = s.door.summary := by
    split
    · rw [leaveFormed_frame]
      obtain ⟨-, -, -, summary⟩ := dropped_stat s.door
      exact ⟨rfl, summary⟩
    · exact ⟨rfl, rfl⟩
  rw [setConsist_eq moves]
  generalize (if s.consist.state = .formed then (s.stateShown x).leaveFormed else s.stateShown x) = w at before state ⊢
  obtain ⟨w_state, summary⟩ := state
  have unknown : w.summaryNow = .unknown := summaryNow_unknown (Or.inl fun lead => hx (w_state.symm.trans lead.2))
  rw [rev_evalSummary_changes (by rw [unknown, summary]; exact known.symm), before, shown]

theorem rev_dropsInstalled (s : State) :
    s.dropsInstalled.rev .consist = rewritten (s.rev .consist)
      ∧ s.dropsInstalled.rev .doorSummary = s.rev .doorSummary := by
  have voided : ∀ r : Rec, r.shown → s.dropRelease.voidGrant.rev r = s.rev r := fun r h =>
    (rev_of_revs (by rw [voidGrant_eq]) r).trans (rev_dropRelease s h)
  refine ⟨?_, ?_⟩
  · rw [← voided .consist (.inl rfl)]
    exact rev_touchAgain _ _
  · rw [← voided .doorSummary (.inr rfl)]
    exact rev_touchAgain_of_ne _ mem_consist mem_doorSummary (by decide)

theorem rev_afterInstall (s : State) : s.afterInstall.rev .consist = rewritten (s.rev .consist) := by
  rw [afterInstall_eq, rev_evalSummary_consist]
  exact (rev_dropsInstalled s).1

end Sys2Proof.Machine
end

