-- ==== Sys2Proof/Proofs/SurveyBegin.lean ====
section
/-! PROOFS. A survey begun: the candidate generation (R65), the SURVEYs sent (R66), a lone coach FORMED at once (R66, R74),
the hold-off timer (R60) and START_SURVEY (R64). -/

namespace Sys2Proof.Machine

/-! ### The candidate generation (R65) -/

theorem succ1_ne_zero (w : Word) : succ1 w ≠ 0 := by
  unfold succ1
  split
  · decide
  · next h => exact fun zero => h (by bv_omega)

theorem succ1_ne_self (w : Word) : succ1 w ≠ w := by
  unfold succ1
  split
  · next h => rw [h]; decide
  · bv_omega

theorem succ1_succ1_ne_self (w : Word) : succ1 (succ1 w) ≠ w := by
  unfold succ1
  split_ifs <;> bv_omega

/-- Among the successors of a word one of the first three is no element of a list of two. -/
theorem passed_over (l : List Word) (two : l.length ≤ 2) (g : Word) :
    let h := if l.contains g then succ1 g else g
    ¬ (if l.contains h then succ1 h else h) ∈ l := by
  intro h
  by_cases first : g ∈ l
  · have next : h = succ1 g := if_pos (List.contains_iff_mem.mpr first)
    rw [next]
    by_cases second : succ1 g ∈ l
    · rw [if_pos (List.contains_iff_mem.mpr second)]
      intro third
      have three : [g, succ1 g, succ1 (succ1 g)].Nodup := by
        simp only [List.nodup_cons, List.mem_cons, List.not_mem_nil, or_false, not_or, not_false_eq_true,
          List.nodup_nil, and_true]
        exact ⟨⟨(succ1_ne_self g).symm, (succ1_succ1_ne_self g).symm⟩, (succ1_ne_self (succ1 g)).symm⟩
      have inside : [g, succ1 g, succ1 (succ1 g)] ⊆ l := by
        simp only [List.cons_subset, List.nil_subset, and_true]
        exact ⟨first, second, third⟩
      have fits : 3 ≤ l.length := (List.subperm_of_subset three inside).length_le
      omega
    · rw [if_neg (fun h => second (List.contains_iff_mem.mp h))]
      exact second
  · have next : h = g := if_neg fun h => first (List.contains_iff_mem.mp h)
    rw [next, if_neg (fun h => first (List.contains_iff_mem.mp h))]
    exact first

theorem mem_peerGenerations (s : State) (w : Word) :
    w ∈ s.peerGenerations ↔ ∃ e n, (s.endOf e).neighbour = some n ∧ n.generation = w := by
  unfold State.peerGenerations
  rw [List.mem_append, Option.mem_toList, Option.mem_toList, Option.map_eq_some_iff, Option.map_eq_some_iff]
  refine ⟨fun h => ?_, fun ⟨e, n, h⟩ => ?_⟩
  · rcases h with ⟨n, h⟩ | ⟨n, h⟩
    · exact ⟨.a, n, h⟩
    · exact ⟨.b, n, h⟩
  · cases e
    · exact .inl ⟨n, h⟩
    · exact .inr ⟨n, h⟩

theorem length_peerGenerations (s : State) : s.peerGenerations.length ≤ 2 := by
  have one : ∀ x : Option Word, x.toList.length ≤ 1 := fun x => by cases x <;> simp
  have a := one (s.ends.a.neighbour.map (·.generation))
  have b := one (s.ends.b.neighbour.map (·.generation))
  rw [State.peerGenerations, List.length_append]
  omega

theorem nextCandidate_ne_zero (s : State) : s.nextCandidate ≠ 0 := by
  unfold State.nextCandidate
  dsimp only
  split_ifs <;> exact succ1_ne_zero _

theorem nextCandidate_passes (s : State) : s.nextCandidate ∉ s.peerGenerations :=
  passed_over s.peerGenerations (length_peerGenerations s) (succ1 s.consist.lastGeneration)

theorem nextCandidate_plain {s : State} (h : succ1 s.consist.lastGeneration ∉ s.peerGenerations) :
    s.nextCandidate = succ1 s.consist.lastGeneration := by
  have free : ¬ s.peerGenerations.contains (succ1 s.consist.lastGeneration) = true :=
    fun inside => h (List.contains_iff_mem.mp inside)
  unfold State.nextCandidate
  dsimp only
  rw [if_neg free, if_neg free]

/-! ### SURVEY sent (R66) -/

/-- The body of a SURVEY out of a side (R66, R194). -/
def State.surveyBody (s : State) (x : Side) : List Byte :=
  be32 s.cfg.identity ++ [byteOf s.cfg.rank] ++ be16 s.consist.candidate ++ [sideCode x]
    ++ be16 (BitVec.ofNat 16 s.cfg.timeout)

/-- The SURVEY out of a side. -/
def State.surveyOf (s : State) (x : Side) : Telegram := s.originates .survey .broadcast 0 (s.surveyBody x) []

theorem sendSurvey_linked {s : State} {x : Side} (on : (s.endOf (s.endOfSide x)).state = .linked) :
    s.sendSurvey x = ((s.build .survey .broadcast 0 (s.surveyBody x) []).2.placeAt (s.endOfSide x) (s.surveyOf x)).1 :=
  if_pos on

theorem sendSurvey_unlinked {s : State} {x : Side} (off : (s.endOf (s.endOfSide x)).state ≠ .linked) :
    s.sendSurvey x = s.modSide x fun r => { r with complete := some 0 } := if_neg off

theorem placed_of_unlinked {lines : List LineNo} {t : Telegram} {u : EndUnit} (h : u.state ≠ .linked) :
    Placed lines t u u :=
  ⟨fun _ => rfl, fun on => absurd on h, fun on => absurd on h⟩

/-- The side is left as it is where its end is LINKED, and complete with length 0 where it is not. -/
def RollSide.asked (x : RollSide) (e : EndUnit) : RollSide :=
  if e.state = .linked then x else { x with complete := some 0 }

theorem sendSurvey_spec (s : State) (x : Side) :
    let e := s.endOfSide x
    let u := s.sendSurvey x
    u = { s with
        consist := match x with
          | .f => { s.consist with sideF := s.consist.sideF.asked (s.endOf e) }
          | .r => { s.consist with sideR := s.consist.sideR.asked (s.endOf e) },
        ends := u.ends, seqs := u.seqs }
      ∧ Placed (s.sendingLines e) (s.surveyOf x) (s.endOf e) (u.endOf e) ∧ u.endOf e.opp = s.endOf e.opp
      ∧ u.seqs[2] = if (s.endOf e).state = .linked then succ1 s.seqs[2] else s.seqs[2] := by
  intro e u
  by_cases on : (s.endOf e).state = .linked
  · have run : u = _ := sendSurvey_linked on
    obtain ⟨frame, placed, other, number⟩ := sentAt s .survey .broadcast 0 (s.surveyBody x) [] e (by decide)
    have kept : ∀ y : RollSide, y.asked (s.endOf e) = y := fun y => if_pos on
    clear_value u
    subst run
    refine ⟨?_, placed, other, ?_⟩
    · rw [kept, kept]
      cases x <;> exact frame
    · rw [if_pos on]
      exact number
  · have run : u = _ := sendSurvey_unlinked on
    have done : ∀ y : RollSide, y.asked (s.endOf e) = { y with complete := some 0 } := fun y => if_neg on
    clear_value u
    subst run
    refine ⟨?_, placed_of_unlinked on, rfl, ?_⟩
    · rw [done, done]
      cases x <;> rfl
    · rw [if_neg on]
      rfl

/-- Both SURVEYs sent, side F first. -/
def State.asked (s : State) : State := (s.sendSurvey .f).sendSurvey .r

theorem asked_spec (s : State) :
    let front := s.cfg.front
    let u := s.asked
    u = { s with
        consist := { s.consist with
          sideF := s.consist.sideF.asked (s.endOf front), sideR := s.consist.sideR.asked (s.endOf front.opp) },
        ends := u.ends, seqs := u.seqs }
      ∧ Placed (s.sendingLines front)
          (buildTelegram .survey .broadcast s.cfg.identity 0 s.seqs[2] (s.surveyBody .f) []) (s.endOf front) (u.endOf front)
      ∧ Placed (s.sendingLines front.opp)
          (buildTelegram .survey .broadcast s.cfg.identity 0
            (if (s.endOf front).state = .linked then succ1 s.seqs[2] else s.seqs[2]) (s.surveyBody .r) [])
          (s.endOf front.opp) (u.endOf front.opp) := by
  intro front u
  obtain ⟨frame, placed, other, number⟩ := sendSurvey_spec s .f
  have second := sendSurvey_spec (s.sendSurvey .f) .r
  have run : u = (s.sendSurvey .f).sendSurvey .r := rfl
  clear_value u
  subst run
  generalize s.sendSurvey .f = v at frame placed other number second ⊢
  have cfg : v.cfg = s.cfg := (congrArg State.cfg frame :)
  have lines : v.sendingLines = s.sendingLines := by rw [frame]; rfl
  have side : v.endOfSide .r = front.opp := by rw [State.endOfSide, cfg]
  have consist : v.consist = { s.consist with sideF := s.consist.sideF.asked (s.endOf front) } :=
    (congrArg State.consist frame :)
  have body : v.surveyBody .r = s.surveyBody .r := by
    rw [State.surveyBody, cfg, consist]
    rfl
  have other : v.endOf front.opp = s.endOf front.opp := other
  have telegram : v.surveyOf .r = buildTelegram .survey .broadcast s.cfg.identity 0 v.seqs[2] (s.surveyBody .r) [] := by
    rw [State.surveyOf, State.originates, body, cfg]
    rfl
  rw [side, telegram, lines] at second
  dsimp only at second
  rw [other, opp_opp, number] at second
  obtain ⟨frame', placed', other', -⟩ := second
  generalize v.sendSurvey .r = w at frame' placed' other' ⊢
  refine ⟨?_, ?_, placed'⟩
  · rw [frame', frame]
    rfl
  · rw [other']
    exact placed

/-! ### A survey begun (R64) -/

/-- The survey context of a new survey. -/
def State.opensSurvey (s : State) : State :=
  { s with consist := { s.consist with
    candidate := s.nextCandidate, sideF := .empty, sideR := .empty, resurvey := false, survey := some 0,
    holdOff := none } }

theorem beginSurvey_eq (s : State) :
    s.beginSurvey = ((s.opensSurvey.setConsist .surveying).asked).endIfComplete := rfl

/-- The coach SURVEYING, whether it was before or not. -/
theorem surveying_frame (s : State) :
    let u := s.setConsist .surveying
    u = { s with
        consist := { s.consist with state := .surveying }, door := u.door, heat := u.heat, outputs := u.outputs,
        events := u.events, revs := u.revs } := by
  intro u
  by_cases same : s.consist.state = .surveying
  · have stands : u = s := setConsist_same same
    have consist : s.consist = { s.consist with state := .surveying } := by
      conv_rhs => rw [← same]
    rw [stands, ← consist]
  · have frame : u = _ := setConsist_frame (by decide) same
    clear_value u
    rw [frame]

/-- A survey's start, up to the test whether both sides are complete. -/
theorem survey_sent (s : State) :
    let front := s.cfg.front
    let u := (s.opensSurvey.setConsist .surveying).asked
    let body : Byte → List Byte := fun x =>
      be32 s.cfg.identity ++ [byteOf s.cfg.rank] ++ be16 s.nextCandidate ++ [x] ++ be16 (BitVec.ofNat 16 s.cfg.timeout)
    let q (n : Word) (x : Byte) := buildTelegram .survey .broadcast s.cfg.identity 0 n (body x) []
    u = { s with
          consist := { s.consist with
            candidate := s.nextCandidate, sideF := RollSide.empty.asked (s.endOf front),
            sideR := RollSide.empty.asked (s.endOf front.opp), resurvey := false, survey := some 0, holdOff := none,
            state := .surveying },
          door := (s.opensSurvey.setConsist .surveying).door, heat := (s.opensSurvey.setConsist .surveying).heat,
          outputs := (s.opensSurvey.setConsist .surveying).outputs, ends := u.ends, seqs := u.seqs,
          events := (s.opensSurvey.setConsist .surveying).events, revs := (s.opensSurvey.setConsist .surveying).revs }
      ∧ Placed (s.sendingLines front) (q s.seqs[2] 1) (s.endOf front) (u.endOf front)
      ∧ Placed (s.sendingLines front.opp) (q (if (s.endOf front).state = .linked then succ1 s.seqs[2] else s.seqs[2]) 2)
          (s.endOf front.opp) (u.endOf front.opp) := by
  intro front u body q
  have entered := surveying_frame s.opensSurvey
  have sent := asked_spec (s.opensSurvey.setConsist .surveying)
  have run : u = (s.opensSurvey.setConsist .surveying).asked := rfl
  clear_value u
  rw [← run] at sent
  clear run
  generalize s.opensSurvey.setConsist .surveying = v at entered sent ⊢
  obtain ⟨frame, first, second⟩ := sent
  have cfg : v.cfg = s.cfg := (congrArg State.cfg entered :)
  have ends : v.endOf = s.endOf := by rw [entered]; rfl
  have lines : v.sendingLines = s.sendingLines := by rw [entered]; rfl
  have seqs : v.seqs = s.seqs := (congrArg State.seqs entered :)
  have candidate : v.consist.candidate = s.nextCandidate := (congrArg (fun w : State => w.consist.candidate) entered :)
  have bodyF : v.surveyBody .f = body 1 := by rw [State.surveyBody, cfg, candidate]; rfl
  have bodyR : v.surveyBody .r = body 2 := by rw [State.surveyBody, cfg, candidate]; rfl
  rw [cfg, ends, lines, seqs, bodyF] at first
  rw [cfg, ends, lines, seqs, bodyR] at second
  refine ⟨?_, first, second⟩
  rw [cfg, ends] at frame
  clear first second bodyF bodyR candidate
  rw [frame, entered]
  rfl

end Sys2Proof.Machine
end

