-- ==== Sys2Proof/Proofs/LoneSurvey.lean ====
section
/-! PROOFS. The survey of a lone coach, FORMED in the step that begins it (R66, R74, R115), the hold-off timer (R60, R64)
and START_SURVEY (R64). -/

namespace Sys2Proof.Machine

/-! ### A survey with a LINKED end waits for its ROLLs -/

theorem asked_linked {x : RollSide} {e : EndUnit} (on : e.state = .linked) : x.asked e = x := if_pos on

theorem asked_unlinked {x : RollSide} {e : EndUnit} (off : e.state ≠ .linked) : x.asked e = { x with complete := some 0 } :=
  if_neg off

theorem beginSurvey_waits {s : State}
    (on : (s.endOf s.cfg.front).state = .linked ∨ (s.endOf s.cfg.front.opp).state = .linked) :
    s.beginSurvey = (s.opensSurvey.setConsist .surveying).asked := by
  rw [beginSurvey_eq]
  obtain ⟨frame, -, -⟩ := survey_sent s
  generalize (s.opensSurvey.setConsist .surveying).asked = u at frame ⊢
  refine endIfComplete_stands (on.imp (fun f => ?_) fun r => ?_)
  · have side : u.consist.sideF = _ := (congrArg (fun w : State => w.consist.sideF) frame :)
    rw [side, asked_linked f]
    rfl
  · have side : u.consist.sideR = _ := (congrArg (fun w : State => w.consist.sideR) frame :)
    rw [side, asked_linked r]
    rfl

/-! ### A lone coach -/

/-- The roster of a lone coach (R81 to R85). -/
def State.loneRoster (s : State) : Roster :=
  ⟨s.nextCandidate, s.cfg.identity, byteOf s.cfg.rank, 0, false, false, false, [s.leadEntry 0 0]⟩

theorem assemble_alone {u : State} (f : u.consist.sideF = { RollSide.empty with complete := some 0 })
    (r : u.consist.sideR = { RollSide.empty with complete := some 0 }) :
    u.assemble = ⟨u.consist.candidate, u.cfg.identity, byteOf u.cfg.rank, 0, false, false, false, [u.leadEntry 0 0]⟩ := by
  unfold State.assemble
  dsimp only
  rw [f, r]
  rfl

/-- The consist unit of a lone coach that has surveyed itself. -/
def State.loneConsist (s : State) : ConsistUnit :=
  { s.consist with
    candidate := s.nextCandidate, sideF := { RollSide.empty with complete := some 0 },
    sideR := { RollSide.empty with complete := some 0 }, resurvey := false, survey := none, holdOff := none,
    state := .formed, lastGeneration := s.nextCandidate, position := 1, orientation := endCode s.cfg.front,
    leadEnd := none, awayEnd := none, terminal := true, partials := 0, roster := some s.loneRoster }

/-- A lone coach's survey is an installation at once, and a round opened, on a state that entered SURVEYING. -/
theorem beginSurvey_alone {s : State} (off : ∀ e, (s.endOf e).state ≠ .linked) :
    ∃ v : State,
      s.beginSurvey = (v.emptied s.loneConsist).afterInstall.openRound
        ∧ s.beginSurvey = v.leadInstall s.loneRoster ∧ v.leadConsist s.loneRoster = s.loneConsist
        ∧ v.again s.loneRoster = false
        ∧ v = { s with
            consist := v.consist, door := (s.opensSurvey.setConsist .surveying).door,
            heat := (s.opensSurvey.setConsist .surveying).heat,
            outputs := (s.opensSurvey.setConsist .surveying).outputs, ends := v.ends, seqs := v.seqs,
            events := (s.opensSurvey.setConsist .surveying).events, revs := (s.opensSurvey.setConsist .surveying).revs }
        ∧ ∀ e, v.endOf e = s.endOf e := by
  have first := beginSurvey_eq s
  obtain ⟨frame, placedF, placedR⟩ := survey_sent s
  generalize (s.opensSurvey.setConsist .surveying).asked = u at first frame placedF placedR
  generalize s.opensSurvey.setConsist .surveying = entered at frame ⊢
  rw [asked_unlinked (off s.cfg.front), asked_unlinked (off s.cfg.front.opp)] at frame
  obtain ⟨unmovedF, -⟩ := placedF
  obtain ⟨unmovedR, -⟩ := placedR
  have u_ends : ∀ e, u.endOf e = s.endOf e := fun e =>
    (eq_or_eq_opp s.cfg.front e).elim (fun h => h ▸ unmovedF (off _)) fun h => h ▸ unmovedR (off _)
  have consist : u.consist = _ := (congrArg State.consist frame :)
  have f : u.consist.sideF = { RollSide.empty with complete := some 0 } := by rw [consist]
  have r : u.consist.sideR = { RollSide.empty with complete := some 0 } := by rw [consist]
  have cfg : u.cfg = s.cfg := (congrArg State.cfg frame :)
  have roster : u.assemble = s.loneRoster := by
    rw [assemble_alone f r, consist, State.leadEntry, cfg]
    rfl
  obtain ⟨v, placed, v_frame, ends⟩ := endSurvey_spec u
  rw [roster] at ends
  have v_consist : v.consist = { u.consist with survey := none } := (congrArg State.consist v_frame :)
  have run : s.beginSurvey = v.leadInstall s.loneRoster :=
    first.trans ((endIfComplete_ends (by rw [f]; exact fun h => (nomatch h)) (by rw [r]; exact fun h => (nomatch h))).trans ends)
  have once : v.again s.loneRoster = false := by
    rw [State.again, v_consist, consist]
    rfl
  have installed : v.leadConsist s.loneRoster = s.loneConsist := by
    rw [leadConsist_formed (x := s.leadEntry 0 0) rfl once, v_consist, consist]
    rfl
  refine ⟨v, ?_, run, installed, once, ?_, fun e => ?_⟩
  · rw [run, leadInstall_eq, once, installed]
    exact if_neg Bool.false_ne_true
  · rw [v_frame, frame]
  · obtain ⟨unmoved, -⟩ := placed e
    exact (unmoved (by rw [u_ends]; exact off e)).trans (u_ends e)

/-- A FORMED lead with no LINKED end knows its summary. -/
theorem summaryNow_alone {s : State} (lead : s.consist.roleState = .lead) (formed : s.consist.state = .formed)
    (off : ∀ e, (s.endOf e).state ≠ .linked) : s.summaryNow ≠ .unknown := by
  have none : s.linkedRecords = [] := by
    rw [State.linkedRecords, if_neg (off _), if_neg (off _)]
    rfl
  refine fun unknown => ?_
  have value : s.summaryNow.value = .unknown := congrArg DoorSummary.value unknown
  unfold State.summaryNow at value
  rw [none] at value
  dsimp only at value
  rw [if_neg (by tauto), if_neg (by decide)] at value
  split at value <;> exact nomatch value

theorem emptied_dropsInstalled (v : State) (c : ConsistUnit) :
    (v.emptied c).dropsInstalled.consist = c ∧ (v.emptied c).dropsInstalled.endOf = v.endOf
      ∧ (v.emptied c).dropsInstalled.door.summary = v.door.summary := by
  have frame := dropsInstalled_frame (v.emptied c)
  obtain ⟨-, -, -, summary⟩ := dropped_stat (v.emptied c).door
  refine ⟨(congrArg State.consist frame :), ?_, (congrArg (fun w : State => w.door.summary) frame :).trans summary⟩
  rw [frame]
  rfl

/-- How often a lone survey rewrites its records, up to the step's end, and what it raises. -/
theorem rev_beginSurvey_alone {s : State} (moves : s.consist.state ≠ .surveying)
    (off : ∀ e, (s.endOf e).state ≠ .linked) :
    s.beginSurvey.rev .consist = rewritten (rewritten (s.rev .consist))
      ∧ (s.consist.roleState = .lead → s.door.summary ≠ .unknown →
          s.beginSurvey.rev .doorSummary = rewritten (rewritten (s.rev .doorSummary))
          ∧ s.beginSurvey.isPending .doorSummary = true) := by
  obtain ⟨v, run, -, -, -, frame, ends⟩ := beginSurvey_alone off
  have revs : ∀ r, v.rev r = (s.opensSurvey.setConsist .surveying).rev r :=
    fun r => rev_of_revs (congrArg State.revs frame :) r
  have entered : (s.opensSurvey.setConsist .surveying).rev .consist = rewritten (s.rev .consist) := rev_setConsist moves
  refine ⟨?_, fun lead known => ?_⟩
  · rw [run, rev_openRound _ (.inl rfl), rev_afterInstall, ← entered, ← revs]
    rfl
  · have unknown : (s.opensSurvey.setConsist .surveying).rev .doorSummary = rewritten (s.rev .doorSummary) :=
      rev_setConsist_summary (by decide) moves known
    have summary : v.door.summary = .unknown := by
      have door : v.door = (s.opensSurvey.setConsist .surveying).door := (congrArg State.door frame :)
      rw [door, setConsist_frame (s := s.opensSurvey) (by decide) moves]
      rfl
    obtain ⟨consist, kept, shown⟩ := emptied_dropsInstalled v s.loneConsist
    have changes : (v.emptied s.loneConsist).dropsInstalled.summaryNow
        ≠ (v.emptied s.loneConsist).dropsInstalled.door.summary := by
      rw [shown, summary]
      refine summaryNow_alone (by rw [consist]; exact lead) (by rw [consist]; rfl) fun e => ?_
      rw [kept, ends e]
      exact off e
    obtain ⟨-, before⟩ := rev_dropsInstalled (v.emptied s.loneConsist)
    obtain ⟨-, others, -⟩ := openRound_frame (v.emptied s.loneConsist).afterInstall
    refine ⟨?_, ?_⟩
    · rw [run, rev_openRound _ (.inr rfl), afterInstall_eq, rev_evalSummary_changes changes, before, ← unknown, ← revs]
      rfl
    · rw [run, others .doorSummary fun h => (nomatch h)]
      exact evalSummary_raises changes

/-! ### START_SURVEY (R64) -/

/-- The cause START written and the partial count cleared. -/
def State.startCaused (s : State) : State :=
  { s with consist := { s.consist with partials := 0, surveyCause := ⟨.start, 0, 0⟩ } }

theorem complete_rev (s : State) (o : OrderCopy) (r : ResultCode) (f : List Word) (k : Rec) :
    (s.complete o r f).rev k = s.rev k := by
  have revs : (s.complete o r f).revs = s.revs := rfl
  exact rev_of_revs revs k

theorem runStartSurvey_unled {s : State} {o : OrderCopy} (unled : s.consist.roleState ≠ .lead) :
    s.runStartSurvey o = s.complete o .notLead [] := if_pos unled

theorem runStartSurvey_busy {s : State} {o : OrderCopy} (lead : s.consist.roleState = .lead)
    (busy : s.consist.state = .surveying) : s.runStartSurvey o = s.complete o .busy [] :=
  (if_neg (not_not_intro lead)).trans (if_pos busy)

theorem runStartSurvey_begins {s : State} {o : OrderCopy} (lead : s.consist.roleState = .lead)
    (moves : s.consist.state ≠ .surveying) : s.runStartSurvey o = s.startCaused.beginSurvey.complete o .done [] :=
  (if_neg (not_not_intro lead)).trans (if_neg moves)

end Sys2Proof.Machine

namespace Sys2Proof.Proofs

open Sys2Proof Sys2Proof.Machine

/-- Settles O46: the hold-off timer, the candidate, and a survey begun with a LINKED end or without. -/
theorem surveyBegins : Obligations.SurveyBegins := by
  refine ⟨fun s held => ⟨fun lead settling due => ⟨?_, fun even off => ?_⟩, fun h => ?_⟩, fun s => ?_, fun s => ?_⟩
  · exact yields_effect (exec_holdOffTimer s) held (if_pos ⟨lead, settling, due⟩)
  · have moves : s.consist.state ≠ .surveying := by rw [settling]; decide
    have run : s.holdOffOut = s.beginSurvey := if_pos ⟨lead, settling, due⟩
    obtain ⟨twice, -⟩ := rev_beginSurvey_alone moves off
    obtain ⟨rev, -⟩ := publish_record s s.beginSurvey .consist mem_consist
    refine ⟨State.publish s s.beginSurvey, ?_, rev.trans (closedRev_twice s (even _ mem_consist) twice)⟩
    rw [exec_holdOffTimer, partStep, held, run]
    rfl
  · refine yields_effect (exec_holdOffTimer s) held (if_neg fun all => ?_)
    obtain ⟨lead, settling, due⟩ := all
    rcases h with h | h | h
    · exact h lead
    · exact h settling
    · exact absurd (h.symm.trans due) (by decide)
  · intro g shown
    have same : ∀ w, w ∈ s.peerGenerations ↔ shown w := mem_peerGenerations s
    exact ⟨nextCandidate_ne_zero s, fun h => nextCandidate_passes s ((same _).mpr h),
      fun h => nextCandidate_plain fun inside => h ((same _).mp inside)⟩
  · intro u g front on done body q
    by_cases waits : on front ∨ on front.opp
    · have run : u = _ := beginSurvey_waits waits
      obtain ⟨frame, first, second⟩ := survey_sent s
      rw [← run] at frame first second
      have pending : s.consist.state ≠ .surveying → u.isPending .consistChange = true := fun moves => by
        have events : u.events = _ := (congrArg State.events frame :)
        exact (isPending_congr events _).trans (setConsist_pending (s := s.opensSurvey) moves)
      clear_value u
      have consist : u.consist = _ := (congrArg State.consist frame :)
      refine ⟨?_, fun _ => ⟨consist, pending, first, second⟩, fun f r => absurd waits (not_or.mpr ⟨f, r⟩)⟩
      rw [frame]
    · obtain ⟨offF, offR⟩ := not_or.mp waits
      have off : ∀ e, (s.endOf e).state ≠ .linked := fun e =>
        (eq_or_eq_opp front e).elim (fun h => h ▸ offF) fun h => h ▸ offR
      obtain ⟨v, -, run, consist, once, v_frame, -⟩ := beginSurvey_alone off
      obtain ⟨frame, pending, -, -, -, -, -, -, opened⟩ := leadInstall_spec v s.loneRoster
      obtain ⟨round, window, -, -⟩ := opened once
      rw [← run] at frame pending round window
      rw [consist] at frame
      have u_run : u = s.beginSurvey := rfl
      rw [← u_run] at frame pending round window
      clear_value u
      refine ⟨?_, fun open_ => absurd open_ waits, fun _ _ => ⟨?_, pending, round, window⟩⟩
      · rw [frame, v_frame]
      · rw [frame]
        rfl

/-- Settles O18: the two refusals, the survey begun, and a lone FORMED lead that surveys itself in the step. -/
theorem startSurvey : Obligations.StartSurvey := by
  intro s o h kind
  have runs : ∀ {u : State}, s.runStartSurvey o = u → Yields .startSurvey s u :=
    fun e => yields_active (exec_startSurvey s) h kind e
  refine ⟨fun unled => runs (runStartSurvey_unled unled), fun lead busy => runs (runStartSurvey_busy lead busy),
    fun lead moves => runs (runStartSurvey_begins lead moves), fun lead formed off even => ?_⟩
  have moves : s.consist.state ≠ .surveying := by rw [formed]; decide
  have run := runStartSurvey_begins (o := o) lead moves
  have w_moves : s.startCaused.consist.state ≠ .surveying := moves
  have w_off : ∀ e, (s.startCaused.endOf e).state ≠ .linked := off
  have w_lead : s.startCaused.consist.roleState = .lead := lead
  have revs : ∀ r, s.startCaused.rev r = s.rev r := fun _ => rfl
  have summary : s.startCaused.door.summary = s.door.summary := rfl
  generalize s.startCaused = w at run w_moves w_off w_lead revs summary
  obtain ⟨twice, lasts⟩ := rev_beginSurvey_alone w_moves w_off
  obtain ⟨v, -, installed, consist, -⟩ := beginSurvey_alone w_off
  obtain ⟨frame, pending, -⟩ := leadInstall_spec v w.loneRoster
  rw [← installed] at frame pending
  have state : w.beginSurvey.consist.state = .formed := by
    rw [(congrArg State.consist frame : w.beginSurvey.consist = v.leadConsist w.loneRoster), consist]
    rfl
  generalize w.beginSurvey = b at run twice lasts pending state
  have completed_rev : ∀ r, (b.complete o .done []).rev r = b.rev r := complete_rev b o .done []
  obtain ⟨held, active, executing⟩ := h
  have next : exec .startSurvey s = .next (State.publish s (b.complete o .done [])) := by
    have effect : s.completing (· == 3) (fun s o => s.inActive o State.runStartSurvey) = b.complete o .done [] :=
      (completing_eq s _ _ o executing (decide_eq_true kind)).trans ((inActive_active s o _ active).trans run)
    rw [exec_startSurvey, partStep, held, effect]
    rfl
  have pages := publish_upToPages s (b.complete o .done [])
  obtain ⟨-, -, -, others, whole, -⟩ := completed pages
  obtain ⟨rev, -⟩ := publish_record s (b.complete o .done []) .consist mem_consist
  refine ⟨_, next, ?_, ?_, ?_, fun known => ?_⟩
  · have consist : (State.publish s (b.complete o .done [])).consist = b.consist := (congrArg State.consist whole :)
    rw [consist]
    exact state
  · exact (others .consistChange fun h => nomatch h).trans pending
  · refine rev.trans (closedRev_twice s (even _ mem_consist) ?_)
    rw [completed_rev, twice, revs]
  · have differs : w.door.summary ≠ .unknown := by
      rw [summary]
      exact fun same => known (congrArg DoorSummary.value same)
    obtain ⟨summary_twice, raised⟩ := lasts w_lead differs
    obtain ⟨summary_rev, -⟩ := publish_record s (b.complete o .done []) .doorSummary mem_doorSummary
    refine ⟨(others .doorSummary fun h => nomatch h).trans raised, summary_rev.trans
      (closedRev_twice s (even _ mem_doorSummary) ?_)⟩
    rw [completed_rev, summary_twice, revs]

end Sys2Proof.Proofs
end

