-- ==== Sys2Proof/Proofs/SurveyConsumption.lean ====
section
/-! PROOFS. A SURVEY consumed: by a coach that is not lead (R68 to R71), and by the lead, which yields or stands (R76,
R77). -/

namespace Sys2Proof.Machine

/-! ### A move of the consist state keeps what is pending, the records and the bids -/

theorem setConsist_keeps_pending {s : State} (x : ConsistState) {c : EventClass} (h : s.isPending c = true) :
    (s.setConsist x).isPending c = true := by
  by_cases same : s.consist.state = x
  · rw [setConsist_same same]
    exact h
  · have shown : (s.stateShown x).isPending c = true := raise_pending .consistChange (s := (s.modConsist _).touchAgain _) h
    rw [setConsist_eq same]
    refine evalSummary_pending ?_
    split
    · rw [leaveFormed_frame]
      exact shown
    · exact shown

theorem unformed_records (d : DoorUnit) (old : ConsistState) :
    (d.unformed old).recF = d.recF ∧ (d.unformed old).recR = d.recR := by
  obtain ⟨-, recF, recR, -⟩ := dropped_stat d
  unfold DoorUnit.unformed
  split
  · exact ⟨recF, recR⟩
  · exact ⟨rfl, rfl⟩

theorem unformed_rounds (h : HeatUnit) (old : ConsistState) :
    (h.unformed old).bids = h.bids ∧ (h.round = none → (h.unformed old).round = none)
      ∧ (h.window = none → (h.unformed old).window = none) := by
  unfold HeatUnit.unformed
  split
  · exact ⟨rfl, fun _ => rfl, fun _ => rfl⟩
  · exact ⟨rfl, id, id⟩

/-- What entering SURVEYING leaves of the door and heating units, whatever the state before. -/
theorem surveying_units (s : State) :
    let u := s.setConsist .surveying
    (u.door.recF = s.door.recF ∧ u.door.recR = s.door.recR)
      ∧ (u.heat.bids = s.heat.bids ∧ (s.heat.round = none → u.heat.round = none)
        ∧ (s.heat.window = none → u.heat.window = none))
      ∧ (s.consist.state ≠ .formed →
          u.door = { s.door with summary := u.door.summary } ∧ u.heat = s.heat ∧ u.outputs = s.outputs) := by
  intro u
  by_cases same : s.consist.state = .surveying
  · have stands : u = s := setConsist_same same
    rw [stands]
    exact ⟨⟨rfl, rfl⟩, ⟨rfl, id, id⟩, fun _ => ⟨rfl, rfl, rfl⟩⟩
  · have frame : u = _ := setConsist_frame (by decide) same
    have door : u.door = s.door.unformed s.consist.state := (congrArg State.door frame :)
    have heat : u.heat = s.heat.unformed s.consist.state := (congrArg State.heat frame :)
    have outputs : u.outputs = if s.consist.state = .formed then s.droppedOutputs else s.outputs :=
      (congrArg State.outputs frame :)
    rw [door, heat, outputs]
    refine ⟨unformed_records _ _, unformed_rounds _ _, fun apart => ⟨?_, if_neg apart, if_neg apart⟩⟩
    rw [DoorUnit.unformed, if_neg apart]

/-! ### A SURVEY followed (R69, R70) -/

/-- The followed survey noted and its roster wait started. -/
def State.notedSurvey (s : State) (x : Followed) : State :=
  { s with consist := { s.consist with followed := some x, rosterWait := some 0 } }

theorem follow_eq (s : State) (e : EndId) (t : Telegram) :
    let w := (s.notedSurvey (followedFrom e t)).setConsist .surveying
    s.follow e t = ((w.build .roll .towardLead 0 (w.rollBody (followedFrom e t)) []).2.placeAt e
      (w.originates .roll .towardLead 0 (w.rollBody (followedFrom e t)) [])).1 := rfl

theorem follow_spec (s : State) (e : EndId) (t : Telegram) :
    let u := s.follow e t
    let w := (s.notedSurvey (followedFrom e t)).setConsist .surveying
    u = { s with
        consist := { s.consist with followed := some (followedFrom e t), rosterWait := some 0, state := .surveying },
        door := w.door, heat := w.heat, outputs := w.outputs, ends := u.ends, seqs := u.seqs, events := w.events,
        revs := w.revs }
      ∧ Placed (s.sendingLines e) (s.originates .roll .towardLead 0 (s.rollBody (followedFrom e t)) []) (s.endOf e)
          (u.endOf e)
      ∧ u.endOf e.opp = s.endOf e.opp := by
  intro u w
  have run : u = _ := follow_eq s e t
  have entered := surveying_frame (s.notedSurvey (followedFrom e t))
  have sent := sentAt w .roll .towardLead 0 (w.rollBody (followedFrom e t)) [] e (by decide)
  have seen : w = (s.notedSurvey (followedFrom e t)).setConsist .surveying := rfl
  clear_value u w
  rw [← seen] at entered run
  clear seen
  obtain ⟨frame, placed, other, -⟩ := sent
  rw [← run] at frame placed other
  clear run
  have ends : w.endOf = s.endOf := by rw [entered]; rfl
  have lines : w.sendingLines = s.sendingLines := by rw [entered]; rfl
  have body : w.rollBody (followedFrom e t) = s.rollBody (followedFrom e t) := by rw [entered]; rfl
  have telegram : ∀ b, w.originates .roll .towardLead 0 b [] = s.originates .roll .towardLead 0 b [] := fun b => by
    rw [entered]
    rfl
  rw [lines, ends, body, telegram] at placed
  rw [ends] at other
  refine ⟨?_, placed, other⟩
  rw [frame]
  clear frame placed other telegram body lines ends
  rw [entered]
  rfl

theorem rollBody_eq (s : State) (e : EndId) (t : Telegram) :
    s.rollBody (followedFrom e t)
      = be32 (rd32 t.body 0) ++ be16 (rd16 t.body 5)
        ++ ([rd8 t.body 7, t.hop, match e with | .a => 1 | .b => 2, if (s.endOf e.opp).state = .linked then 0 else 1,
          byteOf s.cfg.fitted.code, byteOf s.cfg.size, byteOf s.cfg.count] : List Byte) := by
  have hop : byteOf t.hop.toNat = t.hop := BitVec.eq_of_toNat_eq (byteOf_toNat t.hop.isLt)
  show be32 _ ++ be16 _ ++ [_, byteOf t.hop.toNat, endCode e, _, _, _, _] = _
  rw [hop]
  cases e <;> rfl

/-! ### Whether it is followed (R55, R68) -/

theorem outranks_iff (rank : Nat) (identity : Ident) (rank' : Nat) (identity' : Ident) :
    outranks rank identity rank' identity' = true
      ↔ rank' < rank ∨ (rank' = rank ∧ identity'.toNat < identity.toNat) := by
  rw [outranks, Bool.or_eq_true, Bool.and_eq_true, decide_eq_true_iff, decide_eq_true_iff, beq_iff_eq, eq_comm (a := rank)]

theorem follows_iff (s : State) (t : Telegram) :
    s.follows t = true ↔ s.consist.state ≠ .surveying ∨ ∀ y, s.consist.followed = some y →
      y.rank.toNat < (rd8 t.body 4).toNat ∨ (y.rank = rd8 t.body 4 ∧ y.lead.toNat < (rd32 t.body 0).toNat)
        ∨ (rd32 t.body 0 = y.lead ∧ rd16 t.body 5 ≠ y.candidate) := by
  unfold State.follows
  split
  · next y surveying followed =>
    have both : (outranks (rd8 t.body 4).toNat (rd32 t.body 0) y.rank.toNat y.lead
        || (rd32 t.body 0 == y.lead && rd16 t.body 5 != y.candidate)) = true
        ↔ y.rank.toNat < (rd8 t.body 4).toNat ∨ (y.rank = rd8 t.body 4 ∧ y.lead.toNat < (rd32 t.body 0).toNat)
          ∨ (rd32 t.body 0 = y.lead ∧ rd16 t.body 5 ≠ y.candidate) := by
      rw [Bool.or_eq_true, outranks_iff, Bool.and_eq_true, beq_iff_eq, bne_iff_ne, BitVec.toNat_inj, or_assoc]
    rw [both]
    refine ⟨fun h => .inr fun z hz => ?_, fun h => ?_⟩
    · obtain rfl : y = z := Option.some.inj (followed.symm.trans hz)
      exact h
    · exact h.elim (fun apart => absurd surveying apart) fun each => each y followed
  · next other =>
    refine ⟨fun _ => ?_, fun _ => rfl⟩
    by_cases surveying : s.consist.state = .surveying
    · exact .inr fun y followed => (other y surveying followed).elim
    · exact .inl surveying

/-! ### The lead yields (R76) -/

/-- The coach has left role state LEAD for YIELDED, told of the conflict, before it follows. -/
def State.yields (s : State) (id : Ident) : State :=
  { s with
    consist := { s.consist.unled with roleState := .yielded, surveyCause := ⟨.conflict, 0, id⟩ },
    door := { s.door with recF := none, recR := none },
    heat := { s.heat with round := none, window := none, bids := Vector.replicate 32 none } }

theorem yieldTo_eq (s : State) (e : EndId) (t : Telegram) :
    s.yieldTo e t
      = ((((s.yields (rd32 t.body 0)).raise .leadConflict).evalSummary).follow e t).showHeader s.consist := by
  show ((((((s.leaveLead.modConsist fun c => { c with roleState := .yielded }).raise .leadConflict).setCause .conflict 0
    (rd32 t.body 0)).evalSummary).follow e t).showHeader s.consist) = _
  rw [leaveLead_eq]
  rfl

theorem follow_pending (s : State) (e : EndId) (t : Telegram) {c : EventClass} (h : s.isPending c = true) :
    (s.follow e t).isPending c = true := by
  obtain ⟨frame, -, -⟩ := follow_spec s e t
  have events : (s.follow e t).events = _ := (congrArg State.events frame :)
  exact (isPending_congr events c).trans (setConsist_keeps_pending (s := s.notedSurvey (followedFrom e t)) .surveying h)

theorem yieldTo_spec (s : State) (e : EndId) (t : Telegram) :
    let u := s.yieldTo e t
    u.isPending .leadConflict = true
      ∧ u.consist = { s.consist.unled with
          roleState := .yielded, surveyCause := ⟨.conflict, 0, rd32 t.body 0⟩,
          followed := some (followedFrom e t), rosterWait := some 0, state := .surveying }
      ∧ u.door.recF = none ∧ u.door.recR = none ∧ u.heat.round = none ∧ u.heat.window = none
      ∧ ∀ i : Fin 32, u.heat.bids[i] = none := by
  intro u
  have run : u = _ := yieldTo_eq s e t
  clear_value u
  subst run
  rw [showHeader_frame]
  have summary := evalSummary_frame ((s.yields (rd32 t.body 0)).raise .leadConflict)
  have told : (((s.yields (rd32 t.body 0)).raise .leadConflict).evalSummary).isPending .leadConflict = true :=
    evalSummary_pending (isPending_raise _ _)
  generalize ((s.yields (rd32 t.body 0)).raise .leadConflict).evalSummary = v at summary told ⊢
  have consist : v.consist = (s.yields (rd32 t.body 0)).consist := (congrArg State.consist summary :)
  have door : v.door.recF = none ∧ v.door.recR = none :=
    ⟨(congrArg (fun w : State => w.door.recF) summary :), (congrArg (fun w : State => w.door.recR) summary :)⟩
  have heat : v.heat = (s.yields (rd32 t.body 0)).heat := (congrArg State.heat summary :)
  obtain ⟨frame, -, -⟩ := follow_spec v e t
  obtain ⟨⟨recF, recR⟩, ⟨bids, round, window⟩, -⟩ := surveying_units (v.notedSurvey (followedFrom e t))
  have pending := follow_pending v e t told
  generalize v.follow e t = u at frame pending ⊢
  have u_consist : u.consist = _ := (congrArg State.consist frame :)
  have u_door : u.door = _ := (congrArg State.door frame :)
  have u_heat : u.heat = _ := (congrArg State.heat frame :)
  obtain ⟨noF, noR⟩ := door
  refine ⟨pending, ?_, ?_, ?_, ?_, ?_, fun i => ?_⟩
  · show u.consist = _
    rw [u_consist, consist]
    rfl
  · show u.door.recF = none
    rw [u_door, recF]
    exact noF
  · show u.door.recR = none
    rw [u_door, recR]
    exact noR
  · show u.heat.round = none
    rw [u_heat]
    exact round (congrArg HeatUnit.round heat)
  · show u.heat.window = none
    rw [u_heat]
    exact window (congrArg HeatUnit.window heat)
  · show u.heat.bids[i] = none
    rw [u_heat, bids]
    show v.heat.bids[i] = none
    rw [heat]
    exact Vector.getElem_replicate _

theorem yielded_consist {c : ConsistUnit} {id : Ident} {x : Followed} :
    ({ c.unled with
        roleState := .yielded, surveyCause := ⟨.conflict, 0, id⟩, followed := some x, rosterWait := some 0,
        state := .surveying } : ConsistUnit)
      = { c with
        roleState := .yielded, state := .surveying, surveyCause := ⟨.conflict, 0, id⟩, survey := none, holdOff := none,
        resurvey := false, rosterWait := some 0, sideF := if c.survey.isSome then .empty else c.sideF,
        sideR := if c.survey.isSome then .empty else c.sideR, followed := some x } := rfl

end Sys2Proof.Machine

namespace Sys2Proof.Proofs

open Sys2Proof Sys2Proof.Machine

/-- Settles O48: a SURVEY at a coach that is not lead, and at the lead. -/
theorem surveyConsumed : Obligations.SurveyConsumed := by
  refine ⟨fun s e x kind unled => ?_, fun s e x kind lead => ?_⟩
  · intro u m better yes terminal roll
    have taken : s.consume e x = if s.follows x then (s.follow e x, false) else (s, true) := by
      rw [State.consume, kind]
      exact if_neg unled
    have decides : s.follows x = true ↔ yes := follows_iff s x
    refine ⟨fun no => taken.trans (if_neg fun h => no (decides.mp h)), fun follows => ?_⟩
    have run : s.consume e x = (s.follow e x, false) := taken.trans (if_pos (decides.mpr follows))
    have followed : u = s.follow e x := (congrArg Prod.fst run :)
    obtain ⟨frame, placed, other⟩ := follow_spec s e x
    obtain ⟨-, -, apart⟩ := surveying_units (s.notedSurvey (followedFrom e x))
    have pending : s.consist.state ≠ .surveying → (s.follow e x).isPending .consistChange = true := fun moves => by
      have events : (s.follow e x).events = _ := (congrArg State.events frame :)
      exact (isPending_congr events _).trans (setConsist_pending (s := s.notedSurvey (followedFrom e x)) moves)
    rw [rollBody_eq] at placed
    rw [← followed] at frame placed other pending
    clear_value u
    have door : u.door = _ := (congrArg State.door frame :)
    have heat : u.heat = _ := (congrArg State.heat frame :)
    have outputs : u.outputs = _ := (congrArg State.outputs frame :)
    refine ⟨congrArg Prod.snd run, ?_, pending, fun unformed => ?_, placed, other⟩
    · rw [frame]
      rfl
    · rw [door, heat, outputs]
      exact apart unformed
  · intro u rank id better c
    have taken : s.consume e x = if outranks rank id s.cfg.rank s.cfg.identity then (s.yieldTo e x, false)
        else if s.consist.state = .surveying then (s, true)
        else ((s.setCause .conflict 0 id).beginSurvey, true) := by
      rw [State.consume, kind]
      exact if_pos lead
    have decides : outranks rank id s.cfg.rank s.cfg.identity = true ↔ better := outranks_iff _ _ _ _
    refine ⟨fun yes => ?_, fun no busy => ?_, fun no idle => ?_⟩
    · have run : s.consume e x = (s.yieldTo e x, false) := taken.trans (if_pos (decides.mpr yes))
      have yielded : u = s.yieldTo e x := (congrArg Prod.fst run :)
      obtain ⟨told, consist, rest⟩ := yieldTo_spec s e x
      rw [yielded]
      exact ⟨congrArg Prod.snd run, told, consist.trans yielded_consist, rest⟩
    · exact taken.trans ((if_neg fun h => no (decides.mp h)).trans (if_pos busy))
    · exact taken.trans ((if_neg fun h => no (decides.mp h)).trans (if_neg idle))

end Sys2Proof.Proofs
end

