-- ==== Sys2Proof/Proofs/PageBlindness.lean ====
section
/-! PROOFS. The units do not look at the pages: from two states that differ at most in the page records, each operation of
the units and of the relay switch leads to two such states (R169). -/

namespace Sys2Proof.Machine

theorem upToPages_symm {s t : State} (h : UpToPages s t) : UpToPages t s := by
  obtain ⟨frame, bytes, slots⟩ := h
  refine ⟨?_, fun a ha => (bytes a ha).symm, fun n => (slots n).symm⟩
  rw [frame]

/-- Both states rewrite a page record of theirs. -/
theorem upToPages_both {s t s' t' : State} (h : UpToPages s t) (hs : UpToPages s s') (ht : UpToPages t t') :
    UpToPages s' t' := upToPages_trans (upToPages_symm hs) (upToPages_trans h ht)

/-- An operation that neither reads nor writes exchange memory and the counters. -/
theorem upToPages_blind {f : State → State}
    (blind : ∀ w m r, f { w with mem := m, revs := r } = { f w with mem := m, revs := r }) {s t : State}
    (h : UpToPages s t) : UpToPages (f s) (f t) := by
  obtain ⟨m, r, rfl⟩ : ∃ m r, t = { s with mem := m, revs := r } := ⟨_, _, h.1⟩
  obtain ⟨-, bytes, slots⟩ := h
  have kept : f s = { f s with mem := s.mem, revs := s.revs } := blind s s.mem s.revs
  have mem : (f s).mem = s.mem := (congrArg State.mem kept :)
  have revs : (f s).revs = s.revs := (congrArg State.revs kept :)
  rw [blind s m r]
  refine ⟨rfl, fun a ha => ?_, fun n => ?_⟩
  · rw [mem]
    exact bytes a ha
  · exact (slots n).trans (rev_of_revs revs _).symm

/-- A telegram built, and placed out of an end if there is one to place it at. -/
def State.sentVia (s : State) (k : Kind) (x : Scope) (dest : Ident) (body route : List Byte) (o : Option EndId) : State :=
  match o with
  | some e => ((s.build k x dest body route).2.placeAt e (s.build k x dest body route).1).1
  | none => (s.build k x dest body route).2

/-- The body of a DOORSTAT (R111). -/
def State.statBody (s : State) : List Byte := be16 s.consist.generation ++ [s.statSide]

/-- The route data of a DOORSTAT at its origin (R111). -/
def State.statRoute (s : State) : List Byte :=
  if s.closed then [statFlags true false false, 0] else [statFlags false false false, 1, byteOf s.consist.position]

theorem originateStat_via (s : State) :
    s.originateStat = s.sentVia .doorstat .towardLead 0 s.statBody s.statRoute s.consist.leadEnd := rfl

section

variable {s t : State} (h : UpToPages s t)

include h

/-! ### What two such states share -/

theorem same_consist : t.consist = s.consist := (congrArg State.consist h.1 :)

theorem same_cfg : t.cfg = s.cfg := (congrArg State.cfg h.1 :)

theorem same_door : t.door = s.door := (congrArg State.door h.1 :)

theorem same_heat : t.heat = s.heat := (congrArg State.heat h.1 :)

theorem same_endOf : t.endOf = s.endOf := by
  rw [h.1]
  rfl

theorem same_sendingLines : t.sendingLines = s.sendingLines := by
  rw [h.1]
  rfl

theorem same_level : t.level = s.level := by
  rw [h.1]
  rfl

theorem same_closed : t.closed = s.closed := congrFun (same_level h) .dloop

/-! ### The relay switch (chapter 3) -/

theorem upToPages_modEnd (e : EndId) (f : EndUnit → EndUnit) : UpToPages (s.modEnd e f) (t.modEnd e f) :=
  upToPages_blind (f := fun w => w.modEnd e f) (fun _ _ _ => rfl) h

theorem upToPages_build (k : Kind) (x : Scope) (dest : Ident) (body route : List Byte) :
    (t.build k x dest body route).1 = (s.build k x dest body route).1
      ∧ UpToPages (s.build k x dest body route).2 (t.build k x dest body route).2 := by
  refine ⟨?_, upToPages_blind (f := fun w => (w.build k x dest body route).2) (fun _ _ _ => rfl) h⟩
  rw [h.1]
  rfl

theorem upToPages_start (e : EndId) : UpToPages (s.start e).1 (t.start e).1 ∧ (t.start e).2 = (s.start e).2 := by
  have hail : t.hailBody e = s.hailBody e := by
    rw [h.1]
    rfl
  unfold State.start
  rw [same_endOf h, same_sendingLines h, same_cfg h, hail]
  dsimp only
  split
  · exact ⟨h, rfl⟩
  · split
    · obtain ⟨telegram, built⟩ := upToPages_build h .hail .neighbour 0 (s.hailBody e) []
      refine ⟨?_, rfl⟩
      rw [telegram]
      dsimp only
      exact upToPages_modEnd built e _
    · split
      · split
        · refine ⟨?_, rfl⟩
          dsimp only
          exact upToPages_modEnd h e _
        · exact ⟨h, rfl⟩
      · exact ⟨h, rfl⟩

theorem upToPages_placeAt (e : EndId) (x : Telegram) :
    UpToPages (s.placeAt e x).1 (t.placeAt e x).1 := by
  unfold State.placeAt State.enterOrigin
  rw [same_endOf h]
  split
  · split
    · exact (upToPages_start (upToPages_modEnd h e _) e).1
    · exact h
  · exact h

theorem upToPages_placeBoth (x : Telegram) : UpToPages (s.placeBoth x).1 (t.placeBoth x).1 :=
  upToPages_placeAt (upToPages_placeAt h .a x) .b x

theorem upToPages_enterRelay (e : EndId) (q : List Telegram) : UpToPages (s.enterRelay e q) (t.enterRelay e q) :=
  (upToPages_start (upToPages_modEnd h e _) e).1

/-- A telegram built and placed out of one end. -/
theorem upToPages_sentAt (k : Kind) (x : Scope) (dest : Ident) (body route : List Byte) (e : EndId) :
    UpToPages ((s.build k x dest body route).2.placeAt e (s.build k x dest body route).1).1
      ((t.build k x dest body route).2.placeAt e (t.build k x dest body route).1).1 := by
  obtain ⟨telegram, built⟩ := upToPages_build h k x dest body route
  rw [telegram]
  exact upToPages_placeAt built e _

/-- A telegram built and placed out of both ends. -/
theorem upToPages_sentBoth (k : Kind) (x : Scope) (dest : Ident) (body route : List Byte) :
    UpToPages ((s.build k x dest body route).2.placeBoth (s.build k x dest body route).1).1
      ((t.build k x dest body route).2.placeBoth (t.build k x dest body route).1).1 := by
  obtain ⟨telegram, built⟩ := upToPages_build h k x dest body route
  rw [telegram]
  exact upToPages_placeBoth built _

/-- A telegram built, and placed out of an end if there is one to place it at. -/
theorem upToPages_sentVia (k : Kind) (x : Scope) (dest : Ident) (body route : List Byte) (o : Option EndId) :
    UpToPages (s.sentVia k x dest body route o) (t.sentVia k x dest body route o) := by
  cases o with
  | some e => exact upToPages_sentAt h k x dest body route e
  | none => exact (upToPages_build h k x dest body route).2

/-! ### Units changed, records rewritten, outputs applied -/

theorem upToPages_modConsist (f : ConsistUnit → ConsistUnit) : UpToPages (s.modConsist f) (t.modConsist f) :=
  upToPages_blind (f := fun w => w.modConsist f) (fun _ _ _ => rfl) h

theorem upToPages_modHeat (f : HeatUnit → HeatUnit) : UpToPages (s.modHeat f) (t.modHeat f) :=
  upToPages_blind (f := fun w => w.modHeat f) (fun _ _ _ => rfl) h

theorem upToPages_touched {r : Rec} (hr : r ∈ pageRecs) : UpToPages (s.touch r) (t.touch r) :=
  upToPages_both h (upToPages_touch s r hr) (upToPages_touch t r hr)

theorem upToPages_image (cover levels : BitVec 12) :
    UpToPages (s.applyImage cover levels) (t.applyImage cover levels) := by
  have plain := upToPages_blind (f := fun w => { w with outputs := (w.outputs &&& ~~~cover) ||| (levels &&& cover) })
    (fun _ _ _ => rfl) h
  exact upToPages_both plain (upToPages_applyImage s cover levels) (upToPages_applyImage t cover levels)

theorem upToPages_group (g : DoorGroup) : UpToPages (s.setGroup g) (t.setGroup g) := by
  have owned : t.doorOwned = s.doorOwned := by
    rw [h.1]
    rfl
  unfold State.setGroup
  rw [owned]
  exact upToPages_image (upToPages_modDoor h _) _ _

theorem upToPages_stages (c : Nat) : UpToPages (s.setStages c) (t.setStages c) := by
  have owned : t.heatOwned = s.heatOwned := by
    rw [h.1]
    rfl
  unfold State.setStages
  rw [owned]
  exact upToPages_image (upToPages_modHeat h _) _ _

/-! ### The door unit (chapter 6) -/

theorem upToPages_dropRelease : UpToPages s.dropRelease t.dropRelease := by
  unfold State.dropRelease
  rw [same_door h]
  split
  · exact upToPages_group (upToPages_modDoor h _) _
  · exact h
  · exact h

theorem upToPages_applyRelease (gen : Word) (train first last : Nat) :
    UpToPages (s.applyRelease gen train first last) (t.applyRelease gen train first last) := by
  have outcome : t.releaseOutcome gen train first last = s.releaseOutcome gen train first last := by
    rw [h.1]
    rfl
  have sides : t.mappedSides train = s.mappedSides train := by
    rw [h.1]
    rfl
  unfold State.applyRelease
  rw [outcome, sides]
  dsimp only
  have recorded := fun f => upToPages_touched (r := .doorView) (upToPages_modDoor h f) (by decide)
  split
  · rw [same_door (recorded _)]
    exact upToPages_group (recorded _) _
  · exact recorded _

theorem upToPages_closes (r : DropReason) : UpToPages (s.enterClosing r) (t.enterClosing r) := by
  unfold State.enterClosing
  rw [same_closed h]
  exact upToPages_group (upToPages_modDoor h _) _

theorem upToPages_takeDoor (x : Telegram) : UpToPages (s.takeDoor x) (t.takeDoor x) := by
  have closes : UpToPages s.applyClose t.applyClose := by
    unfold State.applyClose
    rw [same_door h]
    split
    · exact upToPages_modDoor h _
    · exact upToPages_closes h _
    · exact upToPages_closes h _
  unfold State.takeDoor
  rw [same_consist h]
  split_ifs
  · exact h
  · exact upToPages_applyRelease h _ _ _ _
  · exact h
  · exact closes
  · exact h

theorem upToPages_writeStat (f : DoorUnit → DoorUnit) : UpToPages (s.writeStat f) (t.writeStat f) := by
  have written := upToPages_modDoor h f
  unfold State.writeStat
  dsimp only
  rw [summaryNow_upToPages written, same_door written]
  split
  · exact upToPages_rewrites written (by decide)
  · exact upToPages_evalSummary written

theorem upToPages_takeStat (e : EndId) (x : Telegram) : UpToPages (s.takeStat e x) (t.takeStat e x) := by
  have record : t.recordOf x = s.recordOf x := by
    rw [h.1]
    rfl
  unfold State.takeStat
  rw [same_cfg h, record]
  split_ifs
  · exact upToPages_writeStat h _
  · exact upToPages_writeStat h _
  · exact h

theorem upToPages_originateStat : UpToPages s.originateStat t.originateStat := by
  have body : t.statBody = s.statBody := by
    rw [h.1]
    rfl
  have route : t.statRoute = s.statRoute := by
    rw [h.1]
    rfl
  rw [originateStat_via, originateStat_via, same_consist h, body, route]
  exact upToPages_sentVia h _ _ _ _ _ _

theorem upToPages_startStat : UpToPages s.startStat t.startStat := by
  have originates : t.originatesStat = s.originatesStat := by
    rw [h.1]
    rfl
  unfold State.startStat
  rw [originates]
  split
  · exact upToPages_originateStat (upToPages_modDoor h _)
  · exact upToPages_modDoor h _

end

end Sys2Proof.Machine
end

