-- ==== Sys2Proof/Proofs/UnitBlindness.lean ====
section
/-! PROOFS. The consist, heating and message units and the dispatcher do not look at the pages (R169). -/

namespace Sys2Proof.Machine

section

variable {s t : State} (h : UpToPages s t)

include h

/-! ### The consist state and the triggers (R57 to R62) -/

theorem upToPages_leaveFormed : UpToPages s.leaveFormed t.leaveFormed :=
  upToPages_blind (f := fun w => (w.voidGrant.stopRounds).modDoor fun d => { d with stat := none }) (fun _ _ _ => rfl)
    (upToPages_dropRelease h)

theorem upToPages_moves (x : ConsistState) : UpToPages (s.setConsist x) (t.setConsist x) := by
  have shown : UpToPages (s.stateShown x) (t.stateShown x) :=
    upToPages_raise (upToPages_rewrites (upToPages_modConsist h _) (by decide)) _
  by_cases same : s.consist.state = x
  · rw [setConsist_same same, setConsist_same (by rw [same_consist h]; exact same)]
    exact h
  · rw [setConsist_eq same, setConsist_eq (by rw [same_consist h]; exact same), same_consist h]
    refine upToPages_evalSummary ?_
    split
    · exact upToPages_leaveFormed shown
    · exact shown

theorem upToPages_showHeader (old : ConsistUnit) : UpToPages (s.showHeader old) (t.showHeader old) := by
  unfold State.showHeader
  rw [same_consist h]
  split
  · exact upToPages_rewrites h (by decide)
  · exact h

theorem upToPages_setCause (c : CauseKind) (b : Byte) (i : Ident) : UpToPages (s.setCause c b i) (t.setCause c b i) :=
  upToPages_modConsist h _

theorem upToPages_trigger (c : CauseKind) (b : Byte) (i : Ident) : UpToPages (s.trigger c b i) (t.trigger c b i) := by
  have caused := upToPages_setCause h c b i
  unfold State.trigger
  rw [same_consist h]
  split
  · exact upToPages_moves (upToPages_modConsist caused _) _
  · exact upToPages_showHeader (upToPages_modConsist caused _) _
  · exact upToPages_showHeader (upToPages_modConsist h _) _
  · exact h
  · exact h

theorem same_heldEnd : t.heldEnd = s.heldEnd := by
  unfold State.heldEnd
  rw [same_consist h]

theorem upToPages_reportChange (c : LinkChange) : UpToPages (s.reportChange c) (t.reportChange c) := by
  have stale : UpToPages (if s.consist.state = .formed then s.setConsist .stale else s)
      (if t.consist.state = .formed then t.setConsist .stale else t) := by
    rw [same_consist h]
    split
    · exact upToPages_moves h _
    · exact h
  unfold State.reportChange
  generalize (if s.consist.state = .formed then s.setConsist .stale else s) = v at stale ⊢
  generalize (if t.consist.state = .formed then t.setConsist .stale else t) = w at stale ⊢
  obtain ⟨telegram, built⟩ := upToPages_build stale .change .towardLead 0
    ([endCode c.side, c.kind.code] ++ be32 c.identity) []
  dsimp only
  rw [telegram, same_heldEnd built]
  split
  · exact upToPages_placeAt built _ _
  · exact upToPages_placeBoth built _

theorem upToPages_linkChange (c : LinkChange) : UpToPages (s.linkChange c) (t.linkChange c) := by
  unfold State.linkChange
  rw [same_consist h]
  split
  · exact upToPages_trigger h _ _ _
  · exact upToPages_reportChange h c

/-! ### The heating unit (chapter 7) -/

theorem upToPages_testLoss : UpToPages s.testLoss t.testLoss := by
  have shed : UpToPages s.shed t.shed := by
    unfold State.shed
    rw [same_cfg h, same_heat h]
    dsimp only
    have entered := upToPages_modHeat h fun u => { u with
      state := .shed, limit := min s.cfg.fallback s.heat.on, ramp := none, loss := none }
    refine upToPages_raise ?_ _
    rw [same_heat entered]
    split
    · exact upToPages_stages entered _
    · exact entered
  unfold State.testLoss
  rw [same_heat h]
  split
  · exact shed
  · exact h

theorem upToPages_openRound : UpToPages s.openRound t.openRound := by
  have opening : UpToPages s.opening t.opening :=
    upToPages_blind (f := State.opening) (fun _ _ _ => rfl) h
  have body : t.callBody = s.callBody := by
    rw [h.1]
    rfl
  have sent := upToPages_sentBoth opening .heatcall .broadcast 0 s.callBody []
  have run : ∀ w : State, w.openRound = (((w.opening.build .heatcall .broadcast 0 w.callBody []).2.placeBoth
      (w.opening.build .heatcall .broadcast 0 w.callBody []).1).1.opened).testLoss := openRound_eq
  rw [run, run, body]
  exact upToPages_testLoss (upToPages_blind (f := State.opened) (fun _ _ _ => rfl) sent)

theorem upToPages_takeCall (x : Telegram) : UpToPages (s.takeCall x) (t.takeCall x) := by
  have heard : UpToPages (s.seeT (clamp 1 10 (rd8 x.body 4).toNat)) (t.seeT (clamp 1 10 (rd8 x.body 4).toNat)) :=
    upToPages_testLoss (upToPages_modHeat h _)
  unfold State.takeCall
  rw [same_consist h]
  split
  · exact h
  · generalize s.seeT (clamp 1 10 (rd8 x.body 4).toNat) = v at heard ⊢
    generalize t.seeT (clamp 1 10 (rd8 x.body 4).toNat) = w at heard ⊢
    dsimp only
    rw [same_consist heard, same_heat heard, same_cfg heard]
    split
    · have called := upToPages_modHeat heard fun u => { u with lastCall := some ⟨x.origin, rd16 x.body 0, rd16 x.body 2⟩ }
      exact (same_consist heard) ▸ upToPages_sentVia called _ _ _ _ _ v.consist.leadEnd
    · exact heard

theorem upToPages_takeBid (x : Telegram) : UpToPages (s.takeBid x) (t.takeBid x) := by
  unfold State.takeBid
  rw [same_consist h, same_heat h]
  dsimp only
  split
  · split
    · exact upToPages_modHeat h _
    · exact h
  · exact h

theorem upToPages_takeGrant (x : Telegram) : UpToPages (s.takeGrant x) (t.takeGrant x) := by
  unfold State.takeGrant
  rw [same_consist h, same_level h]
  split
  · split
    · exact upToPages_applyGrant h _ _ _
    · exact h
  · exact h

/-! ### Rosters (R81 to R93) -/

theorem upToPages_afterInstall : UpToPages s.afterInstall t.afterInstall := by
  have voided : UpToPages s.dropRelease.voidGrant t.dropRelease.voidGrant :=
    upToPages_blind (f := State.voidGrant) (fun _ _ _ => rfl) (upToPages_dropRelease h)
  exact upToPages_evalSummary (upToPages_raise (upToPages_rewrites voided (by decide)) _)

theorem upToPages_leadInstall (r : Roster) : UpToPages (s.leadInstall r) (t.leadInstall r) := by
  have again : t.again r = s.again r := by
    rw [h.1]
    rfl
  have consist : t.leadConsist r = s.leadConsist r := by
    rw [h.1]
    rfl
  have installed : UpToPages (s.emptied (s.leadConsist r)).afterInstall (t.emptied (s.leadConsist r)).afterInstall :=
    upToPages_afterInstall (upToPages_blind (f := fun w => w.emptied (s.leadConsist r)) (fun _ _ _ => rfl) h)
  rw [leadInstall_eq, leadInstall_eq, again, consist]
  split
  · exact installed
  · exact upToPages_openRound installed

theorem upToPages_endSurvey : UpToPages s.endSurvey t.endSurvey := by
  have stopped : UpToPages s.unsurveyed t.unsurveyed := upToPages_blind (f := State.unsurveyed) (fun _ _ _ => rfl) h
  have roster : t.assemble = s.assemble := by
    rw [h.1]
    rfl
  have run : ∀ w : State, w.endSurvey = ((w.unsurveyed.build .roster .broadcast 0 w.assemble.body []).2.placeBoth
      (w.unsurveyed.build .roster .broadcast 0 w.assemble.body []).1).1.leadInstall w.assemble := endSurvey_eq
  rw [run, run, roster]
  exact upToPages_leadInstall (upToPages_sentBoth stopped _ _ _ _ _) _

theorem upToPages_takeRoster (x : Telegram) : UpToPages (s.takeRoster x) (t.takeRoster x) := by
  have accepts : t.accepts (rosterFrom x.body) = s.accepts (rosterFrom x.body) := by
    rw [h.1]
    rfl
  have installs : ∀ (r : Roster) (y : Followed), UpToPages (s.memberInstall r y) (t.memberInstall r y) := fun r y => by
    have consist : t.memberConsist r y = s.memberConsist r y := by
      rw [h.1]
      rfl
    rw [memberInstall_eq, memberInstall_eq, consist]
    exact upToPages_startStat (upToPages_afterInstall
      (upToPages_blind (f := fun w => { w with consist := s.memberConsist r y }) (fun _ _ _ => rfl) h))
  unfold State.takeRoster
  dsimp only
  rw [same_consist h, accepts]
  split
  · split
    · exact installs _ _
    · exact h
  · exact h

/-! ### Surveys (R64 to R77) -/

theorem upToPages_modSide (x : Side) (f : RollSide → RollSide) : UpToPages (s.modSide x f) (t.modSide x f) :=
  upToPages_modConsist h _

theorem upToPages_sendSurvey (x : Side) : UpToPages (s.sendSurvey x) (t.sendSurvey x) := by
  have side : t.endOfSide x = s.endOfSide x := by
    unfold State.endOfSide
    rw [same_cfg h]
  have body : t.surveyBody x = s.surveyBody x := by
    rw [h.1]
    rfl
  have run : ∀ w : State, w.sendSurvey x = if (w.endOf (w.endOfSide x)).state = .linked
      then ((w.build .survey .broadcast 0 (w.surveyBody x) []).2.placeAt (w.endOfSide x)
        (w.build .survey .broadcast 0 (w.surveyBody x) []).1).1
      else w.modSide x fun r => { r with complete := some 0 } := fun _ => rfl
  rw [run, run, side, body, same_endOf h]
  split
  · exact upToPages_sentAt h _ _ _ _ _ _
  · exact upToPages_modSide h _ _

theorem upToPages_endIfComplete : UpToPages s.endIfComplete t.endIfComplete := by
  unfold State.endIfComplete
  rw [same_consist h]
  split
  · exact upToPages_endSurvey h
  · exact h

theorem upToPages_beginSurvey : UpToPages s.beginSurvey t.beginSurvey := by
  have opened : UpToPages s.opensSurvey t.opensSurvey :=
    upToPages_blind (f := State.opensSurvey) (fun _ _ _ => rfl) h
  exact upToPages_endIfComplete (upToPages_sendSurvey (upToPages_sendSurvey (upToPages_moves opened _) _) _)

theorem upToPages_takeRoll (e : EndId) (x : Telegram) : UpToPages (s.takeRoll e x) (t.takeRoll e x) := by
  have side : t.rollSide e (rd8 x.body 6) = s.rollSide e (rd8 x.body 6) := by
    unfold State.rollSide
    rw [same_cfg h]
  unfold State.takeRoll
  rw [same_consist h, same_cfg h, side]
  dsimp only
  split
  · split
    · exact upToPages_endIfComplete (upToPages_modSide h _ _)
    · exact h
  · exact h

theorem upToPages_follow (e : EndId) (x : Telegram) : UpToPages (s.follow e x) (t.follow e x) := by
  have noted : UpToPages (s.notedSurvey (followedFrom e x)) (t.notedSurvey (followedFrom e x)) :=
    upToPages_blind (f := fun w => w.notedSurvey (followedFrom e x)) (fun _ _ _ => rfl) h
  have entered := upToPages_moves noted .surveying
  have run : ∀ w : State, w.follow e x
      = ((((w.notedSurvey (followedFrom e x)).setConsist .surveying).build .roll .towardLead 0
          (((w.notedSurvey (followedFrom e x)).setConsist .surveying).rollBody (followedFrom e x)) []).2.placeAt e
        (((w.notedSurvey (followedFrom e x)).setConsist .surveying).build .roll .towardLead 0
          (((w.notedSurvey (followedFrom e x)).setConsist .surveying).rollBody (followedFrom e x)) []).1).1 :=
    fun w => follow_eq w e x
  rw [run, run]
  generalize (s.notedSurvey (followedFrom e x)).setConsist .surveying = v at entered ⊢
  generalize (t.notedSurvey (followedFrom e x)).setConsist .surveying = w at entered ⊢
  have body : w.rollBody (followedFrom e x) = v.rollBody (followedFrom e x) := by
    rw [entered.1]
    rfl
  rw [body]
  exact upToPages_sentAt entered _ _ _ _ _ _

theorem upToPages_yieldTo (e : EndId) (x : Telegram) : UpToPages (s.yieldTo e x) (t.yieldTo e x) := by
  have yields : UpToPages (s.yields (rd32 x.body 0)) (t.yields (rd32 x.body 0)) :=
    upToPages_blind (f := fun w => w.yields (rd32 x.body 0)) (fun _ _ _ => rfl) h
  rw [yieldTo_eq, yieldTo_eq, same_consist h]
  exact upToPages_showHeader (upToPages_follow (upToPages_evalSummary (upToPages_raise yields _)) e x) _

theorem upToPages_takeSurvey (e : EndId) (x : Telegram) :
    UpToPages (s.takeSurvey e x).1 (t.takeSurvey e x).1 ∧ (t.takeSurvey e x).2 = (s.takeSurvey e x).2 := by
  have follows : t.follows x = s.follows x := by
    unfold State.follows
    rw [same_consist h]
  unfold State.takeSurvey
  rw [same_consist h, same_cfg h, follows]
  split_ifs
  · exact ⟨upToPages_yieldTo h e x, rfl⟩
  · exact ⟨h, rfl⟩
  · exact ⟨upToPages_beginSurvey (upToPages_setCause h _ _ _), rfl⟩
  · exact ⟨upToPages_follow h e x, rfl⟩
  · exact ⟨h, rfl⟩

end

end Sys2Proof.Machine
end

