-- ==== Sys2Proof/Proofs/DispatchBlindness.lean ====
section
/-! PROOFS. The message unit and the dispatcher do not look at the pages (R169): what they read and write of exchange memory
lies outside the page records. -/

namespace Sys2Proof.Machine

/-! ### Exchange memory outside the pages -/

theorem read_write_congr {m m' : Memory} {k : Nat} (h : m'.read k = m.read k) (a : Nat) (bs : List Byte) :
    (m'.write a bs).read k = (m.write a bs).read k := by
  rw [memory_read_write, memory_read_write, h]

theorem read_writeWords_congr {m m' : Memory} {k : Nat} (h : m'.read k = m.read k) (a : Nat) (ws : List Word) :
    (m'.writeWords a ws).read k = (m.writeWords a ws).read k := read_write_congr h a _

theorem isPageByte_slot (n : Fin 8) {a : Nat} (lo : slotBase n ≤ a) : isPageByte a = false := by
  unfold slotBase at lo
  simp only [isPageByte, Bool.or_eq_false_iff, Bool.and_eq_false_iff, decide_eq_false_iff_not]
  omega

section

variable {s t : State} (h : UpToPages s t)

include h

theorem upToPages_modMem {f : Memory → Memory}
    (local_ : ∀ m m' : Memory, ∀ k, m'.read k = m.read k → (f m').read k = (f m).read k) :
    UpToPages (s.modMem f) (t.modMem f) := by
  obtain ⟨frame, bytes, slots⟩ := h
  refine ⟨?_, fun a ha => local_ _ _ _ (bytes a ha), slots⟩
  show t.modMem f = { s.modMem f with mem := (t.modMem f).mem, revs := t.revs }
  rw [frame]
  rfl

/-! ### The message unit (chapter 8) -/

theorem same_freeSlot : t.freeSlot = s.freeSlot := by
  have free : t.slotFree = s.slotFree := funext fun n => by
    have word : t.mem.readWord (slotBase n + 4) = s.mem.readWord (slotBase n + 4) := by
      obtain ⟨-, bytes, -⟩ := h
      exact readWord_congr (bytes _ (isPageByte_slot n (by omega))) (bytes _ (isPageByte_slot n (by omega)))
    have deliveries : t.deliveries = s.deliveries := (congrArg State.deliveries h.1 :)
    unfold State.slotFree
    rw [word, deliveries]
  unfold State.freeSlot
  rw [free]

theorem upToPages_setSlot (n : Fin 8) (v : Word) : UpToPages (s.setRev (.slot n) v) (t.setRev (.slot n) v) := by
  obtain ⟨frame, bytes, slots⟩ := h
  refine ⟨?_, bytes, fun k => ?_⟩
  · show t.setRev (.slot n) v = { s.setRev (.slot n) v with mem := t.mem, revs := (t.setRev (.slot n) v).revs }
    rw [frame]
    rfl
  · have entry : ∀ w : State, (w.setRev (.slot n) v).rev (.slot k) = if n = k then v else w.rev (.slot k) := fun w => by
      by_cases same : n = k
      · rw [if_pos same, same]
        exact rev_setRev w _ v
      · rw [if_neg same]
        simp only [State.rev, State.setRev, Fin.getElem_fin]
        refine Vector.getElem_set_ne _ _ fun e => same ?_
        simp only [Rec.idx] at e
        omega
    rw [entry, entry, slots k]

theorem upToPages_deliverInto (n : Fin 8) (x : Telegram) : UpToPages (s.deliverInto n x) (t.deliverInto n x) := by
  have deliveries : t.deliveries = s.deliveries := (congrArg State.deliveries h.1 :)
  have ms : t.ms = s.ms := (congrArg State.ms h.1 :)
  have numbered := upToPages_blind
    (f := fun w => { w with deliveries := s.deliveries.set n (stepDelivery s.deliveries[n]) }) (fun _ _ _ => rfl) h
  have slot := upToPages_setSlot numbered n (s.rev (.slot n) + 2)
  unfold State.deliverInto
  rw [deliveries, h.2.2 n]
  dsimp only
  have written := upToPages_modMem slot (f := fun m =>
    ((m.writeWords (slotBase n) [s.rev (.slot n) + 2, BitVec.ofNat 16 (stepDelivery s.deliveries[n])]).writeWords
      (slotBase n + 6)
      (identWords x.origin ++ [pageWord (s.consist.positionOf x.origin), slotKind x.scope, s.ms, byteWord (rd8 x.body 0)])).write
      (slotBase n + 0x12) (messageBytes x.body))
    fun m m' k same => read_write_congr (read_writeWords_congr (read_writeWords_congr same _ _) _ _) _ _
  rw [same_consist slot]
  refine upToPages_raise ?_ _
  have clock : (({ t with deliveries := s.deliveries.set n (stepDelivery s.deliveries[n]) } : State).setRev (.slot n)
      (s.rev (.slot n) + 2)).ms = s.ms := ms
  rw [clock]
  exact written

theorem upToPages_acknowledge (e : EndId) (x : Telegram) (result : Byte) :
    UpToPages (s.acknowledge e x result) (t.acknowledge e x result) := by
  unfold State.acknowledge
  split
  · exact h
  · exact upToPages_sentAt h _ _ _ _ _ _

theorem upToPages_takeMsg (e : EndId) (x : Telegram) : UpToPages (s.takeMsg e x) (t.takeMsg e x) := by
  unfold State.takeMsg
  rw [same_freeSlot h]
  split
  · split
    · split
      · exact upToPages_acknowledge (upToPages_deliverInto h _ _) _ _ _
      · exact upToPages_deliverInto h _ _
    · split
      · exact upToPages_acknowledge h _ _ _
      · exact h
  · exact h

theorem upToPages_finishFlight (x : InFlight) (r : ResultCode) (fields : List Word) :
    UpToPages (s.finishFlight x r fields) (t.finishFlight x r fields) := by
  have left := upToPages_blind (f := fun w => { w with inFlight := w.inFlight.erase x }) (fun _ _ _ => rfl) h
  exact upToPages_raise (upToPages_modMem
    (upToPages_modMem left fun _ _ _ same => read_writeWords_congr same _ _)
    fun _ _ _ same => read_writeWords_congr same _ _) _

theorem upToPages_takeAck (e : EndId) (x : Telegram) : UpToPages (s.takeAck e x) (t.takeAck e x) := by
  have flights : t.inFlight = s.inFlight := (congrArg State.inFlight h.1 :)
  unfold State.takeAck State.matching
  rw [flights]
  split
  · dsimp only
    split_ifs
    · exact upToPages_finishFlight h _ _ _
    · exact upToPages_finishFlight h _ _ _
    · exact h
  · exact h

/-! ### The dispatcher (R34 to R44) -/

theorem upToPages_consume (e : EndId) (x : Telegram) :
    UpToPages (s.consume e x).1 (t.consume e x).1 ∧ (t.consume e x).2 = (s.consume e x).2 := by
  unfold State.consume
  rw [same_consist h]
  split
  case h_1 =>
    refine ⟨?_, rfl⟩
    dsimp only
    split
    · exact upToPages_trigger h _ _ _
    · exact h
  case h_2 => exact upToPages_takeSurvey h e x
  case h_3 => exact ⟨upToPages_takeRoll h e x, rfl⟩
  case h_4 => exact ⟨upToPages_takeRoster h x, rfl⟩
  case h_5 => exact ⟨upToPages_takeDoor h x, rfl⟩
  case h_6 =>
    refine ⟨?_, rfl⟩
    dsimp only
    split
    · exact upToPages_takeStat h e x
    · exact h
  case h_7 => exact ⟨upToPages_takeCall h x, rfl⟩
  case h_8 => exact ⟨upToPages_takeBid h x, rfl⟩
  case h_9 => exact ⟨upToPages_takeGrant h x, rfl⟩
  case h_10 => exact ⟨upToPages_takeMsg h e x, rfl⟩
  case h_11 => exact ⟨upToPages_takeAck h e x, rfl⟩
  case h_12 => exact ⟨h, rfl⟩

theorem upToPages_dropHead (e : EndId) : UpToPages (s.dropHead e) (t.dropHead e) :=
  upToPages_blind (f := fun w => w.dropHead e) (fun _ _ _ => rfl) h

theorem upToPages_relayHead (e : EndId) (x : Telegram) (consumed : Bool) :
    UpToPages (s.relayHead e x consumed) (t.relayHead e x consumed) := by
  have form : t.relayForm x = s.relayForm x := by
    rw [h.1]
    rfl
  unfold State.relayHead
  rw [same_endOf h, form]
  split
  · split
    · exact upToPages_enterRelay (upToPages_dropHead h e) _ _
    · exact upToPages_modEnd h e _
  · exact upToPages_dropHead h e

/-- A broadcast head consumed, and then relayed or dropped as the flag says. -/
theorem upToPages_routeBroadcast (e : EndId) (x : Telegram) :
    UpToPages (s.routeBroadcast e x) (t.routeBroadcast e x) := by
  obtain ⟨taken, flag⟩ := upToPages_consume h e x
  unfold State.routeBroadcast
  rw [same_endOf h]
  dsimp only
  rw [flag]
  split
  · exact upToPages_relayHead h e x true
  · split
    · exact upToPages_dropHead taken e
    · exact upToPages_relayHead taken e x true

theorem upToPages_routeTowardLead (e : EndId) (x : Telegram) :
    UpToPages (s.routeTowardLead e x) (t.routeTowardLead e x) := by
  unfold State.routeTowardLead
  rw [same_consist h, same_heldEnd h]
  split
  · exact upToPages_dropHead (upToPages_consume h e x).1 e
  · split
    · split
      · exact upToPages_dropHead h e
      · exact upToPages_relayHead h e x false
    · exact upToPages_relayHead h e x false

theorem upToPages_routeCoach (e : EndId) (x : Telegram) : UpToPages (s.routeCoach e x) (t.routeCoach e x) := by
  unfold State.routeCoach
  rw [same_cfg h]
  split
  · exact upToPages_dropHead (upToPages_consume h e x).1 e
  · exact upToPages_relayHead h e x false

theorem upToPages_dispatchHead (e : EndId) : UpToPages (s.dispatchHead e) (t.dispatchHead e) := by
  unfold State.dispatchHead
  rw [same_endOf h]
  split
  · exact h
  · split
    · exact upToPages_dropHead h e
    · split
      · exact upToPages_routeBroadcast h e _
      · exact upToPages_routeTowardLead h e _
      · exact upToPages_routeCoach h e _
      · exact upToPages_dropHead h e

theorem upToPages_retake (e : EndId) : UpToPages (s.retake e) (t.retake e) := by
  unfold State.retake
  rw [same_endOf h]
  split
  · exact upToPages_dispatchHead h e
  · exact h

theorem upToPages_boundary (e : EndId) : UpToPages (s.boundary e) (t.boundary e) := by
  obtain ⟨started, flag⟩ := upToPages_start h e
  unfold State.boundary
  dsimp only
  rw [flag]
  split
  · exact upToPages_retake started e.opp
  · exact started

end

end Sys2Proof.Machine
end

