-- ==== Sys2Proof/Proofs/CouplerInputs.lean ====
section
/-! PROOFS. A qualified change of a coupler input: an end uncoupled or coupled (R11, R13, R16, R19). -/

namespace Sys2Proof.Machine

/-! ### The dispatcher leaves the lines as they are -/

theorem lines_of_trains {s t : State} (h : Trains s t) : t.lines = s.lines := (congrArg State.lines h.1 :)

theorem lines_of_sends {s t : State} (h : Sends s t) : t.lines = s.lines := (congrArg State.lines h :)

theorem lines_takeMsg (s : State) (e : EndId) (t : Telegram) : (s.takeMsg e t).lines = s.lines := by
  have answers : ∀ (w : State) (r : Byte), (w.acknowledge e t r).lines = w.lines := fun w r =>
    lines_of_sends (acknowledge_frame w e t r).1
  unfold State.takeMsg
  split
  · split
    · split
      · rw [answers]
        rfl
      · rfl
    · split
      · exact answers s _
      · rfl
  · rfl

theorem lines_consume (s : State) (e : EndId) (t : Telegram) : (s.consume e t).1.lines = s.lines := by
  unfold State.consume
  cases t.kind with
  | change =>
    dsimp only
    split
    · exact lines_of_trains (trains_takeChange s t)
    · rfl
  | survey => exact lines_of_trains (trains_takeSurvey s e t)
  | roll => exact lines_of_trains (trains_takeRoll s e t)
  | roster => exact lines_of_trains (trains_takeRoster s t)
  | door => exact lines_of_trains (trains_of_doors (doors_takeDoor s t))
  | doorstat =>
    dsimp only
    split
    · exact lines_of_trains (trains_of_doors (doors_takeStat s e t))
    · rfl
  | heatcall => exact lines_of_trains (trains_of_heats (heats_takeCall s t))
  | heatbid => exact lines_of_trains (trains_of_heats (heats_takeBid s t))
  | heatgrant => exact lines_of_trains (trains_of_heats (heats_takeGrant s t))
  | msg => exact lines_takeMsg s e t
  | msgack =>
    show (s.takeAck e t).lines = s.lines
    unfold State.takeAck
    split
    · dsimp only
      split_ifs <;> rfl
    · rfl
  | hail => rfl

theorem lines_relayHead (s : State) (e : EndId) (t : Telegram) (c : Bool) : (s.relayHead e t c).lines = s.lines := by
  unfold State.relayHead
  split
  · split
    · exact lines_of_sends (sends_enterRelay (s.dropHead e) e.opp _)
    · rfl
  · rfl

theorem lines_dispatchHead (s : State) (e : EndId) : (s.dispatchHead e).lines = s.lines := by
  have after : ∀ (t : Telegram) (c : Bool), ((s.consume e t).1.relayHead e t c).lines = s.lines := fun t c =>
    (lines_relayHead _ e t c).trans (lines_consume s e t)
  unfold State.dispatchHead
  split
  · rfl
  · next t q _ =>
    split
    · rfl
    · cases t.scope with
      | broadcast =>
        show (s.routeBroadcast e t).lines = s.lines
        unfold State.routeBroadcast
        dsimp only
        split_ifs
        · exact lines_relayHead s e t true
        · exact lines_consume s e t
        · exact after t true
      | towardLead =>
        show (s.routeTowardLead e t).lines = s.lines
        unfold State.routeTowardLead
        split
        · exact lines_consume s e t
        · split
          · split
            · rfl
            · exact lines_relayHead s e t false
          · exact lines_relayHead s e t false
      | coach =>
        show (s.routeCoach e t).lines = s.lines
        unfold State.routeCoach
        split
        · exact lines_consume s e t
        · exact lines_relayHead s e t false
      | neighbour => rfl

theorem lines_retake (s : State) (e : EndId) : (s.retake e).lines = s.lines := by
  unfold State.retake
  split
  · exact lines_dispatchHead s e
  · rfl

/-! ### Lines forced to DARK (R3, R11) -/

/-- A line forced to DARK. -/
def LineUnit.darkened (u : LineUnit) : LineUnit :=
  if u.state = .dark then u else { u with state := .dark, settling := none, rest := none, asm := .waiting }

theorem map_sending_none {u : EndUnit} (h : u.sending = none) (f : Sending → Sending) :
    ({ u with sending := u.sending.map f } : EndUnit) = u := by
  cases u
  cases h
  rfl

/-- A line of an end that transmits nothing is forced to DARK, LINE_CHANGE being raised. -/
theorem lineDark_raised {s : State} {l : LineId} (quiet : (s.endOf l.side).sending = none) :
    (s.raise .lineChange).lineDark l
      = ({ s with lines := s.lines.set l (s.lineOf l).darkened } : State).raise .lineChange := by
  have line : (s.raise .lineChange).lineOf l = s.lineOf l := rfl
  by_cases dark : (s.lineOf l).state = .dark
  · have stands : (s.raise .lineChange).lineDark l = s.raise .lineChange := if_pos dark
    rw [stands, LineUnit.darkened, if_pos dark, State.lineOf, lines_set_self]
  · have run : (s.raise .lineChange).lineDark l
        = (s.raise .lineChange).setLine l { s.lineOf l with state := .dark, asm := .waiting, settling := none, rest := none } :=
      if_neg dark
    have own : (s.lineOf l).darkened
        = { s.lineOf l with state := .dark, settling := none, rest := none, asm := .waiting } := if_neg dark
    rw [run, own]
    by_cases sending : (s.lineOf l).isSending = true
    · rw [setLine_stops (s := s.raise .lineChange) sending rfl]
      have nothing : { (s.raise .lineChange).endOf l.side with
          sending := ((s.raise .lineChange).endOf l.side).sending.map fun x =>
            { x with lines := x.lines.filter (fun m => m != l.no) } } = s.ends.get l.side :=
        map_sending_none quiet _
      rw [nothing]
      have ends : (s.raise .lineChange).ends.set l.side (s.ends.get l.side) = s.ends := ends_set_self s.ends l.side
      rw [ends]
      exact raise_raise { s with lines := s.lines.set l _ } .lineChange
    · have moves := setLine_moves (s := s.raise .lineChange) (l := l)
        (u := { s.lineOf l with state := .dark, asm := .waiting, settling := none, rest := none }) dark
        (.inl (Bool.eq_false_iff.mpr sending))
      refine moves.trans ?_
      exact raise_raise { s with lines := s.lines.set l _ } .lineChange

/-- Both lines of an end changed each by itself. -/
def Lines.both (x : Lines) (e : EndId) (f : LineUnit → LineUnit) : Lines :=
  (x.set ⟨e, .one⟩ (f (x.get ⟨e, .one⟩))).set ⟨e, .two⟩ (f (x.get ⟨e, .two⟩))

theorem get_two_set_one (x : Lines) (e : EndId) (u : LineUnit) : (x.set ⟨e, .one⟩ u).get ⟨e, .two⟩ = x.get ⟨e, .two⟩ := by
  cases e <;> rfl

theorem darkLines_raised {s : State} {e : EndId} (quiet : (s.endOf e).sending = none) :
    (s.raise .lineChange).darkLines e
      = ({ s with lines := s.lines.both e LineUnit.darkened } : State).raise .lineChange := by
  unfold State.darkLines
  rw [lineDark_raised (l := ⟨e, .one⟩) quiet,
    lineDark_raised (s := { s with lines := s.lines.set ⟨e, .one⟩ (s.lineOf ⟨e, .one⟩).darkened }) (l := ⟨e, .two⟩) quiet]
  unfold State.lineOf Lines.both
  dsimp only
  rw [get_two_set_one]

theorem darkened_not_sending (u : LineUnit) : u.darkened.isSending = false := by
  unfold LineUnit.darkened
  split
  · next dark => exact (not_isSending_iff u).mpr (.inl dark)
  · rfl

theorem sendingLines_dark {s : State} {x : Lines} {e : EndId} (h : s.lines = x.both e LineUnit.darkened) :
    s.sendingLines e = [] := by
  have one : s.lineOf ⟨e, .one⟩ = (x.get ⟨e, .one⟩).darkened := by
    rw [State.lineOf, h]
    cases e <;> rfl
  have two : s.lineOf ⟨e, .two⟩ = (x.get ⟨e, .two⟩).darkened := by
    rw [State.lineOf, h]
    cases e <;> rfl
  unfold State.sendingLines
  rw [List.filter_cons_of_neg (by rw [one, darkened_not_sending]; decide),
    List.filter_cons_of_neg (by rw [two, darkened_not_sending]; decide)]
  rfl

/-! ### An end uncoupled (R11, R13) -/

/-- An end that was PROBING, uncoupled. -/
def State.unprobed (s : State) (e : EndId) : State :=
  ({ s with
    lines := s.lines.both e LineUnit.darkened, ends := s.ends.set e (s.endOf e).uncoupled } : State).raise .lineChange

/-- An end that was LINKED, uncoupled, before the consist unit hears of it. -/
def State.parted (s : State) (e : EndId) : State :=
  ({ s with
    lines := s.lines.both e LineUnit.darkened, ends := s.ends.set e (s.endOf e).unlinked.uncoupled } :
    State).raise .lineChange

theorem uncouple_probing {s : State} {e : EndId} (h : (s.endOf e).state = .probing) : s.uncouple e = s.unprobed e := by
  have run : s.uncouple e = ((s.modEnd e EndUnit.uncoupled).raise .lineChange).darkLines e := by
    unfold State.uncouple
    dsimp only
    rw [h]
  rw [run, darkLines_raised (by rw [endOf_modEnd]; rfl)]
  rfl

theorem uncouple_linked {s : State} {e : EndId} (h : (s.endOf e).state = .linked) :
    s.uncouple e = (s.parted e).afterLeave e (s.endOf e).peer := by
  have run : s.uncouple e
      = (((s.modEnd e fun u => u.unlinked.uncoupled).raise .lineChange).darkLines e).afterLeave e (s.endOf e).peer := by
    unfold State.uncouple
    dsimp only
    rw [h]
  rw [run, darkLines_raised (by rw [endOf_modEnd]; rfl)]
  rfl

/-- After LINKED is left with both lines DARK, nothing can start at the end (R50). -/
theorem afterLeave_dark {s : State} {e : EndId} {x : Lines} (peer : Option Ident)
    (dark : s.lines = x.both e LineUnit.darkened) :
    s.afterLeave e peer = (s.evalSummary.linkChange (.leave e peer)).retake e.opp := by
  have lines : ((s.evalSummary.linkChange (.leave e peer)).retake e.opp).lines = x.both e LineUnit.darkened := by
    rw [lines_retake, lines_of_trains (trains_linkChange _ _), lines_of_trains (trains_of_doors (doors_evalSummary s)), dark]
  exact boundary_of_start (start_busy (.inr (sendingLines_dark lines)))

/-! ### An end coupled (R11, R16, R19) -/

/-- A line of a coupled end in ACTIVE, tested for SETTLING (R3). -/
def LineUnit.tested (u : LineUnit) : LineUnit := if u.state = .dark ∧ u.energy = true then .woken else u

theorem testDark_raised {s : State} {l : LineId} (active : s.part = .active) (coupled : (s.endOf l.side).state ≠ .uncoupled) :
    (s.raise .lineChange).testDark l
      = ({ s with lines := s.lines.set l (s.lineOf l).tested } : State).raise .lineChange := by
  have may : (s.raise .lineChange).maySettle l = true ↔ (s.lineOf l).state = .dark ∧ (s.lineOf l).energy = true := by
    refine (maySettle_iff (s.raise .lineChange) l).trans ⟨fun h => ?_, fun h => ?_⟩
    · obtain ⟨-, -, energy, dark⟩ := h
      exact ⟨dark, energy⟩
    · obtain ⟨dark, energy⟩ := h
      exact ⟨active, coupled, energy, dark⟩
  by_cases wakes : (s.lineOf l).state = .dark ∧ (s.lineOf l).energy = true
  · rw [testDark_wakes (may.mpr wakes), LineUnit.tested, if_pos wakes]
    exact raise_raise { s with lines := s.lines.set l .woken } .lineChange
  · rw [testDark_stands fun h => wakes (may.mp h), LineUnit.tested, if_neg wakes, State.lineOf, lines_set_self]

theorem testDarkLines_raised {s : State} {e : EndId} (active : s.part = .active) (coupled : (s.endOf e).state ≠ .uncoupled) :
    (s.raise .lineChange).testDarkLines e
      = ({ s with lines := s.lines.both e LineUnit.tested } : State).raise .lineChange := by
  unfold State.testDarkLines
  rw [testDark_raised (l := ⟨e, .one⟩) active coupled,
    testDark_raised (s := { s with lines := s.lines.set ⟨e, .one⟩ (s.lineOf ⟨e, .one⟩).tested }) (l := ⟨e, .two⟩) active coupled]
  unfold State.lineOf Lines.both
  dsimp only
  rw [get_two_set_one]

/-- An end coupled in HALTED (R11). -/
def State.coupledHalted (s : State) (e : EndId) : State :=
  ({ s with ends := s.ends.set e { s.endOf e with state := .probing, link := none } } : State).raise .lineChange

/-- An end with HAIL due, before its lines are tested. -/
def State.hailing (s : State) (e : EndId) : State :=
  { s with ends := s.ends.set e { s.endOf e with state := .probing, link := none, hail := some 0, hailDue := true } }

theorem hailing_coupled (s : State) (e : EndId) : ((s.hailing e).endOf e).state ≠ .uncoupled := by
  cases e <;> exact fun h => nomatch h

theorem coupledHalted_hailing (s : State) (e : EndId) :
    (s.coupledHalted e).modEnd e (fun u => { u with hail := some 0, hailDue := true })
      = (s.hailing e).raise .lineChange := by
  cases e <;> rfl

/-- An end coupled in ACTIVE, before its transmitter is at a boundary (R11, R16, R19). -/
def State.coupledActive (s : State) (e : EndId) : State :=
  ({ s with
    lines := s.lines.both e LineUnit.tested,
    ends := s.ends.set e { s.endOf e with state := .probing, link := none, hail := some 0, hailDue := true } } :
    State).raise .lineChange

theorem couple_halted {s : State} {e : EndId} (h : (s.endOf e).state = .uncoupled) (halted : s.part = .halted) :
    s.couple e = s.coupledHalted e := by
  have run : s.couple e = (s.coupledHalted e).startProbing e := if_pos h
  rw [run]
  refine if_neg ?_
  show ¬ s.part = .active
  rw [halted]
  decide

theorem couple_active {s : State} {e : EndId} (h : (s.endOf e).state = .uncoupled) (active : s.part = .active) :
    s.couple e = (s.coupledActive e).boundary e := by
  have run : s.couple e = (((s.coupledHalted e).modEnd e fun u => { u with hail := some 0, hailDue := true }).testDarkLines
      e).boundary e := (if_pos h).trans (if_pos active)
  rw [run, coupledHalted_hailing, testDarkLines_raised (s := s.hailing e) active (hailing_coupled s e)]
  rfl

/-- A coupler's input and what its qualified change does (R156). -/
def inputOfCoupler (e : EndId) : Input := match e with | .a => .cplA | .b => .cplB

theorem act_coupler (s : State) (e : EndId) (v : Bool) :
    s.act (inputOfCoupler e) v = if v then s.couple e else s.uncouple e := by
  cases e <;> rfl

end Sys2Proof.Machine

namespace Sys2Proof.Proofs

open Sys2Proof Sys2Proof.Machine

/-- Settles O27: the act runs on a state whose I/O view is being rewritten, and so comes to the same up to the pages. -/
theorem couplerInput : Obligations.CouplerInput := by
  intro s e n held i r u w both dark tested timer due
  have pages : UpToPages w ((s.qualified i).touchAgain .ioView) := qualified_pages s i
  have input : i = inputOfCoupler e := by cases e <;> rfl
  have ended : ((s.qualified i).touchAgain .ioView).endOf e = u := rfl
  have yields : ∀ {v : State}, UpToPages v (((s.qualified i).touchAgain .ioView).act i r.raw) →
      Yields (.qualifiedChange i) s v := fun act => yields_qualified held timer due act
  rw [input, act_coupler, ← input] at yields
  have part : ((s.qualified i).touchAgain .ioView).part = s.part := rfl
  have line : w.lines = s.lines := rfl
  have u_w : w.endOf e = u := rfl
  have touched : (s.qualified i).touchAgain .ioView = (w.touchAgain .ioView) := rfl
  rw [touched] at pages ended yields part
  generalize w.touchAgain .ioView = w' at pages ended yields part
  refine ⟨fun falls => ?_, fun rises => ?_⟩
  · rw [falls] at yields
    refine ⟨fun apart => yields ?_, fun probing => yields ?_, fun linked => ?_⟩
    · have stands : w'.uncouple e = w' := by
        unfold State.uncouple
        dsimp only
        rw [ended, apart]
      exact (congrArg (UpToPages w) stands).mpr pages
    · have run : w'.uncouple e = w'.unprobed e := uncouple_probing (ended ▸ probing)
      have blind : UpToPages (w.unprobed e) (w'.unprobed e) :=
        upToPages_blind (f := fun v => v.unprobed e) (fun _ _ _ => rfl) pages
      exact (congrArg (UpToPages (w.unprobed e)) run).mpr blind
    · intro v y
      have run : w'.uncouple e
          = ((w'.parted e).evalSummary.linkChange (.leave e (w'.endOf e).peer)).retake e.opp :=
        (uncouple_linked (ended ▸ linked)).trans (afterLeave_dark (x := w'.lines) _ rfl)
      have blind : UpToPages (w.parted e) (w'.parted e) :=
        upToPages_blind (f := fun v => v.parted e) (fun _ _ _ => rfl) pages
      have left : UpToPages (((w.parted e).evalSummary.linkChange (.leave e u.peer)).retake e.opp) (w'.uncouple e) := by
        rw [run, ended]
        exact upToPages_retake (upToPages_linkChange (upToPages_evalSummary blind) _) _
      have same : (w.parted e).evalSummary.linkChange (.leave e u.peer) = y := rfl
      rw [same] at left
      refine ⟨fun free => yields ?_, fun blocked => yields ?_⟩
      · have stands : y.retake e.opp = y := if_neg (by rw [free]; exact Bool.false_ne_true)
        exact stands ▸ left
      · have taken : y.retake e.opp = y.dispatchHead e.opp := if_pos blocked
        exact taken ▸ left
  · rw [rises] at yields
    refine ⟨fun coupled => yields ?_, fun apart halted => yields ?_, fun apart active => yields ?_⟩
    · have stands : w'.couple e = w' := if_neg (by rw [ended]; exact coupled)
      exact (congrArg (UpToPages w) stands).mpr pages
    · have run : w'.couple e = w'.coupledHalted e := couple_halted (ended ▸ apart) (part.trans halted)
      have blind : UpToPages (w.coupledHalted e) (w'.coupledHalted e) :=
        upToPages_blind (f := fun v => v.coupledHalted e) (fun _ _ _ => rfl) pages
      exact (congrArg (UpToPages (w.coupledHalted e)) run).mpr blind
    · have run : w'.couple e = (w'.coupledActive e).boundary e := couple_active (ended ▸ apart) (part.trans active)
      have blind : UpToPages (w.coupledActive e) (w'.coupledActive e) :=
        upToPages_blind (f := fun v => v.coupledActive e) (fun _ _ _ => rfl) pages
      exact (congrArg (UpToPages ((w.coupledActive e).boundary e)) run).mpr (upToPages_boundary blind e)

end Sys2Proof.Proofs
end
